-- ==== Sys2Proof/Word.lean ====
section
/-! DEFINITION. The word types of the Uluak A24 and their plainest arithmetic. -/

namespace Sys2Proof

/-- A 64-bit word: scalar registers, doublewords of control pages, E-words. -/
abbrev Word := BitVec 64

/-- A byte of memory, of a typed buffer or of a vector register. -/
abbrev Byte := BitVec 8

/-- A 6-bit register number or source/destination code of an instruction word. -/
abbrev Reg := BitVec 6

end Sys2Proof
end

