-- ==== Sys2Proof/Config.lean ====
section
/-! DEFINITION. What one module fixes, and the FREE VALUES: constants without a body, so that no proof
can see what they are (R7, R356 to R366). -/

namespace Sys2Proof.Config

/-- The module id of this module (R319, R404): 14 bits, fixed per module. -/
opaque moduleId : BitVec 14

/-- The stepping byte of the identity capability (R319). -/
opaque stepping : BitVec 8

/-- An undefined 64-bit value (R7), applied to the counter State.free. -/
opaque freeWord : Nat → BitVec 64

/-- An undefined byte (R7), applied to the counter State.free. -/
opaque freeByte : Nat → BitVec 8

/-- The undefined contents of a 16,384-bit register slice (R7, R21), applied to the counter State.free. -/
opaque freeReg : Nat → BitVec 16384

/-- AES-256-XTS under a key epoch of the 16-byte block at PA div 16 (R358): some permutation of its 2^128 values, as the
exchanges of two values each that make it up. -/
opaque xtsSwaps : Nat → Nat → List (BitVec 128 × BitVec 128)

/-- Two values exchanged. -/
def swapBlock (p : BitVec 128 × BitVec 128) (x : BitVec 128) : BitVec 128 := if x = p.1 then p.2 else if x = p.2 then p.1 else x

/-- A block's ciphertext under an epoch; epoch 0 is in the clear. -/
def encrypt (epoch block : Nat) (x : BitVec 128) : BitVec 128 :=
  if epoch = 0 then x else (xtsSwaps epoch block).foldl (fun x p => swapBlock p x) x

/-- A block's decryption under an epoch. -/
def decrypt (epoch block : Nat) (x : BitVec 128) : BitVec 128 :=
  if epoch = 0 then x else (xtsSwaps epoch block).foldr swapBlock x

/-- What a 16-byte block stored under one key epoch reads as under another (R358, R362): ciphertext, its decryption, or garbage.
Arguments: epoch stored, epoch of the reader, PA div 16, the block, and the byte of it. -/
def cipherView (stored reader block : Nat) (x : BitVec 128) (i : Nat) : BitVec 8 :=
  (decrypt reader block (encrypt stored block x)).extractLsb' (8 * i) 8

/-- How a bank's 256 sets are picked by PA div 128 (R269). -/
opaque l2Set : Nat → Nat

/-- Which of the dirty lines of a full set makes room for a line, by its PA div 128 (R269). -/
opaque l2Victim : Nat → Nat

/-- How the 512 sets of a cluster TLB are picked by page (R273). -/
opaque tlbSet : Nat → Nat

/-- The phase that boot firmware gives the HBM refresh schedule at the n-th boot, modulo 3,901 (R342). -/
opaque refreshPhase : Nat → Nat

/-- When after the n-th boot the first slot of a kind has its nominal time, modulo the kind's interval (R342). -/
opaque slotPhase : Nat → Nat → Nat

/-- The dies and hubs that firmware names in the slot of a kind at a start (R342): dies in the low 24 bits, hubs above. -/
opaque slotScope : Nat → Nat → BitVec 28

/-- The AES-GMAC tag of a 16 KiB tile (R360): key identity, PA[47:14], VERSION, the bytes as stored. -/
opaque gmac : Nat → Nat → Nat → List (BitVec 8) → BitVec 64

/-- The SHAKE256 digest, 64 bytes, of a byte string that is not empty (R356, R365). -/
opaque shakeOf : List (BitVec 8) → BitVec 512

/-- The SHAKE256 digest of the empty string, first byte lowest. -/
def shakeEmpty : BitVec 512 :=
  0xbec4b7b3ac2e294086b49a47491c82fcf692b5679d0105cb00f2c0d8ddc45dd72f76d56e64270cb5821bb862ea52cd3f24eb3e74eb3f3b23138da80b2bddb946

/-- The SHAKE256 digest, 64 bytes, of a byte string. -/
def shake256 (l : List (BitVec 8)) : BitVec 512 := if l.isEmpty then shakeEmpty else shakeOf l

/-- Whether the ML-DSA-65 signature (second argument) of a digest verifies under the fused vendor key (R363). -/
opaque vendorSigOk : BitVec 512 → List (BitVec 8) → Bool

/-- The ML-DSA-65 signature of the device attestation key over a digest, byte by byte (R365). -/
opaque attestSig : BitVec 512 → Nat → BitVec 8

/-- SHAKE256 digest of the boot firmware image (R365). -/
opaque bootDigest : BitVec 512

/-- Whether every firmware image passes the check of the n-th boot (R366). -/
opaque imagesOk : Nat → Bool

/-- The nonce drawn for the n-th challenge (R363). -/
opaque nonce : Nat → BitVec 64

/-- The byte of a sealed save's segment: ciphertext of its plaintext under a context key, the nonce and the segment's sequence
number (R361). Arguments: key, nonce, sequence number, payload, and the byte of the 4,096. -/
opaque sealedByte : Nat → BitVec 64 → Nat → List (BitVec 8) → Nat → BitVec 8

/-- The length in bytes of the attestation certificate chain (R363), and its bytes. -/
opaque certLen : BitVec 64
opaque certByte : Nat → BitVec 8

/-- PCI and package constants of R314, as PA bases of the control-page classes. -/
def ctlBase : Nat := 0xC00000000000
def hostBase : Nat := 0x800000000000
def hbmBytes : Nat := 0xB400000000

/-- The number of HID slots, cores and clusters (R1). -/
def hartSlots : Nat := 3072
def cores : Nat := 768
def clusters : Nat := 192

end Sys2Proof.Config
end

