-- ==== Sys2Proof/Syntax.lean ====
section
/-! DEFINITION. The instructions and events of spec/opcode_table.json: one constructor per row. -/

namespace Sys2Proof

/-- Rounding modes (R44): codes 0 to 4. -/
inductive RM where
  | rne | rtz | rdn | rup | rmm
deriving DecidableEq, Repr

/-- Size of a GM access (R63): 1, 2, 4 or 8 bytes. -/
inductive Size where
  | b | h | w | d
deriving DecidableEq, Repr

/-- Order field of a GM word (R63, R99): acquire on a load, release on a store. -/
inductive Order where
  | plain | sync | nt
deriving DecidableEq, Repr

/-- Scopes (R63, R171): codes 0 to 6. -/
inductive Scope where
  | hart | core | cluster | die | package | fabric | system
deriving DecidableEq, Repr

/-- Atomic operations of AMO and VAMO (R66, R103): codes 0 to 8. -/
inductive AmoOp where
  | add | and | or | xor | min | max | minu | maxu | swap
deriving DecidableEq, Repr

/-- Element width codes of SETVL (R25, R112): 4, 8, 16, 32 or 64 bits. -/
inductive VlWidth where
  | e4 | e8 | e16 | e32 | e64
deriving DecidableEq, Repr

/-- Addressing forms of VLD and VST (R72, R148). -/
inductive AddrForm where
  | unit | strided | indexed
deriving DecidableEq, Repr

/-- Address spaces of VLD and VST (R72). -/
inductive Space where
  | global | wb | ab | cb
deriving DecidableEq, Repr

/-- Target of a VLD (R72): a vector register or a load queue. -/
inductive LdTarget where
  | reg | lq0 | lq1
deriving DecidableEq, Repr

/-- The fields of an E-word other than OP, O and fn (R68). -/
structure EFields where
  c : Bool
  d : Reg
  a : Reg
  b : Reg
  m : Reg
  k : BitVec 4
  n : Bool
  x : Reg
  imm : BitVec 14
deriving DecidableEq, Repr

/-- Who makes an access to the package's control space: a hart (by HID), a request through the PCI
Express function of a VI, or firmware (R258, R303, R310). -/
inductive Agent where
  | hart (hid : Nat)
  | host (vi : Nat)
  | firmware
deriving DecidableEq, Repr

/-- An anneal slot of the calendar (R340): KIND bit 0 to 3, DIES 24 bits, HUBS 4 bits. -/
structure Slot where
  start : Nat
  dur : Nat
  kind : Nat
  dies : BitVec 24
  hubs : BitVec 4
deriving DecidableEq, Repr

/-- Header of a received flit (R382). ok: tag and header check pass (R383, R385). -/
structure FlitHdr where
  dcore : Nat
  src : Nat
  dst : Nat
  seq : Nat
  ks : Bool
  ok : Bool
deriving DecidableEq, Repr

/-- What an ack acknowledges (R382, R385): the flits of its hop up to a SEQ, or, from an engine, the segment that arrived under that
SEQ (R388, R399). -/
structure AckOf where
  seq : Nat
  ofSeg : Bool
deriving DecidableEq, Repr

/-- What a segment does on its way (R398, R401): a partial reduction, a finished value, or an abort. -/
inductive Phase where
  | reduce | spread | abort
deriving DecidableEq, Repr

/-- A segment of a collective (R398, R400): tag, collective number, chunk, element offset within the
chunk, element bit patterns, flag bits so far, marked (sent over an alternate link), and the kind, COUNT and type that its sender
goes by (R396). dcore is the core of the rank it is addressed to; back: it travels toward the previous rank (aborts only); passed:
an abort that its engine has passed on already and keeps for a collective of a later number (log 23). -/
structure Segment where
  dcore : Nat
  tag : Word
  num : Word
  chunk : Nat
  off : Nat
  phase : Phase
  vals : List Nat
  flags : BitVec 8
  marked : Bool
  back : Bool
  kind : Nat
  count : Nat
  type : BitVec 4
  passed : Bool
deriving DecidableEq, Repr

/-- Control flits (R350, R382): training, heartbeat, and the ingot messages. -/
inductive CtlMsg where
  | trained
  | heartbeat
  | offer (n : Nat)
  | ask (n : Nat)
  | recall (n : Nat)
  | giveBack (n : Nat)
deriving DecidableEq, Repr

/-- Watched units of R372. -/
inductive Watched where
  | leaf (cluster : Nat)
  | scheduler
  | both
deriving DecidableEq, Repr

/-- ECC events of R272: single-bit, double-bit in a clean line, double-bit in a dirty line (with the
poisoned range in bytes), and a double-bit tag error. -/
inductive EccKind where
  | single
  | doubleClean
  | doubleDirty
  | tag
deriving DecidableEq, Repr

/-- Cluster-local faults that the leaf controller records (R277, R286): an assay disagreement corrected
for the working lane or for the assay lane, uncorrectable in an element group of a row, the array's check row in a
sub-array, a translation structure. -/
inductive LocalFault where
  | assayCorrected (core lc lane pipe : Nat)
  | assayLaneWrong (core lc : Nat)
  | assayUncorrectable (core lc lane pipe row group : Nat)
  | arrayCorrected (core sub : Nat)
  | arrayUncorrectable (core sub : Nat)
  | translationStructure
deriving DecidableEq, Repr

/-- What happens to cached translations without cause (R304): the n-th is dropped, or a walk for a hart reads the
entries that are stored now. -/
inductive XlatChange where
  | drop (n : Nat)
  | walk (hid : Nat) (va : Word)
deriving DecidableEq, Repr

/-- The instructions of the opcode table: 83 G-words, 80 E-words, 99 events. -/
inductive Instr where
  -- G-words: ALU-R (R87)
  | add (d a b : Reg) | sub (d a b : Reg) | and (d a b : Reg) | or (d a b : Reg) | xor (d a b : Reg)
  | shl (d a b : Reg) | shr (d a b : Reg) | sar (d a b : Reg)
  | mul (d a b : Reg) | mulh (d a b : Reg) | mulhu (d a b : Reg)
  | div (d a b : Reg) | divu (d a b : Reg) | rem (d a b : Reg) | remu (d a b : Reg)
  | min (d a b : Reg) | max (d a b : Reg) | minu (d a b : Reg) | maxu (d a b : Reg)
  | slt (d a b : Reg) | sltu (d a b : Reg) | seq (d a b : Reg)
  | clz (d a : Reg) | popc (d a : Reg)
  -- immediates (R88 to R91)
  | addi (d a : Reg) (i : BitVec 14) | andi (d a : Reg) (i : BitVec 14) | ori (d a : Reg) (i : BitVec 14)
  | xori (d a : Reg) (i : BitVec 14) | slti (d a : Reg) (i : BitVec 14) | sltiu (d a : Reg) (i : BitVec 14)
  | shli (d a n : Reg) | shri (d a n : Reg) | sari (d a n : Reg)
  | lui (d : Reg) (i : BitVec 20) | lil (d : Reg) (lit : Word) | auipc (d : Reg) (i : BitVec 20)
  | ins (d a p w : Reg) | ext (d a p w : Reg)
  -- scalar floating point (R93, R94)
  | fadd (d a b : Reg) (r : RM) | fsub (d a b : Reg) (r : RM) | fmul (d a b : Reg) (r : RM)
  | fdiv (d a b : Reg) (r : RM) | fmin (d a b : Reg) (r : RM) | fmax (d a b : Reg) (r : RM)
  | fsqrt (d a : Reg) (r : RM) | fcvtW (d a : Reg) (r : RM) | fcvtS (d a : Reg) (r : RM)
  | feq (d a b : Reg) | flt (d a b : Reg) | fle (d a b : Reg) | fma (d a b c : Reg)
  -- branches and jumps (R95, R96)
  | beq (a b : Reg) (o : BitVec 14) | bne (a b : Reg) (o : BitVec 14) | blt (a b : Reg) (o : BitVec 14)
  | bge (a b : Reg) (o : BitVec 14) | bltu (a b : Reg) (o : BitVec 14) | bgeu (a b : Reg) (o : BitVec 14)
  | jal (d : Reg) (i : BitVec 20) | jalr (d a : Reg) (i : BitVec 14)
  -- memory (R98 to R109)
  | ld (d a : Reg) (z : Size) (o : Order) (x : Bool) (f : BitVec 9)
  | st (d a : Reg) (z : Size) (o : Order) (f : BitVec 9)
  | amo (d a b : Reg) (p : AmoOp) (s : Scope) (r : Bool)
  | cas (d a b : Reg) (s : Scope) (r : Bool)
  | fence (s : Scope) (k : BitVec 5) | tfence | wait (d a b c : Reg)
  -- special registers, vector length, shape (R111 to R114)
  | gets (d : Reg) (i : BitVec 14) | sets (a : Reg) (i : BitVec 14)
  | setvl (d a b : Reg) (w : VlWidth) | setrows (d a : Reg) (i : BitVec 14) | vshape (s : Bool)
  -- emit family and the queues (R197 to R204)
  | emitl (lit : Word) | emitr (a : Reg) | emitx (c a b : Reg) (sel : BitVec 8) (lit : Word) | emitq (d a : Reg)
  | waitv | rqpop (d : Reg)
  -- harts, farms, barriers, calendar, traps (R213 to R215, R279 to R283, R115 to R118)
  | fork (d : Reg) | join (d a : Reg) | farm (a b : Reg) | nexts (d a : Reg) | bar (s : Scope)
  | slotq (d : Reg) (k : BitVec 4) | trap (c : BitVec 20) | halt | yield
  -- E-words: VARITH (R125)
  | vadd (w : EFields) | vsub (w : EFields) | vmul (w : EFields) | vmulh (w : EFields) | vdiv (w : EFields)
  | vrem (w : EFields) | vmin (w : EFields) | vmax (w : EFields) | vabs (w : EFields) | vneg (w : EFields)
  | vand (w : EFields) | vor (w : EFields) | vxor (w : EFields) | vnot (w : EFields) | vshl (w : EFields)
  | vshr (w : EFields) | vsqrt (w : EFields) | vexp2 (w : EFields) | vlog2 (w : EFields) | vrsq (w : EFields)
  | vrcp (w : EFields)
  -- VMAC, VCMP, VSEL, VCVT (R129 to R135)
  | vmac (w : EFields) | vnmac (w : EFields)
  | vcmpEq (w : EFields) | vcmpNe (w : EFields) | vcmpLt (w : EFields) | vcmpLe (w : EFields)
  | vcmpGt (w : EFields) | vcmpGe (w : EFields) | vcmpUnord (w : EFields)
  | vsel (w : EFields) | vcvtCvt (w : EFields) | vcvtRes (w : EFields) | vcvtCrt (w : EFields)
  -- VPERM (R136 to R141)
  | slideup (w : EFields) | slidedn (w : EFields) | slide1up (w : EFields) | slide1dn (w : EFields)
  | gatherv (w : EFields) | compress (w : EFields) | bcast (w : EFields) | index (w : EFields)
  | vmv (w : EFields) | extract (w : EFields)
  -- VRED (R142 to R144)
  | vredSum (w : EFields) | vredSumu (w : EFields) | vredMax (w : EFields) | vredMin (w : EFields)
  | vredAnd (w : EFields) | vredOr (w : EFields) | vredXor (w : EFields)
  -- MASK, VTYPE (R145, R146)
  | mand (w : EFields) | mor (w : EFields) | mxor (w : EFields) | mandn (w : EFields) | mnot (w : EFields)
  | mpopc (w : EFields) | mfirst (w : EFields) | mset (w : EFields) | vtype (w : EFields)
  -- vector memory (R147 to R162)
  | vld (w : EFields) (f : AddrForm) (s : Space) (t : LdTarget)
  | vst (w : EFields) (ordered : Bool) (f : AddrForm) (s : Space)
  | vamo (w : EFields) (p : AmoOp) (s : Scope) | vfence (w : EFields)
  -- matrix, copy, tile and collective words (R220 to R241, R393)
  | mopa (w : EFields) | mopm (w : EFields) | mzero (w : EFields) | mcvt (w : EFields)
  | mrowR (w : EFields) | mrowW (w : EFields) | mbf (w : EFields) | cpy (w : EFields)
  | tready (w : EFields) | tempty (w : EFields) | twait (w : EFields) | tquery (w : EFields)
  | collReduceScatter (w : EFields) | collAllGather (w : EFields) | collAllReduce (w : EFields)
  | collKvRotation (w : EFields)
  -- events of the core (R206 to R344)
  | convoyEnter (hid : Nat) | elementProgressTimeout (hid : Nat) (bank : BitVec 4) (hbm : Bool)
  | laneClusterGate (core lc : Nat) | laneClusterWake (core lc : Nat)
  | laneLoanStart (core lc borrower : Nat)
  | tileClaim (hid : Nat) | cpyRowComplete (hid : Nat) | nosplitJudge (hid : Nat)
  -- events of the context page (R249 to R263, R413)
  | ctrlRun (ag : Agent) (hid : Nat) | ctrlStopDrain (ag : Agent) (hid : Nat)
  | ctrlStopFreeze (ag : Agent) (hid : Nat) | ctrlIdle (ag : Agent) (hid : Nat)
  | stopDrainComplete (hid : Nat) | stopFreezeComplete (hid : Nat) | stopDrainCountExpiry (hid : Nat)
  | queueImageWrite (ag : Agent) (hid n off : Nat) (v : Word) | shapeWrite (ag : Agent) (hid : Nat) (v : Word)
  | save (hid : Nat) | saveAll (hid : Nat) | restoreScalar (hid : Nat) | restoreVector (hid : Nat)
  | restoreAll (hid : Nat) | savecmdComplete (hid : Nat)
  | reclaimRequest (ag : Agent) (hid : Nat) (v : Word)
  | frameWindowWrite (ag : Agent) (hid off : Nat) (v : Word)
  | controlRegisterWrite (ag : Agent) (pa : Nat) (v : Word)
  -- events of VIs and queues (R308 to R335)
  | tshoot (ag : Agent) (vi : Nat) | rangeRegisterWrite (ag : Agent) (vi n dw : Nat) (v : Word)
  | queueCtlWrite (ag : Agent) (vi q : Nat) (v : Word) | tailWrite (ag : Agent) (vi q : Nat) (v : Word)
  | templateWrite (ag : Agent) (vi q w : Nat) (limit : Bool) (v : Word)
  | priocapWrite (ag : Agent) (vi q : Nat) (v : Word)
  | slotScan (vi q : Nat) | scanReread (vi q : Nat) | packetDispatch (start : Nat)
  | dependenceCheck (vi q slot : Nat) | stateWordRecheck (vi q slot : Nat)
  | launchCommand (team cluster : Nat) | packetComplete (team : Nat)
  | leafReport (cluster : Nat) | localFaultRecord (cluster : Nat) (f : LocalFault)
  | heartbeatTimeout (w : Watched) | crucibleHang (core : Nat)
  -- waiting and memory events (R283, R109, R110, R172)
  | barrierComplete (hid : Nat) | waitWake (hid : Nat) | waitTimeout (hid : Nat) | writeCombineDrain (hid : Nat)
  -- calendar and power (R341 to R350)
  | annealSlotStart | annealSlotEnd (late : Nat) | calendarPublish (add : List Slot) | tokenRefill
  | ingotTrade (link : Nat) (m : CtlMsg) | clkdieSelect (ag : Agent) (v : Word)
  -- security (R353 to R367)
  | create (f : Nat) | measure (f : Nat) | finalize (f : Nat) | destroy (f : Nat)
  | assign (f : Nat) | release (f : Nat) | generate (k : Nat) | revoke (k : Nat)
  | debugUnlock | lifeCycle | attest
  -- reset ladder (R295, R370, R371)
  | rungQueue (target : Nat) | rungEngine (target : Nat) | rungPartition (vi : Nat) | rungDie (die : Nat)
  | rungFunctionLevel (fn : Nat) | rungWholeDevice | perst | functionLevelReset (fn : Nat)
  -- reliability and host (R182, R272, R287, R289, R317)
  | hallmarkFlush | l2Error (cluster pa : Nat) (k : EccKind) | hbmError (die pa : Nat) (double : Bool)
  | pageMigration (page die frame : Nat) | hostMemoryWrite (vi via : Nat) (bytes : List Byte)
  -- fabric (R382 to R401)
  | flitData (link : Nat) (h : FlitHdr) (seg : Segment) | flitAck (link : Nat) (h : FlitHdr) (ack : AckOf)
  | flitNak (link : Nat) (h : FlitHdr) (seq : Nat) | flitKeyMarker (link : Nat) (h : FlitHdr) (slot : Bool)
  | flitControl (link : Nat) (h : FlitHdr) (m : CtlMsg) | flitIdle (link : Nat) (h : FlitHdr)
  | keyRetireCount (link : Nat) | linkSilenceTimeout (link : Nat)
  | abortSegment (hub : Nat) (seg : Segment) | groupEntryWrite (ag : Agent) (hub g dw : Nat) (v : Word)
  | lossOfLock (link : Nat)
  -- the rest (R110, R211, R287, R304, R336, R347, R349, R372)
  | translationDropped (x : XlatChange) | hostWindowWaitRead (hid : Nat) | loanDebit (core lc : Nat)
  | rackCoordinatorGrant (n : Nat) | throttling (die clk : Nat)
  | leafControllerRestart (cluster : Nat) (ok : Bool) | commandLinkAcknowledge (cluster : Nat) (down : Bool)
  | lossOfPower
deriving DecidableEq, Repr

end Sys2Proof
end

