-- ==== Sys2Proof/WellFormed.lean ====
section
/-! DEFINITION. Well-formed instructions: the encoding rules that a word alone decides (R64, R66, R69,
R70, R72, R73, the fixed part of R74), and the ranges of the units that an event names. -/

namespace Sys2Proof

/-- Number of selected fields of an EMITX (R78). -/
def selCount (sel : BitVec 8) : Nat :=
  (List.range 8).foldl (fun n i => if sel.getLsbD i then n + 1 else n) 0

/-- A source code of R69: v0 to v31, LQ0, LQ1, broadcast of x, broadcast of imm14. -/
def isSrc (r : Reg) : Bool := r.toNat ≤ 35
/-- A vector register code, 0 to 31. -/
def isVec (r : Reg) : Bool := r.toNat ≤ 31
/-- A destination code of m1 to m15 (R70; code 32 is m0 and is refused by R17). -/
def isMaskDst (r : Reg) : Bool := 33 ≤ r.toNat && r.toNat ≤ 47
/-- The return-queue destination, code 48. -/
def isRq (r : Reg) : Bool := r == 48#6
/-- A mask number in a 6-bit field, or a CB tile number: 0 to 15 (R73). -/
def is15 (r : Reg) : Bool := r.toNat ≤ 15

/-- k and N both zero (R73, k marked 0). -/
def noGuard (w : EFields) : Bool := w.k == 0 && !w.n
/-- The word names code 35 in a or b, so imm14 is a broadcast value (R69). -/
def usesImm (w : EFields) : Bool := w.a == 35#6 || w.b == 35#6
/-- The word names code 34 in a or b, so it uses captured register x. -/
def usesX (w : EFields) : Bool := w.a == 34#6 || w.b == 34#6

def wfBin (w : EFields) : Bool := isVec w.d && isSrc w.a && isSrc w.b
def wfUn (w : EFields) : Bool := isVec w.d && isSrc w.a && w.b == 0
def wfCmp (w : EFields) : Bool := isMaskDst w.d && isSrc w.a && isSrc w.b
def wfCvt (w : EFields) : Bool := wfUn w && w.imm == 0
def wfSlide (w : EFields) (regs : Nat) : Bool :=
  isVec w.d && isSrc w.a && (w.b == 34#6 || w.b == 35#6) && (usesImm w || w.imm == 0) && w.x.toNat + regs ≤ 63
def wfRed (w : EFields) : Bool := isRq w.d && isSrc w.a && w.b == 0 && w.imm == 0
/-- SUMU takes no start value: x is unused but for source code 34 (R144, R73). -/
def wfSumu (w : EFields) : Bool := wfRed w && (usesX w || w.x == 0)
def wfMask (w : EFields) : Bool := isMaskDst w.d && is15 w.a && is15 w.b && w.m == 0 && w.imm == 0
def wfMaskRq (w : EFields) : Bool := isRq w.d && is15 w.a && w.b == 0 && w.m == 0 && w.imm == 0
/-- Index field of the vector memory words: a vector register for indexed, else 0. -/
def wfIndex (w : EFields) (f : AddrForm) : Bool := if f = .indexed then isVec w.b else w.b == 0
/-- Strided access uses x + 1 (R148). -/
def wfStride (w : EFields) (f : AddrForm) : Bool := f != .strided || w.x.toNat ≤ 62
def wfTileFill (w : EFields) : Bool := is15 w.d && w.a == 0 && w.b == 0 && w.m == 0 && noGuard w && w.imm == 0
def wfTileWord (w : EFields) (d : Reg) : Bool :=
  w.d == d && w.a == 0 && w.b == 0 && w.m == 0 && w.x == 0 && noGuard w && w.imm.toNat ≤ 111
def wfColl (w : EFields) : Bool :=
  w.d == 0 && w.a == 0 && w.b == 0 && noGuard w && w.imm.toNat < 8 && w.x.toNat ≤ 60

/-- The checks of a word alone. A G-word that fails is an illegal G-word (R64, class 1), an E-word that
fails is illegal-E (R74, class 4), an event that fails names a unit that does not exist. -/
def Instr.wf : Instr → Bool
  | .ins _ _ p w | .ext _ _ p w => p.toNat + w.toNat ≤ 63
  | .ld _ _ z _ x _ => !x || z != .d
  | .gets _ i => i.toNat < 13
  | .sets _ i => i.toNat < 13 && i != 0 && i != 7 && i != 8 && i != 9 && i != 10
  | .emitx c a b sel _ =>
    selCount sel ≤ 3 && (0 < selCount sel || a == 0) && (1 < selCount sel || b == 0) && (2 < selCount sel || c == 0)
  | .nexts d _ => 1 ≤ d.toNat && d.toNat ≤ 62
  | .slotq d k => 1 ≤ d.toNat && d.toNat ≤ 62 && k != 0
  | .add .. | .sub .. | .and .. | .or .. | .xor .. | .shl .. | .shr .. | .sar .. | .mul .. | .mulh .. | .mulhu ..
  | .div .. | .divu .. | .rem .. | .remu .. | .min .. | .max .. | .minu .. | .maxu .. | .slt .. | .sltu .. | .seq ..
  | .clz .. | .popc .. | .addi .. | .andi .. | .ori .. | .xori .. | .slti .. | .sltiu .. | .shli .. | .shri ..
  | .sari .. | .lui .. | .lil .. | .auipc .. | .fadd .. | .fsub .. | .fmul .. | .fdiv .. | .fmin .. | .fmax ..
  | .fsqrt .. | .fcvtW .. | .fcvtS .. | .feq .. | .flt .. | .fle .. | .fma .. | .beq .. | .bne .. | .blt .. | .bge ..
  | .bltu .. | .bgeu .. | .jal .. | .jalr .. | .st .. | .amo .. | .cas .. | .fence .. | .tfence | .wait ..
  | .setvl .. | .setrows .. | .vshape .. | .emitl .. | .emitr .. | .emitq .. | .waitv | .rqpop .. | .fork ..
  | .join .. | .farm .. | .bar .. | .trap .. | .halt | .yield => true
  | .vadd w | .vsub w | .vmul w | .vmulh w | .vdiv w | .vrem w | .vmin w | .vmax w | .vand w | .vor w | .vxor w
  | .vshl w | .vshr w | .vmac w | .vnmac w | .vsel w => wfBin w
  | .vabs w | .vneg w | .vnot w | .vsqrt w | .vexp2 w | .vlog2 w | .vrsq w | .vrcp w => wfUn w
  | .vcmpEq w | .vcmpNe w | .vcmpLt w | .vcmpLe w | .vcmpGt w | .vcmpGe w | .vcmpUnord w => wfCmp w
  | .vcvtCvt w | .vcvtRes w | .vcvtCrt w => wfCvt w
  | .slideup w | .slidedn w => wfSlide w 1
  | .slide1up w | .slide1dn w => wfSlide w 0
  | .gatherv w => isVec w.d && isSrc w.a && w.b.toNat ≤ 33 && w.imm == 0
  | .compress w => isVec w.d && isSrc w.a && w.b == 0 && w.imm == 0
  | .bcast w => isVec w.d && isSrc w.a && w.b == 0
  | .index w => isVec w.d && w.a == 0 && w.b == 0
  | .vmv w => wfUn w && (usesImm w || w.imm == 0)
  | .extract w => isRq w.d && isSrc w.a && w.b == 0
  | .vredSum w | .vredMax w | .vredMin w | .vredAnd w | .vredOr w | .vredXor w => wfRed w
  | .vredSumu w => wfSumu w
  | .mand w | .mor w | .mxor w | .mandn w => wfMask w
  | .mnot w => wfMask w && w.b == 0
  | .mpopc w | .mfirst w => wfMaskRq w
  | .mset w => isMaskDst w.d && w.a == 0 && w.b == 0 && w.m == 0 && w.imm.toNat ≤ 1
  | .vtype w => isVec w.d && w.a == 0 && w.b == 0 && noGuard w && w.imm == 0
  | .vld w f _ t =>
    (if t = .reg then isVec w.d else w.d == 0) && w.a == 0 && wfIndex w f && wfStride w f && w.imm == 0
  | .vst w _ f s => w.d == 0 && w.a.toNat ≤ 33 && wfIndex w f && wfStride w f && w.imm == 0 && s != .wb
  | .vamo w _ _ => isVec w.d && isVec w.a && isVec w.b && w.imm == 0
  | .vfence w => w.d == 0 && w.a == 0 && w.b == 0 && w.m == 0 && noGuard w && w.imm == 0
  | .mopa w => is15 w.d && isVec w.a && isVec w.b && noGuard w && w.imm == 0 && w.x == 0
  | .mopm w => is15 w.d && w.a == 0 && w.b == 0 && noGuard w && w.imm != 0 && w.x.toNat ≤ 60
  | .mzero w | .mbf w => wfTileFill w
  | .mcvt w => is15 w.d && isVec w.a && isVec w.b && noGuard w && w.imm.toNat < 32
  | .mrowR w => isVec w.d && w.a == 0 && w.b == 0 && noGuard w && w.imm.toNat < 1024
  | .mrowW w => is15 w.d && isVec w.a && w.b == 0 && noGuard w && w.imm.toNat < 64
  | .cpy w => w.d == 0 && w.a == 0 && w.b == 0 && w.m == 0 && noGuard w && w.imm.toNat < 64 &&
      (w.imm >>> 2).toNat % 8 != 7 && w.x.toNat ≤ 60
  | .tready w | .tempty w | .twait w => wfTileWord w 0
  | .tquery w => wfTileWord w 48#6
  | .collReduceScatter w | .collAllGather w | .collAllReduce w | .collKvRotation w => wfColl w
  | .convoyEnter h | .elementProgressTimeout h _ _ | .tileClaim h | .cpyRowComplete h | .nosplitJudge h
  | .ctrlRun _ h | .ctrlStopDrain _ h | .ctrlStopFreeze _ h | .ctrlIdle _ h | .stopDrainComplete h
  | .stopFreezeComplete h | .stopDrainCountExpiry h | .shapeWrite _ h _ | .save h | .saveAll h | .restoreScalar h
  | .restoreVector h | .restoreAll h | .savecmdComplete h | .reclaimRequest _ h _
  | .barrierComplete h | .waitWake h | .waitTimeout h | .writeCombineDrain h | .hostWindowWaitRead h =>
      decide (h < Config.hartSlots)
  | .queueImageWrite _ h n off _ => decide (h < Config.hartSlots ∧ n < 64 ∧ off < 128 ∧ off % 8 = 0)
  | .frameWindowWrite _ h off _ => decide (h < Config.hartSlots ∧ 0x21000 ≤ off ∧ off ≤ 0x21080 ∧ off % 8 = 0)
  | .laneClusterGate c l | .laneClusterWake c l | .loanDebit c l => decide (c < Config.cores ∧ l < 4)
  | .laneLoanStart c l b => decide (c < Config.cores ∧ l < 4 ∧ b < 4)
  | .controlRegisterWrite _ pa _ => decide (Config.ctlBase ≤ pa ∧ pa < 2 ^ 48 ∧ pa % 8 = 0)
  | .tshoot _ v => decide (v < 64)
  | .rangeRegisterWrite _ v n dw _ => decide (v < 64 ∧ n < 16 ∧ dw < 4)
  | .queueCtlWrite _ v q _ | .tailWrite _ v q _ | .priocapWrite _ v q _ => decide (v < 64 ∧ q < 64)
  | .templateWrite _ v q w _ _ => decide (v < 64 ∧ q < 64 ∧ w < 8)
  | .slotScan v q | .scanReread v q | .dependenceCheck v q _ | .stateWordRecheck v q _ => decide (v < 64 ∧ q < 64)
  | .packetDispatch s => decide (s < Config.hartSlots)
  | .launchCommand t c => decide (t < 4096 ∧ c < Config.clusters)
  | .packetComplete t => decide (t < 4096)
  | .leafReport c | .localFaultRecord c _ | .leafControllerRestart c _ | .commandLinkAcknowledge c _ =>
      decide (c < Config.clusters)
  | .crucibleHang c => decide (c < Config.cores)
  | .create f | .measure f | .finalize f | .destroy f | .assign f | .release f => decide (1 ≤ f ∧ f < 256)
  | .generate k | .revoke k => decide (1 ≤ k ∧ k < 256)
  | .rungPartition v | .rungFunctionLevel v | .functionLevelReset v => decide (v < 64)
  | .rungDie d | .throttling d _ => decide (d < 24)
  | .l2Error c pa _ => decide (c < Config.clusters ∧ pa < Config.hbmBytes)
  | .hbmError d pa _ => decide (d < 24 ∧ pa < Config.hbmBytes)
  | .pageMigration p d f => decide (p < 1474560 ∧ d < 24 ∧ f < 61440)
  | .hostMemoryWrite v via _ => decide (v < 64 ∧ via < 2 ^ 48)
  | .flitData l .. | .flitAck l .. | .flitNak l .. | .flitKeyMarker l .. | .flitControl l .. | .flitIdle l ..
  | .keyRetireCount l | .linkSilenceTimeout l | .lossOfLock l | .ingotTrade l _ => decide (l < 36)
  | .abortSegment h _ => decide (h < 4)
  | .groupEntryWrite _ h g dw _ => decide (h < 4 ∧ g < 256 ∧ dw < 6)
  | .heartbeatTimeout (.leaf c) => decide (c < Config.clusters)
  | .rungQueue t => decide (t < 4096)
  | .rungEngine t => decide (t < Config.cores ∨ (0x800 ≤ t ∧ t < 0x804))
  | .heartbeatTimeout .scheduler | .heartbeatTimeout .both | .annealSlotStart | .annealSlotEnd _
  | .calendarPublish _ | .tokenRefill | .clkdieSelect .. | .debugUnlock | .lifeCycle | .attest | .rungWholeDevice
  | .perst | .hallmarkFlush | .translationDropped _ | .rackCoordinatorGrant _ | .lossOfPower => true

end Sys2Proof
end

