-- ==== Sys2Proof/Decode.lean ====
section
/-! DEFINITION. Decoding, total on any bytes and rejecting by name (R63 to R67 for G-words, R68 to R74 for
E-words), and after it the encoder, written from the same tables. -/

namespace Sys2Proof

/-- Why a word does not decode. For a G-word each is an illegal G-word (R64), for an E-word illegal-E (R74). -/
inductive DecodeError where
  | tooShort          -- fewer bytes than the instruction has
  | unassignedMajor   -- R66: majors 0x00 and 0x33 to 0x3F; R72: an unlisted OP
  | unlistedCode      -- R64, R72: an fn, op, scope, order, size or code value that is not listed
  | nonzeroField      -- R64: a field marked zero is nonzero; R68: O set outside VST
  | illFormed         -- R64, R73, R74: the word's fields break Instr.wf
deriving DecidableEq, Repr

/-- Bits [hi:lo] of a 32-bit word, as a field of n bits starting at lo. -/
def fld (w : BitVec 32) (lo n : Nat) : BitVec n := w.extractLsb' lo n

/-- Rounding-mode codes (R44). -/
def RM.ofCode : Nat → Option RM
  | 0 => some .rne | 1 => some .rtz | 2 => some .rdn | 3 => some .rup | 4 => some .rmm | _ => none
def RM.code : RM → BitVec 3
  | .rne => 0 | .rtz => 1 | .rdn => 2 | .rup => 3 | .rmm => 4

/-- Scope codes (R63). -/
def Scope.ofCode : Nat → Option Scope
  | 0 => some .hart | 1 => some .core | 2 => some .cluster | 3 => some .die | 4 => some .package
  | 5 => some .fabric | 6 => some .system | _ => none
def Scope.code : Scope → BitVec 3
  | .hart => 0 | .core => 1 | .cluster => 2 | .die => 3 | .package => 4 | .fabric => 5 | .system => 6

/-- AMO op codes (R66). -/
def AmoOp.ofCode : Nat → Option AmoOp
  | 0 => some .add | 1 => some .and | 2 => some .or | 3 => some .xor | 4 => some .min | 5 => some .max
  | 6 => some .minu | 7 => some .maxu | 8 => some .swap | _ => none
def AmoOp.code : AmoOp → BitVec 4
  | .add => 0 | .and => 1 | .or => 2 | .xor => 3 | .min => 4 | .max => 5 | .minu => 6 | .maxu => 7 | .swap => 8

/-- GM size codes (R63). -/
def Size.ofCode (c : BitVec 2) : Size :=
  if c = 0 then .b else if c = 1 then .h else if c = 2 then .w else .d
def Size.code : Size → BitVec 2
  | .b => 0 | .h => 1 | .w => 2 | .d => 3

/-- GM order codes (R63): 11 is illegal. -/
def Order.ofCode : Nat → Option Order
  | 0 => some .plain | 1 => some .sync | 2 => some .nt | _ => none
def Order.code : Order → BitVec 2
  | .plain => 0 | .sync => 1 | .nt => 2

/-- SETVL width codes (R112). -/
def VlWidth.ofCode : Nat → Option VlWidth
  | 0 => some .e4 | 1 => some .e8 | 2 => some .e16 | 3 => some .e32 | 4 => some .e64 | _ => none
def VlWidth.code : VlWidth → BitVec 3
  | .e4 => 0 | .e8 => 1 | .e16 => 2 | .e32 => 3 | .e64 => 4

/-- VLD and VST addressing and space codes (R72). -/
def AddrForm.ofCode : Nat → Option AddrForm
  | 0 => some .unit | 1 => some .strided | 2 => some .indexed | _ => none
def AddrForm.code : AddrForm → BitVec 2
  | .unit => 0 | .strided => 1 | .indexed => 2
def Space.ofCode (c : BitVec 2) : Space :=
  if c = 0 then .global else if c = 1 then .wb else if c = 2 then .ab else .cb
def Space.code : Space → BitVec 2
  | .global => 0 | .wb => 1 | .ab => 2 | .cb => 3
def LdTarget.ofCode : Nat → Option LdTarget
  | 0 => some .reg | 1 => some .lq0 | 2 => some .lq1 | _ => none
def LdTarget.code : LdTarget → BitVec 2
  | .reg => 0 | .lq0 => 1 | .lq1 => 2

abbrev Decoded := Except DecodeError Instr

/-- A code that must be listed. -/
def listed {α : Type} : Option α → Except DecodeError α
  | some x => .ok x
  | none => .error .unlistedCode

/-- The rest of a decoding, under a field that must be zero. -/
def zeroThen (b : Bool) (r : Decoded) : Decoded := if b then r else .error .nonzeroField

/-- ALU-R (R67). -/
def decodeAlu (w : BitVec 32) : Decoded :=
  let d : Reg := fld w 20 6; let a : Reg := fld w 14 6; let b : Reg := fld w 8 6
  match (fld w 0 8).toNat with
  | 0 => .ok (.add d a b)
  | 1 => .ok (.sub d a b)
  | 2 => .ok (.and d a b)
  | 3 => .ok (.or d a b)
  | 4 => .ok (.xor d a b)
  | 5 => .ok (.shl d a b)
  | 6 => .ok (.shr d a b)
  | 7 => .ok (.sar d a b)
  | 8 => .ok (.mul d a b)
  | 9 => .ok (.mulh d a b)
  | 10 => .ok (.mulhu d a b)
  | 11 => .ok (.div d a b)
  | 12 => .ok (.divu d a b)
  | 13 => .ok (.rem d a b)
  | 14 => .ok (.remu d a b)
  | 15 => .ok (.min d a b)
  | 16 => .ok (.max d a b)
  | 17 => .ok (.minu d a b)
  | 18 => .ok (.maxu d a b)
  | 19 => .ok (.slt d a b)
  | 20 => .ok (.sltu d a b)
  | 21 => .ok (.seq d a b)
  | 22 => zeroThen (b == 0) (.ok (.clz d a))
  | 23 => zeroThen (b == 0) (.ok (.popc d a))
  | _ => .error .unlistedCode

/-- FP-R (R67): fn[4:0] the operation, fn[7:5] the rounding mode. -/
def decodeFp (w : BitVec 32) : Decoded :=
  let d : Reg := fld w 20 6; let a : Reg := fld w 14 6; let b : Reg := fld w 8 6
  let rc := (fld w 5 3).toNat
  match (fld w 0 5).toNat with
  | 0 => (listed (RM.ofCode rc)).map (.fadd d a b)
  | 1 => (listed (RM.ofCode rc)).map (.fsub d a b)
  | 2 => (listed (RM.ofCode rc)).map (.fmul d a b)
  | 3 => (listed (RM.ofCode rc)).map (.fdiv d a b)
  | 4 => (listed (RM.ofCode rc)).map (.fmin d a b)
  | 5 => (listed (RM.ofCode rc)).map (.fmax d a b)
  | 6 => zeroThen (b == 0) ((listed (RM.ofCode rc)).map (.fsqrt d a))
  | 7 => zeroThen (b == 0) ((listed (RM.ofCode rc)).map (.fcvtW d a))
  | 8 => zeroThen (b == 0) ((listed (RM.ofCode rc)).map (.fcvtS d a))
  | 9 => zeroThen (rc == 0) (.ok (.feq d a b))
  | 10 => zeroThen (rc == 0) (.ok (.flt d a b))
  | 11 => zeroThen (rc == 0) (.ok (.fle d a b))
  | _ => .error .unlistedCode

/-- The fields of a G-word by its major opcode (R66); lit is the 64-bit literal that follows it, which
only LIL, EMITL and EMITX have (R12, R65). -/
def decodeFields (w : BitVec 32) (lit : Word) : Decoded :=
  let d : Reg := fld w 20 6; let a : Reg := fld w 14 6; let b : Reg := fld w 8 6
  let c : Reg := fld w 2 6; let i14 : BitVec 14 := fld w 0 14; let i20 : BitVec 20 := fld w 0 20
  match (fld w 26 6).toNat with
  | 0x01 => decodeAlu w
  | 0x02 => .ok (.addi d a i14)
  | 0x03 => .ok (.andi d a i14)
  | 0x04 => .ok (.ori d a i14)
  | 0x05 => .ok (.xori d a i14)
  | 0x06 => .ok (.slti d a i14)
  | 0x07 => .ok (.sltiu d a i14)
  | 0x08 =>
    zeroThen (fld w 6 6 == 0) (match (fld w 12 2).toNat with
      | 0 => .ok (.shli d a (fld w 0 6))
      | 1 => .ok (.shri d a (fld w 0 6))
      | 2 => .ok (.sari d a (fld w 0 6))
      | _ => .error .unlistedCode)
  | 0x09 => .ok (.lui d i20)
  | 0x0A => zeroThen (i20 == 0) (.ok (.lil d lit))
  | 0x0B => .ok (.auipc d i20)
  | 0x0C => zeroThen (fld w 0 2 == 0) (.ok (.ins d a b c))
  | 0x0D => zeroThen (fld w 0 2 == 0) (.ok (.ext d a b c))
  | 0x0E => decodeFp w
  | 0x0F => zeroThen (fld w 0 2 == 0) (.ok (.fma d a b c))
  | 0x10 => .ok (.beq d a i14)
  | 0x11 => .ok (.bne d a i14)
  | 0x12 => .ok (.blt d a i14)
  | 0x13 => .ok (.bge d a i14)
  | 0x14 => .ok (.bltu d a i14)
  | 0x15 => .ok (.bgeu d a i14)
  | 0x16 => .ok (.jal d i20)
  | 0x17 => .ok (.jalr d a i14)
  | 0x18 => (listed (Order.ofCode (fld w 10 2).toNat)).map
      fun o => .ld d a (Size.ofCode (fld w 12 2)) o (fld w 9 1 == 1) (fld w 0 9)
  | 0x19 => zeroThen (fld w 9 1 == 0) ((listed (Order.ofCode (fld w 10 2).toNat)).map
      fun o => .st d a (Size.ofCode (fld w 12 2)) o (fld w 0 9))
  | 0x1A => match AmoOp.ofCode (fld w 4 4).toNat, Scope.ofCode (fld w 1 3).toNat with
      | some p, some s => .ok (.amo d a b p s (fld w 0 1 == 1))
      | _, _ => .error .unlistedCode
  | 0x1B => zeroThen (fld w 4 4 == 0) ((listed (Scope.ofCode (fld w 1 3).toNat)).map
      fun s => .cas d a b s (fld w 0 1 == 1))
  | 0x1C => zeroThen (fld w 8 18 == 0) ((listed (Scope.ofCode (fld w 5 3).toNat)).map
      fun s => .fence s (fld w 0 5))
  | 0x1D => zeroThen (fld w 0 26 == 0) (.ok .tfence)
  | 0x1E => zeroThen (fld w 0 2 == 0) (.ok (.wait d a b c))
  | 0x1F => zeroThen (a == 0) (.ok (.gets d i14))
  | 0x20 => zeroThen (d == 0) (.ok (.sets a i14))
  | 0x21 => zeroThen (fld w 3 5 == 0) ((listed (VlWidth.ofCode (fld w 0 3).toNat)).map (.setvl d a b))
  | 0x22 => .ok (.setrows d a i14)
  | 0x23 => zeroThen (fld w 1 25 == 0) (.ok (.vshape (fld w 0 1 == 1)))
  | 0x24 => zeroThen (fld w 0 26 == 0) (.ok (.emitl lit))
  | 0x25 => zeroThen (d == 0 && fld w 0 14 == 0) (.ok (.emitr a))
  | 0x26 => .ok (.emitx d a b (fld w 0 8) lit)
  | 0x27 => zeroThen (fld w 0 14 == 0) (.ok (.emitq d a))
  | 0x28 => zeroThen (fld w 0 26 == 0) (.ok .waitv)
  | 0x29 => zeroThen (i20 == 0) (.ok (.rqpop d))
  | 0x2A => zeroThen (i20 == 0) (.ok (.fork d))
  | 0x2B => zeroThen (fld w 0 14 == 0) (.ok (.join d a))
  | 0x2C => zeroThen (d == 0 && fld w 0 8 == 0) (.ok (.farm a b))
  | 0x2D => zeroThen (fld w 0 14 == 0) (.ok (.nexts d a))
  | 0x2E => zeroThen (fld w 3 23 == 0) ((listed (Scope.ofCode (fld w 0 3).toNat)).map .bar)
  | 0x2F => zeroThen (a == 0 && fld w 4 10 == 0) (.ok (.slotq d (fld w 0 4)))
  | 0x30 => zeroThen (d == 0) (.ok (.trap i20))
  | 0x31 => zeroThen (fld w 0 26 == 0) (.ok .halt)
  | 0x32 => zeroThen (fld w 0 26 == 0) (.ok .yield)
  | _ => .error .unassignedMajor

/-- A decoding that also meets the checks of the word alone. -/
def checked (r : Decoded) : Decoded :=
  match r with
  | .ok i => if i.wf then .ok i else .error .illFormed
  | .error e => .error e

/-- The G-word decoder (R64): a word and the literal that follows it. -/
def decodeG (w : BitVec 32) (lit : Word) : Decoded := checked (decodeFields w lit)

/-- A G-word that carries a literal (R65): LIL, EMITL, EMITX. -/
def hasLiteral (w : BitVec 32) : Bool :=
  let m := (fld w 26 6).toNat
  m == 0x0A || m == 0x24 || m == 0x26

/-- Four bytes, the lowest address first, as a little-endian word (R4). -/
def word32 (b0 b1 b2 b3 : Byte) : BitVec 32 := b3 ++ b2 ++ b1 ++ b0

/-- The decoder on a list of bytes: the instruction at its head and the bytes after it. -/
def decodeBytes : List Byte → Except DecodeError (Instr × List Byte)
  | b0 :: b1 :: b2 :: b3 :: rest =>
    let w := word32 b0 b1 b2 b3
    if hasLiteral w then
      match rest with
      | c0 :: c1 :: c2 :: c3 :: d0 :: d1 :: d2 :: d3 :: rest' =>
        (decodeG w (word32 d0 d1 d2 d3 ++ word32 c0 c1 c2 c3)).map (·, rest')
      | _ => .error .tooShort
    else (decodeG w 0).map (·, rest)
  | _ => .error .tooShort

/-- The fields of an E-word (R68). -/
def EFields.ofWord (w : Word) : EFields :=
  { c := w.getLsbD 57, d := w.extractLsb' 50 6, a := w.extractLsb' 44 6, b := w.extractLsb' 38 6,
    m := w.extractLsb' 32 6, k := w.extractLsb' 28 4, n := w.getLsbD 27, x := w.extractLsb' 14 6,
    imm := w.extractLsb' 0 14 }

/-- VLD function codes (R72). -/
def decodeVld (w : EFields) (fn : BitVec 7) : Decoded :=
  zeroThen (!fn.getLsbD 6)
    (match AddrForm.ofCode (fn.extractLsb' 0 2).toNat, LdTarget.ofCode (fn.extractLsb' 4 2).toNat with
     | some f, some t => .ok (.vld w f (Space.ofCode (fn.extractLsb' 2 2)) t)
     | _, _ => .error .unlistedCode)

/-- VST function codes (R72). -/
def decodeVst (w : EFields) (o : Bool) (fn : BitVec 7) : Decoded :=
  zeroThen (fn.extractLsb' 4 3 == 0)
    ((listed (AddrForm.ofCode (fn.extractLsb' 0 2).toNat)).map
      fun f => .vst w o f (Space.ofCode (fn.extractLsb' 2 2)))

/-- VAMO function codes (R72). -/
def decodeVamo (w : EFields) (fn : BitVec 7) : Decoded :=
  match AmoOp.ofCode (fn.extractLsb' 0 4).toNat, Scope.ofCode (fn.extractLsb' 4 3).toNat with
  | some p, some s => .ok (.vamo w p s)
  | _, _ => .error .unlistedCode

/-- Every E class but VST, by OP and fn (R72). -/
def decodeClass (w : EFields) (op : Nat) (fn : BitVec 7) : Decoded :=
  match op, fn.toNat with
  | 0x01, 0 => .ok (.vadd w)
  | 0x01, 1 => .ok (.vsub w)
  | 0x01, 2 => .ok (.vmul w)
  | 0x01, 3 => .ok (.vmulh w)
  | 0x01, 4 => .ok (.vdiv w)
  | 0x01, 5 => .ok (.vrem w)
  | 0x01, 6 => .ok (.vmin w)
  | 0x01, 7 => .ok (.vmax w)
  | 0x01, 8 => .ok (.vabs w)
  | 0x01, 9 => .ok (.vneg w)
  | 0x01, 10 => .ok (.vand w)
  | 0x01, 11 => .ok (.vor w)
  | 0x01, 12 => .ok (.vxor w)
  | 0x01, 13 => .ok (.vnot w)
  | 0x01, 14 => .ok (.vshl w)
  | 0x01, 15 => .ok (.vshr w)
  | 0x01, 16 => .ok (.vsqrt w)
  | 0x01, 17 => .ok (.vexp2 w)
  | 0x01, 18 => .ok (.vlog2 w)
  | 0x01, 19 => .ok (.vrsq w)
  | 0x01, 20 => .ok (.vrcp w)
  | 0x02, 0 => .ok (.vmac w)
  | 0x02, 1 => .ok (.vnmac w)
  | 0x04, 0 => .ok (.vcmpEq w)
  | 0x04, 1 => .ok (.vcmpNe w)
  | 0x04, 2 => .ok (.vcmpLt w)
  | 0x04, 3 => .ok (.vcmpLe w)
  | 0x04, 4 => .ok (.vcmpGt w)
  | 0x04, 5 => .ok (.vcmpGe w)
  | 0x04, 6 => .ok (.vcmpUnord w)
  | 0x05, 0 => .ok (.vsel w)
  | 0x06, 0 => .ok (.vcvtCvt w)
  | 0x06, 1 => .ok (.vcvtRes w)
  | 0x06, 2 => .ok (.vcvtCrt w)
  | 0x07, 0 => .ok (.slideup w)
  | 0x07, 1 => .ok (.slidedn w)
  | 0x07, 2 => .ok (.slide1up w)
  | 0x07, 3 => .ok (.slide1dn w)
  | 0x07, 4 => .ok (.gatherv w)
  | 0x07, 5 => .ok (.compress w)
  | 0x07, 6 => .ok (.bcast w)
  | 0x07, 7 => .ok (.index w)
  | 0x07, 8 => .ok (.vmv w)
  | 0x07, 9 => .ok (.extract w)
  | 0x08, 0 => .ok (.vredSum w)
  | 0x08, 1 => .ok (.vredSumu w)
  | 0x08, 2 => .ok (.vredMax w)
  | 0x08, 3 => .ok (.vredMin w)
  | 0x08, 4 => .ok (.vredAnd w)
  | 0x08, 5 => .ok (.vredOr w)
  | 0x08, 6 => .ok (.vredXor w)
  | 0x09, 0 => .ok (.mand w)
  | 0x09, 1 => .ok (.mor w)
  | 0x09, 2 => .ok (.mxor w)
  | 0x09, 3 => .ok (.mandn w)
  | 0x09, 4 => .ok (.mnot w)
  | 0x09, 5 => .ok (.mpopc w)
  | 0x09, 6 => .ok (.mfirst w)
  | 0x09, 7 => .ok (.mset w)
  | 0x0A, 0 => .ok (.vtype w)
  | 0x13, 0 => .ok (.vfence w)
  | 0x18, 0 => .ok (.mopa w)
  | 0x19, 0 => .ok (.mopm w)
  | 0x1A, 0 => .ok (.mzero w)
  | 0x1A, 1 => .ok (.mcvt w)
  | 0x1A, 2 => .ok (.mrowR w)
  | 0x1A, 3 => .ok (.mrowW w)
  | 0x1A, 4 => .ok (.mbf w)
  | 0x1C, 0 => .ok (.cpy w)
  | 0x1D, 0 => .ok (.tready w)
  | 0x1D, 1 => .ok (.tempty w)
  | 0x1D, 2 => .ok (.twait w)
  | 0x1D, 3 => .ok (.tquery w)
  | 0x1E, 0 => .ok (.collReduceScatter w)
  | 0x1E, 1 => .ok (.collAllGather w)
  | 0x1E, 2 => .ok (.collAllReduce w)
  | 0x1E, 3 => .ok (.collKvRotation w)
  | 0x10, _ => decodeVld w fn
  | 0x12, _ => decodeVamo w fn
  | op, _ =>
    if op == 0x01 || op == 0x02 || (0x04 ≤ op && op ≤ 0x0A) || op == 0x13 || (0x18 ≤ op && op ≤ 0x1A) ||
       (0x1C ≤ op && op ≤ 0x1E) then .error .unlistedCode
    else .error .unassignedMajor

/-- The E-word decoder: OP and fn (R72), the O bit (R68), and the field rules of R69 to R74 that the word
alone decides. -/
def decodeE (w : Word) : Decoded :=
  let f := EFields.ofWord w
  let op := (w.extractLsb' 58 6).toNat
  let fn : BitVec 7 := w.extractLsb' 20 7
  checked (if op = 0x11 then decodeVst f (w.getLsbD 56) fn
           else zeroThen (!w.getLsbD 56) (decodeClass f op fn))

/-- The instruction of an opcode-table row from its bits, numbered as the table numbers them: 32 bits
are a G-word (its literal, if it has one, in the bits above), 64 bits an E-word. -/
def decodeTableWord (nbits w : Nat) : Option Instr :=
  if nbits = 64 then (decodeE (BitVec.ofNat 64 w)).toOption
  else
    let bs := (List.range 12).map fun i => BitVec.ofNat 8 (w / 2 ^ (8 * i))
    (decodeBytes bs).toOption.map Prod.fst

/-! The encoder. -/

def encR (op : BitVec 6) (d a b : Reg) (fn : BitVec 8) : BitVec 32 := op ++ d ++ a ++ b ++ fn
def encI (op : BitVec 6) (d a : Reg) (i : BitVec 14) : BitVec 32 := op ++ d ++ a ++ i
def encU (op : BitVec 6) (d : Reg) (i : BitVec 20) : BitVec 32 := op ++ d ++ i
def encM (op : BitVec 6) (d a : Reg) (z : BitVec 2) (o : BitVec 2) (x : BitVec 1) (f : BitVec 9) : BitVec 32 :=
  op ++ d ++ a ++ z ++ o ++ x ++ f
def encA (op : BitVec 6) (d a b : Reg) (p : BitVec 4) (s : BitVec 3) (r : BitVec 1) : BitVec 32 :=
  op ++ d ++ a ++ b ++ p ++ s ++ r
def encC (op : BitVec 6) (d a b c : Reg) : BitVec 32 := op ++ d ++ a ++ b ++ c ++ 0#2
def encF (d a b : Reg) (r : BitVec 3) (fn : BitVec 5) : BitVec 32 := 0x0E#6 ++ d ++ a ++ b ++ r ++ fn
def encN (op : BitVec 6) : BitVec 32 := op ++ 0#26
def bit (b : Bool) : BitVec 1 := if b then 1 else 0

/-- An E-word from its fields (R68). -/
def encE (op : BitVec 6) (o : Bool) (fn : BitVec 7) (w : EFields) : Word :=
  op ++ bit w.c ++ bit o ++ w.d ++ w.a ++ w.b ++ w.m ++ w.k ++ bit w.n ++ fn ++ w.x ++ w.imm

/-- The G-word of an instruction and its literal, or none for an E-word or an event. -/
def encodeG : Instr → Option (BitVec 32 × Option Word)
  | .add d a b => some (encR 0x01 d a b 0, none)
  | .sub d a b => some (encR 0x01 d a b 1, none)
  | .and d a b => some (encR 0x01 d a b 2, none)
  | .or d a b => some (encR 0x01 d a b 3, none)
  | .xor d a b => some (encR 0x01 d a b 4, none)
  | .shl d a b => some (encR 0x01 d a b 5, none)
  | .shr d a b => some (encR 0x01 d a b 6, none)
  | .sar d a b => some (encR 0x01 d a b 7, none)
  | .mul d a b => some (encR 0x01 d a b 8, none)
  | .mulh d a b => some (encR 0x01 d a b 9, none)
  | .mulhu d a b => some (encR 0x01 d a b 10, none)
  | .div d a b => some (encR 0x01 d a b 11, none)
  | .divu d a b => some (encR 0x01 d a b 12, none)
  | .rem d a b => some (encR 0x01 d a b 13, none)
  | .remu d a b => some (encR 0x01 d a b 14, none)
  | .min d a b => some (encR 0x01 d a b 15, none)
  | .max d a b => some (encR 0x01 d a b 16, none)
  | .minu d a b => some (encR 0x01 d a b 17, none)
  | .maxu d a b => some (encR 0x01 d a b 18, none)
  | .slt d a b => some (encR 0x01 d a b 19, none)
  | .sltu d a b => some (encR 0x01 d a b 20, none)
  | .seq d a b => some (encR 0x01 d a b 21, none)
  | .clz d a => some (encR 0x01 d a 0 22, none)
  | .popc d a => some (encR 0x01 d a 0 23, none)
  | .addi d a i => some (encI 0x02 d a i, none)
  | .andi d a i => some (encI 0x03 d a i, none)
  | .ori d a i => some (encI 0x04 d a i, none)
  | .xori d a i => some (encI 0x05 d a i, none)
  | .slti d a i => some (encI 0x06 d a i, none)
  | .sltiu d a i => some (encI 0x07 d a i, none)
  | .shli d a n => some (encI 0x08 d a (0#2 ++ 0#6 ++ n), none)
  | .shri d a n => some (encI 0x08 d a (1#2 ++ 0#6 ++ n), none)
  | .sari d a n => some (encI 0x08 d a (2#2 ++ 0#6 ++ n), none)
  | .lui d i => some (encU 0x09 d i, none)
  | .lil d lit => some (encU 0x0A d 0, some lit)
  | .auipc d i => some (encU 0x0B d i, none)
  | .ins d a p w => some (encC 0x0C d a p w, none)
  | .ext d a p w => some (encC 0x0D d a p w, none)
  | .fadd d a b r => some (encF d a b r.code 0, none)
  | .fsub d a b r => some (encF d a b r.code 1, none)
  | .fmul d a b r => some (encF d a b r.code 2, none)
  | .fdiv d a b r => some (encF d a b r.code 3, none)
  | .fmin d a b r => some (encF d a b r.code 4, none)
  | .fmax d a b r => some (encF d a b r.code 5, none)
  | .fsqrt d a r => some (encF d a 0 r.code 6, none)
  | .fcvtW d a r => some (encF d a 0 r.code 7, none)
  | .fcvtS d a r => some (encF d a 0 r.code 8, none)
  | .feq d a b => some (encF d a b 0 9, none)
  | .flt d a b => some (encF d a b 0 10, none)
  | .fle d a b => some (encF d a b 0 11, none)
  | .fma d a b c => some (encC 0x0F d a b c, none)
  | .beq a b o => some (encI 0x10 a b o, none)
  | .bne a b o => some (encI 0x11 a b o, none)
  | .blt a b o => some (encI 0x12 a b o, none)
  | .bge a b o => some (encI 0x13 a b o, none)
  | .bltu a b o => some (encI 0x14 a b o, none)
  | .bgeu a b o => some (encI 0x15 a b o, none)
  | .jal d i => some (encU 0x16 d i, none)
  | .jalr d a i => some (encI 0x17 d a i, none)
  | .ld d a z o x f => some (encM 0x18 d a z.code o.code (bit x) f, none)
  | .st d a z o f => some (encM 0x19 d a z.code o.code 0 f, none)
  | .amo d a b p s r => some (encA 0x1A d a b p.code s.code (bit r), none)
  | .cas d a b s r => some (encA 0x1B d a b 0 s.code (bit r), none)
  | .fence s k => some (encI 0x1C 0 0 (0#6 ++ s.code ++ k), none)
  | .tfence => some (encN 0x1D, none)
  | .wait d a b c => some (encC 0x1E d a b c, none)
  | .gets d i => some (encI 0x1F d 0 i, none)
  | .sets a i => some (encI 0x20 0 a i, none)
  | .setvl d a b w => some (encR 0x21 d a b (0#5 ++ w.code), none)
  | .setrows d a i => some (encI 0x22 d a i, none)
  | .vshape s => some (encI 0x23 0 0 (0#13 ++ bit s), none)
  | .emitl lit => some (encN 0x24, some lit)
  | .emitr a => some (encR 0x25 0 a 0 0, none)
  | .emitx c a b sel lit => some (encR 0x26 c a b sel, some lit)
  | .emitq d a => some (encR 0x27 d a 0 0, none)
  | .waitv => some (encN 0x28, none)
  | .rqpop d => some (encR 0x29 d 0 0 0, none)
  | .fork d => some (encR 0x2A d 0 0 0, none)
  | .join d a => some (encR 0x2B d a 0 0, none)
  | .farm a b => some (encR 0x2C 0 a b 0, none)
  | .nexts d a => some (encR 0x2D d a 0 0, none)
  | .bar s => some (encI 0x2E 0 0 (0#11 ++ s.code), none)
  | .slotq d k => some (encI 0x2F d 0 (0#10 ++ k), none)
  | .trap c => some (encU 0x30 0 c, none)
  | .halt => some (encN 0x31, none)
  | .yield => some (encN 0x32, none)
  | _ => none

/-- The E-word of an instruction, or none for a G-word or an event. -/
def encodeE : Instr → Option Word
  | .vadd w => some (encE 0x01 false 0 w)
  | .vsub w => some (encE 0x01 false 1 w)
  | .vmul w => some (encE 0x01 false 2 w)
  | .vmulh w => some (encE 0x01 false 3 w)
  | .vdiv w => some (encE 0x01 false 4 w)
  | .vrem w => some (encE 0x01 false 5 w)
  | .vmin w => some (encE 0x01 false 6 w)
  | .vmax w => some (encE 0x01 false 7 w)
  | .vabs w => some (encE 0x01 false 8 w)
  | .vneg w => some (encE 0x01 false 9 w)
  | .vand w => some (encE 0x01 false 10 w)
  | .vor w => some (encE 0x01 false 11 w)
  | .vxor w => some (encE 0x01 false 12 w)
  | .vnot w => some (encE 0x01 false 13 w)
  | .vshl w => some (encE 0x01 false 14 w)
  | .vshr w => some (encE 0x01 false 15 w)
  | .vsqrt w => some (encE 0x01 false 16 w)
  | .vexp2 w => some (encE 0x01 false 17 w)
  | .vlog2 w => some (encE 0x01 false 18 w)
  | .vrsq w => some (encE 0x01 false 19 w)
  | .vrcp w => some (encE 0x01 false 20 w)
  | .vmac w => some (encE 0x02 false 0 w)
  | .vnmac w => some (encE 0x02 false 1 w)
  | .vcmpEq w => some (encE 0x04 false 0 w)
  | .vcmpNe w => some (encE 0x04 false 1 w)
  | .vcmpLt w => some (encE 0x04 false 2 w)
  | .vcmpLe w => some (encE 0x04 false 3 w)
  | .vcmpGt w => some (encE 0x04 false 4 w)
  | .vcmpGe w => some (encE 0x04 false 5 w)
  | .vcmpUnord w => some (encE 0x04 false 6 w)
  | .vsel w => some (encE 0x05 false 0 w)
  | .vcvtCvt w => some (encE 0x06 false 0 w)
  | .vcvtRes w => some (encE 0x06 false 1 w)
  | .vcvtCrt w => some (encE 0x06 false 2 w)
  | .slideup w => some (encE 0x07 false 0 w)
  | .slidedn w => some (encE 0x07 false 1 w)
  | .slide1up w => some (encE 0x07 false 2 w)
  | .slide1dn w => some (encE 0x07 false 3 w)
  | .gatherv w => some (encE 0x07 false 4 w)
  | .compress w => some (encE 0x07 false 5 w)
  | .bcast w => some (encE 0x07 false 6 w)
  | .index w => some (encE 0x07 false 7 w)
  | .vmv w => some (encE 0x07 false 8 w)
  | .extract w => some (encE 0x07 false 9 w)
  | .vredSum w => some (encE 0x08 false 0 w)
  | .vredSumu w => some (encE 0x08 false 1 w)
  | .vredMax w => some (encE 0x08 false 2 w)
  | .vredMin w => some (encE 0x08 false 3 w)
  | .vredAnd w => some (encE 0x08 false 4 w)
  | .vredOr w => some (encE 0x08 false 5 w)
  | .vredXor w => some (encE 0x08 false 6 w)
  | .mand w => some (encE 0x09 false 0 w)
  | .mor w => some (encE 0x09 false 1 w)
  | .mxor w => some (encE 0x09 false 2 w)
  | .mandn w => some (encE 0x09 false 3 w)
  | .mnot w => some (encE 0x09 false 4 w)
  | .mpopc w => some (encE 0x09 false 5 w)
  | .mfirst w => some (encE 0x09 false 6 w)
  | .mset w => some (encE 0x09 false 7 w)
  | .vtype w => some (encE 0x0A false 0 w)
  | .vfence w => some (encE 0x13 false 0 w)
  | .mopa w => some (encE 0x18 false 0 w)
  | .mopm w => some (encE 0x19 false 0 w)
  | .mzero w => some (encE 0x1A false 0 w)
  | .mcvt w => some (encE 0x1A false 1 w)
  | .mrowR w => some (encE 0x1A false 2 w)
  | .mrowW w => some (encE 0x1A false 3 w)
  | .mbf w => some (encE 0x1A false 4 w)
  | .cpy w => some (encE 0x1C false 0 w)
  | .tready w => some (encE 0x1D false 0 w)
  | .tempty w => some (encE 0x1D false 1 w)
  | .twait w => some (encE 0x1D false 2 w)
  | .tquery w => some (encE 0x1D false 3 w)
  | .collReduceScatter w => some (encE 0x1E false 0 w)
  | .collAllGather w => some (encE 0x1E false 1 w)
  | .collAllReduce w => some (encE 0x1E false 2 w)
  | .collKvRotation w => some (encE 0x1E false 3 w)
  | .vld w f s t => some (encE 0x10 false (0#1 ++ t.code ++ s.code ++ f.code) w)
  | .vst w o f s => some (encE 0x11 o (0#3 ++ s.code ++ f.code) w)
  | .vamo w p s => some (encE 0x12 false (s.code ++ p.code) w)
  | _ => none

/-- The 32-bit words of an instruction, the first at the lowest address: one or three for a G-word, two for an
E-word, none for an event. -/
def encode (i : Instr) : List (BitVec 32) :=
  match encodeG i with
  | some (w, none) => [w]
  | some (w, some lit) => [w, lit.extractLsb' 0 32, lit.extractLsb' 32 32]
  | none =>
    match encodeE i with
    | some e => [e.extractLsb' 0 32, e.extractLsb' 32 32]
    | none => []

/-- The bytes of a 32-bit word, the lowest address first (R4). -/
def bytes32 (w : BitVec 32) : List Byte :=
  [w.extractLsb' 0 8, w.extractLsb' 8 8, w.extractLsb' 16 8, w.extractLsb' 24 8]

end Sys2Proof
end

