-- ==== Sys2Proof/Machine/State.lean ====
section
/-! DEFINITION. The state of the machine, as plain data: everything the spec names (INVENTORY.md lists each
field with its rule and its reset value), the model's own bookkeeping (each field marked MODEL), and the
state right after reset. -/

namespace Sys2Proof.Machine

/-- A sparse table: pairs of key and value in ascending key order; an absent key reads as the value its reader names. -/
abbrev FMap (α : Type) := List (Nat × α)

/-- Bytes by address: strictly rising addresses, no zero byte listed; an unlisted address reads 0 (log 1). -/
abbrev Bytes := List Host.Cell

/-- A position of a sweep, with the layout of VSTART (R30): ROW in [31:28], ELEM in [27:0]. -/
abbrev Pos := BitVec 32

/-- An emit-queue entry (R76, R77). -/
structure Entry where
  word : Word
  mode : Word
  x0 : Word
  x1 : Word
  x2 : Word
  x3 : Word
  thread : BitVec 2
  tagd : BitVec 4
  tagb : BitVec 4
  taga : BitVec 4
  rsv : Bool
  conv : Bool
  icx : Bool
  rct : Bool
  shape : Bool
  rows : BitVec 4
  vl : BitVec 14
  emitPc : Word
  seq : Word
  done : Pos
  /-- MODEL: the position from which the word resumes (R30, R164). -/
  start : Pos
  /-- MODEL: the word has completed and waits to be freed in emit order (R200). -/
  complete : Bool
  /-- MODEL: a CPY, COLL or matrix word that its engine has started (R208, R234, R396). -/
  started : Bool
  /-- MODEL: tile-table entries that a started CPY or COLL holds claimed (R234, R397). -/
  claims : List Nat
  /-- MODEL: a no-split CPY has passed the test of R344. -/
  judged : Bool
  /-- MODEL: the PT at which a no-split CPY has failed that test, to be judged again when a blocked window has ended since. -/
  deferred : Option Nat
  /-- MODEL: the fold value and whether it is held, of a fold reduction interrupted while not oldest (R61). -/
  fold : Word
  /-- MODEL: k-steps done by a MOPA or MOPM that is not the oldest word (R225). -/
  kdone : Word
  /-- MODEL: flags gathered so far; they reach VXSR when the word completes (R31; log 13). -/
  flags : BitVec 8
  /-- MODEL: rows that a CPY has completed since it started or was last stopped (R237). -/
  rowsDone : Nat
  /-- MODEL: the position before which a VLD to a load queue has filled it (R155, R164). -/
  filled : Pos
  /-- MODEL: of a late word, the c of R164; else 0. -/
  late : Pos
deriving DecidableEq, Repr

/-- The state doubleword and the rest of an appended entry before its fields are written (R413). -/
def Entry.blank : Entry where
  word := 0
  mode := 0
  x0 := 0
  x1 := 0
  x2 := 0
  x3 := 0
  thread := 0
  tagd := 0
  tagb := 0
  taga := 0
  rsv := false
  conv := false
  icx := false
  rct := false
  shape := false
  rows := 0
  vl := 0
  emitPc := 0
  seq := 0
  done := 0
  start := 0
  complete := false
  started := false
  claims := []
  judged := false
  deferred := Option.none
  fold := 0
  kdone := 0
  flags := 0
  rowsDone := 0
  filled := 0
  late := 0

/-- The trap record (R189). -/
structure TrapRec where
  cause : Word
  gpc : Word
  thread : Word
  emitPc : Word
  seq : Word
  vstart : Word
  addr : Word
  port : Word
  sinkSeq : Word
deriving DecidableEq, Repr

/-- A fault to deliver (R190): its level, class, code, ADDRESS and PORT, and the provenance of an E-word. -/
structure FaultRec where
  elevel : Bool
  cls : BitVec 8
  code : BitVec 20
  addr : Word
  port : Word
  thread : BitVec 2
  emitPc : Word
  seq : Word
deriving DecidableEq, Repr

/-- A frame window (R302). -/
structure Window where
  base : Word
  limit : Word
deriving DecidableEq, Repr

/-- A WAIT in progress (R109, R110). -/
structure WaitRec where
  va : Word
  expected : Word
  limit : Word
  since : Nat
deriving DecidableEq, Repr

/-- The control word's states (R249). -/
inductive Ctl where
  | idle | run | stopDrain | stopFreeze | stopped | trapped
deriving DecidableEq, Repr

/-- VSTATE (R255, R257). -/
inductive VState where
  | absent | present | saved
deriving DecidableEq, Repr

/-- The commands of SAVECMD (R258). -/
inductive SaveCmd where
  | save | saveAll | restoreScalar | restoreVector | restoreAll
deriving DecidableEq, Repr

/-- A save command in progress (R258): what was commanded, TBUF, the agent and its SAVEPTR as stored. -/
structure SaveJob where
  cmd : SaveCmd
  tbuf : Bool
  ag : Agent
  ptr : Word
  /-- PA of each 512 KiB page of the save area, as translated at the store (R258). -/
  area : List (Option Nat)
  /-- MODEL: the outcome to publish once the transfer has been made (R265). -/
  outcome : Option (BitVec 8)
deriving DecidableEq, Repr

/-- RECLAIM (R262) and the request that a SETVL is carrying out (R263). -/
structure Reclaim where
  status : BitVec 2
  tv : Bool
  target : BitVec 2
  keep : BitVec 3
  /-- EMITSEQ at the SETVL that is carrying out a cession: it takes place once the words up to it have completed. -/
  after : Option Word
deriving DecidableEq, Repr

/-- A store that has executed and not yet performed (R99, R172): PA, key epoch, bytes, value, and the PT of its
execution. Non-temporal stores wait in write combining (nt), plain ones in the Crucible's store path. -/
structure WcStore where
  nt : Bool
  pa : Nat
  epoch : Nat
  width : Nat
  value : Word
  since : Nat
deriving DecidableEq, Repr

/-- The queue of a page as a hart has read it (R201): by which of its words (0 its G-words, else one more than an
E-word's sequence number), of which page, and the entries. -/
structure Snapshot where
  reader : Nat
  page : Nat
  entries : List Entry
deriving DecidableEq, Repr

/-- A hart (R13 to R33) with its context page (R255). -/
structure Hart where
  ctl : Ctl
  pc : Word
  sregs : Vector Word 64
  /-- Register slices of 16,384 bits: vn in the narrow shape; v(2n), v(2n+1) hold wide register n (R14, R20). -/
  vregs : Vector (BitVec 16384) 32
  tags : Vector (BitVec 4) 32
  masks : Vector (BitVec 8192) 16
  vl : Word
  rows : BitVec 4
  vstart : Pos
  rstate : Word
  kprog : Word
  vxsr : BitVec 8
  rct : Bool
  ict : Bool
  own : BitVec 4
  emitseq : Word
  bypth : Word
  trapsink : Word
  ept : BitVec 6
  shape : Bool
  queue : List Entry
  /-- The open convoy (R79): the words it holds, freed ones included, oldest first. -/
  conv : Option (List Entry)
  lq0 : BitVec 262144
  lq1 : BitVec 262144
  /-- MODEL: the address from which each element that a load queue holds was read, by position (R194). -/
  lqVa0 : FMap Word
  lqVa1 : FMap Word
  rq : List Word
  /-- Return-queue entries stored to the page above RQCOUNT (R255; log 28). -/
  rqHeld : FMap Word
  dirty : BitVec 32
  vstate : VState
  trapRec : TrapRec
  trapCount : Word
  /-- Queued E-level faults that wait for RUN, oldest first (R188). -/
  pending : List FaultRec
  windows : Vector Window 8
  root : Word
  /-- Windows and root stored while the page is TRAPPED: they take effect when it leaves that state (R303). -/
  newWindows : Option (Vector Window 8)
  newRoot : Option Word
  saveptr : Word
  saveStatus : BitVec 8
  saveJob : Option SaveJob
  lastArea : Option Word
  reclaim : Reclaim
  vi : Nat
  /-- Team number and rank (R307, R332); none for a FORK child (R281) and outside launches. -/
  team : Option Nat
  rank : Nat
  farmGen : Nat
  /-- FORK and JOIN: the parent of a child not yet joined; the child has halted and waits (R213 to R215). -/
  parent : Option Nat
  awaitJoin : Bool
  /-- Barriers completed per scope code 0 to 6, and the scope of a BAR that has arrived (R282 to R284). -/
  barCount : Vector Nat 7
  barArrived : Option Scope
  /-- Stores that have executed and not performed, oldest first (R172). -/
  wc : List WcStore
  /-- Queue images read since the last FENCE with IO, or by an E-word (R201). -/
  images : List Snapshot
  wait : Option WaitRec
  /-- MODEL: the word at pc waits (R119); cleared whenever something it may wait for happens. -/
  stalled : Bool
  /-- MODEL: key slots whose revocation has stalled an access of its G-word, and of its E-words (R362). -/
  gStall : Option (BitVec 8)
  eStall : List (BitVec 8)
  /-- MODEL: the generator has reached the stop point of R252 or R253. -/
  genStopped : Bool
  /-- G-words executed since STOP-DRAIN (R252). -/
  gcount : Nat
  /-- MODEL: an E-level fault has stopped the queue (R187). -/
  qStopped : Bool
  /-- The element-progress timer, in core cycles (R247). -/
  timer : Nat
  /-- The head convoy is in the issue window (R206). -/
  inWindow : Bool
deriving DecidableEq, Repr

/-- A tile-table entry (R218, R241). -/
inductive TileState where
  | empty | filling | ready | draining
deriving DecidableEq, Repr

inductive TileMode where
  | triad | bf16
deriving DecidableEq, Repr

structure Tile where
  state : TileState
  mode : TileMode
  type : BitVec 4
  k : BitVec 32
  d : Nat
deriving DecidableEq, Repr

/-- A loan (R210): lane cluster, borrowing slot, and the PT from which its next µs is charged (R211). -/
structure Loan where
  lc : Nat
  slot : Nat
  since : Nat
deriving DecidableEq, Repr

/-- A core (R216 to R218, R352): world, typed buffers, tile table, lane clusters retired, gated and lent. -/
structure CoreSt where
  flid : BitVec 8
  wb : Vector (BitVec 131072) 64
  ab : Vector (BitVec 131072) 32
  cb : Vector (BitVec 131072) 16
  tiles : Vector Tile 112
  retired : BitVec 4
  gated : BitVec 4
  /-- Loans of lane clusters (R210). -/
  loans : List Loan
  /-- MODEL: the words in the issue window in the order in which they entered it: slot and sequence number (R206, R208). -/
  window : List (Nat × Word)
  /-- Core cycles outside anneal slots since a G-word of a ready thread retired (R372). -/
  quiet : Nat
deriving DecidableEq, Repr

/-- A launch command on a command link (R336, R337): its number on the link and the team. -/
structure LaunchCmd where
  num : Nat
  team : Nat
deriving DecidableEq, Repr

/-- A cluster: token balance (R26, R347), command link (R336, R337), counters not yet flushed (R286, R287). -/
structure ClusterSt where
  bal : Int
  /-- PT of the last SETVL that waited on a refill (R350). -/
  waited : Option Nat
  cmdPermits : Nat
  repPermits : Nat
  nextCmd : Nat
  unacked : List LaunchCmd
  /-- The last command number that the leaf controller has carried out (R337). -/
  carried : Nat
  /-- Teams whose harts on this cluster the leaf controller has still to place (R276). -/
  held : List Nat
  /-- Hart slots whose halt is still to be reported, and 3,072 for each fault summary (R277, R336). -/
  reports : List Nat
  unackedReports : Nat
  running : Bool
  counters : FMap Nat
deriving DecidableEq, Repr

/-- A cached stage-1 translation (R273, R275): the cluster whose structures hold it, its tags, the page and permissions
that the walk found, the PAs of the table doublewords it was derived from, the harts that have stored to one of them since
(R108, R304), the structure that holds it (0 to 15 a lane-group unit, 16 the cluster TLB), and whether it maps a 32 GiB block: then
vpn and viaPage are the block's first. -/
structure TlbEntry where
  cluster : Nat
  vi : Nat
  root : Word
  vpn : Nat
  viaPage : Nat
  perm : BitVec 3
  derived : List Nat
  storedBy : List Nat
  unit : Nat
  block : Bool
deriving DecidableEq, Repr

/-- A line of the host memory window in the device's caches, which the host's own accesses do not see (R328): its 128
bytes, and the offsets of those not yet written back. -/
structure HostLine where
  data : List Byte
  dirty : List Nat
deriving DecidableEq, Repr

/-- Memory: bytes by PA, key epochs of the 16-byte blocks stored under a key (R358), poisoned sectors (R272); for each
line that harts have written and no L2 has written back, one more than the cluster whose L2 holds it (R269, R272, R295, R362);
cached lines of the host window (R328). -/
structure Memory where
  cells : Bytes
  locks : FMap Nat
  poison : List Nat
  dirty : FMap Nat
  lines : FMap HostLine
deriving DecidableEq, Repr

/-- A range register (R309). -/
structure RangeReg where
  vbase : Nat
  vlast : Nat
  pbase : Nat
  key : BitVec 8
  kind : BitVec 2
deriving DecidableEq, Repr

structure ViSt where
  ranges : Vector RangeReg 16
  rangegen : Word
deriving DecidableEq, Repr

/-- A packet in a waiting set (R324, R325): slot count, its VIA, the 16 doublewords, and since when it has been
passed over for lack of room (R330). -/
structure Packet where
  slot : Nat
  via : Nat
  words : List Word
  passed : Option Nat
deriving DecidableEq, Repr

/-- A queue head (R320, R321) with its waiting set and finished slots. -/
structure QueueSt where
  ring : Nat
  fault : Bool
  log2 : Nat
  en : Bool
  tail : Nat
  head : Nat
  scan : Nat
  stale : Nat
  priocap : BitVec 2
  sinkt : Word
  savet : Word
  eptt : BitVec 6
  roott : Word
  wins : Vector Window 8
  waiting : List Packet
  /-- Finished slots not yet passed by HEAD (R335). -/
  finished : List Nat
  /-- A wake of the scan has more slots to examine (R380). -/
  waking : Bool
deriving DecidableEq, Repr

/-- A hart of a team: its slot, lane clusters, and how far it is: placed, ended, ended by HALT (R332, R334). -/
structure Member where
  hid : Nat
  own : BitVec 4
  launched : Bool
  ended : Bool
  halted : Bool
deriving DecidableEq, Repr

/-- One die's range of a farm generation (R292, R293). -/
structure Share where
  die : Nat
  next : Nat
  stop : Nat
deriving DecidableEq, Repr

structure FarmGen where
  num : Nat
  shares : List Share
deriving DecidableEq, Repr

/-- A team (R332): its packet, its harts in rank order, its farm generations, and the launch template. -/
structure TeamSt where
  active : Bool
  vi : Nat
  queue : Nat
  /-- The queue rung has dropped the ring that the packet came from: its slot is counted no more (R371). -/
  ringGone : Bool
  packet : Packet
  members : List Member
  gens : List FarmGen
  root : Word
  wins : Vector Window 8
  ept : BitVec 6
  sinkt : Word
  savet : Word
deriving DecidableEq, Repr

/-- A rewrite of the list that firmware has begun (R340): slots to list, and the overrun that it records (R346). -/
structure Rewrite where
  add : List Slot
  overrun : Option (Slot × Nat)
deriving DecidableEq, Repr

/-- The anneal calendar (R340, R341), the slot in progress and how far its housekeeping is to run past its end (R343,
R346). -/
structure Calendar where
  gen : Nat
  event : Nat
  lastOver : Nat
  lastKind : Nat
  lastStart : Nat
  shift : Nat
  slots : List Slot
  current : Option Slot
  extra : Nat
  rewrite : Option Rewrite
  /-- START of the HBM refresh slot listed last (R342). -/
  lastRefresh : Option Nat
  /-- Nominal time of the next slot of a kind, once one has been listed (R342). -/
  nominal : FMap Nat
  /-- By die: one more than the PT at which a blocked window of it last ended (R344). -/
  blockEnd : FMap Nat
deriving DecidableEq, Repr

/-- The power page (R347) and the clock of each die in units of 10 MHz. -/
structure Power where
  cap : BitVec 16
  cost : BitVec 8
  lendmax : BitVec 8
  fixed : BitVec 8
  granted : Nat
  borrowed : Nat
  lent : Nat
  /-- Values that take effect at the next refill boundary (R350). -/
  nextGranted : Nat
  nextBorrowed : Nat
  nextLent : Nat
  refill : Nat
  clkdie : BitVec 5
  clocks : FMap Nat
  /-- Power in W measured over the last 1 ms (R350). -/
  measured : Nat
deriving DecidableEq, Repr

/-- The reset page (R369): STATUS, TARGET, the rung to carry out, RSTDONE, READY. -/
structure ResetPage where
  status : BitVec 8
  target : BitVec 12
  rung : Nat
  done : Nat
  ready : BitVec 2
deriving DecidableEq, Repr

/-- The error log (R373): WRITTEN, SUMMARY and the records by ring position. -/
structure ErrRec where
  seq : Nat
  pt : Nat
  cls : Word
  detail : Word
deriving DecidableEq, Repr

structure ErrLog where
  written : Nat
  fatal : Bool
  sev1 : Nat
  sev0 : Nat
  recs : FMap ErrRec
  /-- Rate-limited records of the current second per cluster (R374): the second, and how many. -/
  limited : FMap (Nat × Nat)
deriving DecidableEq, Repr

/-- The hallmark record (R376). -/
structure Hallmark where
  boots : Nat
  retired : FMap (BitVec 5)
  counters : FMap Nat
deriving DecidableEq, Repr

/-- The security controller (R363). -/
structure SecCtl where
  debug : Bool
  life : BitVec 2
  tokpa : Word
  cmd : BitVec 4
  result : BitVec 8
  nonces : Nat
deriving DecidableEq, Repr

/-- A flacon page (R355). -/
structure Flacon where
  state : BitVec 2
  result : BitVec 8
  cmd : BitVec 4
  core : BitVec 10
  coreResult : BitVec 8
  coreOp : BitVec 2
  measpa : Word
  tagbase : Word
  taglo : Word
  taghi : Word
  measure : BitVec 512
  tagKey : Nat
  ctxKey : Nat
  debugLatch : Bool
deriving DecidableEq, Repr

/-- A key slot (R357); the key itself is known by an epoch number, 0 none. -/
structure KeySlot where
  owner : BitVec 8
  result : BitVec 8
  arg : BitVec 8
  cmd : BitVec 4
  state : BitVec 2
  flushed : Nat
  epoch : Nat
deriving DecidableEq, Repr

/-- A sealed save that has been written (R361): its context key and nonce, the plaintext of each segment (region kind and
payload), and the shape and the bytes of each register that its vector region holds. -/
structure Seal where
  key : Nat
  nonce : Word
  segs : List (Nat × List Byte)
  shape : Bool
  regBytes : Nat
deriving DecidableEq, Repr

/-- What a flit carries (R382). ofSeg: the ack is an engine's, of the segment that arrived under the SEQ (R388, R399;
log 23); else it is the link's, of everything up to the SEQ (R385). -/
inductive FlitBody where
  | idle
  | data (dst src : Nat) (seg : Segment)
  | ack (dst src seq : Nat) (ofSeg : Bool)
  | nak (seq : Nat)
  | marker (slot : Bool)
  | control (m : CtlMsg)
deriving DecidableEq, Repr

/-- A flit in a retry buffer: its SEQ and the key slot that its SEQ carries (R384, R385). -/
structure Kept where
  seq : Nat
  ks : Bool
  body : FlitBody
deriving DecidableEq, Repr

/-- A flit that has been sent: its link, SEQ, key slot, invocation counter (R383) and contents. -/
structure Sent where
  link : Nat
  seq : Nat
  ks : Bool
  count : Nat
  body : FlitBody
deriving DecidableEq, Repr

/-- A Selver link (R382 to R386, R390). -/
structure Link where
  state : BitVec 3
  tks : Bool
  rks : Bool
  replays : Nat
  deaths : Nat
  sendSeq : Nat
  recvSeq : Nat
  retry : List Kept
  /-- Flits that wait for room in the retry buffer, or for a link-retrain slot to end (R343, R385). -/
  backlog : List FlitBody
  /-- SEQ awaited after a failed flit, and how often it has failed in a row (R385, R386). -/
  awaited : Option Nat
  fails : Nat
  failSeq : Nat
  /-- Which key slots hold a key, each way, and the invocation counters of the send keys (R383, R384). -/
  txKeys : BitVec 2
  rxKeys : BitVec 2
  count0 : Nat
  count1 : Nat
  /-- A marker is due; SEQ of a marker sent and not yet acknowledged (R384). -/
  markerDue : Bool
  markerSeq : Option Nat
  /-- The module at the other end, as training tells it (R382, R383). -/
  peer : Nat
  /-- Flits accepted since the last ack was sent (R385). -/
  unacked : Nat
  /-- ns without a flit, link-retrain slots left out (R386). -/
  silent : Nat
  /-- Ingots borrowed and lent across this link, what the neighbour has asked for, and the ms of the last offer (R350). -/
  borrowed : Nat
  lent : Nat
  asked : Nat
  offered : Option Nat
deriving DecidableEq, Repr

/-- A group entry (R391). -/
structure Group where
  size : BitVec 12
  rank : BitVec 12
  core : BitVec 10
  active : Bool
  rerouted : Bool
  busy : Bool
  v : Bool
  tag : Word
  link : BitVec 6
  module : BitVec 14
  ncore : BitVec 10
  alink : BitVec 6
  av : Bool
  plink : BitVec 6
  pmodule : BitVec 14
  pcore : BitVec 10
  collno : Word
deriving DecidableEq, Repr

structure HStat where
  done : Nat
  reroutes : Nat
  last : BitVec 2
deriving DecidableEq, Repr

/-- A collective in flight at one rank (R396 to R399). -/
structure CollSt where
  hub : Nat
  group : Nat
  num : Word
  hid : Nat
  seq : Word
  kind : Nat
  op : Nat
  fo : Bool
  type : BitVec 4
  rm : Nat
  sat : Bool
  ftz : Bool
  count : Nat
  size : Nat
  rank : Nat
  /-- It holds its tiles, has read its source and has begun to send (R397, R398). -/
  opened : Bool
  /-- Source elements as read (R399), and the destination elements received so far by global element index. -/
  source : List Nat
  /-- Segments absorbed: chunk, offset, phase (R400). -/
  absorbed : List (Nat × Nat × Phase)
  /-- Segments sent and not acknowledged: link (36 within the module), link SEQ, segment (R399, R400). -/
  unacked : List (Nat × Nat × Segment)
  /-- Segments that wait for room in the engine's retention store (R400). -/
  waiting : List Segment
  /-- Destination elements written so far. -/
  written : Nat
  flags : BitVec 8
  rerouted : Bool
deriving DecidableEq, Repr

/-- Where a segment has come from: over a link under a SEQ from a module, or, link 36, from a rank of this module. -/
structure Origin where
  link : Nat
  seq : Nat
  src : Nat
deriving DecidableEq, Repr

structure Engine where
  dropped : Nat
  groups : FMap Group
  hstat : FMap HStat
  /-- Segments received for an entry whose collective has not started, or from a rank of this module. -/
  inbox : List (Origin × Segment)
deriving DecidableEq, Repr

/-- A data flit passed on to another module (R387): where it came from, and the link and SEQ under which it left. -/
structure Forward where
  origin : Origin
  out : Nat
  outSeq : Nat
deriving DecidableEq, Repr

/-- What reaches the machine from outside it, or its firmware and caches do of themselves, and no row of the opcode table
names (log 2, log 58). -/
inductive Outside where
  /-- A line of the host window is read into the caches, or a line of HBM or of the host window leaves them (R270, R328). -/
  | cacheLine (line : Nat)
  | evictLine (line : Nat)
  /-- An AtomicOp compare-and-swap of a doubleword through the function of a VI (R331). -/
  | hostCas (vi via : Nat) (expected new : Word)
  /-- A posted write through a BAR of a function (R375). -/
  | barWrite (vi bar off : Nat) (bytes : List Byte)
  /-- A read of n bytes through a BAR of a function (R375). -/
  | barRead (vi bar off n : Nat)
  /-- A link that has nothing else to send sends an idle flit (R382). -/
  | idleFlit (link : Nat)
  /-- The security controllers fill an erased key slot, of this module's sending or receiving direction (R384). -/
  | fillKey (link : Nat) (sends slot : Bool)
  /-- Firmware writes a route: the link toward a module (R387). -/
  | route (dst link : Nat)
  /-- The standby scheduler takes over (R337). -/
  | takeover
  /-- The power manager has measured the last 1 ms (R350). -/
  | measured (watts : Nat)
  /-- A fatal error of a kind that firmware cannot contain (R371). -/
  | fatalError
deriving DecidableEq, Repr

/-- Whose turn it is (log 2): a hart's generator (late: a plain store that it executes waits in the store path, R172), a hart's
queue (committing only positions and k-steps below upTo), an event, time that passes with nothing else, or something outside. -/
inductive Turn where
  | generator (hid : Nat) (late : Bool)
  | queue (hid : Nat) (upTo : Option Nat)
  | event (i : Instr)
  | elapse (ns : Nat)
  | outside (o : Outside)
deriving DecidableEq, Repr

/-- A page that firmware is moving (R317): to which frame, the page whose frame that is, which moves to the frame that becomes
empty, and since when. -/
structure Migration where
  page : Nat
  die : Nat
  frame : Nat
  other : Option Nat
  since : Nat
deriving DecidableEq, Repr

/-- An error reported through Advanced Error Reporting (R358, R375): the function, and whether it is a fatal Uncorrectable
Internal Error or the Completer Abort of a discarded write. -/
structure AerRec where
  fn : Nat
  fatal : Bool
deriving DecidableEq, Repr

/-- A control-page store that the device itself has still to perform (log 27): the trap-sink store of R191. -/
structure PostedStore where
  ag : Agent
  pa : Nat
  value : Word
deriving DecidableEq, Repr

/-- The whole module. -/
structure State where
  harts : FMap Hart
  cores : FMap CoreSt
  clusters : FMap ClusterSt
  mem : Memory
  tlb : List TlbEntry
  vis : FMap ViSt
  /-- Die and frame of each page that firmware has moved (R290, R316), and the move in progress (R317). -/
  frames : FMap (Nat × Nat)
  migration : Option Migration
  queues : FMap QueueSt
  teams : FMap TeamSt
  /-- Round-robin pointers of the scheduler: the queue served last within each effective class (R330). -/
  rrQueue : Vector Nat 4
  schedRunning : Bool
  standbyActive : Bool
  /-- PT by which the standby takes over from a scheduler core declared hung (R337). -/
  takeover : Option Nat
  pt : Nat
  calendar : Calendar
  power : Power
  resetPage : ResetPage
  errlog : ErrLog
  hallmark : Hallmark
  sec : SecCtl
  flacons : FMap Flacon
  keys : FMap KeySlot
  /-- The number of keys drawn so far: the next epoch (R356, R357). -/
  epochs : Nat
  seals : List Seal
  links : FMap Link
  engines : FMap Engine
  colls : List CollSt
  /-- The route table that firmware writes: link toward a module (R387), and the data flits passed on. -/
  routes : FMap Nat
  forwards : List Forward
  msix : List (Nat × Nat)
  aer : List AerRec
  /-- Hung Crucibles that rung 2 has not cleared: PT of the declaration by core (R372). -/
  hung : FMap Nat
  /-- MODEL: boot firmware has finished since the last whole-device reset (R366, R376). -/
  booted : Bool
  /-- MODEL: what happens next (log 2). -/
  agenda : List Turn
  /-- MODEL: the hart that an empty agenda runs, and the hart whose instruction exec carries out. -/
  focus : Nat
  cur : Nat
  /-- MODEL: a queue turn commits only positions below it, and performs only k-steps of a MOPM below it. -/
  laneLimit : Option Nat
  /-- MODEL: a plain store that executes now waits in the store path (R172). -/
  storeLate : Bool
  /-- MODEL: counter of the free values (log 7). -/
  free : Nat
  posted : List PostedStore
  /-- Every flit that the links have sent, in order (R382). -/
  outbox : List Sent
deriving DecidableEq, Repr

/-- Why a run stops outside the spec. -/
inductive Fault where
  /-- Raised by no meaning: kept for an access outside the package space, which translation already
  excludes. Safe: a claim can only become unprovable. -/
  | outsideSpace
deriving DecidableEq, Repr

/-- Why an instruction has no meaning. -/
inductive Refusal where
  /-- Raised by exec for an instruction that has no meaning yet. Safe. -/
  | notModelled (mnemonic : String)
deriving DecidableEq, Repr

def Window.none : Window where
  base := 0
  limit := 0

def TrapRec.reset : TrapRec where
  cause := 0
  gpc := 0
  thread := 0
  emitPc := 0
  seq := 0
  vstart := 0
  addr := 0
  port := 0
  sinkSeq := 0

/-- A hart slot at reset (INVENTORY.md; log 9). -/
def Hart.reset : Hart where
  ctl := .idle
  pc := 0
  sregs := Vector.replicate 64 0
  vregs := Vector.replicate 32 0
  tags := Vector.replicate 32 0
  masks := Vector.replicate 16 0
  vl := 0
  rows := 1
  vstart := 0
  rstate := 0
  kprog := 0
  vxsr := 0
  rct := true
  ict := true
  own := 0
  emitseq := 0
  bypth := 262144
  trapsink := 0
  ept := 24
  shape := false
  queue := []
  conv := Option.none
  lq0 := 0
  lq1 := 0
  lqVa0 := []
  lqVa1 := []
  rq := []
  rqHeld := []
  dirty := 0
  vstate := .absent
  trapRec := TrapRec.reset
  trapCount := 0
  pending := []
  windows := Vector.replicate 8 Window.none
  root := 0
  newWindows := Option.none
  newRoot := Option.none
  saveptr := 0
  saveStatus := 0
  saveJob := Option.none
  lastArea := Option.none
  reclaim := ⟨0, false, 0, 0, Option.none⟩
  vi := 0
  team := Option.none
  rank := 0
  farmGen := 0
  parent := Option.none
  awaitJoin := false
  barCount := Vector.replicate 7 0
  barArrived := Option.none
  wc := []
  images := []
  wait := Option.none
  stalled := false
  gStall := Option.none
  eStall := []
  genStopped := false
  gcount := 0
  qStopped := false
  timer := 0
  inWindow := false

/-- A tile-table entry after a wipe (R217). -/
def Tile.reset : Tile where
  state := .ready
  mode := .triad
  type := 12
  k := 0
  d := 0

def CoreSt.reset : CoreSt where
  flid := 0
  wb := Vector.replicate 64 0
  ab := Vector.replicate 32 0
  cb := Vector.replicate 16 0
  tiles := Vector.replicate 112 Tile.reset
  retired := 0
  gated := 0
  loans := []
  window := []
  quiet := 0

/-- A cluster at reset: the balance is the CAP of R347 (log 9), 16 permits each way (R336). -/
def ClusterSt.reset : ClusterSt where
  bal := 320
  waited := Option.none
  cmdPermits := 16
  repPermits := 16
  nextCmd := 1
  unacked := []
  carried := 0
  held := []
  reports := []
  unackedReports := 0
  running := true
  counters := []

def RangeReg.reset : RangeReg where
  vbase := 0
  vlast := 0
  pbase := 0
  key := 0
  kind := 0

def ViSt.reset : ViSt where
  ranges := Vector.replicate 16 RangeReg.reset
  rangegen := 0

def QueueSt.reset : QueueSt where
  ring := 0
  fault := false
  log2 := 0
  en := false
  tail := 0
  head := 0
  scan := 0
  stale := 0
  priocap := 3
  sinkt := 0
  savet := 0
  eptt := 24
  roott := 0
  wins := Vector.replicate 8 Window.none
  waiting := []
  finished := []
  waking := false

def TeamSt.free : TeamSt where
  active := false
  vi := 0
  queue := 0
  ringGone := false
  packet := ⟨0, 0, [], Option.none⟩
  members := []
  gens := []
  root := 0
  wins := Vector.replicate 8 Window.none
  ept := 24
  sinkt := 0
  savet := 0

def Flacon.empty : Flacon where
  state := 0
  result := 0
  cmd := 0
  core := 0
  coreResult := 0
  coreOp := 0
  measpa := 0
  tagbase := 0
  taglo := 0
  taghi := 0
  measure := 0
  tagKey := 0
  ctxKey := 0
  debugLatch := false

def KeySlot.empty : KeySlot where
  owner := 0
  result := 0
  arg := 0
  cmd := 0
  state := 0
  flushed := 0
  epoch := 0

def Link.reset : Link where
  state := 0
  tks := false
  rks := false
  replays := 0
  deaths := 0
  sendSeq := 0
  recvSeq := 0
  retry := []
  backlog := []
  awaited := Option.none
  fails := 0
  failSeq := 0
  txKeys := 0
  rxKeys := 0
  count0 := 0
  count1 := 0
  markerDue := false
  markerSeq := Option.none
  peer := 0
  unacked := 0
  silent := 0
  borrowed := 0
  lent := 0
  asked := 0
  offered := Option.none

def Group.reset : Group where
  size := 0
  rank := 0
  core := 0
  active := false
  rerouted := false
  busy := false
  v := false
  tag := 0
  link := 0
  module := 0
  ncore := 0
  alink := 0
  av := false
  plink := 0
  pmodule := 0
  pcore := 0
  collno := 0

def HStat.reset : HStat where
  done := 0
  reroutes := 0
  last := 0

def Engine.reset : Engine where
  dropped := 0
  groups := []
  hstat := []
  inbox := []

/-- The machine right after a whole-device reset, before boot firmware has run. -/
def State.reset : State where
  harts := []
  cores := []
  clusters := []
  mem := ⟨[], [], [], [], []⟩
  tlb := []
  vis := []
  frames := []
  migration := Option.none
  queues := []
  teams := []
  rrQueue := Vector.replicate 4 0
  schedRunning := true
  standbyActive := false
  takeover := Option.none
  pt := 0
  calendar := ⟨0, 0, 0, 0, 0, 0, [], Option.none, 0, Option.none, Option.none, [], []⟩
  power := ⟨320, 1, 8, 77, 360, 0, 0, 360, 0, 0, 159, 0, [], 0⟩
  resetPage := ⟨0, 0, 0, 0, 0⟩
  errlog := ⟨0, false, 0, 0, [], []⟩
  hallmark := ⟨0, [], []⟩
  sec := ⟨false, 1, 0, 0, 0, 0⟩
  flacons := []
  keys := []
  epochs := 0
  seals := []
  links := []
  engines := []
  colls := []
  routes := []
  forwards := []
  msix := []
  aer := []
  hung := []
  booted := false
  agenda := []
  focus := 0
  cur := 0
  laneLimit := Option.none
  storeLate := false
  free := 0
  posted := []
  outbox := []

end Sys2Proof.Machine
end

