-- ==== Sys2Proof/Machine/Base.lean ====
section
/-! DEFINITION. The plain accessors of the state: sparse tables, byte lists, the harts and units, registers,
lane clusters and bit fields. -/

namespace Sys2Proof.Machine

abbrev Result := Host.Outcome State Fault Refusal

/-! ### Sparse tables and byte lists -/

/-- The entry at a key, or the default. -/
def fmGet {α : Type} (m : FMap α) (dflt : α) (k : Nat) : α :=
  match m with
  | [] => dflt
  | (j, v) :: rest => if j = k then v else if k < j then dflt else fmGet rest dflt k

/-- The table with the entry at a key replaced or added, keys kept ascending. -/
def fmSet {α : Type} (m : FMap α) (k : Nat) (v : α) : FMap α :=
  match m with
  | [] => [(k, v)]
  | (j, w) :: rest => if k < j then (k, v) :: (j, w) :: rest else if j = k then (k, v) :: rest else (j, w) :: fmSet rest k v

/-- The entry at a key, if there is one. -/
def fmFind {α : Type} (m : FMap α) (k : Nat) : Option α := (m.find? fun x => x.1 == k).map (·.2)

/-- The byte at an address; an unlisted address reads 0 (log 1). -/
def byteAt (b : Bytes) (a : Nat) : Byte := fmGet b 0 a

/-- The bytes without an entry at an address. -/
def dropByte (b : Bytes) (a : Nat) : Bytes :=
  match b with
  | [] => []
  | (j, w) :: rest => if a < j then (j, w) :: rest else if j = a then rest else (j, w) :: dropByte rest a

/-- One byte written; writing 0 removes the entry, so equal memories are equal lists. -/
def setByte (b : Bytes) (a : Nat) (v : Byte) : Bytes :=
  if v = 0 then dropByte b a else fmSet b a v

/-- The canonical form of a sparse table: strictly rising keys, all at least lo, and no entry at the value that an absent key has. -/
def tableFrom {α : Type} [DecidableEq α] (zero : α) (lo : Nat) (m : FMap α) : Bool :=
  match m with
  | [] => true
  | (j, v) :: rest => decide (lo ≤ j) && decide (v ≠ zero) && tableFrom zero (j + 1) rest

/-- A little-endian value of n bytes (R4). -/
def joinBytes (bs : List Byte) : Nat :=
  match bs with
  | [] => 0
  | b :: rest => b.toNat + 256 * joinBytes rest

/-- The n low bytes of a value, least significant first (R4). -/
def splitBytes (n v : Nat) : List Byte :=
  match n with
  | 0 => []
  | k + 1 => BitVec.ofNat 8 v :: splitBytes k (v / 256)

/-! ### Bit fields -/

/-- Field of n bits starting at lo, as a number. -/
def field (w : Word) (lo n : Nat) : Nat := (w >>> lo).toNat % 2 ^ n

/-- The word with the field of n bits at lo set. -/
def putField (w : Word) (lo n v : Nat) : Word :=
  (w &&& ~~~(BitVec.ofNat 64 ((2 ^ n - 1) * 2 ^ lo))) ||| BitVec.ofNat 64 (v % 2 ^ n * 2 ^ lo)

def bit (w : Word) (i : Nat) : Bool := w.getLsbD i

def ofBool64 (b : Bool) : Word := if b then 1 else 0

def allOnes64 : Word := BitVec.allOnes 64

/-! ### Units and where they lie (R33) -/

def coreOf (hid : Nat) : Nat := hid / 4
def slotOf (hid : Nat) : Nat := hid % 4
def clusterOf (hid : Nat) : Nat := hid / 16
def dieOf (hid : Nat) : Nat := hid / 128
def hubOf (hid : Nat) : Nat := hid / 768

def hartAt (s : State) (hid : Nat) : Hart := fmGet s.harts Hart.reset hid
def setHart (s : State) (hid : Nat) (h : Hart) : State := { s with harts := fmSet s.harts hid h }
def curHart (s : State) : Hart := hartAt s s.cur
def setCur (s : State) (h : Hart) : State := setHart s s.cur h

def coreAt (s : State) (c : Nat) : CoreSt := fmGet s.cores CoreSt.reset c
def setCore (s : State) (c : Nat) (x : CoreSt) : State := { s with cores := fmSet s.cores c x }
def clusterAt (s : State) (c : Nat) : ClusterSt := fmGet s.clusters ClusterSt.reset c
def setCluster (s : State) (c : Nat) (x : ClusterSt) : State := { s with clusters := fmSet s.clusters c x }
def queueAt (s : State) (q : Nat) : QueueSt := fmGet s.queues QueueSt.reset q
def setQueue (s : State) (q : Nat) (x : QueueSt) : State := { s with queues := fmSet s.queues q x }
def teamAt (s : State) (t : Nat) : TeamSt := fmGet s.teams TeamSt.free t
def setTeam (s : State) (t : Nat) (x : TeamSt) : State := { s with teams := fmSet s.teams t x }
def viAt (s : State) (v : Nat) : ViSt := fmGet s.vis ViSt.reset v
def setVi (s : State) (v : Nat) (x : ViSt) : State := { s with vis := fmSet s.vis v x }
def flaconAt (s : State) (f : Nat) : Flacon := fmGet s.flacons Flacon.empty f
def setFlacon (s : State) (f : Nat) (x : Flacon) : State := { s with flacons := fmSet s.flacons f x }
def keyAt (s : State) (k : Nat) : KeySlot := fmGet s.keys KeySlot.empty k
def setKey (s : State) (k : Nat) (x : KeySlot) : State := { s with keys := fmSet s.keys k x }
def linkAt (s : State) (l : Nat) : Link := fmGet s.links Link.reset l
def setLink (s : State) (l : Nat) (x : Link) : State := { s with links := fmSet s.links l x }
def engineAt (s : State) (h : Nat) : Engine := fmGet s.engines Engine.reset h
def setEngine (s : State) (h : Nat) (x : Engine) : State := { s with engines := fmSet s.engines h x }

/-- A hart is resident in a slot unless its page reads IDLE (R249, R251). -/
def resident (s : State) (hid : Nat) : Bool := decide ((hartAt s hid).ctl ≠ .idle)

/-- The control word's numbers (R249). -/
def ctlCode : Ctl → Nat
  | .idle => 0 | .run => 1 | .stopDrain => 2 | .stopFreeze => 3 | .stopped => 4 | .trapped => 5

/-- RUN, STOP-DRAIN and STOP-FREEZE: the page is running (R255). -/
def running (h : Hart) : Bool :=
  match h.ctl with
  | .run | .stopDrain | .stopFreeze => true
  | .idle | .stopped | .trapped => false

/-! ### Scalar registers (R13) -/

/-- Read a scalar register; s0 reads zero. -/
def rd (h : Hart) (r : Reg) : Word := if r = 0 then 0 else h.sregs[r.toNat]'(r.isLt)

/-- Write a scalar register; s0 discards the write. -/
def wr (h : Hart) (r : Reg) (v : Word) : Hart :=
  if r = 0 then h else { h with sregs := h.sregs.set r.toNat v r.isLt }

/-- Read by number; a number above 63 reads 0 (R76). -/
def rdN (h : Hart) (n : Nat) : Word := if n < 64 then rd h (BitVec.ofNat 6 n) else 0

/-- PC of the next G-word (R82). -/
def nextPc (h : Hart) (bytes : Nat) : Hart := { h with pc := h.pc + BitVec.ofNat 64 bytes, stalled := false }

/-- A G-word that writes one register and goes on (R82). -/
def retire (s : State) (d : Reg) (v : Word) : State := setCur s (nextPc (wr (curHart s) d v) 4)

/-- A G-word that writes no register and goes on. -/
def advance (s : State) : State := setCur s (nextPc (curHart s) 4)

/-- A G-word that waits has not executed: PC stays at it (R119). -/
def waiting (s : State) : State := setCur s { curHart s with stalled := true }

/-- A hart stops waiting for what has just happened. -/
def wakeHart (s : State) (hid : Nat) : State :=
  if (hartAt s hid).stalled then setHart s hid { hartAt s hid with stalled := false } else s

/-- Every hart of a core stops waiting (SETVL for lanes, JOIN, FORK). -/
def wakeCore (s : State) (core : Nat) : State := (List.range 4).foldl (fun s i => wakeHart s (4 * core + i)) s

/-- Every hart stops waiting. -/
def wakeAll (s : State) : State := (s.harts.map (·.1)).foldl wakeHart s

/-! ### Lane clusters -/

def ownBits (own : BitVec 4) : List Nat := (List.range 4).filter fun i => own.getLsbD i
/-- LANES.COUNT (R33). -/
def laneCount (own : BitVec 4) : Nat := (ownBits own).length
def bits4 (l : List Nat) : BitVec 4 := l.foldl (fun b i => b ||| (1#4 <<< i)) 0

/-- A slot holds its lane clusters: a resident hart, or a child awaiting JOIN (R209, R214). -/
def holdsLanes (h : Hart) : Bool := h.ctl != .idle || h.awaitJoin

/-- Lane clusters of a core that the harts in its slots hold, one slot left out. -/
def ownedOnCore (s : State) (c butHid : Nat) : BitVec 4 :=
  (List.range 4).foldl (fun b i =>
    let h := hartAt s (4 * c + i)
    if 4 * c + i ≠ butHid && holdsLanes h then b ||| h.own else b) 0

/-- The elements per lane cluster of a width in bits under a shape (R23, R25). -/
def perLc (width : Nat) (shape : Bool) : Nat := 4096 / width * (if shape then 2 else 1)

/-- Bytes of each register that a hart's lanes hold (R14, R20). -/
def ownedBytes (own : BitVec 4) (shape : Bool) : Nat := 512 * laneCount own * (if shape then 2 else 1)

/-! ### Vector registers (R14, R20) -/

/-- The bits of register n under a shape: one slice, or two in the wide shape. -/
def vreg (h : Hart) (shape : Bool) (n : Nat) : BitVec 32768 :=
  if shape then
    ((h.vregs[2 * n + 1]?.getD 0).setWidth 32768 <<< 16384) ||| (h.vregs[2 * n]?.getD 0).setWidth 32768
  else (h.vregs[n]?.getD 0).setWidth 32768

/-- Register n replaced. -/
def setVreg (h : Hart) (shape : Bool) (n : Nat) (v : BitVec 32768) : Hart :=
  if shape then
    let low := h.vregs.setIfInBounds (2 * n) (v.setWidth 16384)
    { h with vregs := low.setIfInBounds (2 * n + 1) ((v >>> 16384).setWidth 16384) }
  else { h with vregs := h.vregs.setIfInBounds n (v.setWidth 16384) }

/-- n bits of a long vector from bit lo, as a number. -/
def bitsAt {w : Nat} (v : BitVec w) (lo n : Nat) : Nat := v.toNat / 2 ^ lo % 2 ^ n

/-- The long vector with n bits from bit lo replaced. -/
def putBits {w : Nat} (v : BitVec w) (lo n x : Nat) : BitVec w :=
  (v &&& ~~~(BitVec.ofNat w ((2 ^ n - 1) * 2 ^ lo))) ||| BitVec.ofNat w (x % 2 ^ n * 2 ^ lo)

/-- The low n bits of one vector over the rest of another. -/
def mergeLow {w : Nat} (lowPart highPart : BitVec w) (n : Nat) : BitVec w :=
  (lowPart &&& BitVec.ofNat w (2 ^ n - 1)) ||| (highPart &&& ~~~(BitVec.ofNat w (2 ^ n - 1)))

/-- A free value is taken: the counter moves on (log 7). -/
def freshWord (s : State) : Word × State := (Config.freeWord s.free, { s with free := s.free + 1 })

/-- Every register slice replaced by undefined data (R7, R21). -/
def freshVregs (s : State) : Vector (BitVec 16384) 32 × State :=
  (Vector.ofFn fun i => Config.freeReg (s.free + i.val), { s with free := s.free + 32 })

/-- Positions (R30): ROW and ELEM of a VSTART. -/
def posRow (p : Pos) : Nat := p.toNat / 2 ^ 28
def posElem (p : Pos) : Nat := p.toNat % 2 ^ 28
def mkPos (row elem : Nat) : Pos := BitVec.ofNat 32 (row * 2 ^ 28 + elem)

/-- The later of two positions. -/
def maxPos (p q : Pos) : Pos := if p.toNat ≤ q.toNat then q else p

/-- Repeat a state change for each item of a list. -/
def forEach {α β : Type} (l : List α) (b : β) (f : β → α → β) : β := l.foldl f b

end Sys2Proof.Machine
end

