-- ==== Sys2Proof/Machine/Memory.lean ====
section
/-! DEFINITION. Memory below translation: bytes by PA under key epochs (R358, R359) and poison (R272), and the
translation of an address to a PA (R85, R297 to R303, R307 to R313, R315). -/

namespace Sys2Proof.Machine

/-! ### Bytes by PA -/

/-- The canonical form of memory: bytes, key epochs and dirty lines each in rising order, with nothing listed that an unlisted address
reads as, so that equal memories are equal data; and a cached line is 128 bytes. -/
def Memory.wf (m : Memory) : Bool :=
  tableFrom 0 0 m.cells && tableFrom 0 0 m.locks && tableFrom 0 0 m.dirty && m.lines.all fun l => l.2.data.length == 128

/-- The key epoch of the 16-byte block that holds a byte; 0 is in the clear. -/
def lockAt (m : Memory) (a : Nat) : Nat := fmGet m.locks 0 (a / 16)

/-- The 16-byte block that holds a byte, as its writer sees it (R358). -/
def blockAt (m : Memory) (a : Nat) : BitVec 128 :=
  BitVec.ofNat 128 (joinBytes ((List.range 16).map fun i => byteAt m.cells (a / 16 * 16 + i)))

/-- What an agent that decrypts under an epoch (0: does not decrypt) reads at a PA (R358). -/
def viewByte (m : Memory) (epoch a : Nat) : Byte :=
  if lockAt m a = epoch then byteAt m.cells a
  else Config.cipherView (lockAt m a) epoch (a / 16) (blockAt m a) (a % 16)

/-- The table without an entry at a key. -/
def fmErase {α : Type} (m : FMap α) (k : Nat) : FMap α :=
  match m with
  | [] => []
  | (j, v) :: rest => if j = k then rest else (j, v) :: fmErase rest k

/-- The block of a byte brought under an epoch: its other bytes keep what a reader under that epoch sees (R359). -/
def relock (m : Memory) (epoch a : Nat) : Memory :=
  if lockAt m a = epoch then m
  else
    let b := a / 16 * 16
    { m with
      cells := (List.range 16).foldl (fun c i => setByte c (b + i) (viewByte m epoch (b + i))) m.cells
      locks := if epoch = 0 then fmErase m.locks (a / 16) else fmSet m.locks (a / 16) epoch }

/-- One byte stored under an epoch. -/
def writeByte (m : Memory) (epoch a : Nat) (v : Byte) : Memory :=
  let m := relock m epoch a
  { m with cells := setByte m.cells a v }

/-- Is some byte of a range poisoned (R272)? -/
def poisoned (m : Memory) (a n : Nat) : Bool := m.poison.any fun s => decide (a / 32 ≤ s ∧ s * 32 < a + n)

/-- The n bytes from a PA, as stored for a reader under an epoch. -/
def readBytes (m : Memory) (epoch a n : Nat) : List Byte := (List.range n).map fun i => viewByte m epoch (a + i)

/-- A little-endian value of n bytes (R4). -/
def readMem (m : Memory) (epoch a n : Nat) : Nat := joinBytes (readBytes m epoch a n)

/-- Bytes stored at a rising run of addresses. -/
def storeBytes (m : Memory) (epoch a : Nat) (bs : List Byte) : Memory :=
  match bs with
  | [] => m
  | b :: rest => storeBytes (writeByte m epoch a b) epoch (a + 1) rest

/-- A poisoned sector that one write of n bytes covers whole is poisoned no more (R272). -/
def healRange (m : Memory) (a n : Nat) : Memory :=
  { m with poison := m.poison.filter fun s => !decide (a ≤ s * 32 ∧ s * 32 + 32 ≤ a + n) }

/-- One write: its bytes are stored, and the sectors that it covers whole are healed. -/
def writeBytes (m : Memory) (epoch a : Nat) (bs : List Byte) : Memory := healRange (storeBytes m epoch a bs) a bs.length

/-- A little-endian value of n bytes stored. -/
def writeMem (m : Memory) (epoch a n v : Nat) : Memory := writeBytes m epoch a (splitBytes n v)

/-- Sectors poisoned: their data is lost (R272). -/
def poisonRange (m : Memory) (a n : Nat) : Memory :=
  { m with poison := (List.range (n / 32 + 2)).foldl (fun l i =>
      let s := a / 32 + i
      if s * 32 < a + n && !l.contains s then s :: l else l) m.poison }

/-! ### Caches (R269, R270, R328) -/

/-- The byte that the device's caches or, under an epoch, memory hold at a PA (R328). -/
def devByte (m : Memory) (epoch a : Nat) : Byte :=
  match fmFind m.lines (a / 128) with
  | some l => l.data[a % 128]?.getD 0
  | none => viewByte m epoch a

/-- The n bytes from a PA as an agent of a core reads them. -/
def devBytes (m : Memory) (epoch a n : Nat) : List Byte := (List.range n).map fun i => devByte m epoch (a + i)

def devMem (m : Memory) (epoch a n : Nat) : Nat := joinBytes (devBytes m epoch a n)

/-- A byte stored into a cached line. -/
def HostLine.put (l : HostLine) (i : Nat) (v : Byte) : HostLine :=
  { data := l.data.set i v, dirty := if l.dirty.contains i then l.dirty else i :: l.dirty }

/-- Bytes stored one by one, into cached lines where there are any. -/
def devStore (m : Memory) (epoch a : Nat) (bs : List Byte) : Memory :=
  match bs with
  | [] => m
  | b :: rest =>
    let m := match fmFind m.lines (a / 128) with
      | some l => { m with lines := fmSet m.lines (a / 128) (l.put (a % 128) b) }
      | none => writeByte m epoch a b
    devStore m epoch (a + 1) rest

/-- A line of a range is cached. -/
def lineIn (m : Memory) (a n : Nat) : Bool := m.lines.any fun l => decide (a / 128 ≤ l.1 ∧ l.1 * 128 < a + n)

/-- One write by an agent of a core: no line of the host window that it meets is cached, or the cached ones take it up. -/
def devWrite (m : Memory) (epoch a : Nat) (bs : List Byte) : Memory :=
  if lineIn m a bs.length then healRange (devStore m epoch a bs) a bs.length else writeBytes m epoch a bs

/-- Bytes of a line of the host window that memory has not got. -/
def HostLine.unsent (l : HostLine) : List Nat := (List.range 128).filter fun i => l.dirty.contains i

/-- The unsent bytes of a line of the host window stored in the host's memory. -/
def sendLine (m : Memory) (ln : Nat) (l : HostLine) : Memory :=
  l.unsent.foldl (fun m i => writeByte m 0 (ln * 128 + i) (l.data[i]?.getD 0)) m

/-- A line written back and kept clean. -/
def cleanLine (m : Memory) (ln : Nat) : Memory :=
  let m := { m with dirty := fmErase m.dirty ln }
  match fmFind m.lines ln with
  | some l => { sendLine m ln l with lines := fmSet m.lines ln { l with dirty := [] } }
  | none => m

/-- A line written back and discarded. -/
def dropLine (m : Memory) (ln : Nat) : Memory :=
  let m := cleanLine m ln
  { m with lines := fmErase m.lines ln }

/-- The L2 bank of a line (R269). -/
def bankOf (pa : Nat) : Nat := (pa / 128 ^^^ pa / 2 ^ 11 ^^^ pa / 2 ^ 15 ^^^ pa / 2 ^ 19) % 16

/-- Two lines lie in one of the 256 sets of one bank (R269). -/
def sameSet (a b : Nat) : Bool := bankOf (128 * a) == bankOf (128 * b) && Config.l2Set a % 256 == Config.l2Set b % 256

/-- Ways of a set (R269). -/
def l2Ways : Nat := 12

/-- Dirty lines that a cluster's L2 holds in the set of a line. -/
def dirtySet (m : Memory) (cluster ln : Nat) : List Nat :=
  (m.dirty.filter fun d => d.2 == cluster + 1 && sameSet d.1 ln).map (·.1)

/-- Room for a dirty line in a cluster's L2: of a set whose ways are all dirty one line is written back (R269). -/
def makeRoom (m : Memory) (cluster ln : Nat) : Memory :=
  if m.dirty.length < l2Ways || fmGet m.dirty 0 ln == cluster + 1 then m
  else
    let set := dirtySet m cluster ln
    if set.length < l2Ways then m
    else match set[Config.l2Victim ln % set.length]? with
      | some v => cleanLine m v
      | none => m

/-- A line that a write leaves dirty in the L2 of a cluster: one of HBM, or a cached one of the host window. -/
def markLine (m : Memory) (cluster ln : Nat) : Memory :=
  if Config.hbmBytes ≤ ln * 128 && (fmFind m.lines ln).isNone then m
  else
    let m := makeRoom m cluster ln
    { m with dirty := fmSet m.dirty ln (cluster + 1) }

/-- The lines that n bytes from a PA lie in, held dirty by the L2 of a cluster (R269). -/
def markDirty (m : Memory) (cluster a n : Nat) : Memory :=
  ((List.range (n / 128 + 2)).map (a / 128 + ·)).foldl (fun m ln => if ln * 128 < a + n then markLine m cluster ln else m) m

/-- A line of the host window read into the caches. -/
def fillLine (m : Memory) (ln : Nat) : Memory :=
  if (fmFind m.lines ln).isSome || ln * 128 < Config.hostBase || Config.ctlBase ≤ ln * 128 then m
  else { m with lines := fmSet m.lines ln ⟨readBytes m 0 (ln * 128) 128, []⟩ }

/-- Lines that some cache holds. -/
def heldLines (m : Memory) : List Nat := m.lines.map (·.1) ++ m.dirty.map (·.1)

/-- Cached lines of a range (R328): its lines written back, and discarded or kept clean. -/
def sweepLines (m : Memory) (a n : Nat) (discard : Bool) : Memory :=
  ((heldLines m).filter fun ln => decide (a / 128 ≤ ln ∧ ln * 128 < a + n)).foldl
    (fun m ln => if discard then dropLine m ln else cleanLine m ln) m

/-- Every cached line of the host window written back: what a release at system scope covers is sent (R181). -/
def cleanAll (m : Memory) : Memory := (m.lines.map (·.1)).foldl cleanLine m

/-- The byte of a PA as an agent of the package with no cache of its own sees it: what harts have written and no cache has
sent stands before memory (R328). -/
def freshByte (m : Memory) (a : Nat) : Byte :=
  match fmFind m.lines (a / 128) with
  | some l => if l.dirty.contains (a % 128) then l.data[a % 128]?.getD 0 else viewByte m 0 a
  | none => viewByte m 0 a

def freshBytesAt (m : Memory) (a n : Nat) : List Byte := (List.range n).map fun i => freshByte m (a + i)

def freshMem (m : Memory) (a n : Nat) : Nat := joinBytes (freshBytesAt m a n)

/-- A byte that such an agent has written stands in a cached line too, clean. -/
def patchLines (m : Memory) (a : Nat) (bs : List Byte) : Memory :=
  match bs with
  | [] => m
  | b :: rest =>
    let m := match fmFind m.lines (a / 128) with
      | some l => { m with lines := fmSet m.lines (a / 128) ⟨l.data.set (a % 128) b, l.dirty.filter (· != a % 128)⟩ }
      | none => m
    patchLines m (a + 1) rest

/-- A write by such an agent, in the clear. -/
def uncachedWrite (m : Memory) (a : Nat) (bs : List Byte) : Memory :=
  let m := writeBytes m 0 a bs
  if lineIn m a bs.length then patchLines m a bs else m

/-! ### Stage 2 (R307 to R313) -/

/-- The fixed range registers of VI 0 (R313). -/
def viZeroRange (n : Nat) : RangeReg :=
  if n = 0 then ⟨0, 0xB3FFF80000, 0, 0, 1⟩
  else if n = 1 then ⟨0x800000000000, 0xBFFFFFF80000, 0x800000000000, 0, 2⟩
  else if n = 2 then ⟨0xC00000000000, 0xFFFFFFF80000, 0xC00000000000, 0, 3⟩
  else RangeReg.reset

/-- Range register n of a VI. -/
def rangeReg (s : State) (vi n : Nat) : RangeReg :=
  if vi = 0 then viZeroRange n else (viAt s vi).ranges[n]?.getD RangeReg.reset

/-- A place in the package space: its PA, the key slot of its range, and the KIND of its region. -/
structure Place where
  pa : Nat
  key : BitVec 8
  kind : BitVec 2
deriving DecidableEq, Repr

/-- Stage 2 (R311): the first register of nonzero KIND that contains the VIA's page. -/
def stageTwo (s : State) (vi via : Nat) : Option Place :=
  ((List.range 16).map (rangeReg s vi)).findSome? fun r =>
    if r.kind ≠ 0 ∧ r.vbase / 2 ^ 19 ≤ via / 2 ^ 19 ∧ via / 2 ^ 19 ≤ r.vlast / 2 ^ 19 then
      some ⟨via - r.vbase + r.pbase, r.key, r.kind⟩
    else none

/-! ### Stage 1 (R298 to R303) -/

/-- Kinds of access (R300, R301, R315): code of R190, alignment, and where the access is not permitted. -/
structure Access where
  code : Nat
  /-- Alignment required in bytes; 1 for none. -/
  align : Nat
  /-- A misaligned address is class 2 of a G-word; otherwise reason 4 (R301). -/
  gword : Bool
  /-- Not permitted on a control page (reason 5: R165, R315). -/
  noCtl : Bool
  /-- Not carried to the host window (reason 6: R106, R165). -/
  noHost : Bool
  /-- The agent belongs to the open world whatever the hart's (R352): an Accord engine. -/
  outer : Bool
  /-- It is translated by a lane-group unit: a vector access, a MOPM operand, a global operand of CPY (R273). -/
  byUnit : Bool
deriving DecidableEq, Repr

/-- The permission bits X, W, R that an access needs (R300), in the places [4:2] of an entry. -/
def Access.needs (k : Access) : Nat :=
  if k.code = 0 then 0b100 else if k.code = 1 then 0b001 else if k.code = 2 then 0b010 else 0b011

/-- Why an address gives no access: misaligned (class 2), a reason of R190, or a key absent (R358). An access to a page
whose key is being revoked stalls (R362). -/
inductive XFail where
  | misaligned
  | reason (r : Nat)
  | keyAbsent (slot : BitVec 8) (otherOwner : Bool)
  | stalls (slot : BitVec 8)
deriving DecidableEq, Repr

/-- Read a table entry as the walker does: device memory of kind 1, unkeyed, not poisoned (R298, R358). The PA comes
with it. -/
def walkRead (s : State) (vi via : Nat) : Option (Word × Nat) :=
  match stageTwo s vi via with
  | none => none
  | some p =>
    if p.kind = 1 ∧ p.key = 0 ∧ poisoned s.mem p.pa 8 = false then
      some (BitVec.ofNat 64 (readMem s.mem 0 p.pa 8), p.pa)
    else none

/-- An entry keeps the zero bits of R299: [63:48] and [18:5]. -/
def entryOk (e : Word) : Bool := bit e 0 && field e 48 16 == 0 && field e 5 14 == 0

/-- FRAME of an entry: VIA[47:19] in place. -/
def entryFrame (e : Word) : Nat := field e 19 29 * 2 ^ 19

/-- What a walk finds: the VIA page (in units of 512 KiB), or of a block the first of its pages, the permissions RWX, the PAs of
the entries read, and whether it is a block. -/
structure Walked where
  page : Nat
  perm : Nat
  derived : List Nat
  block : Bool
deriving DecidableEq, Repr

/-- The walk of R298. -/
def walk (s : State) (vi : Nat) (root : Word) (va : Nat) : Option Walked :=
  if bit root 0 = false then none
  else
    match walkRead s vi (entryFrame root + 8 * (va / 2 ^ 35)) with
    | none => none
    | some (u, pu) =>
      if entryOk u = false then none
      else if bit u 1 then
        if field u 19 16 ≠ 0 then none
        else some ⟨entryFrame u / 2 ^ 19, field u 2 3, [pu], true⟩
      else if field u 2 3 ≠ 0 then none
      else
        match walkRead s vi (entryFrame u + 8 * (va / 2 ^ 19 % 2 ^ 16)) with
        | none => none
        | some (l, pl) =>
          if entryOk l = false || bit l 1 then none else some ⟨entryFrame l / 2 ^ 19, field l 2 3, [pu, pl], false⟩

/-- The cluster TLB among the structures of R273; 0 to 15 are the lane-group units. -/
def tlbUnit : Nat := 16

/-- The structure that translates an access first. DESIGN CHOICE: R273 puts a unit beside each bank port and does not say which serves
which address; the model goes by the bank number of the VA (log 6). -/
def unitOf (k : Access) (va : Nat) : Nat := if k.byUnit then bankOf va else tlbUnit

/-- Pages of a 32 GiB block (R299). -/
def blockPages : Nat := 2 ^ 16

/-- The tags of a cached translation (R273), and the structure that holds it. -/
def TlbEntry.tagged (t : TlbEntry) (cluster vi : Nat) (root : Word) (vpn unit : Nat) : Bool :=
  t.cluster == cluster && t.vi == vi && t.root == root &&
    (if t.block then t.vpn / blockPages == vpn / blockPages else t.vpn == vpn) && t.unit == unit

/-- The VIA page to which a cached translation leads a page. -/
def TlbEntry.pageAt (t : TlbEntry) (vpn : Nat) : Nat := if t.block then t.viaPage + vpn % blockPages else t.viaPage

/-- What a walk for a page leaves in a structure. -/
def Walked.entry (w : Walked) (cluster vi : Nat) (root : Word) (vpn unit : Nat) : TlbEntry :=
  ⟨cluster, vi, root, if w.block then vpn / blockPages * blockPages else vpn, w.page, BitVec.ofNat 3 w.perm, w.derived, [], unit, w.block⟩

/-- The translation that an access of a cluster's hart uses: what its unit holds, else what the cluster TLB holds, else the
walk's (R273, R274, R275). -/
def stageOne (s : State) (cluster vi : Nat) (root : Word) (va unit : Nat) : Option TlbEntry :=
  let vpn := va / 2 ^ 19
  match (s.tlb.find? (·.tagged cluster vi root vpn unit)).orElse fun _ => s.tlb.find? (·.tagged cluster vi root vpn tlbUnit) with
  | some t => if bit root 0 then some { t with unit := unit } else none
  | none => (walk s vi root va).map fun w => w.entry cluster vi root vpn unit

/-- A valid window that contains a page with every needed permission (R300, R302). -/
def windowAllows (w : Window) (page needs : Nat) : Bool :=
  bit w.limit 0 && decide (field w.base 19 29 ≤ page ∧ page ≤ field w.limit 19 29) &&
    Nat.land (field w.limit 2 3) needs == needs

/-- The world of an agent (R352). -/
def worldOf (s : State) (hid : Nat) : BitVec 8 := (coreAt s (coreOf hid)).flid

/-- The key epoch under which a place is read and written; 0 for an unkeyed one. -/
def epochOf (s : State) (key : BitVec 8) : Nat := if key = 0 then 0 else (keyAt s key.toNat).epoch

/-- Is a keyed place open to a world (R358)? While the slot is REVOKING every access stalls, and one that has stalled finds the key
absent afterwards, whatever has become of the slot (R362). -/
def keyCheck (s : State) (stalled : List (BitVec 8)) (world key : BitVec 8) : Option XFail :=
  if key = 0 then none
  else
    let k := keyAt s key.toNat
    if k.state = 2 then some (.stalls key)
    else if stalled.contains key || k.state ≠ 1 then some (.keyAbsent key false)
    else if k.owner ≠ world then some (.keyAbsent key true)
    else none

/-- What an address leads to, and the cached translation that the access leaves (R273, R275). -/
structure Xlat where
  place : Place
  entry : TlbEntry
deriving DecidableEq, Repr

/-- Key slots whose revocation has stalled an access of this kind of a hart (R362). -/
def stalledOn (h : Hart) (k : Access) : List (BitVec 8) := if k.gword then h.gStall.toList else h.eStall

/-- The translation of a VA for an access of a hart, reporting the first failure of R301. -/
def translate (s : State) (hid : Nat) (k : Access) (va : Word) : Except XFail Xlat :=
  let h := hartAt s hid
  if field va 51 13 ≠ 0 then .error (.reason 3)
  else if va.toNat % k.align ≠ 0 then .error (if k.gword then .misaligned else .reason 4)
  else
    match stageOne s (clusterOf hid) h.vi h.root va.toNat (unitOf k va.toNat) with
    | none => .error (.reason 0)
    | some t =>
      let page := t.pageAt (va.toNat / 2 ^ 19)
      if Nat.land t.perm.toNat k.needs ≠ k.needs then .error (.reason 2)
      else if !(h.windows.toList.any fun w => windowAllows w page k.needs) then .error (.reason 1)
      else
        match stageTwo s h.vi (page * 2 ^ 19 + va.toNat % 2 ^ 19) with
        | none => .error (.reason 0)
        | some p =>
          if p.kind = 3 && k.noCtl then .error (.reason 5)
          else if p.kind = 2 && k.noHost then .error (.reason 6)
          else
            match keyCheck s (stalledOn h k) (if k.outer then 0 else worldOf s hid) p.key with
            | some f => .error f
            | none => .ok ⟨p, t⟩

/-- Two entries contend for one place: in a unit any two, in the 512 sets of a TLB those of one set (R273). -/
def TlbEntry.contends (t x : TlbEntry) : Bool :=
  x.cluster == t.cluster && x.unit == t.unit &&
    (t.unit != tlbUnit || Config.tlbSet x.vpn % 512 == Config.tlbSet t.vpn % 512)

/-- Entries that contend: 64 of a unit, 8 ways of a TLB's set. -/
def tlbRoom (unit : Nat) : Nat := if unit = tlbUnit then 8 else 64

/-- A translation put into its structure; a full one drops its oldest. -/
def fillTlb (l : List TlbEntry) (t : TlbEntry) : List TlbEntry :=
  if l.any (·.tagged t.cluster t.vi t.root t.vpn t.unit) then l
  else if l.length < tlbRoom t.unit then t :: l
  else
    let there := l.filter t.contends
    t :: (if there.length < tlbRoom t.unit then l
      else match there.getLast? with
        | some x => l.erase x
        | none => l)

/-- A translation that succeeded is cached (R275): in the cluster TLB, and in the unit that has served the access (R274). -/
def cacheEntry (s : State) (t : TlbEntry) : State :=
  let l := fillTlb s.tlb { t with unit := tlbUnit }
  { s with tlb := if t.unit = tlbUnit then l else fillTlb l t }

def cacheXlat (s : State) (x : Xlat) : State := cacheEntry s x.entry

/-- A walk for a hart made of itself (R304): what it finds inside the context's windows replaces what the cluster TLB holds. -/
def walkAgain (s : State) (hid : Nat) (va : Word) : State :=
  let h := hartAt s hid
  let vpn := va.toNat / 2 ^ 19
  match walk s h.vi h.root va.toNat with
  | none => s
  | some w =>
    let t := w.entry (clusterOf hid) h.vi h.root vpn tlbUnit
    if field va 51 13 = 0 && h.windows.toList.any (fun x => windowAllows x (t.pageAt vpn) 0) then
      { s with tlb := fillTlb (s.tlb.filter fun x => !x.tagged t.cluster t.vi t.root vpn tlbUnit) t }
    else s

/-- Cached translations derived from one of the n bytes that a hart stores (R108). -/
def noteTables (s : State) (hid a n : Nat) : State :=
  if s.tlb.isEmpty then s
  else { s with tlb := s.tlb.map fun t =>
    if (t.derived.any fun p => decide (p < a + n ∧ a < p + 8)) && !t.storedBy.contains hid then
      { t with storedBy := hid :: t.storedBy }
    else t }

/-- A store by a hart's G-words or E-words, or its core's engines, that performs: the bytes, the lines that it leaves dirty,
and the cached translations that it leaves stale. -/
def hartStore (s : State) (hid epoch a : Nat) (bs : List Byte) : State :=
  noteTables { s with mem := devWrite (markDirty s.mem (clusterOf hid) a bs.length) epoch a bs } hid a bs.length

/-- Every cached translation of a VI removed (R308). -/
def dropVi (s : State) (vi : Nat) : State := { s with tlb := s.tlb.filter fun t => t.vi != vi }

/-- Every translation that a hart's cluster has cached for its context's root removed (R303, R371). -/
def dropContext (s : State) (hid : Nat) : State :=
  let h := hartAt s hid
  { s with tlb := s.tlb.filter fun t => !(t.cluster == clusterOf hid && t.vi == h.vi && t.root == h.root) }

/-- The context leaves IDLE, STOPPED or TRAPPED (R303): windows and a root stored before take effect, and what was cached
under the old ones goes. -/
def takeWindows (s : State) (hid : Nat) : State :=
  let s := dropContext s hid
  let h := hartAt s hid
  if h.newWindows.isNone && h.newRoot.isNone then s
  else
    dropContext (setHart s hid { h with
      windows := h.newWindows.getD h.windows, root := h.newRoot.getD h.root, newWindows := none, newRoot := none }) hid

/-! ### What accesses need -/

def fetchAccess : Access := ⟨0, 4, true, true, false, false, false⟩
def loadAccess (n : Nat) : Access := ⟨1, n, true, false, false, false, false⟩
def storeAccess (n : Nat) : Access := ⟨2, n, true, false, false, false, false⟩
/-- The trap-sink store is a plain 8-byte write (R191). -/
def sinkAccess : Access := ⟨2, 8, false, false, false, false, false⟩

/-! ### Stores that wait (R99, R172) -/

/-- A waiting store performed; a non-temporal one of HBM leaves no line in the L2 (R99). -/
def performStore (s : State) (hid : Nat) (w : WcStore) : State :=
  let bs := splitBytes w.width w.value.toNat
  if w.nt && decide (w.pa < Config.hbmBytes) then
    noteTables { s with mem := devWrite s.mem w.epoch w.pa bs } hid w.pa w.width
  else hartStore s hid w.epoch w.pa bs

/-- Waiting stores of a hart performed, oldest first. -/
def performStores (s : State) (hid : Nat) (l : List WcStore) : State := l.foldl (fun s w => performStore s hid w) s

/-- A hart's waiting stores performed. -/
def drainWc (s : State) (hid : Nat) : State :=
  let h := hartAt s hid
  if h.wc = [] then s else performStores (setHart s hid { h with wc := [] }) hid h.wc

/-- Performed if one of them overlaps n bytes at a PA (R175: same-address dependence of G-words). -/
def drainOverlap (s : State) (hid pa n : Nat) : State :=
  if (hartAt s hid).wc.any fun w => decide (w.pa < pa + n ∧ pa < w.pa + w.width) then drainWc s hid else s

/-- A release of a hart at system scope: its waiting stores perform, and what the caches hold of the host window is sent
(R99, R181). -/
def releaseStores (s : State) (hid : Nat) : State :=
  let s := drainWc s hid
  { s with mem := cleanAll s.mem }

end Sys2Proof.Machine
end

