-- ==== Sys2Proof/Machine/Ops.lean ====
section
/-! DEFINITION. Taking a trap and returning from one (R186 to R192), and the ends of a hart that several
meanings share. -/

namespace Sys2Proof.Machine

/-! ### Faults (R190) -/

/-- A G-level fault: no provenance (R189). -/
def gFaultRec (cls code : Nat) (addr : Word) : FaultRec :=
  ⟨false, BitVec.ofNat 8 cls, BitVec.ofNat 20 code, addr, 0, 0, 0, 0⟩

/-- An E-level fault of a queued word. -/
def eFaultRec (e : Entry) (cls code : Nat) (addr port : Word) : FaultRec :=
  ⟨true, BitVec.ofNat 8 cls, BitVec.ofNat 20 code, addr, port, e.thread, e.emitPc, e.seq⟩

/-- Class and code of an access that failed: E-words 16 and 23, G-words 2, 3 and 10 (R190, R301). Class 0 stands for an
access that stalls on a key slot (R362): it is no fault. -/
def xfailClass (eword : Bool) (acc : Nat) (f : XFail) : Nat × Nat :=
  match f with
  | .misaligned => (2, 0)
  | .reason r => (if eword then 16 else 3, r + 16 * acc)
  | .keyAbsent slot other => (if eword then 23 else 10, slot.toNat + if other then 256 else 0)
  | .stalls slot => (0, slot.toNat)

/-- A fault record that stands for an access that stalls (R362). -/
def FaultRec.stalls (f : FaultRec) : Bool := f.cls == 0

/-- CAUSE (R189). -/
def causeWord (f : FaultRec) (sinkf : Bool) : Word :=
  BitVec.ofNat 64 ((if sinkf then 2 ^ 29 else 0) + (if f.elevel then 2 ^ 28 else 0) + f.cls.toNat * 2 ^ 20 + f.code.toNat)

/-- Step 4 of R191: the count stored to the sink, and whether that store failed. A keyed sink fails (R358); a
sink on a control page is posted (log 27). -/
def storeSink (s : State) (hid : Nat) (count : Word) : State × Bool :=
  let h := hartAt s hid
  if h.trapsink = 0 then (s, false)
  else
    match translate s hid sinkAccess h.trapsink with
    | .error _ => (s, true)
    | .ok x =>
      let s := cacheXlat s x
      if x.place.key ≠ 0 then (s, true)
      else if x.place.kind = 3 then ({ s with posted := s.posted ++ [⟨.hart hid, x.place.pa, count⟩] }, false)
      else
        ({ s with mem := devWrite (markDirty s.mem (clusterOf hid) x.place.pa 8) 0 x.place.pa (splitBytes 8 count.toNat) }, false)

/-- The trap record of a fault (R189). -/
def trapRecord (h : Hart) (f : FaultRec) (sinkf : Bool) : TrapRec where
  cause := causeWord f sinkf
  gpc := h.pc
  thread := f.thread.setWidth 64
  emitPc := f.emitPc
  seq := f.seq
  vstart := h.vstart.setWidth 64
  addr := f.addr
  port := f.port
  sinkSeq := h.trapCount + 1

/-- TAKING A TRAP (R191): the record written, the control word TRAPPED, the count raised, the sink stored. The
waiting G-word has not executed (R187), a barrier arrival is withdrawn (R284), and an E-level fault stops the queue. -/
def deliverTrap (s : State) (hid : Nat) (f : FaultRec) : State :=
  let h := hartAt s hid
  let (s, sinkf) := storeSink s hid (h.trapCount + 1)
  setHart s hid { h with
    ctl := .trapped
    trapRec := trapRecord h f sinkf
    trapCount := h.trapCount + 1
    qStopped := f.elevel || h.qStopped
    stalled := false
    gStall := none
    wait := none
    barArrived := none
    genStopped := false
    gcount := 0 }

/-- A G-level fault of the current hart's G-word (R186). -/
def gFault (s : State) (cls code : Nat) (addr : Word) : State := deliverTrap s s.cur (gFaultRec cls code addr)

/-- The illegal-instruction fault, class 1. -/
def illegalG (s : State) : State := gFault s 1 0 0

/-- A G-word whose access failed; one that stalls waits (R362). -/
def gXfail (s : State) (acc : Nat) (va : Word) (f : XFail) : State :=
  match f with
  | .stalls slot => waiting (setCur s { curHart s with gStall := some slot })
  | f =>
    let (cls, code) := xfailClass false acc f
    gFault s cls code va

/-- An E-level fault (R187, R188): delivered, or kept pending, behind those that are, when the hart is already TRAPPED. -/
def raiseE (s : State) (hid : Nat) (f : FaultRec) : State :=
  let h := hartAt s hid
  if h.ctl = .trapped then setHart s hid { h with pending := h.pending ++ [f], qStopped := true }
  else deliverTrap s hid f

/-- RETURNING FROM A TRAP or a stop (R192, R250): the hart runs again from PC, its queue from its head; the timer
restarts (R248); translations under old windows go (R303). A pending fault is delivered first, and those behind it at the next RUNs (R188). -/
def resumeHart (s : State) (hid : Nat) : State :=
  let s := takeWindows s hid
  let h := hartAt s hid
  let s := setHart s hid { h with
    ctl := .run, qStopped := false, stalled := false, genStopped := false, gcount := 0, timer := 0, pending := h.pending.drop 1 }
  match h.pending with
  | f :: _ => deliverTrap s hid f
  | [] => s

/-! ### The return queue (R203) -/

/-- Entries pushed by a word, oldest first. -/
def pushRq (h : Hart) (vs : List Word) : Hart := { h with rq := h.rq ++ vs }

/-! ### The end of a hart -/

/-- Flags ORed into VXSR (R31, R92). -/
def orFlags (h : Hart) (f : BitVec 8) : Hart := { h with vxsr := h.vxsr ||| f }

/-- The tiles of claims become EMPTY (R254, R371, R401). -/
def releaseTiles (s : State) (core : Nat) (l : List Nat) : State :=
  let c := coreAt s core
  setCore s core { c with tiles := l.foldl (fun t i =>
    t.setIfInBounds i { t[i]?.getD Tile.reset with state := .empty }) c.tiles }

/-- A hart's harts count as ended for its team (R334): halted or not. -/
def memberEnded (s : State) (hid : Nat) (halted : Bool) : State :=
  match (hartAt s hid).team with
  | none => s
  | some t =>
    let x := teamAt s t
    setTeam s t { x with members := x.members.map fun m =>
      if m.hid = hid && m.launched && !m.ended then { m with ended := true, halted := halted } else m }

/-- Every halt, and any other end of a hart of a team, is reported by its leaf controller (R334, R336). -/
def noteReport (s : State) (hid : Nat) (halted : Bool) : State :=
  let c := clusterAt s (clusterOf hid)
  if halted || (hartAt s hid).team.isSome then setCluster s (clusterOf hid) { c with reports := c.reports ++ [hid] } else s

end Sys2Proof.Machine
end

