-- ==== Sys2Proof/Machine/Flags.lean ====
section
/-! DEFINITION. Element types (R34), the sticky flags of VXSR (R31) and how integer results are fitted to a type
and flagged (R36 to R39); the residue containers of T3 (R50 to R55). -/

namespace Sys2Proof.Machine

/-! ### Flags (R31) -/

abbrev Flags := BitVec 8
def flagNV : Flags := 0x01
def flagDZ : Flags := 0x02
def flagOF : Flags := 0x04
def flagUF : Flags := 0x08
def flagNX : Flags := 0x10
def flagSAT : Flags := 0x20
def flagICX : Flags := 0x40
def flagRCR : Flags := 0x80
def flagIf (b : Bool) (f : Flags) : Flags := if b then f else 0

/-! ### Types (R34) -/

inductive Ty where
  | i4 | i8 | u8 | i16 | u16 | i32 | u32 | i64 | fp16 | bf16 | fp32 | t3
deriving DecidableEq, Repr

/-- The type of a tag code; NONE and the reserved codes have none. -/
def tyOf (c : BitVec 4) : Option Ty :=
  match c.toNat with
  | 1 => some .i4 | 2 => some .i8 | 3 => some .u8 | 4 => some .i16 | 5 => some .u16 | 6 => some .i32
  | 7 => some .u32 | 8 => some .i64 | 9 => some .fp16 | 10 => some .bf16 | 11 => some .fp32 | 12 => some .t3
  | _ => none

def tyCode : Ty → BitVec 4
  | .i4 => 1 | .i8 => 2 | .u8 => 3 | .i16 => 4 | .u16 => 5 | .i32 => 6 | .u32 => 7 | .i64 => 8
  | .fp16 => 9 | .bf16 => 10 | .fp32 => 11 | .t3 => 12

def tyWidth : Ty → Nat
  | .i4 => 4 | .i8 | .u8 => 8 | .i16 | .u16 | .fp16 | .bf16 => 16 | .i32 | .u32 | .fp32 | .t3 => 32 | .i64 => 64

def tyIsInt : Ty → Bool
  | .i4 | .i8 | .u8 | .i16 | .u16 | .i32 | .u32 | .i64 => true
  | .fp16 | .bf16 | .fp32 | .t3 => false

def tyIsFp : Ty → Bool
  | .fp16 | .bf16 | .fp32 => true
  | .i4 | .i8 | .u8 | .i16 | .u16 | .i32 | .u32 | .i64 | .t3 => false

def tySigned : Ty → Bool
  | .i4 | .i8 | .i16 | .i32 | .i64 => true
  | .u8 | .u16 | .u32 | .fp16 | .bf16 | .fp32 | .t3 => false

/-! ### Integers (R36 to R39) -/

/-- The number an integer element's bits denote. -/
def intOf (t : Ty) (x : Nat) : Int :=
  if tySigned t && x ≥ 2 ^ (tyWidth t - 1) then (x : Int) - 2 ^ tyWidth t else x

/-- Smallest and largest numbers of an integer type. -/
def tyMin (t : Ty) : Int := if tySigned t then -(2 ^ (tyWidth t - 1)) else 0
def tyMax (t : Ty) : Int := if tySigned t then 2 ^ (tyWidth t - 1) - 1 else 2 ^ tyWidth t - 1

/-- The bits of a number modulo 2^w. -/
def wrapBits (w : Nat) (x : Int) : Nat := (x % (2 ^ w : Int)).toNat

/-- An exact result fitted to a type: saturated or wrapped (R38). -/
def fit (t : Ty) (sat : Bool) (x : Int) : Nat × Flags :=
  if sat then
    let y := max (tyMin t) (min (tyMax t) x)
    (wrapBits (tyWidth t) y, flagIf (decide (y ≠ x)) flagSAT)
  else (wrapBits (tyWidth t) x, 0)

/-- Should a magnitude that lies between q and q + 1 be rounded up? half: compared with the middle. -/
def roundUp (rm : RM) (neg odd : Bool) (exact : Bool) (half : Ordering) : Bool :=
  if exact then false
  else
    match rm with
    | .rne => half == .gt || (half == .eq && odd)
    | .rtz => false
    | .rdn => neg
    | .rup => !neg
    | .rmm => half == .gt || half == .eq

/-- m / 2^sh rounded to a natural number, and whether it was inexact (R38, R44). -/
def roundShift (rm : RM) (neg : Bool) (m sh : Nat) : Nat × Bool :=
  let q := m / 2 ^ sh
  let r := m % 2 ^ sh
  let up := roundUp rm neg (q % 2 == 1) (r == 0) (compare (2 * r) (2 ^ sh))
  (if up then q + 1 else q, r != 0)

/-- An exact integer result shifted by the mode word's shift (R38). -/
def shiftExact (rm : RM) (sh : Int) (x : Int) : Int :=
  if sh > 0 then
    let q := (roundShift rm (decide (x < 0)) x.natAbs sh.toNat).1
    if x < 0 then -(q : Int) else q
  else x * 2 ^ (-sh).toNat

/-- Quotient toward zero and remainder with the sign of the dividend (R39), flagged for vector words. -/
def divInt (t : Ty) (sat : Bool) (a b : Int) : Nat × Flags :=
  if b = 0 then (wrapBits (tyWidth t) (-1), flagDZ)
  else if a = tyMin t && b = -1 && tySigned t then
    if sat then (wrapBits (tyWidth t) (tyMax t), flagSAT) else (wrapBits (tyWidth t) a, 0)
  else (wrapBits (tyWidth t) (a.tdiv b), 0)

def remInt (t : Ty) (a b : Int) : Nat × Flags :=
  if b = 0 then (wrapBits (tyWidth t) a, flagDZ) else (wrapBits (tyWidth t) (a.tmod b), 0)

/-! ### T3 (R50 to R55) -/

/-- The signed residue of R52. -/
def residue (x : Int) (m : Nat) : Nat := (x % (m : Int)).toNat

/-- A container of given channels. -/
def t3Pack (c256 c255 c257 c7 : Nat) : Nat := c256 + c255 * 2 ^ 8 + c257 * 2 ^ 16 + c7 * 2 ^ 25
def t3C256 (x : Nat) : Nat := x % 2 ^ 8
def t3C255 (x : Nat) : Nat := x / 2 ^ 8 % 2 ^ 8
def t3C257 (x : Nat) : Nat := x / 2 ^ 16 % 2 ^ 9
def t3C7 (x : Nat) : Nat := x / 2 ^ 25 % 2 ^ 3

/-- Residue formation (R52). -/
def t3Form (x : Int) : Nat := t3Pack (residue x 256) (residue x 255) (residue x 257) (residue x 7)

/-- A reserved code (R51). -/
def t3Reserved (x : Nat) : Bool :=
  t3C255 x == 255 || t3C257 x ≥ 257 || t3C7 x == 7 || x / 2 ^ 28 % 16 != 0

/-- A channel-by-channel operation (R53). -/
def t3Map (f : Int → Int → Int) (x y : Nat) : Nat :=
  t3Pack (residue (f (t3C256 x) (t3C256 y)) 256) (residue (f (t3C255 x) (t3C255 y)) 255)
    (residue (f (t3C257 x) (t3C257 y)) 257) (residue (f (t3C7 x) (t3C7 y)) 7)

/-- Reconstruction (R54). -/
def t3Value (x : Nat) : Int :=
  let u := (t3C256 x * 16711425 + t3C255 x * 8421376 + t3C257 x * 8421120) % 16776960
  if u ≥ 8388480 then (u : Int) - 16776960 else u

/-- The check of R55 passes. -/
def t3CheckOk (x : Nat) : Bool := residue (t3Value x) 7 == t3C7 x

/-- An integer clamped into the T3 range (R45). -/
def t3Clamp (x : Int) : Int × Flags :=
  let y := max (-8388480) (min 8388479 x)
  (y, flagIf (decide (y ≠ x)) flagSAT)

end Sys2Proof.Machine
end

