-- ==== Sys2Proof/Machine/Float.lean ====
section
/-! DEFINITION. Floating point (R40 to R45): unpacking, exact arithmetic on integers, and one rounding. -/

namespace Sys2Proof.Machine

/-- A format (R40): exponent and fraction bits. -/
structure Fmt where
  ebits : Nat
  fbits : Nat
deriving DecidableEq, Repr

def fmtHalf : Fmt := ⟨5, 10⟩
def fmtBrain : Fmt := ⟨8, 7⟩
def fmtSingle : Fmt := ⟨8, 23⟩

def fmtOf : Ty → Fmt
  | .fp16 => fmtHalf
  | .bf16 => fmtBrain
  | .i4 | .i8 | .u8 | .i16 | .u16 | .i32 | .u32 | .i64 | .fp32 | .t3 => fmtSingle

def fmtBias (f : Fmt) : Int := 2 ^ (f.ebits - 1) - 1
/-- Exponent of the unit of the smallest subnormal. -/
def fmtQmin (f : Fmt) : Int := 1 - fmtBias f - f.fbits
def fmtSign (f : Fmt) : Nat := 2 ^ (f.ebits + f.fbits)
def fmtInf (f : Fmt) (neg : Bool) : Nat := (2 ^ f.ebits - 1) * 2 ^ f.fbits + if neg then fmtSign f else 0
/-- The canonical quiet NaN (R41, R42). -/
def fmtNan (f : Fmt) : Nat := fmtInf f false + 2 ^ (f.fbits - 1)
def fmtMaxFinite (f : Fmt) (neg : Bool) : Nat := fmtInf f false - 1 + if neg then fmtSign f else 0
def fmtZero (f : Fmt) (neg : Bool) : Nat := if neg then fmtSign f else 0

/-- What a bit pattern denotes: a NaN, an infinity, or (-1)^neg · m · 2^e. -/
inductive FVal where
  | nan (signalling : Bool)
  | inf (neg : Bool)
  | num (neg : Bool) (m : Nat) (e : Int)
deriving DecidableEq, Repr

/-- Unpack; under FTZ a subnormal reads as zero of its sign (R43). -/
def unpack (f : Fmt) (ftz : Bool) (x : Nat) : FVal :=
  let frac := x % 2 ^ f.fbits
  let ex := x / 2 ^ f.fbits % 2 ^ f.ebits
  let neg := x / fmtSign f % 2 == 1
  if ex = 2 ^ f.ebits - 1 then
    if frac = 0 then .inf neg else .nan (frac < 2 ^ (f.fbits - 1))
  else if ex = 0 then .num neg (if ftz then 0 else frac) (fmtQmin f)
  else .num neg (2 ^ f.fbits + frac) (fmtQmin f + ex - 1)

def isSnan : FVal → Bool
  | .nan s => s
  | .inf _ | .num .. => false
def isNan : FVal → Bool
  | .nan _ => true
  | .inf _ | .num .. => false
def fNeg : FVal → Bool
  | .nan _ => false
  | .inf n => n
  | .num n _ _ => n
def fIsZero : FVal → Bool
  | .num _ m _ => m == 0
  | .nan _ | .inf _ => false

/-- A result with flags. -/
abbrev FRes := Nat × Flags

/-- m · 2^e to a multiple of 2^q: the multiple, and whether it was inexact. -/
def toQuantum (rm : RM) (neg : Bool) (m : Nat) (e q : Int) : Nat × Bool :=
  if q ≤ e then (m * 2 ^ (e - q).toNat, false) else roundShift rm neg m (q - e).toNat

/-- The overflow result of R44. -/
def overflowBits (f : Fmt) (rm : RM) (neg : Bool) : Nat :=
  match rm with
  | .rne | .rmm => fmtInf f neg
  | .rtz => fmtMaxFinite f neg
  | .rdn => if neg then fmtInf f true else fmtMaxFinite f false
  | .rup => if neg then fmtMaxFinite f true else fmtInf f false

/-- Round (-1)^neg · (m + s) · 2^e, 0 < s < 1 when sticky, into a format (R43, R44): tininess after rounding. -/
def roundTo (f : Fmt) (rm : RM) (ftz neg : Bool) (m : Nat) (e : Int) (sticky : Bool) : FRes :=
  let m2 := 2 * m + if sticky then 1 else 0
  if m2 = 0 then (fmtZero f neg, 0)
  else
    let e2 := e - 1
    let q := (Nat.log2 m2 : Int) + e2 - f.fbits
    let free := toQuantum rm neg m2 e2 q
    let tiny := decide ((Nat.log2 free.1 : Int) + q < 1 - fmtBias f)
    if tiny && ftz then (fmtZero f neg, flagUF ||| flagNX)
    else
      let q2 := max q (fmtQmin f)
      let r := toQuantum rm neg m2 e2 q2
      let bits := (q2 - fmtQmin f).toNat * 2 ^ f.fbits + r.1
      if bits ≥ fmtInf f false then (overflowBits f rm neg, flagOF ||| flagNX)
      else (bits + fmtZero f neg, flagIf r.2 flagNX ||| flagIf (tiny && r.2) flagUF)

def nanRes (f : Fmt) (nv : Bool) : FRes := (fmtNan f, flagIf nv flagNV)

/-- An exact number m · 2^e with sign, as a signed mantissa at exponent e0. -/
def alignTo (neg : Bool) (m : Nat) (e e0 : Int) : Int :=
  let x : Int := m * 2 ^ (e - e0).toNat
  if neg then -x else x

/-- rnd(a + b), a and b exact numbers. -/
def addNum (f : Fmt) (rm : RM) (ftz : Bool) (na : Bool) (ma : Nat) (ea : Int) (nb : Bool) (mb : Nat) (eb : Int) : FRes :=
  let e0 := min ea eb
  let x := alignTo na ma ea e0 + alignTo nb mb eb e0
  if x = 0 then
    (fmtZero f (if ma = 0 && mb = 0 && na == nb then na else rm == .rdn), 0)
  else roundTo f rm ftz (decide (x < 0)) x.natAbs e0 false

/-- FADD (R42, R93). -/
def fAdd (f : Fmt) (rm : RM) (ftz : Bool) (a b : FVal) : FRes :=
  match a, b with
  | .nan s, y => nanRes f (s || isSnan y)
  | .inf _, .nan t => nanRes f t
  | .num .., .nan t => nanRes f t
  | .inf n, .inf k => if n = k then (fmtInf f n, 0) else nanRes f true
  | .inf n, .num .. => (fmtInf f n, 0)
  | .num .., .inf n => (fmtInf f n, 0)
  | .num na ma ea, .num nb mb eb => addNum f rm ftz na ma ea nb mb eb

def fFlip : FVal → FVal
  | .nan s => .nan s
  | .inf n => .inf !n
  | .num n m e => .num (!n) m e

def fSub (f : Fmt) (rm : RM) (ftz : Bool) (a b : FVal) : FRes := fAdd f rm ftz a (fFlip b)

/-- The exact product; none when it is invalid or a NaN comes in (0 · ∞). -/
def exactMul (a b : FVal) : FVal × Flags :=
  match a, b with
  | .nan s, y => (.nan false, flagIf (s || isSnan y) flagNV)
  | .inf _, .nan t => (.nan false, flagIf t flagNV)
  | .num .., .nan t => (.nan false, flagIf t flagNV)
  | .inf n, .inf k => (.inf (n != k), 0)
  | .inf n, .num k m _ => if m = 0 then (.nan false, flagNV) else (.inf (n != k), 0)
  | .num k m _, .inf n => if m = 0 then (.nan false, flagNV) else (.inf (n != k), 0)
  | .num na ma ea, .num nb mb eb => (.num (na != nb) (ma * mb) (ea + eb), 0)

/-- An exact value rounded into a format. -/
def roundVal (f : Fmt) (rm : RM) (ftz : Bool) (v : FVal) : FRes :=
  match v with
  | .nan s => nanRes f s
  | .inf n => (fmtInf f n, 0)
  | .num n m e => roundTo f rm ftz n m e false

def fMul (f : Fmt) (rm : RM) (ftz : Bool) (a b : FVal) : FRes :=
  let p := exactMul a b
  let r := roundVal f rm ftz p.1
  (r.1, r.2 ||| p.2)

/-- a · b + c with one rounding; an invalid product sets NV even when c is a quiet NaN (R94). -/
def fFma (f : Fmt) (rm : RM) (ftz : Bool) (a b c : FVal) : FRes :=
  let p := exactMul a b
  let r := fAdd f rm ftz p.1 c
  (r.1, r.2 ||| p.2)

/-- FDIV (R93). -/
def fDiv (f : Fmt) (rm : RM) (ftz : Bool) (a b : FVal) : FRes :=
  match a, b with
  | .nan s, y => nanRes f (s || isSnan y)
  | .inf _, .nan t => nanRes f t
  | .num .., .nan t => nanRes f t
  | .inf _, .inf _ => nanRes f true
  | .inf n, .num k _ _ => (fmtInf f (n != k), 0)
  | .num n _ _, .inf k => (fmtZero f (n != k), 0)
  | .num na ma ea, .num nb mb eb =>
    if mb = 0 then if ma = 0 then nanRes f true else (fmtInf f (na != nb), flagDZ)
    else
      let k := 80 + Nat.log2 mb
      let n := ma * 2 ^ k
      roundTo f rm ftz (na != nb) (n / mb) (ea - eb - k) (n % mb != 0)

/-- Integer square root by bits, from bit k down. -/
def isqrtFrom (n k acc : Nat) : Nat :=
  match k with
  | 0 => acc
  | j + 1 =>
    let t := acc + 2 ^ j
    isqrtFrom n j (if t * t ≤ n then t else acc)

def isqrt (n : Nat) : Nat := isqrtFrom n (Nat.log2 n / 2 + 1) 0

/-- FSQRT, VSQRT (R44, R93). -/
def fSqrt (f : Fmt) (rm : RM) (ftz : Bool) (a : FVal) : FRes :=
  match a with
  | .nan s => nanRes f s
  | .inf n => if n then nanRes f true else (fmtInf f false, 0)
  | .num n m e =>
    if m = 0 then (fmtZero f n, 0)
    else if n then nanRes f true
    else
      let m1 := if e % 2 = 0 then m else 2 * m
      let e1 := if e % 2 = 0 then e else e - 1
      let x := m1 * 2 ^ 80
      let r := isqrt x
      roundTo f rm ftz false r (e1 / 2 - 40) (r * r != x)

/-- -1, 0, 1 of two numbers that are no NaN. -/
def fCompare (a b : FVal) : Ordering :=
  match a, b with
  | .inf n, .inf k => if n = k then .eq else if n then .lt else .gt
  | .inf n, _ => if n then .lt else .gt
  | _, .inf n => if n then .gt else .lt
  | .num na ma ea, .num nb mb eb => compare (alignTo na ma ea (min ea eb)) (alignTo nb mb eb (min ea eb))
  | .nan _, _ => .eq
  | _, .nan _ => .eq

/-- FMIN and FMAX (R93): −0 below +0, a NaN gives the other input, NV on a signalling NaN. a and b are the bit
patterns as read (FTZ applied). -/
def fMinMax (f : Fmt) (wantMax : Bool) (a b : Nat) : FRes :=
  let x := unpack f false a
  let y := unpack f false b
  let nv := flagIf (isSnan x || isSnan y) flagNV
  if isNan x && isNan y then (fmtNan f, nv)
  else if isNan x then (b, nv)
  else if isNan y then (a, nv)
  else
    let less := match fCompare x y with
      | .lt => true
      | .gt => false
      | .eq => fNeg x && !fNeg y
    (if less == wantMax then b else a, nv)

/-- The bit pattern with FTZ applied to a subnormal (R43). -/
def flushBits (f : Fmt) (ftz : Bool) (x : Nat) : Nat :=
  if ftz && x / 2 ^ f.fbits % 2 ^ f.ebits == 0 then x / fmtSign f % 2 * fmtSign f else x

/-- FP to integer (R45). -/
def fToInt (t : Ty) (rm : RM) (a : FVal) : FRes :=
  match a with
  | .nan _ => (0, flagNV)
  | .inf n => (wrapBits (tyWidth t) (if n then tyMin t else tyMax t), flagNV)
  | .num n m e =>
    let r := toQuantum rm n m e 0
    let x : Int := if n then -(r.1 : Int) else r.1
    if x < tyMin t then (wrapBits (tyWidth t) (tyMin t), flagNV)
    else if tyMax t < x then (wrapBits (tyWidth t) (tyMax t), flagNV)
    else (wrapBits (tyWidth t) x, flagIf r.2 flagNX)

/-- Integer to FP (R45); zero is +0. -/
def fFromInt (f : Fmt) (rm : RM) (ftz : Bool) (x : Int) : FRes := roundTo f rm ftz (decide (x < 0)) x.natAbs 0 false

/-! ### Correctly rounded functions (R44, R127; log 14) -/

/-- Fraction bits of the fixed-point evaluations. -/
def fixBits : Nat := 400

/-- z + z^3/3 + z^5/5 + … in fixed point, n terms from the term k. -/
def atanhSum (z2 term k n : Nat) : Nat :=
  match n with
  | 0 => 0
  | j + 1 => term / (2 * k + 1) + atanhSum z2 (term * z2 / 2 ^ fixBits) (k + 1) j

/-- ln((1+z)/(1−z)) = 2 atanh z. -/
def lnRatio (z : Nat) : Nat := 2 * atanhSum (z * z / 2 ^ fixBits) z 0 140

/-- ln 2 = 2 atanh (1/3). -/
def lnTwo : Nat := lnRatio (2 ^ fixBits / 3)

/-- 1 + t + t^2/2! + …, n terms from the term k. -/
def expSum (t term k n : Nat) : Nat :=
  match n with
  | 0 => 0
  | j + 1 => term + expSum t (term * t / 2 ^ fixBits / (k + 1)) (k + 1) j

/-- VEXP2. -/
def fExp2 (f : Fmt) (rm : RM) (ftz : Bool) (a : FVal) : FRes :=
  match a with
  | .nan s => nanRes f s
  | .inf n => if n then (fmtZero f false, 0) else (fmtInf f false, 0)
  | .num n m e =>
    if m = 0 then roundTo f rm ftz false 1 0 false
    else
      let x : Int := if n then -(m : Int) else m
      if e ≥ 0 then
        let k := max (-1000) (min 1000 (x * 2 ^ (min e 20).toNat))
        roundTo f rm ftz false 1 k false
      else
        let d := (-e).toNat
        let whole := x / (2 ^ d : Int)
        let frac := (x % (2 ^ d : Int)).toNat
        if frac = 0 then roundTo f rm ftz false 1 (max (-1000) (min 1000 whole)) false
        else
          let t := frac * lnTwo / 2 ^ d
          let y := expSum t (2 ^ fixBits) 0 140
          roundTo f rm ftz false y (max (-1000) (min 1000 whole) - fixBits) true

/-- VLOG2. -/
def fLog2 (f : Fmt) (rm : RM) (ftz : Bool) (a : FVal) : FRes :=
  match a with
  | .nan s => nanRes f s
  | .inf n => if n then nanRes f true else (fmtInf f false, 0)
  | .num n m e =>
    if m = 0 then (fmtInf f true, flagDZ)
    else if n then nanRes f true
    else
      let l := Nat.log2 m
      let k : Int := l + e
      if m = 2 ^ l then roundTo f rm ftz (decide (k < 0)) k.natAbs 0 false
      else
        let z := (m - 2 ^ l) * 2 ^ fixBits / (m + 2 ^ l)
        let y : Int := k * 2 ^ fixBits + (lnRatio z * 2 ^ fixBits / lnTwo : Nat)
        roundTo f rm ftz (decide (y < 0)) y.natAbs (-fixBits) true

/-- VRSQ. -/
def fRsqrt (f : Fmt) (rm : RM) (ftz : Bool) (a : FVal) : FRes :=
  match a with
  | .nan s => nanRes f s
  | .inf n => if n then nanRes f true else (fmtZero f false, 0)
  | .num n m e =>
    if m = 0 then (fmtInf f n, flagDZ)
    else if n then nanRes f true
    else
      let m1 := if e % 2 = 0 then m else 2 * m
      let e1 := if e % 2 = 0 then e else e - 1
      let big := 2 ^ 160
      let r := isqrt (big / m1)
      roundTo f rm ftz false r (-(e1 / 2) - 80) (r * r * m1 != big)

/-- VRCP. -/
def fRecip (f : Fmt) (rm : RM) (ftz : Bool) (a : FVal) : FRes := fDiv f rm ftz (.num false 1 0) a

end Sys2Proof.Machine
end

