-- ==== Sys2Proof/Machine/Operands.lean ====
section
/-! DEFINITION. What the E-words name: their classes, the registers, masks, tiles and queues they read and write,
the mode word (R46), source values (R69), masks (R17), and the entry image (R77). -/

namespace Sys2Proof.Machine

/-- The classes of R72 and R73. -/
inductive EClass where
  | varith (fn : Nat)
  | vmac (neg : Bool)
  | vcmp (cc : Nat)
  | vsel
  | vcvt (fn : Nat)
  | vperm (fn : Nat)
  | vred (fn : Nat)
  | mask (fn : Nat)
  | vtype
  | vld (f : AddrForm) (s : Space) (t : LdTarget)
  | vst (ordered : Bool) (f : AddrForm) (s : Space)
  | vamo (p : AmoOp) (s : Scope)
  | vfence
  | mopa | mopm | mzero | mcvt | mrowR | mrowW | mbf
  | cpy
  | tile (fn : Nat)
  | coll (kind : Nat)
deriving DecidableEq, Repr

/-- Class and fields of an E-word. -/
def eClass : Instr → Option (EClass × EFields)
  | .vadd w => some (.varith 0, w) | .vsub w => some (.varith 1, w) | .vmul w => some (.varith 2, w)
  | .vmulh w => some (.varith 3, w) | .vdiv w => some (.varith 4, w) | .vrem w => some (.varith 5, w)
  | .vmin w => some (.varith 6, w) | .vmax w => some (.varith 7, w) | .vabs w => some (.varith 8, w)
  | .vneg w => some (.varith 9, w) | .vand w => some (.varith 10, w) | .vor w => some (.varith 11, w)
  | .vxor w => some (.varith 12, w) | .vnot w => some (.varith 13, w) | .vshl w => some (.varith 14, w)
  | .vshr w => some (.varith 15, w) | .vsqrt w => some (.varith 16, w) | .vexp2 w => some (.varith 17, w)
  | .vlog2 w => some (.varith 18, w) | .vrsq w => some (.varith 19, w) | .vrcp w => some (.varith 20, w)
  | .vmac w => some (.vmac false, w) | .vnmac w => some (.vmac true, w)
  | .vcmpEq w => some (.vcmp 0, w) | .vcmpNe w => some (.vcmp 1, w) | .vcmpLt w => some (.vcmp 2, w)
  | .vcmpLe w => some (.vcmp 3, w) | .vcmpGt w => some (.vcmp 4, w) | .vcmpGe w => some (.vcmp 5, w)
  | .vcmpUnord w => some (.vcmp 6, w) | .vsel w => some (.vsel, w)
  | .vcvtCvt w => some (.vcvt 0, w) | .vcvtRes w => some (.vcvt 1, w) | .vcvtCrt w => some (.vcvt 2, w)
  | .slideup w => some (.vperm 0, w) | .slidedn w => some (.vperm 1, w) | .slide1up w => some (.vperm 2, w)
  | .slide1dn w => some (.vperm 3, w) | .gatherv w => some (.vperm 4, w) | .compress w => some (.vperm 5, w)
  | .bcast w => some (.vperm 6, w) | .index w => some (.vperm 7, w) | .vmv w => some (.vperm 8, w)
  | .extract w => some (.vperm 9, w)
  | .vredSum w => some (.vred 0, w) | .vredSumu w => some (.vred 1, w) | .vredMax w => some (.vred 2, w)
  | .vredMin w => some (.vred 3, w) | .vredAnd w => some (.vred 4, w) | .vredOr w => some (.vred 5, w)
  | .vredXor w => some (.vred 6, w)
  | .mand w => some (.mask 0, w) | .mor w => some (.mask 1, w) | .mxor w => some (.mask 2, w)
  | .mandn w => some (.mask 3, w) | .mnot w => some (.mask 4, w) | .mpopc w => some (.mask 5, w)
  | .mfirst w => some (.mask 6, w) | .mset w => some (.mask 7, w) | .vtype w => some (.vtype, w)
  | .vld w f s t => some (.vld f s t, w) | .vst w o f s => some (.vst o f s, w)
  | .vamo w p s => some (.vamo p s, w) | .vfence w => some (.vfence, w)
  | .mopa w => some (.mopa, w) | .mopm w => some (.mopm, w) | .mzero w => some (.mzero, w)
  | .mcvt w => some (.mcvt, w) | .mrowR w => some (.mrowR, w) | .mrowW w => some (.mrowW, w)
  | .mbf w => some (.mbf, w) | .cpy w => some (.cpy, w)
  | .tready w => some (.tile 0, w) | .tempty w => some (.tile 1, w) | .twait w => some (.tile 2, w)
  | .tquery w => some (.tile 3, w)
  | .collReduceScatter w => some (.coll 0, w) | .collAllGather w => some (.coll 1, w)
  | .collAllReduce w => some (.coll 2, w) | .collKvRotation w => some (.coll 3, w)
  | _ => none

/-- Class and fields of an accepted E-word. -/
def classOfWord (w : Word) : Option (EClass × EFields) :=
  match decodeE w with
  | .ok i => eClass i
  | .error _ => none

/-- An E-word with its operand fields made plain: with its guard, without it, or with a slide's fill. -/
def plainFields (w : Word) : List Word :=
  let d := w &&& 0xFEFC000007F00000#64
  let guard := w &&& 0x00000000F8000000#64
  [d ||| guard, d, d ||| guard ||| (34#64 <<< 38), d ||| (34#64 <<< 38)]

/-- Class and fields of a queued word. Only a word that software has put in the queue image can be one that an EMIT would
refuse (R413): it runs as an illegal combination of the class and the destination that it names, if it names any
(log 29). -/
def queuedClass (w : Word) : Option (EClass × EFields) :=
  match classOfWord w with
  | some x => some x
  | none => (plainFields w).findSome? classOfWord

/-! ### The mode word (R46) -/

def modeTd (m : Word) : BitVec 4 := BitVec.ofNat 4 (field m 0 4)
def modeTa (m : Word) : BitVec 4 := BitVec.ofNat 4 (field m 4 4)
def modeTb (m : Word) : BitVec 4 := BitVec.ofNat 4 (field m 8 4)
def modeRmCode (m : Word) : Nat := field m 12 3
def modeRm (m : Word) : RM := (RM.ofCode (modeRmCode m)).getD .rne
def modeSat (m : Word) : Bool := bit m 15
def modeFtz (m : Word) : Bool := bit m 16
def modeShift (m : Word) : Int := (BitVec.ofNat 8 (field m 24 8)).toInt

/-! ### What a word reads and writes -/

/-- Source a is read as a vector operand. -/
def readsA : EClass → Bool
  | .varith _ | .vmac _ | .vcmp _ | .vsel | .vcvt _ | .vred _ | .vst .. | .vamo .. | .mopa | .mcvt | .mrowW => true
  | .vperm fn => fn != 7
  | .mask _ | .vtype | .vld .. | .vfence | .mopm | .mzero | .mrowR | .mbf | .cpy | .tile _ | .coll _ => false

/-- Source b is read as a vector operand (an index included). -/
def readsB : EClass → Bool
  | .varith fn => decide (fn ≤ 7 ∨ (10 ≤ fn ∧ fn ≤ 12) ∨ fn = 14 ∨ fn = 15)
  | .vmac _ | .vcmp _ | .vsel | .vamo .. | .mopa | .mcvt => true
  | .vperm fn => decide (fn ≤ 4)
  | .vld f _ _ | .vst _ f _ => f == .indexed
  | .vcvt _ | .vred _ | .mask _ | .vtype | .vfence | .mopm | .mzero | .mrowR | .mrowW | .mbf | .cpy | .tile _
  | .coll _ => false

/-- The word writes vector registers from d (VTYPE their tags). -/
def writesVec : EClass → Bool
  | .varith _ | .vmac _ | .vsel | .vcvt _ | .vtype | .vamo .. | .mrowR => true
  | .vperm fn => fn != 9
  | .vld _ _ t => t == .reg
  | .vcmp _ | .vred _ | .mask _ | .vst .. | .vfence | .mopa | .mopm | .mzero | .mcvt | .mrowW | .mbf | .cpy | .tile _
  | .coll _ => false

/-- The word writes the mask register of code d. -/
def writesMask : EClass → Bool
  | .vcmp _ => true
  | .mask fn => fn != 5 && fn != 6
  | _ => false

/-- The CB tile in d that the word writes. -/
def writesTile : EClass → Bool
  | .mopa | .mopm | .mzero | .mcvt | .mrowW | .mbf => true
  | _ => false

/-- Entries pushed to the return queue (R123). -/
def rqPushes (c : EClass) (rows : Nat) : Nat :=
  match c with
  | .vperm fn => if fn = 9 then rows else 0
  | .vred _ => 1
  | .mask fn => if fn = 5 || fn = 6 then 1 else 0
  | .tile fn => if fn = 3 then 1 else 0
  | _ => 0

/-- The word names a vector, mask or load-queue operand (R27). -/
def touchesVector (c : EClass) : Bool :=
  match c with
  | .vfence | .mopm | .mzero | .mbf | .cpy | .tile _ | .coll _ => false
  | _ => true

/-- Vector registers named by a source code over its rows; MCVT reads one register each (R19). -/
def srcRows (c : EClass) (code : Reg) (rows : Nat) : List Nat :=
  if isVec code then (List.range (if c = .mcvt then 1 else rows)).map (code.toNat + ·) else []

/-- Vector registers read, the destination of VMAC included (R129). -/
def vecReads (c : EClass) (w : EFields) (rows : Nat) : List Nat :=
  (if readsA c then srcRows c w.a rows else []) ++ (if readsB c then srcRows c w.b rows else []) ++
    (match c with
     | .vmac _ => (List.range rows).map (w.d.toNat + ·)
     | _ => [])

def vecWrites (c : EClass) (w : EFields) (rows : Nat) : List Nat :=
  if writesVec c then (List.range rows).map (w.d.toNat + ·) else []

/-- Mask registers read: the guard or selector, and the sources of MASK words. -/
def maskReads (c : EClass) (w : EFields) : List Nat :=
  w.k.toNat :: (match c with
    | .mask _ => [w.a.toNat, w.b.toNat]
    | _ => [])

def maskWrites (c : EClass) (w : EFields) : List Nat := if writesMask c then [w.d.toNat - 32] else []

/-- Load queues read (codes 32 and 33). -/
def lqReads (c : EClass) (w : EFields) : List Nat :=
  (if readsA c && (w.a == 32#6 || w.a == 33#6) then [w.a.toNat - 32] else []) ++
    (if readsB c && (w.b == 32#6 || w.b == 33#6) then [w.b.toNat - 32] else [])

/-- The load queue that a VLD fills. -/
def lqWrites : EClass → List Nat
  | .vld _ _ .lq0 => [0]
  | .vld _ _ .lq1 => [1]
  | _ => []

/-- The word accesses memory other than a typed buffer's tile table. -/
def accessesMemory : EClass → Bool
  | .vld .. | .vst .. | .vamo .. | .vfence | .mopm | .cpy | .coll _ => true
  | _ => false

/-- Element-wise words (R124, and MROW.W and MCVT by R228, R229; those two stand alone by R230). -/
def elementWise : EClass → Bool
  | .varith _ | .vmac _ | .vcmp _ | .vsel | .vcvt _ | .vld .. | .vst .. | .vamo .. => true
  | .vperm fn => fn == 6 || fn == 7 || fn == 8
  | .vred fn => fn != 1
  | _ => false

/-- MCVT and MROW.W keep their position in VSTART too. -/
def tileWise : EClass → Bool
  | .mcvt | .mrowW => true
  | _ => false

/-- A word that registers alone decide and that is performed whole. -/
def wholeWord : EClass → Bool
  | .vperm fn => fn != 6 && fn != 7 && fn != 8
  | .vred fn => fn == 1
  | .mask _ | .vtype => true
  | _ => false

/-- The words that record a position (R30, R77). -/
def recordsPosition (c : EClass) : Bool := elementWise c || wholeWord c || tileWise c || c == .mrowR

/-- Words that act outside the lanes' sweeps: the array, the engines, the tile table and VFENCE. -/
def engineWord (c : EClass) : Bool := !elementWise c && !wholeWord c

def matrixStep : EClass → Bool
  | .mopa | .mopm => true
  | _ => false

def isVamo : EClass → Bool
  | .vamo .. => true
  | _ => false

/-- Fold reductions (R143). -/
def isFold : EClass → Bool
  | .vred fn => fn != 1
  | _ => false

/-- Convoy resources (R73, R80): A, P, S, X, C, and loads. -/
structure Claims where
  a : Nat
  p : Nat
  s : Nat
  x : Nat
  c : Nat
  loads : Nat
  lq0 : Nat
  lq1 : Nat
deriving DecidableEq, Repr

def claimsOf : EClass → Claims
  | .varith _ | .vmac _ | .vcmp _ | .vsel | .vcvt _ | .mask _ => ⟨1, 0, 0, 0, 0, 0, 0, 0⟩
  | .vperm _ | .vred _ => ⟨0, 1, 0, 0, 0, 0, 0, 0⟩
  | .vld _ _ .lq0 => ⟨0, 0, 0, 0, 0, 1, 1, 0⟩
  | .vld _ _ .lq1 => ⟨0, 0, 0, 0, 0, 1, 0, 1⟩
  | .vld _ _ .reg => ⟨0, 0, 0, 0, 0, 1, 0, 0⟩
  | .vst .. | .vamo .. => ⟨0, 0, 1, 0, 0, 0, 0, 0⟩
  | .mopm => ⟨0, 0, 0, 1, 0, 2, 1, 1⟩
  | .mopa | .mzero | .mcvt | .mrowR | .mrowW | .mbf => ⟨0, 0, 0, 1, 0, 0, 0, 0⟩
  | .cpy | .tile _ | .coll _ => ⟨0, 0, 0, 0, 1, 0, 0, 0⟩
  | .vtype | .vfence => ⟨0, 0, 0, 0, 0, 0, 0, 0⟩

def addClaims (x y : Claims) : Claims :=
  ⟨x.a + y.a, x.p + y.p, x.s + y.s, x.x + y.x, x.c + y.c, x.loads + y.loads, x.lq0 + y.lq0, x.lq1 + y.lq1⟩

/-- The limits of R80: one each of P, S, X and C, two of A, two loads on distinct pipes. -/
def claimsOk (c : Claims) : Bool :=
  decide (c.a ≤ 2 ∧ c.p ≤ 1 ∧ c.s ≤ 1 ∧ c.x ≤ 1 ∧ c.c ≤ 1 ∧ c.loads ≤ 2 ∧ c.lq0 ≤ 1 ∧ c.lq1 ≤ 1)

/-! ### Source values (R69) and masks (R17) -/

/-- The bits of imm14 as an element of a type: integer, FP rounded RNE without flag, or residues. -/
def immElem (t : Ty) (i : BitVec 14) : Nat :=
  if tyIsInt t then wrapBits (tyWidth t) i.toInt
  else if tyIsFp t then (fFromInt (fmtOf t) .rne false i.toInt).1
  else t3Form i.toInt

/-- Row r of a register or load queue, as 32,768 bits. -/
def rowBits (h : Hart) (shape : Bool) (code : Reg) (r : Nat) : BitVec 32768 :=
  if code = 32 then BitVec.ofNat 32768 (bitsAt h.lq0 (32768 * r) 32768)
  else if code = 33 then BitVec.ofNat 32768 (bitsAt h.lq1 (32768 * r) 32768)
  else vreg h shape (code.toNat + r)

/-- Element e of row r of a source, as bits of its type. -/
def srcElem (h : Hart) (e : Entry) (w : EFields) (code : Reg) (t : Ty) (r i : Nat) : Nat :=
  if code = 34 then e.x0.toNat % 2 ^ tyWidth t
  else if code = 35 then immElem t w.imm
  else bitsAt (rowBits h e.shape code r) (i * tyWidth t) (tyWidth t)

/-- Element i of destination row d + r replaced. -/
def putElem (h : Hart) (shape : Bool) (n width i x : Nat) : Hart :=
  setVreg h shape n (putBits (vreg h shape n) (i * width) width x)

/-- Bit e of a mask register; m0 reads all ones (R17). -/
def maskBit (h : Hart) (k e : Nat) : Bool := if k = 0 then true else (h.masks[k]?.getD 0).getLsbD e

/-- Element e is active under a guard (R17). -/
def activeAt (h : Hart) (w : EFields) (e : Nat) : Bool := maskBit h w.k.toNat e != w.n

def setMaskBit (h : Hart) (k e : Nat) (b : Bool) : Hart :=
  if k = 0 then h
  else { h with masks := h.masks.setIfInBounds k (putBits (h.masks[k]?.getD 0) e 1 (if b then 1 else 0)) }

/-! ### The queue image (R77) -/

/-- The state doubleword of an entry. -/
def stateWord (e : Entry) : Word :=
  BitVec.ofNat 64 (e.vl.toNat + e.rows.toNat * 2 ^ 14 + (if e.shape then 2 ^ 18 else 0) + (if e.rct then 2 ^ 19 else 0) +
    (if e.icx then 2 ^ 20 else 0) + (if e.conv then 2 ^ 21 else 0) + (if e.rsv then 2 ^ 22 else 0) +
    e.taga.toNat * 2 ^ 24 + e.tagb.toNat * 2 ^ 28 + e.tagd.toNat * 2 ^ 32 + e.thread.toNat * 2 ^ 36)

/-- An entry with its state doubleword stored. -/
def putStateWord (e : Entry) (v : Word) : Entry :=
  { e with vl := BitVec.ofNat 14 (field v 0 14), rows := BitVec.ofNat 4 (field v 14 4), shape := bit v 18
           rct := bit v 19, icx := bit v 20, conv := bit v 21, rsv := bit v 22
           taga := BitVec.ofNat 4 (field v 24 4), tagb := BitVec.ofNat 4 (field v 28 4)
           tagd := BitVec.ofNat 4 (field v 32 4), thread := BitVec.ofNat 2 (field v 36 2) }

/-- A doubleword of an entry's image, by its offset. -/
def entryDw (e : Entry) (off : Nat) : Word :=
  if off = 0x00 then e.word else if off = 0x08 then e.mode
  else if off = 0x10 then e.x0 else if off = 0x18 then e.x1 else if off = 0x20 then e.x2 else if off = 0x28 then e.x3
  else if off = 0x30 then stateWord e else if off = 0x38 then e.emitPc else if off = 0x40 then e.seq
  else if off = 0x48 then e.done.setWidth 64 else 0

/-- An entry that software has made another word, or put at another position: what the model knows of the old one goes. -/
def Entry.edited (e : Entry) : Entry := { e with complete := false, filled := 0, late := 0 }

/-- An entry with a doubleword of its image stored; the reserved ones ignore it. -/
def putEntryDw (e : Entry) (off : Nat) (v : Word) : Entry :=
  if off = 0x00 then { e.edited with word := v, flags := 0, judged := false, deferred := none } else if off = 0x08 then { e with mode := v }
  else if off = 0x10 then { e with x0 := v } else if off = 0x18 then { e with x1 := v }
  else if off = 0x20 then { e with x2 := v } else if off = 0x28 then { e with x3 := v }
  else if off = 0x30 then putStateWord e v else if off = 0x38 then { e with emitPc := v }
  else if off = 0x40 then { e with seq := v } else if off = 0x48 then { e.edited with done := v.setWidth 32 } else e

end Sys2Proof.Machine
end

