-- ==== Sys2Proof/Machine/EmitCheck.lean ====
section
/-! DEFINITION. The checks that the emit unit makes of an E-word (R75), and that RUN makes of a queue image (R413):
R17, R19 and R74; R46 to R48 with each class's rules; R79, R80 and R230; R203. -/

namespace Sys2Proof.Machine

/-! ### Illegal-E by the captured shape and ROWS (R17, R19, R74) -/

/-- Vector registers that the word names (swept, or MCVT's scales). -/
def vecNamed (c : EClass) (w : EFields) (rows : Nat) : List Nat := vecReads c w rows ++ vecWrites c w rows

/-- R19: every swept register exists in the shape. -/
def rowsExist (c : EClass) (w : EFields) (rows : Nat) (shape : Bool) : Bool :=
  (vecNamed c w rows).all fun n => decide (n ≤ if shape then 15 else 31)

/-- R74: the row pitch x + 2 of a vector memory word that uses it (R148). -/
def pitchExists (c : EClass) (w : EFields) (rows : Nat) : Bool :=
  match c with
  | .vld .. | .vst .. | .vamo .. => rows ≤ 1 || decide (w.x.toNat ≤ 61)
  | _ => true

/-! ### Types (R47) -/

/-- Bits [35:34] codes: a broadcast source. -/
def isBroadcast (code : Reg) : Bool := code == 34#6 || code == 35#6

/-- The types of sources a and b as captured, whether register rows agree (R71), and whether a load queue has
no filler (R47). A source not read has code 0. -/
structure SrcTypes where
  ta : BitVec 4
  tb : BitVec 4
  rowsAgree : Bool
  typed : Bool
  lqFilled : Bool
deriving DecidableEq, Repr

/-- The tag that rows n, n+1, … carry, and whether they carry one (R71). -/
def rowsTag (h : Hart) (l : List Nat) : BitVec 4 × Bool :=
  match l with
  | [] => (0, true)
  | n :: rest =>
    let t := h.tags[n]?.getD 0
    (t, rest.all fun m => (h.tags[m]?.getD 0) == t)

/-- The VLD of a convoy that fills a load queue (R155). -/
def lqFiller (conv : List Entry) (q : Nat) : Option Entry :=
  conv.find? fun e => match queuedClass e.word with
    | some (c, _) => (lqWrites c).contains q
    | none => false

/-- The type of a register or load-queue source: its tag, agreement of its rows, and whether a queue is filled. -/
def regType (h : Hart) (conv : List Entry) (c : EClass) (code : Reg) (rows : Nat) : BitVec 4 × Bool × Bool :=
  if isVec code then
    let t := rowsTag h (srcRows c code rows)
    (t.1, t.2, true)
  else
    match lqFiller conv (code.toNat - 32) with
    | some e => (modeTd e.mode, true, true)
    | none => (0, true, false)

/-- Types formed by R47. -/
def formTypes (h : Hart) (conv : List Entry) (c : EClass) (w : EFields) (mode : Word) (rows : Nat) : SrcTypes :=
  let bReg := readsB c && !isBroadcast w.b
  let bt := if bReg then regType h conv c w.b rows else (0, true, true)
  if !readsA c then ⟨0, if readsB c then bt.1 else 0, bt.2.1, true, bt.2.2⟩
  else
    let aBc := isBroadcast w.a
    let at' := if aBc then (0, true, true) else regType h conv c w.a rows
    let ta := if !aBc then at'.1
      else if modeTa mode ≠ 0 then modeTa mode
      else if bReg then bt.1
      else modeTd mode
    let tb := if !readsB c then 0
      else if bReg then bt.1
      else if modeTb mode ≠ 0 then modeTb mode
      else ta
    ⟨ta, tb, at'.2.1 && bt.2.1, !aBc || modeTa mode != 0 || bReg || modeTd mode != 0, at'.2.2 && bt.2.2⟩

/-- The destination type of a word (R47): TD, or the type of a. -/
def dstType (mode : Word) (ta : BitVec 4) : BitVec 4 := if modeTd mode ≠ 0 then modeTd mode else ta

/-- The tag an accepted word sets (R47, R48). -/
def dstTag (c : EClass) (mode : Word) (ta : BitVec 4) (icx : Bool) : BitVec 4 :=
  if !writesVec c then 0
  else if icx then
    if modeTd mode ≠ 0 && decide (modeTd mode ≤ 12) then modeTd mode
    else if readsA c && decide (ta ≤ 12) then ta else 0
  else dstType mode ta

/-! ### Illegal combinations (R24, R35, R38, R44, R46 to R48) -/

def isSI (t : Ty) : Bool := tyIsInt t && tySigned t
def isUI (t : Ty) : Bool := tyIsInt t && !tySigned t

/-- A type code of 1 to 12 (R35). -/
def codeOk (c : BitVec 4) : Bool := decide (c ≤ 12)

/-- Reserved mode bits, type codes, RM and SHIFT (R35, R38, R44, R46). -/
def modeOk (m : Word) : Bool :=
  field m 32 32 == 0 && field m 17 7 == 0 && codeOk (modeTd m) && codeOk (modeTa m) && codeOk (modeTb m) &&
    decide (modeRmCode m ≤ 4) && decide (-63 ≤ modeShift m ∧ modeShift m ≤ 63)

/-- VL fits VLMAX of a type under a shape and lane clusters (R24). -/
def vlFits (vl : Nat) (t : Ty) (shape : Bool) (lcs : Nat) : Bool := decide (vl ≤ perLc (tyWidth t) shape * lcs)

/-- Types VARITH accepts (R125). -/
def varithAccepts (fn : Nat) (t : Ty) : Bool :=
  if fn ≤ 1 then true
  else if fn = 2 then true
  else if fn = 3 then tyIsInt t
  else if fn = 4 then tyIsInt t || tyIsFp t
  else if fn = 5 then tyIsInt t
  else if fn ≤ 7 then tyIsInt t || tyIsFp t
  else if fn = 8 then isSI t || tyIsFp t
  else if fn = 9 then isSI t || tyIsFp t || t == .t3
  else if fn ≤ 15 then tyIsInt t
  else tyIsFp t

/-- Destination types of SUM and SUMU (R142). -/
def sumAccepts (a d : Ty) : Bool :=
  if isSI a then isSI d && decide (tyWidth a ≤ tyWidth d)
  else if isUI a then isUI d && decide (tyWidth a ≤ tyWidth d)
  else if a = .t3 then d == .t3
  else d == a || d == .fp32

def vredAccepts (fn : Nat) (a d : Ty) : Bool :=
  if fn ≤ 1 then sumAccepts a d
  else if fn ≤ 3 then (tyIsInt a || tyIsFp a) && d == a
  else tyIsInt a && d == a

/-- Index types (R152). -/
def indexType (t : Ty) : Bool := tyIsInt t && t != .i4

/-- Two row ranges share a register. -/
def overlap (x y : List Nat) : Bool := x.any y.contains

/-- Worst product magnitude of a triad pair (R56). -/
def pairWeight (a b : Ty) : Option Nat :=
  match a, b with
  | .i8, .i8 => some 16384
  | .i8, .i4 => some 1024
  | .i4, .i8 => some 1024
  | .i4, .i4 => some 64
  | _, _ => none

/-- The pairs of R220 with their TD. -/
def mopPair (a b : Ty) (td : BitVec 4) : Bool :=
  ((pairWeight a b).isSome && td == 12) || (a == .bf16 && b == .bf16 && td == 11)

/-! Address registers of MOPM, CPY and COLL (R223). -/

def aSpace (x : Word) : Nat := field x 62 2
def aAddr (x : Word) : Nat := field x 0 62
/-- Bytes of WB and AB (R216). -/
def bufSize (space : Nat) : Nat := if space = 1 then 1048576 else 524288

def mopmAddrOk (x : Word) : Bool := aSpace x == 0 || (decide (aSpace x ≤ 2) && decide (aAddr x < bufSize (aSpace x)))
def mopmStrideOk (x : Word) (t : Ty) : Bool := field x 48 15 == 0 && (t != .i4 || !bit x 0)

/-- CPY's shape and version fields (R232). -/
def cpyRows (e : Entry) : Nat := field e.x2 48 12 + 1
def cpyLen (e : Entry) : Nat := field e.x2 32 16
def cpySpitch (e : Entry) : Nat := field e.x2 0 32
def cpyDpitch (e : Entry) : Nat := field e.x3 32 32
def cpyItag (e : Entry) : Bool := bit e.x2 62
def cpyKeep (e : Entry) : Bool := bit e.x2 63
def cpyBytes (e : Entry) : Nat := cpyRows e * cpyLen e

/-- A typed-buffer range of a CPY lies in its buffer (R233). -/
def cpyRangeOk (x : Word) (e : Entry) (pitch : Nat) : Bool :=
  aSpace x == 0 || decide (aAddr x + (cpyRows e - 1) * pitch + cpyLen e ≤ bufSize (aSpace x))

/-- Runs of bytes merged from rows at a pitch: every merged run starts and ends on a 16 KiB boundary (R233). -/
def wholeTiles (start stop pitch len n : Nat) : Bool :=
  match n with
  | 0 => start % 16384 == 0 && stop % 16384 == 0
  | k + 1 =>
    let next := stop - len + pitch
    if next ≤ stop then wholeTiles start (next + len) pitch len k
    else start % 16384 == 0 && stop % 16384 == 0 && wholeTiles next (next + len) pitch len k

/-- R233 but for the whole tiles of ITAG. -/
def cpyOk (e : Entry) (ns : Bool) (flid : BitVec 8) : Bool :=
  let ss := aSpace e.x0
  let ds := aSpace e.x1
  let sEnd := aAddr e.x0 + (cpyRows e - 1) * cpySpitch e + cpyLen e
  let dEnd := aAddr e.x1 + (cpyRows e - 1) * cpyDpitch e + cpyLen e
  ss != 3 && ds != 3 && field e.x2 60 2 == 0 && cpyLen e != 0 && cpyRangeOk e.x0 e (cpySpitch e) &&
    cpyRangeOk e.x1 e (cpyDpitch e) &&
    !(ss == ds && ss != 0 && decide (aAddr e.x0 < dEnd ∧ aAddr e.x1 < sEnd)) &&
    (!cpyItag e || (flid != 0 && (ss == 0 || ds == 0))) &&
    !(ns && (ss == 0 || ds == 0) && decide (cpyBytes e > 209280))

/-- With ITAG, a global destination is a run of whole tiles (R233). -/
def cpyTilesOk (e : Entry) : Bool :=
  !cpyItag e || aSpace e.x1 != 0 ||
    wholeTiles (aAddr e.x1) (aAddr e.x1 + cpyLen e) (cpyDpitch e) (cpyLen e) (cpyRows e - 1)

/-- COLL's captured values and mode word (R393, R394). -/
def collGroup (e : Entry) : Nat := field e.x2 56 8
def collOp (e : Entry) : Nat := field e.x2 50 2
def collCount (e : Entry) : Nat := field e.x2 0 48

def collOk (e : Entry) (kind : Nat) : Bool :=
  aSpace e.x0 == 0 && aSpace e.x1 != 1 && mopmAddrOk e.x1 && field e.x2 52 4 == 0 && field e.x2 48 2 == 0 &&
    collOp e != 3 && (kind == 0 || kind == 2 || collOp e == 0) && collCount e != 0 &&
    (if kind = 3 then aSpace e.x3 == 0 else e.x3 == 0) &&
    modeTb e.mode == 0 && modeShift e.mode == 0 && (modeTd e.mode == 0 || modeTd e.mode == modeTa e.mode) &&
    (match tyOf (modeTa e.mode) with
     | none => false
     | some t => (t != .i4 || collCount e % 2 == 0) &&
        (kind == 1 || kind == 3 || t == .i32 || t == .u32 || t == .i64 || tyIsFp t))

/-- The expected tags of the sources that the word reads (R47). -/
def expectOk (c : EClass) (e : Entry) : Bool :=
  (!readsA c || modeTa e.mode == 0 || modeTa e.mode == e.taga) &&
    (!readsB c || modeTb e.mode == 0 || modeTb e.mode == e.tagb)

/-- imm14 lies in the range of an integer source type (R69). -/
def immFits (w : EFields) (code : Reg) (t : Ty) : Bool :=
  code != 35#6 || !tyIsInt t || decide (tyMin t ≤ w.imm.toInt ∧ w.imm.toInt ≤ tyMax t)

def immOk (c : EClass) (w : EFields) (ta tb : Option Ty) : Bool :=
  (match ta with
   | some t => !readsA c || immFits w w.a t
   | none => true) &&
  (match tb with
   | some t => !readsB c || immFits w w.b t
   | none => true)

/-- TD is 0 or the type of a. -/
def tdIsA (e : Entry) : Bool := modeTd e.mode == 0 || modeTd e.mode == e.taga

/-- The rules of a word that reads a and b and writes the type of a. -/
def classOk (c : EClass) (w : EFields) (e : Entry) (lcs : Nat) (flid : BitVec 8) : Bool :=
  let m := e.mode
  let ta := tyOf e.taga
  let tb := tyOf e.tagb
  let td := tyOf (dstType m e.taga)
  let rows := e.rows.toNat
  let vl := e.vl.toNat
  let fits (t : Ty) : Bool := vlFits vl t e.shape lcs
  let noShift := modeShift m == 0
  let dRows := (List.range rows).map (w.d.toNat + ·)
  let indexOk (f : AddrForm) (data : Ty) : Bool :=
    (f != .indexed || (match tb with
      | some t => indexType t && fits t
      | none => false)) &&
    (f == .unit || data != .i4) && (f == .indexed || modeTb m == 0)
  match c with
  | .varith fn =>
    (match ta with
     | none => false
     | some t => varithAccepts fn t && tdIsA e && fits t && (!readsB c || e.tagb == e.taga) &&
        (noShift || (fn == 2 && tyIsInt t)))
  | .vmac _ =>
    (match ta with
     | none => false
     | some t => tdIsA e && fits t && e.tagb == e.taga && e.tagd == e.taga && (noShift || tyIsInt t))
  | .vcmp cc =>
    (match ta with
     | none => false
     | some t => e.tagb == e.taga && modeTd m == 0 && rows == 1 && noShift && fits t &&
        (if t = .t3 then decide (cc ≤ 1) else cc != 6 || tyIsFp t))
  | .vsel =>
    (match ta with
     | none => false
     | some t => e.tagb == e.taga && tdIsA e && noShift && fits t)
  | .vcvt fn =>
    (match ta, td with
     | some t, some d => fits t && fits d &&
        (tyWidth t == tyWidth d || !overlap dRows (srcRows c w.a rows)) &&
        (if fn = 0 then modeTd m != 0 && t != .t3 && d != .t3 && (noShift || (tyIsInt t && tyIsInt d))
         else if fn = 1 then tyIsInt t && modeTd m == 12 && noShift
         else t == .t3 && (modeTd m == 11 || modeTd m == 6) && noShift)
     | _, _ => false)
  | .vperm fn =>
    if fn = 7 then
      (match tyOf (modeTd m) with
       | none => false
       | some d => tyIsInt d && noShift && fits d)
    else
      (match ta with
       | none => false
       | some t => tdIsA e && noShift && fits t &&
          !((fn == 0 || fn == 1 || fn == 4 || fn == 5) && overlap dRows (srcRows c w.a rows)) &&
          (fn != 4 || (!overlap dRows (srcRows c w.b rows) && (match tb with
            | some u => tyIsInt u && fits u
            | none => false))) &&
          (!(fn ≤ 3) || (tyOf e.tagb).isSome))
  | .vred fn =>
    (match ta, td with
     | some t, some d => vredAccepts fn t d && noShift && fits t && fits d
     | _, _ => false)
  | .mask _ => true
  | .vtype => modeTd m != 0 && m == (modeTd m).setWidth 64
  | .vld f _ t =>
    (match tyOf (modeTd m) with
     | none => false
     | some d => modeTa m == 0 && noShift && fits d && indexOk f d &&
        !(f == .indexed && t == .reg && overlap dRows (srcRows c w.b rows)))
  | .vst _ f _ =>
    (match ta with
     | none => false
     | some t => tdIsA e && noShift && fits t && indexOk f t)
  | .vamo _ _ =>
    (match ta with
     | none => false
     | some t => (t == .i32 || t == .u32 || t == .i64) && tdIsA e && noShift && fits t && indexOk .indexed t &&
        !overlap dRows (srcRows c w.a rows) && !overlap dRows (srcRows c w.b rows))
  | .vfence | .mzero | .mbf | .tile _ => true
  | .mopa =>
    (match ta, tb with
     | some t, some u => vl % 64 == 0 && noShift && fits t && fits u && mopPair t u (modeTd m)
     | _, _ => false)
  | .mopm =>
    (match tyOf (modeTa m), tyOf (modeTb m) with
     | some t, some u => noShift && mopPair t u (modeTd m) && mopmAddrOk e.x0 && mopmAddrOk e.x2 &&
        mopmStrideOk e.x1 t && mopmStrideOk e.x3 u
     | _, _ => false)
  | .mcvt => e.taga == 11 && e.tagb == 11 && (modeTd m == 0 || modeTd m == 11) && noShift
  | .mrowR =>
    (modeTd m == 11 || modeTd m == 12) && modeTa m == 0 && modeTb m == 0 && noShift && decide (vl ≤ 64) &&
      fits .fp32 && decide (w.imm.toNat / 16 + rows ≤ 64)
  | .mrowW =>
    (e.taga == 11 || e.taga == 12) && tdIsA e && noShift && decide (vl ≤ 64) && fits .fp32 &&
      decide (w.imm.toNat + rows ≤ 64)
  | .cpy => cpyOk e (bit (w.imm.setWidth 64) 5) flid && cpyTilesOk e
  | .coll k => collOk e k

/-- Words to which no mode word applies (R145, R227, R232, R240). -/
def noMode : EClass → Bool
  | .mask _ | .vfence | .mzero | .mbf | .cpy | .tile _ => true
  | _ => false

/-- An illegal combination by the captured values (R48): at RUN for a whole entry, at an EMIT with the rest below. -/
def illegalCombo (c : EClass) (w : EFields) (e : Entry) (lcs : Nat) (flid : BitVec 8) : Bool :=
  !((noMode c || modeOk e.mode) && codeOk e.taga && codeOk e.tagb && codeOk e.tagd && expectOk c e &&
    immOk c w (tyOf e.taga) (tyOf e.tagb) && classOk c w e lcs flid)

/-! ### Convoys (R79, R80, R230) -/

/-- What the convoy rules look at in a word. -/
structure ConvoyWord where
  cls : EClass
  w : EFields
  rows : Nat
deriving DecidableEq, Repr

def convoyWord (e : Entry) : Option ConvoyWord :=
  (queuedClass e.word).map fun p => ⟨p.1, p.2, e.rows.toNat⟩

/-- Two words write one destination (R80). -/
def sameDest (x y : ConvoyWord) : Bool :=
  overlap (vecWrites x.cls x.w x.rows) (vecWrites y.cls y.w y.rows) ||
    overlap (maskWrites x.cls x.w) (maskWrites y.cls y.w) ||
    (writesTile x.cls && writesTile y.cls && x.w.d == y.w.d)

/-- Load queues filled and not yet consumed, after a list of words in order; none when a word reads a queue that
nothing before it fills (R80). -/
def openQueues (l : List ConvoyWord) (filled : List Nat) : Option (List Nat) :=
  match l with
  | [] => some filled
  | x :: rest =>
    let reads := lqReads x.cls x.w
    if reads.all filled.contains then openQueues rest ((filled.filter fun q => !reads.contains q) ++ lqWrites x.cls)
    else none

/-- The rules of R80 and R230 for the words of one convoy, in order. -/
def convoyOk (l : List ConvoyWord) : Bool :=
  decide (l.length ≤ 8) &&
    claimsOk (l.foldl (fun c x => addClaims c (claimsOf x.cls)) ⟨0, 0, 0, 0, 0, 0, 0, 0⟩) &&
    decide (l.Pairwise fun x y => sameDest x y = false) &&
    (l.length ≤ 1 || !(l.any fun x => x.cls == .vfence)) &&
    (openQueues l []).isSome &&
    !(l.any (fun x => tileWise x.cls) && l.any (fun x => elementWise x.cls))

/-- Every VLD to a load queue has been consumed: the convoy may close (R80). -/
def convoyCloses (l : List ConvoyWord) : Bool :=
  match openQueues l [] with
  | some q => q.isEmpty
  | none => false

/-- The words of the open convoy. -/
def openConvoy (h : Hart) : List ConvoyWord := (h.conv.getD []).filterMap convoyWord

/-- A word that closes the convoy faults here when a load queue is unconsumed (R80). -/
def canClose (h : Hart) : Bool := convoyCloses (openConvoy h)

/-! ### The return-queue commitment (R203) -/

/-- Entries owed by accepted words that have not yet pushed. -/
def owed (q : List Entry) : Nat :=
  q.foldl (fun n e => if e.complete then n else n + match queuedClass e.word with
    | some (c, _) => rqPushes c e.rows.toNat
    | none => 0) 0

def commitment (h : Hart) : Nat := h.rq.length + owed h.queue

/-! ### The checks of R75 in order -/

/-- Outcome of the checks 2 to 5 and of the commitment: a fault class and code, or an entry to accept, perhaps as an
illegal combination under ICT = 0. -/
inductive Checked where
  | refuse (cls code : Nat)
  | accept (e : Entry) (c : EClass) (w : EFields)
deriving DecidableEq, Repr

/-- Captured register x + i; a word that names none captures 0 all the same (R76). -/
def capture (h : Hart) (w : EFields) (i : Nat) : Word := rdN h (w.x.toNat + i)

/-- The entry that an EMIT would make (R76), before DONE and the model's own fields. DESIGN CHOICE: a VL above 16,383, which only a
store to the page can leave, is captured as 16,383, the largest that the 14-bit field of R77 holds (log 59). -/
def makeEntry (h : Hart) (slot : Nat) (pc : Word) (word : Word) (c : EClass) (w : EFields) (t : SrcTypes) : Entry :=
  { Entry.blank with
    word := word
    mode := rd h w.m
    x0 := capture h w 0
    x1 := capture h w 1
    x2 := capture h w 2
    x3 := capture h w 3
    thread := BitVec.ofNat 2 slot
    taga := t.ta
    tagb := t.tb
    tagd := match c with
      | .vmac _ => (rowsTag h (vecWrites c w h.rows.toNat)).1
      | _ => 0
    conv := w.c || h.conv.isNone
    rct := h.rct
    shape := h.shape
    rows := h.rows
    vl := if h.vl.toNat < 16384 then h.vl.setWidth 14 else 16383
    emitPc := pc
    seq := h.emitseq + 1 }

/-- LQ consumers capture the VL and ROWS of their VLD (R153). -/
def lqMatches (h : Hart) (e : Entry) (c : EClass) (w : EFields) : Bool :=
  (lqReads c w).all fun q => match lqFiller (h.conv.getD []) q with
    | some f => f.vl == e.vl && f.rows == e.rows
    | none => true

/-- VMAC's destination rows carry one tag (R71). -/
def dstRowsAgree (h : Hart) (c : EClass) (w : EFields) : Bool :=
  match c with
  | .vmac _ => (rowsTag h (vecWrites c w h.rows.toNat)).2
  | _ => true

/-- Checks 2 to 5 of R75, then the commitment of R203. DESIGN CHOICE: the open convoy of step 4 is, for a word with C = 1, the new
one that it opens, so a load queue that the convoy before has filled is not filled for it (class 6); and a word emitted after a
capped SETVL, before its cession, is checked against the lane clusters still owned, and may run after the cession on the bytes
that the registers hold (log 59). -/
def emitCheck (h : Hart) (slot : Nat) (flid : BitVec 8) (word : Word) : Checked :=
  match classOfWord word with
  | none => .refuse 4 0
  | some (c, w) =>
    let rows := h.rows.toNat
    let lcs := laneCount h.own
    if !(rowsExist c w rows h.shape && pitchExists c w rows) then .refuse 4 0
    else if touchesVector c && (h.vstate == .absent || lcs == 0) then .refuse 7 (if lcs = 0 then 1 else 0)
    else
      let conv := if w.c then [] else h.conv.getD []
      let t := formTypes h conv c w (rd h w.m) rows
      let e := makeEntry h slot h.pc word c w t
      let bad := illegalCombo c w e lcs flid || !t.rowsAgree || !t.typed || !dstRowsAgree h c w || !lqMatches h e c w
      if !t.lqFilled then .refuse 6 0
      else if bad && h.ict then .refuse 5 0
      else if w.c && !canClose h then .refuse 6 0
      else if c == .vfence && !w.c then .refuse 6 0
      else if !convoyOk (conv.filterMap convoyWord ++ [⟨c, w, rows⟩]) then .refuse 6 0
      else if commitment h + rqPushes c rows > 16 then .refuse 4 0
      else .accept { e with icx := bad, tagd := dstTag c e.mode e.taga bad } c w

/-- The tags of the destination rows set (R15). -/
def setTags (tags : Vector (BitVec 4) 32) (rows : List Nat) (t : BitVec 4) : Vector (BitVec 4) 32 :=
  rows.foldl (fun v n => v.setIfInBounds n t) tags

/-- The latest DONE of an element-wise word of the open convoy, words that have left the queue included: the c of R164 for
the next word that joins. -/
def latestDone (h : Hart) : Pos :=
  let l := h.conv.getD []
  let queued := min h.queue.length ((h.queue.reverse.takeWhile fun e => !e.conv).length + 1)
  let freed := (l.take (l.length - queued)).map fun e => { e with done := BitVec.ofNat 32 (e.rows.toNat * 2 ^ 28) }
  ((freed ++ h.queue.drop (h.queue.length - queued)).filter fun e => match queuedClass e.word with
    | some (c, _) => elementWise c
    | none => false).foldl (fun p e => maxPos p e.done) 0

/-- Acceptance (R75, R76, R255, R257): one indivisible step. The oldest word takes the held progress (R30), and a word that
joins a convoy notes what its words have committed (R164). -/
def acceptWord (h : Hart) (e : Entry) (c : EClass) (w : EFields) : Hart :=
  let first := h.queue.isEmpty
  let e := if first then { e with start := h.vstart, fold := h.rstate, kdone := h.kprog } else e
  let e := { e with late := if e.conv then 0 else latestDone h }
  let rows := vecWrites c w e.rows.toNat
  { h with
    emitseq := h.emitseq + 1
    tags := setTags h.tags rows e.tagd
    dirty := rows.foldl (fun d n => d ||| (1#32 <<< n)) h.dirty
    vstate := if h.vstate == .saved && (writesVec c || writesMask c) then .present else h.vstate
    queue := h.queue ++ [e]
    conv := some ((if e.conv then [] else h.conv.getD []) ++ [e]) }

end Sys2Proof.Machine
end

