-- ==== Sys2Proof/Machine/Access.lean ====
section
/-! DEFINITION. Reads and writes at a VA by a hart's engines and lanes, outside the control pages: translation of
each byte's page (R150), key epochs and poison. -/

namespace Sys2Proof.Machine

/-- Why an access gives nothing. -/
inductive AccFail where
  | xlat (f : XFail)
  | poison
deriving DecidableEq, Repr

/-- The places of n bytes from a VA: one, or two when they cross a 512 KiB page, each with its byte count. -/
def spanOf (s : State) (hid : Nat) (k : Access) (va : Word) (n : Nat) : Except XFail (List (Xlat × Nat)) :=
  let room := 2 ^ 19 - va.toNat % 2 ^ 19
  match translate s hid k va with
  | .error f => .error f
  | .ok x =>
    if n ≤ room then .ok [(x, n)]
    else
      match translate s hid { k with align := 1 } (va + BitVec.ofNat 64 room) with
      | .error f => .error f
      | .ok y => .ok [(x, room), (y, n - room)]

/-- What a vector element's access to the host window leaves of the caches: elements there become requests on the host link
(R167), so a line that one meets is written back and discarded first. -/
def askMem (m : Memory) (p : Place) (n : Nat) : Memory := if p.kind = 2 then sweepLines m p.pa n true else m

def askSpan (s : State) (l : List (Xlat × Nat)) : State := { s with mem := l.foldl (fun m x => askMem m x.1.place x.2) s.mem }

def cacheSpan (s : State) (l : List (Xlat × Nat)) : State := l.foldl (fun s x => cacheXlat s x.1) s

/-- The bytes of a span, or poison. -/
def readSpan (s : State) (l : List (Xlat × Nat)) : Option (List Byte) :=
  match l with
  | [] => some []
  | (x, n) :: rest =>
    if poisoned s.mem x.place.pa n then none
    else (readSpan s rest).map fun bs => devBytes s.mem (epochOf s x.place.key) x.place.pa n ++ bs

/-- A span written by a hart's lanes or engines. -/
def writeSpan (s : State) (hid : Nat) (l : List (Xlat × Nat)) (bs : List Byte) : State :=
  match l with
  | [] => s
  | (x, n) :: rest =>
    writeSpan (hartStore s hid (epochOf s x.place.key) x.place.pa (bs.take n)) hid rest (bs.drop n)

/-- n bytes read at a VA by an engine or lane. Stores of the hart that still wait are not seen: nothing orders them (R172,
R175). -/
def readVa (s : State) (hid : Nat) (k : Access) (va : Word) (n : Nat) : Except AccFail (List Byte × State) :=
  match spanOf s hid k va n with
  | .error f => .error (.xlat f)
  | .ok l =>
    match readSpan s l with
    | none => .error .poison
    | some bs => .ok (bs, cacheSpan s l)

/-- Bytes written at a VA by an engine or lane. -/
def writeVa (s : State) (hid : Nat) (k : Access) (va : Word) (bs : List Byte) : Except AccFail State :=
  match spanOf s hid k va bs.length with
  | .error f => .error (.xlat f)
  | .ok l => .ok (writeSpan (cacheSpan s l) hid l bs)

/-- An access that stalls (R362): no fault, the word waits. -/
def AccFail.stalls : AccFail → Bool
  | .xlat (.stalls _) => true
  | _ => false

/-- Class, code and ADDRESS of an E-word whose access failed (R190). -/
def accFault (e : Entry) (acc : Nat) (va : Word) (f : AccFail) : FaultRec :=
  match f with
  | .xlat x => eFaultRec e (xfailClass true acc x).1 (xfailClass true acc x).2 va 0
  | .poison => eFaultRec e 25 0 va 0

/-- Reads and writes of the engines: no alignment, no control page (R150, R315). -/
def engineRead : Access := ⟨1, 1, false, true, false, false, true⟩
def engineWrite : Access := ⟨2, 1, false, true, false, false, true⟩

/-- Reads and writes of an Accord engine, an agent of the open world (R352). -/
def accordRead : Access := { engineRead with outer := true, byUnit := false }
def accordWrite : Access := { engineWrite with outer := true, byUnit := false }

/-- Elements of a width packed in bytes (R36, R37). -/
def packElems (width : Nat) (l : List Nat) : List Byte :=
  if width = 4 then
    match l with
    | [] => []
    | [a] => [BitVec.ofNat 8 a]
    | a :: b :: rest => BitVec.ofNat 8 (a % 16 + 16 * (b % 16)) :: packElems width rest
  else l.flatMap fun x => splitBytes (width / 8) x

/-- n elements of a width from packed bytes. -/
def unpackElems (width : Nat) (bs : List Byte) (n : Nat) : List Nat :=
  let v := joinBytes bs
  (List.range n).map fun i => v / 2 ^ (width * i) % 2 ^ width

/-! ### Typed buffers (R151, R216) -/

/-- Bytes of a typed buffer of a core: space 1 WB, 2 AB, 3 CB. -/
def bufByte (c : CoreSt) (space a : Nat) : Byte :=
  let v := if space = 1 then c.wb[a / 16384]?.getD 0 else if space = 2 then c.ab[a / 16384]?.getD 0 else c.cb[a / 16384]?.getD 0
  BitVec.ofNat 8 (bitsAt v (8 * (a % 16384)) 8)

def setBufByte (c : CoreSt) (space a : Nat) (b : Byte) : CoreSt :=
  let put (v : BitVec 131072) : BitVec 131072 := putBits v (8 * (a % 16384)) 8 b.toNat
  let i := a / 16384
  if space = 1 then { c with wb := c.wb.setIfInBounds i (put (c.wb[i]?.getD 0)) }
  else if space = 2 then { c with ab := c.ab.setIfInBounds i (put (c.ab[i]?.getD 0)) }
  else { c with cb := c.cb.setIfInBounds i (put (c.cb[i]?.getD 0)) }

def readBuf (c : CoreSt) (space a n : Nat) : List Byte := (List.range n).map fun i => bufByte c space (a + i)

def writeBuf (c : CoreSt) (space a : Nat) (bs : List Byte) : CoreSt :=
  match bs with
  | [] => c
  | b :: rest => writeBuf (setBufByte c space a b) space (a + 1) rest

/-- Tile-table entry of a byte of a typed buffer. -/
def tileOf (space a : Nat) : Nat := (if space = 1 then 0 else if space = 2 then 64 else 96) + a / 16384

def tileAt (c : CoreSt) (i : Nat) : Tile := c.tiles[i]?.getD Tile.reset
def setTile (c : CoreSt) (i : Nat) (t : Tile) : CoreSt := { c with tiles := c.tiles.setIfInBounds i t }
def setTileState (c : CoreSt) (i : Nat) (st : TileState) : CoreSt := setTile c i { tileAt c i with state := st }

/-- A byte range touches a tile that an engine holds (R151, R224). -/
def inFlight (c : CoreSt) (space a n : Nat) : Bool :=
  (List.range (n + 1)).any fun i => match (tileAt c (tileOf space (a + min i (n - 1)))).state with
    | .filling | .draining => true
    | .empty | .ready => false

end Sys2Proof.Machine
end

