-- ==== Sys2Proof/Machine/Records.lean ====
section
/-! DEFINITION. Shared bookkeeping of events: the error log (R373 to R375), the hallmark counters (R286, R287), and
how a queued word completes and leaves its queue (R200). -/

namespace Sys2Proof.Machine

/-! ### Error log -/

/-- The class word of a record (R373). -/
def errClass (kind sev site die clu core unit : Nat) : Word :=
  BitVec.ofNat 64 (kind * 2 ^ 56 + sev * 2 ^ 54 + site * 2 ^ 18 + die * 2 ^ 13 + clu * 2 ^ 10 + core * 2 ^ 8 + unit)

/-- A record written, counted in SUMMARY, and told to the host (R373, R375). KIND 1, 3 and 5 are written at most
1,000 times a second per cluster (R374). where_ is the cluster number of the limit. -/
def logError (s : State) (kind sev site die clu core unit : Nat) (detail : Word) : State :=
  let g := s.errlog
  let cl := 8 * die + clu
  let sec := s.pt / 1000000000
  let lim := fmGet g.limited (0, 0) cl
  let n := if lim.1 = sec then lim.2 else 0
  let isLimited := kind == 1 || kind == 3 || kind == 5
  let g1 := { g with
    sev0 := if sev = 0 then min (g.sev0 + 1) (2 ^ 32 - 1) else g.sev0
    sev1 := if sev = 1 then min (g.sev1 + 1) (2 ^ 16 - 1) else g.sev1
    fatal := g.fatal || sev == 2
    limited := if isLimited then fmSet g.limited cl (sec, n + 1) else g.limited }
  let g2 := if isLimited && decide (1000 ≤ n) then g1
    else { g1 with
      recs := fmSet g1.recs (g1.written % 1024) ⟨g1.written, s.pt, errClass kind sev site die clu core unit, detail⟩
      written := g1.written + 1 }
  { s with
    errlog := g2
    msix := if sev = 1 then s.msix ++ [(0, 0)] else s.msix
    aer := if sev = 2 then s.aer ++ [⟨0, true⟩] else s.aer }

/-! ### Hallmark counters -/

def satAdd32 (a b : Nat) : Nat := min (a + b) (2 ^ 32 - 1)

/-- Add 1 to counter w of a core, at its leaf controller (R286). -/
def hallCount (s : State) (core w : Nat) : State :=
  let c := clusterAt s (core / 4)
  setCluster s (core / 4) { c with
    counters := fmSet c.counters (128 * core + w) (satAdd32 (fmGet c.counters 0 (128 * core + w)) 1) }

/-- A leaf controller adds its counters into the hallmark record (R287). -/
def flushCluster (s : State) (cl : Nat) : State :=
  let c := clusterAt s cl
  let h := s.hallmark
  let merged := c.counters.foldl (fun m x => fmSet m x.1 (satAdd32 (fmGet m 0 x.1) x.2)) h.counters
  setCluster { s with hallmark := { h with counters := merged } } cl { c with counters := [] }

/-! ### Blocked windows (R344) -/

/-- A slot in which the HBM of a die cannot be reached. -/
def blocksDie (x : Slot) (die : Nat) : Bool := x.kind == 0 || (x.kind == 2 && x.dies.getLsbD die)

/-! ### Frames (R290, R316, R317) -/

/-- Die and frame of a PA page (R290). -/
def frameAt (s : State) (p : Nat) : Nat × Nat := fmGet s.frames (p % 24, p / 24) p

/-- The page that a frame holds. -/
def frameHolder (s : State) (die frame : Nat) : Option Nat :=
  match s.frames.find? fun x => x.2 == (die, frame) with
  | some x => some x.1
  | none => if (fmFind s.frames (24 * frame + die)).isSome then none else some (24 * frame + die)

/-- A page is being moved (R316). -/
def moving (s : State) (p : Nat) : Bool := s.migration.any fun m => m.page == p || m.other == some p

/-- A move of a page begins (R317): what the frame holds moves to the frame that becomes empty (log 60). -/
def beginMigration (s : State) (page die frame : Nat) : State :=
  let other := (frameHolder s die frame).filter (· != page)
  { s with migration := some ⟨page, die, frame, other, s.pt⟩ }

/-- The new placement is written. -/
def endMigration (s : State) : State :=
  match s.migration with
  | none => s
  | some m =>
    let old := frameAt s m.page
    let f := match m.other with
      | some q => fmSet s.frames q old
      | none => s.frames
    { s with frames := fmSet f m.page (m.die, m.frame), migration := none }

/-! ### Queue entries -/

/-- Entry i of the queue (0 the oldest) changed. -/
def updateEntry (h : Hart) (i : Nat) (f : Entry → Entry) : Hart :=
  { h with queue := h.queue.modify i f }

/-- The entries of the head convoy still queued (R79, R81). -/
def headConvoy (q : List Entry) : List Entry :=
  match q with
  | [] => []
  | e :: rest => e :: rest.takeWhile fun x => !x.conv

/-- Completed entries leave the head of the queue in emit order (R200). -/
def freeEntries (h : Hart) : Hart :=
  let q := h.queue.dropWhile fun e => e.complete
  { h with queue := q, inWindow := h.inWindow && (match q with
    | [] => false
    | e :: _ => q.length == h.queue.length || !e.conv) }

/-- The place in the queue of the COLL that the engine has started. -/
def startedColl (h : Hart) : Option Nat :=
  h.queue.findIdx? fun e => e.started && !e.complete && (match queuedClass e.word with
    | some (.coll _, _) => true
    | _ => false)

/-- Undefined bytes (R7; log 7). -/
def freshBytes (s : State) (n : Nat) : List Byte × State :=
  ((List.range n).map fun i => Config.freeByte (s.free + i), { s with free := s.free + n })

end Sys2Proof.Machine
end

