-- ==== Sys2Proof/Machine/Progress.lean ====
section
/-! DEFINITION. How far the words of a hart's head convoy are: positions (R18, R30), completion (R31, R123, R200), the
hazards between its words (R81, R207), the issue window (R206, R208), interruption (R124, R143, R164, R237, R238) and the
delivery of an E-level fault (R164, R187, R188). -/

namespace Sys2Proof.Machine

/-! ### Positions (R18, R30) -/

/-- A position as a number, with the layout of VSTART: row 0 first, then element order. -/
def posKey (r i : Nat) : Nat := r * 2 ^ 28 + i
def keyRow (p : Nat) : Nat := p / 2 ^ 28
def keyElem (p : Nat) : Nat := p % 2 ^ 28

/-- No limit on the positions. -/
def noLimit : Nat := 2 ^ 33

/-- Every position of a sweep, in order. -/
def sweepKeys (rows vl : Nat) : List Nat := (List.range rows).flatMap fun r => (List.range vl).map fun i => posKey r i

/-- Where a word resumes (R30): VSTART, or its DONE where that lies later. -/
def resumeKey (e : Entry) : Nat := (maxPos e.start e.done).toNat

/-- The completion test of R30 for a word that sweeps VL elements. -/
def pastEnd (e : Entry) : Bool :=
  decide (e.rows.toNat ≤ keyRow (resumeKey e)) || decide (e.vl.toNat ≤ keyElem (resumeKey e))

/-- The positions that a word still has to perform. -/
def keysLeft (e : Entry) : List Nat :=
  if pastEnd e then [] else (sweepKeys e.rows.toNat e.vl.toNat).filter fun p => decide (resumeKey e ≤ p)

/-- The first position of a word's own sweep that is not below a limit. -/
def normKey (vl limit : Nat) : Nat := if keyElem limit < vl then limit else (keyRow limit + 1) * 2 ^ 28

/-! ### Kinds of queued words -/

/-- Kinds of a queued word, from its class. -/
def wordIs (p : EClass → Bool) (e : Entry) : Bool :=
  match queuedClass e.word with
  | some (c, _) => p c
  | none => false

def touchesVectorWord (e : Entry) : Bool := wordIs touchesVector e

/-- The hart's queue is issuing (R247). -/
def issuing (h : Hart) : Bool :=
  !h.queue.isEmpty && (match h.ctl with
    | .run | .stopDrain | .stopFreeze => true
    | .trapped => !h.qStopped
    | .idle | .stopped => false)

/-! ### Completion (R31, R123, R200) -/

/-- The oldest word that has not completed. -/
def oldest (h : Hart) : Option Nat := h.queue.findIdx? fun e => !e.complete

/-- The timer restarts where it is the oldest word that has got further (R247). -/
def restartTimer (h : Hart) (i : Nat) : Hart := if oldest h = some i then { h with timer := 0 } else h

/-- DONE of a word that has completed: past its last row, for a word that records a position (R30, R77). -/
def endDone (e : Entry) : Pos := if wordIs recordsPosition e then BitVec.ofNat 32 (posKey e.rows.toNat 0) else e.done

/-- Word i completes (R30, R31, R123): its flags reach VXSR, its entries the return queue, and the progress registers go
to 0, but that those of a fault not yet resumed from stand (R187; log 12). It leaves the queue with freeEntries. -/
def completeAt (h : Hart) (i : Nat) (flags : BitVec 8) (push : List Word) : Hart :=
  let own := (h.queue[i]?.map (·.flags)).getD 0
  let reader := (h.queue[i]?.map (·.seq.toNat + 1)).getD 0
  let h := restartTimer h i
  let h := updateEntry h i fun e => { e with complete := true, claims := [], flags := 0, done := endDone e }
  { pushRq (orFlags h (flags ||| own)) push with
    vstart := if h.qStopped then h.vstart else 0
    rstate := if h.qStopped then h.rstate else 0
    kprog := if h.qStopped then h.kprog else 0
    images := h.images.filter fun x => x.reader != reader || reader == 0
    stalled := false }

/-! ### Hazards (R81, R207) -/

/-- What a word reads and writes: vector registers n, masks 32 + k, load queues 48 + q. -/
structure Uses where
  reads : List Nat
  writes : List Nat
deriving DecidableEq, Repr

def Uses.none : Uses := ⟨[], []⟩

def usesOf (c : EClass) (w : EFields) (rows : Nat) : Uses where
  reads := vecReads c w rows ++ ((maskReads c w).filter (· != 0)).map (32 + ·) ++ (lqReads c w).map (48 + ·)
  writes := vecWrites c w rows ++ (maskWrites c w).map (32 + ·) ++ (lqWrites c).map (48 + ·)

def addUses (x y : Uses) : Uses := ⟨x.reads ++ y.reads, x.writes ++ y.writes⟩

/-- A word must wait for words before it with these uses. -/
def clashes (x earlier : Uses) : Bool :=
  overlap x.reads earlier.writes || overlap x.writes earlier.writes || overlap x.writes earlier.reads

/-- An element-wise word that an earlier place of the convoy holds, and the position from which it has not been computed. -/
structure Writer where
  cls : EClass
  w : EFields
  rows : Nat
  reach : Nat
deriving DecidableEq, Repr

def Writer.uses (y : Writer) : Uses := usesOf y.cls y.w y.rows

/-- The register codes that a word reads row by row. -/
def rowSources (c : EClass) (w : EFields) : List Reg :=
  ((if readsA c then [w.a] else []) ++ (if readsB c then [w.b] else []) ++ (match c with
    | .vmac _ => [w.d]
    | _ => [])).filter isVec

/-- A source register range meets what a writer writes. -/
def readsFrom (code : Reg) (rows : Nat) (y : Writer) : Bool :=
  overlap ((List.range rows).map (code.toNat + ·)) (vecWrites y.cls y.w y.rows)

/-- A word reads a writer's rows elsewhere than at its own position: at another row, or one element for all (R140). -/
def readsAhead (c : EClass) (w : EFields) (rows : Nat) (y : Writer) : Bool :=
  (rowSources c w).any fun code => readsFrom code rows y && (code != y.w.d || c == .vperm 6)

/-- A writer has still to read what a word writes, at a later position than that at which the word writes it: a row below the
word's own, one element for all (R140), or a mask for further rows. -/
def readsBehind (y : Writer) (c : EClass) (w : EFields) (rows : Nat) : Bool :=
  ((rowSources y.cls y.w).any fun code => readsFrom code y.rows ⟨c, w, rows, 0⟩ &&
      (decide (code.toNat < w.d.toNat) || (y.cls == .vperm 6 && code == w.d))) ||
    (decide (1 < y.rows) && overlap (maskReads y.cls y.w) (maskWrites c w))

/-- The position from which a word cannot be computed, for what it reads of a writer (R207); noLimit where it reads
nothing that is still to come. -/
def readLimit (c : EClass) (w : EFields) (rows : Nat) (y : Writer) : Nat :=
  if y.reach = noLimit then noLimit
  else
    let regs := ((rowSources c w).filter fun code => readsFrom code rows y).map fun code =>
      let p := y.reach + posKey y.w.d.toNat 0 - posKey code.toNat 0
      if c = .vperm 6 then posKey (if keyElem p ≤ w.imm.toNat then keyRow p else keyRow p + 1) 0 else p
    let rest := if overlap (maskReads c w) (maskWrites y.cls y.w) || overlap (lqReads c w) (lqWrites y.cls) then [y.reach] else []
    (regs ++ rest).foldl min noLimit

/-- AQ and RL of a CPY or COLL (R235, R399). -/
def acquires (c : EClass) (w : EFields) : Bool :=
  match c with
  | .cpy | .coll _ => w.imm.getLsbD 0
  | _ => false
def releases (c : EClass) (w : EFields) : Bool :=
  match c with
  | .cpy | .coll _ => w.imm.getLsbD 1
  | _ => false

/-- Later words of the convoy do not issue before it completes (R240). -/
def holdsLater : EClass → Bool
  | .tile fn => fn == 2 || fn == 3
  | _ => false

/-- It starts only when every earlier word of its convoy has completed (R162, R240). -/
def waitsForAll : EClass → Bool
  | .vfence => true
  | .tile fn => fn == 0 || fn == 1
  | _ => false

/-- A word that is not element-wise has to wait until element-wise words before it have completed: it reads or overwrites
what they use (R131, R207), it pushes after them (R123), or its order asks for it (R161, R235, R240). -/
def waitsForLive (c : EClass) (w : EFields) (rows : Nat) (live : List Writer) : Bool :=
  live.any fun y =>
    clashes (usesOf c w rows) y.uses || waitsForAll c || (acquires c w && accessesMemory y.cls) ||
      (accessesMemory c && isVamo y.cls) || (rqPushes c rows != 0 && rqPushes y.cls y.rows != 0)

/-- A word may run after earlier words of its convoy that have not completed: hazards, and the ordering rules of R123, R161, R203,
R235, R240. -/
def runsAfter (before : List (EClass × EFields × Nat)) (c : EClass) (w : EFields) (rows : Nat) : Bool :=
  let u := usesOf c w rows
  (!waitsForAll c || before.isEmpty) &&
    before.all fun x =>
      !clashes u (usesOf x.1 x.2.1 x.2.2) && !holdsLater x.1 && !(releases x.1 x.2.1 && accessesMemory c) &&
        !(isVamo x.1 && accessesMemory c) && !(acquires c w && accessesMemory x.1) &&
        !(rqPushes c rows != 0 && rqPushes x.1 x.2.2 != 0)

/-! ### The issue window (R206, R208, R212) -/

/-- Elements that a word sweeps in a lane's row. -/
def elemsOf (c : EClass) (e : Entry) : Nat := if c = .mcvt then 64 else e.vl.toNat

/-- Bits of the widest element of a word. -/
def widestOf (e : Entry) : Nat :=
  ([e.taga, e.tagb, dstType e.mode e.taga].map fun t => match tyOf t with
    | some t => tyWidth t
    | none => 4).foldl max 4

/-- The lane clusters that hold elements of a queued word (R22, R212). -/
def clustersOf (h : Hart) (e : Entry) : BitVec 4 :=
  match queuedClass e.word with
  | some (c, _) =>
    if touchesVector c then
      let per := perLc (widestOf e) e.shape
      bits4 ((ownBits h.own).take ((elemsOf c e + per - 1) / per))
    else 0
  | none => 0

/-- Lane clusters that words of the head convoy still have to use. -/
def busyClusters (h : Hart) : BitVec 4 :=
  (headConvoy h.queue).foldl (fun b e => if e.complete then b else b ||| clustersOf h e) 0

/-- Words of the head convoy that have not completed, as the window knows them. -/
def windowWords (h : Hart) (slot : Nat) : List (Nat × Word) :=
  ((headConvoy h.queue).filter fun e => !e.complete).map fun e => (slot, e.seq)

/-- The words of the head convoy enter the issue window in their order, and the lane clusters that they use are awake. -/
def enterWindow (s : State) (hid : Nat) : State :=
  let h := hartAt s hid
  let c := coreAt s (coreOf hid)
  let mine := windowWords h (slotOf hid)
  let there := c.window.filter fun x => x.1 != slotOf hid || mine.contains x
  let s := setHart s hid { h with inWindow := true }
  setCore s (coreOf hid) { c with
    window := there ++ mine.filter fun x => !there.contains x
    gated := c.gated &&& ~~~(busyClusters h) }

/-- A hart whose queue is issuing has its head convoy in the window. -/
def joinWindow (s : State) (hid : Nat) : State := if issuing (hartAt s hid) then enterWindow s hid else s

/-- The words of a hart leave the window. -/
def leaveWindow (s : State) (hid : Nat) : State :=
  let c := coreAt s (coreOf hid)
  setCore s (coreOf hid) { c with window := c.window.filter fun x => x.1 != slotOf hid }

/-- A word in the window that has still to be performed and answers p. -/
def liveInWindow (s : State) (core : Nat) (p : Entry → Bool) (x : Nat × Word) : Bool :=
  let h := hartAt s (4 * core + x.1)
  issuing h && (headConvoy h.queue).any fun e => !e.complete && e.seq == x.2 && p e

/-- No word of another hart of the core that answers p entered the window before a word of this hart (R208). -/
def firstOfCore (s : State) (hid : Nat) (e : Entry) (p : Entry → Bool) : Bool :=
  let before := (coreAt s (coreOf hid)).window.takeWhile (· != (slotOf hid, e.seq))
  before.all fun x => x.1 == slotOf hid || !liveInWindow s (coreOf hid) p x

/-! ### Interruption (R124, R143, R164, R237, R238) -/

/-- The running value of a fold reduction (R143): its start value until it has taken a position up. -/
def foldValue (e : Entry) : Word :=
  if e.rsv || e.start != 0 || e.done != 0 then e.fold
  else match tyOf (dstType e.mode e.taga) with
    | some t => BitVec.ofNat 64 (e.x0.toNat % 2 ^ tyWidth t)
    | none => 0

/-- An address register moved on by a number of bytes (R237): SPACE stands. -/
def addrPlus (x : Word) (n : Nat) : Word := putField x 0 62 (aAddr x + n)

/-- The captured registers of a CPY after its completed rows (R237); a no-split CPY is judged again (R344). -/
def rewriteCopy (e : Entry) : Entry :=
  let e := { e with judged := false, deferred := none }
  if e.rowsDone = 0 then e
  else { e with
    x0 := addrPlus e.x0 (e.rowsDone * cpySpitch e)
    x1 := addrPlus e.x1 (e.rowsDone * cpyDpitch e)
    x2 := putField e.x2 48 12 (cpyRows e - 1 - e.rowsDone)
    rowsDone := 0 }

/-- What an interruption records in a word of the head convoy: the position that it has reached, RSV of a fold, the
rows of a CPY. Load-queue data that nothing has consumed is discarded (R155), and a MOPA or MOPM will start in the array again
(R225). Its flags stay with it (R31). -/
def interruptEntry (e : Entry) : Entry :=
  if e.complete then e
  else
    let e := { e with filled := 0, started := e.started && !wordIs matrixStep e }
    let e := if wordIs elementWise e || wordIs tileWise e then { e with done := maxPos e.start e.done } else e
    let e := if wordIs isFold e && !e.icx then { e with fold := foldValue e, rsv := true } else e
    if wordIs (· == .cpy) e then rewriteCopy e else e

/-- The head convoy is interrupted: each word records how far it is, and RSTATE takes the fold's running value. -/
def interruptConvoy (h : Hart) : Hart :=
  let n := (headConvoy h.queue).length
  let fold := ((h.queue.take n).find? fun e => wordIs isFold e && !e.complete && !e.icx).map foldValue
  { h with
    queue := (h.queue.take n).map interruptEntry ++ h.queue.drop n
    rstate := fold.getD h.rstate
    eStall := []
    inWindow := false }

/-- An access of an E-word of a hart stalls on a key slot that is being revoked (R362). -/
def noteStall (s : State) (hid slot : Nat) : State :=
  let h := hartAt s hid
  let k := BitVec.ofNat 8 slot
  if h.eStall.contains k then s else setHart s hid { h with eStall := k :: h.eStall }

/-- The position of the head convoy: the lowest at which a word of it resumes. -/
def convoyKey (conv : List Entry) : Option Nat :=
  conv.foldl (fun b e =>
    if !e.complete && (wordIs elementWise e || wordIs tileWise e) then
      some (match b with
        | some x => min x (resumeKey e)
        | none => resumeKey e)
    else b) none

/-- VSTART, RSTATE and KPROG as they belong to the head convoy (R30). -/
def syncProgress (h : Hart) : Hart :=
  let conv := headConvoy h.queue
  let fold := conv.find? fun e => !e.complete && !e.icx && wordIs isFold e
  let mat := conv.find? fun e => !e.complete && wordIs matrixStep e
  { h with
    vstart := match convoyKey conv with
      | some p => BitVec.ofNat 32 p
      | none => h.vstart
    rstate := match fold with
      | some e => if e.start != 0 || e.done != 0 || e.rsv then e.fold else h.rstate
      | none => h.rstate
    kprog := match mat with
      | some e => e.kdone
      | none => h.kprog }

/-- Completed words leave the queue (R200), and the progress is that of what remains; after an E-level fault it stands. The
next convoy enters the window. -/
def retireWords (s : State) (hid : Nat) : State :=
  let h := hartAt s hid
  joinWindow (setHart s hid (if h.qStopped then freeEntries h else syncProgress (freeEntries h))) hid

/-- An E-level fault delivered (R164, R187, R188): the convoy is interrupted, VSTART holds the fault's position, and
words that have completed have left the queue as far as R200 lets them. -/
def deliver (s : State) (hid : Nat) (pos : Option Nat) (f : FaultRec) : State :=
  let h := syncProgress (interruptConvoy (freeEntries (hartAt s hid)))
  let h := match pos with
    | some p => { h with vstart := BitVec.ofNat 32 p }
    | none => h
  raiseE (setHart (leaveWindow s hid) hid h) hid f

end Sys2Proof.Machine
end

