-- ==== Sys2Proof/Machine/Fabric.lean ====
section
/-! DEFINITION. The Accord engines and Selver links (R382 to R402): flits in and out, the ring algorithm of the
collectives on abstract segments (log 23), rerouting, link death and abandonment. -/

namespace Sys2Proof.Machine

/-! ### Links out (R382 to R386) -/

/-- Flits a retry buffer holds (R385). -/
def retryRoom : Nat := 128

/-- A link-retrain slot that names the link's hub is in progress: the link stalls (R342, R343, R403). -/
def retraining (s : State) (l : Nat) : Bool :=
  match s.calendar.current with
  | some x => x.kind == 1 && x.hubs.getLsbD (l / 9)
  | none => false

def keyBit (slot : Bool) : Nat := if slot then 1 else 0

/-- The invocation counter of a send key (R383). -/
def Link.count (k : Link) (slot : Bool) : Nat := if slot then k.count1 else k.count0
def Link.setCount (k : Link) (slot : Bool) (n : Nat) : Link := if slot then { k with count1 := n } else { k with count0 := n }

/-- From here on a send key's marker is due (R384), with room for what may have to be replayed under it. -/
def retireCount : Nat := 2 ^ 40 - 2 ^ 16

/-- A flit leaves under the key of a slot: that key's counter moves on by 1 (R383). -/
def emitFlit (s : State) (l seq : Nat) (ks : Bool) (b : FlitBody) : State :=
  let k := linkAt s l
  let n := k.count ks
  let k := k.setCount ks (n + 1)
  let k := { k with markerDue := k.markerDue || (ks == k.tks && decide (retireCount ≤ n + 1)) }
  { setLink s l k with outbox := s.outbox ++ [⟨l, seq, ks, n, b⟩] }

/-- No SEQ has been given yet. -/
def unsent : Nat := 2 ^ 48

/-- A data flit has left under a SEQ: the segment that its collective keeps, or the record of its way through, takes it. -/
def noteSent (s : State) (l seq : Nat) (b : FlitBody) : State :=
  match b with
  | .data _ src seg =>
    if src = Config.moduleId.toNat then
      { s with colls := s.colls.map fun c => { c with
        unacked := c.unacked.map fun u => if u.1 == l && u.2.1 == unsent && u.2.2 == seg then (l, seq, seg) else u } }
    else
      match s.forwards.findIdx? fun f => f.out == l && f.outSeq == unsent with
      | some i => { s with forwards := s.forwards.modify i fun f => { f with outSeq := seq } }
      | none => s
  | .idle | .ack .. | .nak _ | .marker _ | .control _ => s

/-- A non-idle flit sent: it takes the next SEQ and stays in the retry buffer (R385). -/
def sendFlit (s : State) (l : Nat) (b : FlitBody) : State :=
  let k := linkAt s l
  let q := k.sendSeq
  let s := setLink s l { k with sendSeq := (q + 1) % 2 ^ 48, retry := k.retry ++ [⟨q, k.tks, b⟩] }
  emitFlit (noteSent s l q b) l q k.tks b

/-- The marker goes out under the current slot; every flit with a higher SEQ is under the other (R384). -/
def sendMarker (s : State) (l : Nat) : State :=
  let k := linkAt s l
  let s := sendFlit s l (.marker !k.tks)
  setLink s l { linkAt s l with tks := !k.tks, markerDue := false, markerSeq := some k.sendSeq }

/-- An ack or a nak, which a full retry buffer does not keep back (R385). -/
def passesFull : FlitBody → Bool
  | .ack .. | .nak _ => true
  | .idle | .data .. | .marker _ | .control _ => false

/-- What a link sends next: a marker that is due, or the first waiting flit that may go (R384, R385). -/
def nextFlit (k : Link) : Option FlitBody :=
  let room := decide (k.retry.length < retryRoom)
  if k.markerDue && room && k.txKeys.getLsbD (keyBit !k.tks) then some (.marker !k.tks)
  else k.backlog.find? fun b => room || passesFull b

/-- Waiting flits sent, while the link does not stall. -/
def pumpLink (s : State) (l fuel : Nat) : State :=
  match fuel with
  | 0 => s
  | n + 1 =>
    let k := linkAt s l
    if k.state ≠ 2 || retraining s l || decide (2 ^ 40 - 1 ≤ k.count k.tks) then s
    else
      match nextFlit k with
      | none => s
      | some (.marker b) => if k.markerDue then pumpLink (sendMarker s l) l n else pumpLink (sendFlit s l (.marker b)) l n
      | some b => pumpLink (sendFlit (setLink s l { k with backlog := k.backlog.erase b }) l b) l n

/-- A flit given to a link that is up. -/
def sendOn (s : State) (l : Nat) (b : FlitBody) : State :=
  let k := linkAt s l
  if k.state = 2 then pumpLink (setLink s l { k with backlog := k.backlog ++ [b] }) l (k.backlog.length + 2) else s

/-- An idle flit, when nothing else can go: it carries the next SEQ and is not kept (R382, R385). -/
def sendIdle (s : State) (l : Nat) : State :=
  let k := linkAt s l
  if k.state = 2 && !retraining s l && (nextFlit k).isNone && decide (k.count k.tks < 2 ^ 40 - 1) then emitFlit s l k.sendSeq k.tks .idle else s

/-- The link's ack of everything received up to a SEQ (R382, R385). -/
def sendAck (s : State) (l seq : Nat) : State :=
  let k := linkAt s l
  sendOn (setLink s l { k with unacked := 0 }) l (.ack k.peer Config.moduleId.toNat seq false)

/-! ### Groups (R391) -/

def groupAt (s : State) (hub g : Nat) : Group := fmGet (engineAt s hub).groups Group.reset g
def setGroup (s : State) (hub g : Nat) (x : Group) : State :=
  let e := engineAt s hub
  setEngine s hub { e with groups := fmSet e.groups g x }

/-- The entry is valid (R391). -/
def groupValid (g : Group) : Bool :=
  g.v && decide (2 ≤ g.size.toNat ∧ g.size.toNat ≤ 4095 ∧ g.rank.toNat < g.size.toNat)

def hubOfCore (core : Nat) : Nat := core / 192

/-- The link of the active path toward the next rank; none when it is on this module. -/
def nextLink (g : Group) : Option Nat :=
  if g.module = Config.moduleId then none else some (if g.active then g.alink.toNat else g.link.toNat)

def hstatAt (s : State) (hid : Nat) : HStat := fmGet (engineAt s (hubOf hid)).hstat HStat.reset hid
def setHstat (s : State) (hid : Nat) (x : HStat) : State :=
  let e := engineAt s (hubOf hid)
  setEngine s (hubOf hid) { e with hstat := fmSet e.hstat hid x }

/-- A COLL word of a hart ends: HSTAT (R392). how: 0 completed, 1 completed rerouted, 2 abandoned. -/
def countColl (s : State) (hid : Nat) (how : BitVec 2) : State :=
  let x := hstatAt s hid
  setHstat s hid ⟨(x.done + 1) % 2 ^ 32, if how = 1 then min (x.reroutes + 1) (2 ^ 16 - 1) else x.reroutes, how⟩

/-! ### Collectives in flight -/

def sameColl (x : CollSt) (hub g : Nat) : Bool := x.hub == hub && x.group == g
def findColl (s : State) (hub g : Nat) : Option CollSt := s.colls.find? (sameColl · hub g)
def putColl (s : State) (c : CollSt) : State :=
  { s with colls := s.colls.map fun x => if sameColl x c.hub c.group then c else x }
def dropColl (s : State) (hub g : Nat) : State := { s with colls := s.colls.filter fun x => !sameColl x hub g }

def collTy (c : CollSt) : Ty := (tyOf c.type).getD .i32
def collRm (c : CollSt) : RM := (RM.ofCode c.rm).getD .rne

/-- Running sums of FP16 and BF16 in fixed order are FP32 (R398). -/
def wideRun (c : CollSt) : Bool := c.fo && (collTy c == .fp16 || collTy c == .bf16)
def runTy (c : CollSt) : Ty := if wideRun c then .fp32 else collTy c

/-- Elements in one segment of 192 data bytes (R398). -/
def segElems (c : CollSt) (reduce : Bool) : Nat := 1536 / tyWidth (if reduce then runTy c else collTy c)

/-- One step of a reduction (R398). -/
def collStep (c : CollSt) (run x : Nat) : Nat × Flags :=
  let t := runTy c
  if tyIsFp t then
    let f := fmtOf t
    let rm := if wideRun c then .rne else collRm c
    if c.op = 0 then fAdd f rm c.ftz (unpack f c.ftz run) (unpack f c.ftz x)
    else fMinMax f (c.op == 1) (flushBits f c.ftz run) (flushBits f c.ftz x)
  else
    let a := intOf t run
    let b := intOf t x
    if c.op = 0 then fit t c.sat (a + b)
    else fit t false (if (c.op == 1) == decide (a ≤ b) then b else a)

/-- An element as the running value: widened exactly when the run is FP32. -/
def collWiden (c : CollSt) (x : Nat) : Nat × Flags :=
  if wideRun c then roundVal fmtSingle .rne false (unpack (fmtOf (collTy c)) c.ftz x) else (x, 0)

/-- The final rounding to TD (R398). -/
def collFinal (c : CollSt) (x : Nat) : Nat × Flags :=
  if wideRun c then roundVal (fmtOf (collTy c)) (collRm c) c.ftz (unpack fmtSingle false x) else (x, 0)

def mapFlags (f : Nat → Nat × Flags) (l : List Nat) : List Nat × Flags :=
  l.foldr (fun x acc => ((f x).1 :: acc.1, (f x).2 ||| acc.2)) ([], 0)

/-- Elements of the source of a rank, from an index. -/
def sourceRun (c : CollSt) (start n : Nat) : List Nat := (c.source.drop start).take n

/-! ### Sending and receiving segments -/

/-- A segment put before an engine of this module. -/
def toInbox (s : State) (hub : Nat) (o : Origin) (seg : Segment) : State :=
  let e := engineAt s hub
  setEngine s hub { e with inbox := e.inbox ++ [(o, seg)] }

/-- Where a segment of a rank of this module comes from. -/
def localOrigin : Origin := ⟨36, 0, Config.moduleId.toNat⟩

/-- Segments that an engine retains (R389, R400). -/
def retained (s : State) (hub : Nat) : Nat := (s.colls.filter (·.hub == hub)).foldl (fun n c => n + c.unacked.length) 0

/-- Segments that the 8 MiB of a retention store hold, at 224 payload bytes each (R398, R400). DEDUCED: log 23. -/
def retentionRoom : Nat := 8388608 / 224

/-- A segment to the next rank: within the module to that rank's engine, else over the active path; it is kept until
acknowledged (R399, R400). While the retention store is full it waits. -/
def sendSeg (s : State) (hub g : Nat) (seg : Segment) : State :=
  let x := groupAt s hub g
  match findColl s hub g with
  | none => s
  | some c =>
    let seg := { seg with
      marked := seg.marked || x.active, dcore := x.ncore.toNat, back := false, kind := c.kind, count := c.count, type := c.type }
    let c := { c with rerouted := c.rerouted || seg.marked }
    if retentionRoom ≤ retained s hub then putColl s { c with waiting := c.waiting ++ [seg] }
    else match nextLink x with
    | none => toInbox (putColl s { c with unacked := c.unacked ++ [(36, 0, seg)] }) (hubOfCore seg.dcore) localOrigin seg
    | some l =>
      sendOn (putColl s { c with unacked := c.unacked ++ [(l, unsent, seg)] }) l (.data x.module.toNat Config.moduleId.toNat seg)

/-- Segments of a collective that have waited are sent, as far as there is room (R400). -/
def sendWaiting (s : State) (hub g fuel : Nat) : State :=
  match fuel with
  | 0 => s
  | n + 1 =>
    match (findColl s hub g).map fun c => (c, c.waiting) with
    | some (c, seg :: rest) =>
      if retentionRoom ≤ retained s hub then s
      else sendWaiting (sendSeg (putColl s { c with waiting := rest }) hub g seg) hub g n
    | _ => s

/-- The hart's queue entry of a collective. -/
def collEntry (s : State) (c : CollSt) : Option Entry :=
  (startedColl (hartAt s c.hid)).bind fun i => (hartAt s c.hid).queue[i]?

/-- Elements in the destination of a rank (R395). -/
def destCount (c : CollSt) : Nat := if c.kind = 1 || c.kind = 2 then c.size * c.count else c.count

/-- Elements that a rank reads (R395). -/
def sourceCount (kind size n : Nat) : Nat := if kind = 0 || kind = 2 then size * n else n

/-- A destination in global memory overlaps the source, other than by being equal to it for `ar`: its bytes are undefined
(R395). -/
def destOverlaps (c : CollSt) (e : Entry) (x : Word) : Bool :=
  let w := tyWidth (collTy c)
  let src := aAddr e.x0
  let dst := aAddr x
  aSpace x == 0 && !(c.kind == 2 && src == dst) &&
    decide (src < dst + destCount c * w / 8 ∧ dst < src + sourceCount c.kind c.size c.count * w / 8)

/-- Bytes as they reach a destination: undefined where it overlaps the source (R7, R395). -/
def destData (s : State) (c : CollSt) (e : Entry) (x : Word) (bs : List Byte) : List Byte × State :=
  if destOverlaps c e x then freshBytes s bs.length else (bs, s)

/-- Bytes written at a VA by an Accord engine, over as many pages as they cover. -/
def writeLong (s : State) (hid va : Nat) (bs : List Byte) (fuel : Nat) : Except (Word × AccFail) State :=
  match fuel with
  | 0 => .ok s
  | k + 1 =>
    let m := min bs.length (2 ^ 19 - va % 2 ^ 19)
    match writeVa s hid accordWrite (BitVec.ofNat 64 va) (bs.take m) with
    | .error f => .error (BitVec.ofNat 64 va, f)
    | .ok s => if bs.length ≤ m then .ok s else writeLong s hid (va + m) (bs.drop m) k

/-- Bytes at an offset of a destination, in AB or in memory. -/
def putDest (s : State) (c : CollSt) (e : Entry) (x : Word) (off : Nat) (bs : List Byte) : Except FaultRec State :=
  if aSpace x = 2 then
    .ok (setCore s (coreOf c.hid) (writeBuf (coreAt s (coreOf c.hid)) 2 (aAddr x + off) bs))
  else
    let r := destData s c e x bs
    match writeLong r.2 c.hid (aAddr x + off) r.1 (bs.length / 2 ^ 19 + 2) with
    | .ok s => .ok s
    | .error f => .error (accFault e 2 f.1 f.2)

/-- Elements written to a destination (and, for kv, the landing copy) from an element index. -/
def writeDest (s : State) (c : CollSt) (idx : Nat) (vals : List Nat) : Except FaultRec State :=
  match collEntry s c with
  | none => .ok s
  | some e =>
    let w := tyWidth (collTy c)
    let bs := packElems w vals
    let off := idx * w / 8
    match putDest s c e e.x1 off bs with
    | .error f => .error f
    | .ok s => if c.kind = 3 && e.x3 != 0 then putDest s c e e.x3 off bs else .ok s

/-- The last segment has been written: claimed AB tiles become READY (R397). -/
def readyTiles (s : State) (c : CollSt) : State :=
  if destCount c ≤ c.written then
    match collEntry s c with
    | some e => setCore s (coreOf c.hid) (e.claims.foldl (fun k t => setTileState k t .ready) (coreAt s (coreOf c.hid)))
    | none => s
  else s

/-- The last rank that a finished value travels to (R395, R398). -/
def spreadEnd (c : CollSt) (chunk : Nat) : Nat :=
  if c.kind = 3 then (chunk + 1) % c.size
  else if c.kind = 0 then chunk
  else if c.kind = 2 && c.fo then c.size - 2
  else (chunk + c.size - 1) % c.size

/-- A rank keeps a finished value of a chunk. -/
def keepsChunk (c : CollSt) (chunk : Nat) : Bool :=
  if c.kind = 0 then chunk == c.rank else if c.kind = 3 then c.rank == (chunk + 1) % c.size else true

/-- Destination element index of a chunk's offset at this rank. -/
def destIndex (c : CollSt) (chunk off : Nat) : Nat := if c.kind = 1 || c.kind = 2 then chunk * c.count + off else off

/-- A segment has been written or acknowledged for a collective: if its word is the hart's oldest, the timer restarts. DEDUCED:
R401 counts the limit of R247 from there (log 23). -/
def collFurther (s : State) (c : CollSt) : State :=
  match startedColl (hartAt s c.hid) with
  | some i => setHart s c.hid (restartTimer (hartAt s c.hid) i)
  | none => s

/-- Collectives let go of the segments sent that an engine has acknowledged. -/
def releaseSegs (s : State) (p : Nat × Nat × Segment → Bool) : State :=
  s.colls.foldl (fun s c =>
    if c.unacked.any p then collFurther (putColl s { c with unacked := c.unacked.filter fun u => !p u }) c else s) s

/-- A finished value at a rank: written if it is owed to its destination, and passed on unless this is its last rank. -/
def finishSeg (s : State) (c : CollSt) (seg : Segment) : Except FaultRec State :=
  let keep := keepsChunk c seg.chunk
  let r := if keep then writeDest s c (destIndex c seg.chunk seg.off) seg.vals else .ok s
  match r with
  | .error f => .error f
  | .ok s =>
    let c := { c with
      written := if keep then c.written + seg.vals.length else c.written
      flags := if keep then c.flags ||| seg.flags else c.flags
      rerouted := c.rerouted || seg.marked }
    let s := if keep then collFurther (readyTiles (putColl s c) c) c else putColl s c
    if spreadEnd c seg.chunk = c.rank then .ok s else .ok (sendSeg s c.hub c.group { seg with phase := .spread })

/-- The end of a reduction chain at this rank (R398). -/
def chainEnd (c : CollSt) (chunk : Nat) : Nat := if c.fo then c.size - 1 else chunk

/-- A finished reduction, cut into segments of the element type (R398). -/
def finishAll (s : State) (hub g : Nat) (proto : Segment) (vals : List Nat) (fuel : Nat) : Except FaultRec State :=
  match fuel with
  | 0 => .ok s
  | n + 1 =>
    match findColl s hub g with
    | none => .ok s
    | some c =>
      let k := segElems c false
      match vals with
      | [] => .ok s
      | _ =>
        match finishSeg s c { proto with vals := vals.take k, phase := .spread } with
        | .error f => .error f
        | .ok s => finishAll s hub g { proto with off := proto.off + k } (vals.drop k) n

/-- A segment absorbed once by a collective in flight (R398, R400). -/
def absorbSeg (s : State) (c : CollSt) (seg : Segment) : Except FaultRec State :=
  let key := (seg.chunk, seg.off, seg.phase)
  if c.absorbed.contains key then .ok s
  else
    let c := { c with absorbed := key :: c.absorbed, rerouted := c.rerouted || seg.marked }
    let s := putColl s c
    match seg.phase with
    | .abort => .ok s
    | .spread => finishSeg s c seg
    | .reduce =>
      let own := mapFlags (collWiden c) (sourceRun c (seg.chunk * c.count + seg.off) seg.vals.length)
      let step := (seg.vals.zip own.1).map fun p => collStep c p.1 p.2
      let flags := step.foldl (fun f p => f ||| p.2) (seg.flags ||| own.2)
      let vals := step.map (·.1)
      if chainEnd c seg.chunk = c.rank then
        let fin := mapFlags (collFinal c) vals
        finishAll s c.hub c.group { seg with flags := flags ||| fin.2 } fin.1 (vals.length + 1)
      else .ok (sendSeg s c.hub c.group { seg with vals := vals, flags := flags })

/-! ### Abandonment and completion (R399, R401) -/

/-- An abort segment of a collective. -/
def abortSeg (c : CollSt) (tag : Word) (back : Bool) : Segment :=
  ⟨0, tag, c.num, 0, 0, .abort, [], 0, false, back, c.kind, c.count, c.type, false⟩

/-- The abort sent toward NEXT, and toward PREV, where a path is up (R401). -/
def sendAborts (s : State) (c : CollSt) (next prev : Bool) : State :=
  let x := groupAt s c.hub c.group
  let toward (s : State) (m : BitVec 14) (core : Nat) (l : Nat) (seg : Segment) : State :=
    let seg := { seg with dcore := core, passed := false }
    if m = Config.moduleId then toInbox s (hubOfCore core) localOrigin seg
    else sendOn s l (.data m.toNat Config.moduleId.toNat seg)
  let s := if next then
    toward s x.module x.ncore.toNat (if x.active then x.alink.toNat else x.link.toNat) (abortSeg c x.tag false) else s
  if prev then toward s x.pmodule x.pcore.toNat x.plink.toNat (abortSeg c x.tag true) else s

/-- Undefined bytes at a VA over as many pages as they cover; a page that does not translate is left (R401). -/
def scrambleVa (s : State) (hid va n fuel : Nat) : State :=
  match fuel with
  | 0 => s
  | k + 1 =>
    let m := min n (2 ^ 19 - va % 2 ^ 19)
    let p := freshBytes s m
    let s := match writeVa p.2 hid accordWrite (BitVec.ofNat 64 va) p.1 with
      | .ok s => s
      | .error _ => s
    if n ≤ m then s else scrambleVa s hid (va + m) (n - m) k

/-- The destination bytes of an abandoned collective are undefined (R401). -/
def scrambleDest (s : State) (c : CollSt) : State :=
  match collEntry s c with
  | none => s
  | some e =>
    let n := destCount c * tyWidth (collTy c) / 8
    let scramble (s : State) (x : Word) : State :=
      if aSpace x = 2 then
        let p := freshBytes s n
        setCore p.2 (coreOf c.hid) (writeBuf (coreAt p.2 (coreOf c.hid)) 2 (aAddr x) p.1)
      else scrambleVa s c.hid (aAddr x) n (n / 2 ^ 19 + 2)
    let s := scramble s e.x1
    if c.kind = 3 && e.x3 != 0 then scramble s e.x3 else s

/-- The number of a collective is used up and its entry is free again (R396, R401). -/
def closeGroup (s : State) (hub g : Nat) : State :=
  let x := groupAt s hub g
  dropColl (setGroup s hub g { x with busy := false, collno := x.collno + 1 }) hub g

/-- The COLL word of a collective goes back to not started (R402); its claimed tiles become EMPTY. -/
def unstartColl (s : State) (c : CollSt) : State :=
  match startedColl (hartAt s c.hid) with
  | none => s
  | some i =>
    let h := hartAt s c.hid
    let claims := (h.queue[i]?.map (·.claims)).getD []
    let s := releaseTiles s (coreOf c.hid) claims
    setHart s c.hid (updateEntry h i fun e => { e with started := false, claims := [] })

/-- A collective abandoned at this rank (R401): aborts sent, number used up, HSTAT; the word faults unless its hart
is being ended. -/
def abandonColl (s : State) (c : CollSt) (fault : Option FaultRec) (next prev : Bool) : State :=
  let s := sendAborts s c next prev
  let s := scrambleDest s c
  let s := unstartColl s c
  let s := closeGroup s c.hub c.group
  let s := countColl s c.hid 2
  match fault with
  | none => s
  | some f => deliver s c.hid none f

/-- Class 24 with a code for the word of a collective. -/
def collFault (s : State) (c : CollSt) (code : Nat) : Option FaultRec :=
  (collEntry s c).map fun e => eFaultRec e 24 code 0 0

/-- Every segment acknowledged and every element written: the word completes (R399, R392). -/
def completeColl (s : State) (hub g : Nat) : State :=
  match findColl s hub g with
  | none => s
  | some c =>
    if c.opened && c.unacked.isEmpty && c.waiting.isEmpty && decide (destCount c ≤ c.written) then
      let h := hartAt s c.hid
      match startedColl h with
      | none => s
      | some i =>
        let s := retireWords (setHart s c.hid (completeAt h i c.flags [])) c.hid
        countColl (closeGroup s hub g) c.hid (if c.rerouted then 1 else 0)
    else s

/-- The group entry that a segment is addressed to (R396): its TAG and its core. -/
def matchGroup (s : State) (hub : Nat) (seg : Segment) : Option (Nat × Group) :=
  (engineAt s hub).groups.find? fun p => p.2.v && p.2.tag == seg.tag && p.2.core.toNat == seg.dcore

/-- An engine acknowledges a segment (R388, R399): to its sender on this module, or over the link on which it came. -/
def ackSeg (s : State) (o : Origin) (seg : Segment) : State :=
  if o.link = 36 then releaseSegs s fun u => u.1 == 36 && u.2.2 == seg
  else sendOn s o.link (.ack o.src Config.moduleId.toNat o.seq true)

/-- A segment that matches no entry is discarded and counted (R396). -/
def discardSeg (s : State) (hub : Nat) : State :=
  let e := engineAt s hub
  setEngine s hub { e with dropped := min (e.dropped + 1) (2 ^ 64 - 1) }

/-- The ranks disagree on kind, COUNT or type (R396). -/
def disagrees (c : CollSt) (seg : Segment) : Bool := seg.kind != c.kind || seg.count != c.count || seg.type != c.type

/-- A segment of a collective in flight: an abort abandons it; otherwise it is absorbed, and acknowledged when its writes
have performed (R388, R400, R401). One whose write stalls waits (R362), and so does one that comes before the word holds its tiles.
One of a rank that disagrees is neither absorbed nor acknowledged, so the collective never completes (R396; log 23). -/
def takeSeg (s : State) (hub : Nat) (c : CollSt) (o : Origin) (seg : Segment) : State :=
  if seg.phase = .abort then abandonColl s c (collFault s c 2) (!seg.back && !seg.passed) (seg.back && !seg.passed)
  else if disagrees c seg then s
  else if !c.opened then toInbox s hub o seg
  else
    match absorbSeg s c seg with
    | .error f => if f.stalls then toInbox (noteStall s c.hid f.code.toNat) hub o seg else abandonColl s c (some f) true true
    | .ok q => completeColl (ackSeg q o seg) c.hub c.group

/-- A collective that has not started here, as far as an abort needs it. -/
def CollSt.absent (hub g : Nat) (num : Word) : CollSt where
  hub := hub
  group := g
  num := num
  hid := 0
  seq := 0
  kind := 0
  op := 0
  fo := false
  type := 0
  rm := 0
  sat := false
  ftz := false
  count := 0
  size := 0
  rank := 0
  opened := false
  source := []
  absorbed := []
  unacked := []
  waiting := []
  written := 0
  flags := 0
  rerouted := false

/-- A segment at its engine: taken up, kept for a collective not yet started, or discarded and counted (R396). The copy of
one whose number is used up is acknowledged: its sender waits for nothing else. An abort of a collective not yet started here is
passed on away from its sender, once, and uses the number up when that number has come (R401). -/
def deliverSeg (s : State) (hub : Nat) (o : Origin) (seg : Segment) : State :=
  match matchGroup s hub seg with
  | none => discardSeg s hub
  | some (g, x) =>
    if seg.num.toNat < x.collno.toNat then ackSeg (discardSeg s hub) o seg
    else if x.busy && x.collno == seg.num then
      match findColl s hub g with
      | none => s
      | some c => takeSeg s hub c o seg
    else if seg.phase = .abort then
      let s := if seg.passed then s else sendAborts s (CollSt.absent hub g seg.num) (!seg.back) seg.back
      if x.collno == seg.num then setGroup s hub g { x with collno := x.collno + 1 } else toInbox s hub o { seg with passed := true }
    else toInbox s hub o seg

/-- Segments in an engine's inbox looked at again: those of collectives in flight are absorbed. -/
def pumpInbox (s : State) (hub fuel : Nat) : State :=
  match fuel with
  | 0 => s
  | n + 1 =>
    let e := engineAt s hub
    match e.inbox with
    | [] => s
    | (o, seg) :: rest => pumpInbox (deliverSeg (setEngine s hub { e with inbox := rest }) hub o seg) hub n

/-- Collectives that have segments to send send them, and those that have all they wait for complete (R399, R400). -/
def pumpColls (s : State) : State :=
  s.colls.foldl (fun s c => completeColl (sendWaiting s c.hub c.group (c.waiting.length + 1)) c.hub c.group) s

/-- Waiting segments looked at, then the collectives. -/
def pumpEngine (s : State) (hub : Nat) : State := pumpColls (pumpInbox s hub (engineAt s hub).inbox.length)

/-! ### Starting a collective (R395 to R398) -/

/-- Segments of elements from an offset, sent in order. -/
def sendRun (s : State) (hub g : Nat) (proto : Segment) (vals : List Nat) (k fuel : Nat) : State :=
  match fuel with
  | 0 => s
  | n + 1 =>
    match vals with
    | [] => s
    | _ =>
      let s := sendSeg s hub g { proto with vals := vals.take k }
      sendRun s hub g { proto with off := proto.off + k } (vals.drop k) k n

/-- What a rank sends first: its own part of the chains it begins, or its own data (R395, R398). -/
def openColl (s : State) (c : CollSt) (tag : Word) : Except FaultRec State :=
  let proto (chunk : Nat) (p : Phase) : Segment := ⟨0, tag, c.num, chunk, 0, p, [], 0, false, false, c.kind, c.count, c.type, false⟩
  if c.kind = 0 || c.kind = 2 then
    let chunks := if c.fo then (if c.rank = 0 then List.range c.size else []) else [(c.rank + c.size - 1) % c.size]
    .ok (chunks.foldl (fun s k =>
      let own := mapFlags (collWiden c) (sourceRun c (k * c.count) c.count)
      sendRun s c.hub c.group { proto k .reduce with flags := own.2 } own.1 (segElems c true) (c.count + 1)) s)
  else
    let r := if c.kind = 1 then
        (writeDest s c (c.rank * c.count) c.source).map fun s =>
          readyTiles (putColl s { c with written := c.count }) { c with written := c.count }
      else .ok s
    r.map fun s => sendRun s c.hub c.group (proto c.rank .spread) c.source (segElems c false) (c.count + 1)

/-! ### Link death and rerouting (R386, R400) -/

/-- The unacknowledged segments of an entry resent, over its alternate link (R400). -/
def resendAll (s : State) (c : CollSt) : State :=
  let s := putColl s { c with unacked := [] }
  (c.unacked.map (·.2.2)).foldl (fun s seg => sendSeg s c.hub c.group seg) s

/-- A group entry whose active link is dead: moved to the alternate path, with what its collective has sent, or that collective
is abandoned (R400, R401). -/
def reroute (s : State) (hub g : Nat) : State :=
  let x := groupAt s hub g
  let up := x.av && !x.active && (linkAt s x.alink.toNat).state == 2
  let s := if up then setGroup s hub g { x with active := true, rerouted := true } else s
  match findColl s hub g with
  | none => s
  | some c => if up then resendAll s c else abandonColl s c (collFault s c 0) true true

/-- The valid group entries whose active path leaves by a link. -/
def entriesOn (s : State) (l : Nat) : List (Nat × Nat) :=
  (List.range 4).flatMap fun hub =>
    ((engineAt s hub).groups.filter fun p => p.2.v && nextLink p.2 == some l).map fun p => (hub, p.1)

/-- Ingots traded across a link return to their lenders, at the next refill boundary (R350). -/
def returnIngots (s : State) (l : Nat) : State :=
  let k := linkAt s l
  let p := s.power
  { setLink s l { k with borrowed := 0, lent := 0 } with
    power := { p with nextBorrowed := p.nextBorrowed - k.borrowed, nextLent := p.nextLent - k.lent } }

/-- A link is declared dead (R386): STATE, DEATHS, a record of KIND 12, the retry buffer dropped, ingots returned, and
the group entries on it moved or their collectives abandoned. -/
def linkDies (s : State) (l : Nat) : State :=
  if (linkAt s l).state = 3 then s
  else
    let s := returnIngots s l
    let k := linkAt s l
    let s := setLink s l { k with state := 3, deaths := min (k.deaths + 1) (2 ^ 16 - 1), retry := [], backlog := [],
                                  awaited := none, fails := 0, markerDue := false, markerSeq := none, unacked := 0 }
    let s := { s with forwards := s.forwards.filter fun f => f.out != l }
    let s := logError s 12 1 1 (l / 9) 0 0 l 0
    (entriesOn s l).foldl (fun s p => reroute s p.1 p.2) s

/-- A link whose send key has come to its last value without a marker, for want of another key, dies (R384). -/
def keysRunOut (s : State) (l : Nat) : State :=
  let k := linkAt s l
  if k.state = 2 && decide (2 ^ 40 - 1 ≤ k.count k.tks) then linkDies s l else s

/-! ### Flits in (R382 to R387) -/

/-- A flit whose tag or header check fails (R385): discarded, a nak for its SEQ, and every later flit discarded until that
SEQ arrives again; the third failure in a row is the link's death (R386). -/
def badFlit (s : State) (l : Nat) (h : FlitHdr) : State :=
  let k := linkAt s l
  let fails := if k.fails ≠ 0 && k.failSeq = h.seq then k.fails + 1 else 1
  let s := setLink s l { k with awaited := some h.seq, fails := fails, failSeq := h.seq }
  if fails ≥ 3 then linkDies s l else sendOn s l (.nak h.seq)

/-- A flit at a link: the state that results, and whether it is delivered (R384, R385). It is taken in SEQ order; an idle
flit carries the SEQ that comes next. While the link retrains nothing arrives (R343). -/
def receiveFlit (s : State) (l : Nat) (h : FlitHdr) (idle : Bool) : State × Bool :=
  let k := linkAt s l
  if k.state ≠ 2 || retraining s l then (s, false)
  else
    let s := setLink s l { k with silent := 0 }
    if k.awaited.any (· != h.seq) then (s, false)
    else if !h.ok || h.ks != k.rks then (badFlit s l h, false)
    else if h.seq ≠ k.recvSeq then (s, false)
    else
      let k := linkAt s l
      (setLink s l { k with
        recvSeq := if idle then k.recvSeq else (k.recvSeq + 1) % 2 ^ 48, awaited := none, fails := 0 }, true)

/-- Acks that a link takes before it acknowledges them itself. -/
def ackEvery : Nat := 64

/-- A delivered flit acknowledged (R385): at once, but that acks and naks are acknowledged in bunches. -/
def acknowledge (s : State) (l seq : Nat) (bunch : Bool) : State :=
  let k := linkAt s l
  if bunch && decide (k.unacked + 1 < ackEvery) then setLink s l { k with unacked := k.unacked + 1 } else sendAck s l seq

/-- A flit passed on to another module (R387): over the link that the route table names, if it is up. -/
def passOn (s : State) (dst : Nat) (b : FlitBody) (origin : Option Origin) : State :=
  match s.routes.find? (·.1 == dst) with
  | some (_, out) =>
    if (linkAt s out).state = 2 then
      let s := match origin with
        | some o => { s with forwards := s.forwards ++ [⟨o, out, unsent⟩] }
        | none => s
      sendOn s out b
    else s
  | none => s

/-- FLIT_DATA (R382, R385, R387): delivered to the engine of DCORE, or forwarded toward its module. -/
def execFlitData (l : Nat) (h : FlitHdr) (seg : Segment) (s : State) : Result :=
  let r := receiveFlit s l h false
  if !r.2 then .next r.1
  else
    let s := acknowledge r.1 l h.seq false
    let seg := { seg with dcore := h.dcore }
    let o : Origin := ⟨l, h.seq, h.src⟩
    .next (keysRunOut (if h.dst ≠ Config.moduleId.toNat then passOn s h.dst (.data h.dst h.src seg) (some o)
      else pumpEngine (deliverSeg s (hubOfCore h.dcore) o seg) (hubOfCore h.dcore)) l)

/-- The retry buffer without what an ack covers (R385). -/
def ackRetry (k : Link) (upto : Nat) : List Kept :=
  match k.retry.findIdx? (·.seq == upto) with
  | some i => k.retry.drop (i + 1)
  | none => k.retry

/-- A link's ack taken: the retry buffer lets go of what it covers; a marker acknowledged erases the old key (R384, R385). -/
def takeLinkAck (s : State) (l upto : Nat) : State :=
  let k := linkAt s l
  let kept := ackRetry k upto
  let done := k.markerSeq.any fun q => !kept.any (·.seq == q)
  let k := { k with retry := kept }
  let k := if done then { k with markerSeq := none, txKeys := if k.tks then 2 else 1 } else k
  pumpLink (setLink s l k) l (k.backlog.length + 2)

/-- An engine's ack of the segment that left over a link under a SEQ (R387, R399): its collective lets go of it. One for another
module goes on over the link that the route table names for that module, naming the SEQ under which the segment had come. -/
def takeSegAck (s : State) (l dst src seq : Nat) : State :=
  if dst = Config.moduleId.toNat then pumpColls (releaseSegs s fun u => u.1 == l && u.2.1 == seq)
  else
    match s.forwards.find? fun f => f.out == l && f.outSeq == seq with
    | some f => passOn { s with forwards := s.forwards.filter (· != f) } dst (.ack dst src f.origin.seq true) none
    | none => passOn s dst (.ack dst src seq true) none

/-- FLIT_ACK (R382, R385, R387, R399). -/
def execFlitAck (l : Nat) (h : FlitHdr) (k : AckOf) (s : State) : Result :=
  let r := receiveFlit s l h false
  if !r.2 then .next r.1
  else
    let s := acknowledge r.1 l h.seq true
    .next (keysRunOut (if k.ofSeg then takeSegAck s l h.dst h.src k.seq
      else if h.dst ≠ Config.moduleId.toNat then passOn s h.dst (.ack h.dst h.src k.seq false) none
      else takeLinkAck s l k.seq) l)

/-- Flits replayed, each afresh under the slot that its SEQ carries (R385). -/
def replayAll (s : State) (l : Nat) (again : List Kept) : State :=
  again.foldl (fun s x => emitFlit s l x.seq x.ks x.body) s

/-- FLIT_NAK (R385): the named SEQ and every later one are replayed, in order. -/
def execFlitNak (l : Nat) (h : FlitHdr) (seq : Nat) (s : State) : Result :=
  let r := receiveFlit s l h false
  if !r.2 then .next r.1
  else
    let s := acknowledge r.1 l h.seq true
    let k := linkAt s l
    let again := k.retry.dropWhile (·.seq != seq)
    let s := setLink s l { k with replays := min (k.replays + again.length) (2 ^ 32 - 1) }
    .next (keysRunOut (replayAll s l again) l)

/-- FLIT_KEY_MARKER (R384): the receiver changes slots exactly when it accepts the marker. -/
def execFlitKeyMarker (l : Nat) (h : FlitHdr) (slot : Bool) (s : State) : Result :=
  let r := receiveFlit s l h false
  if !r.2 then .next r.1
  else
    let k := linkAt r.1 l
    .next (keysRunOut (acknowledge (setLink r.1 l { k with rks := slot, rxKeys := if slot then 2 else 1 }) l h.seq false) l)

/-- FLIT_IDLE (R382, R383): its seal is checked, and it has no other effect. -/
def execFlitIdle (l : Nat) (h : FlitHdr) (s : State) : Result := .next (receiveFlit s l h true).1

/-- KEY_RETIRE_COUNT (R384): the key in use has come near its last value. The marker goes out as soon as there is room, or
the link dies for want of another key. -/
def execKeyRetireCount (l : Nat) (s : State) : Result :=
  let k := linkAt s l
  if k.state = 2 && decide (retireCount ≤ k.count k.tks) then
    if k.txKeys.getLsbD (keyBit !k.tks) then .next (pumpLink (setLink s l { k with markerDue := true }) l (k.backlog.length + 2))
    else .next (linkDies s l)
  else .next s

/-- The security controllers fill a key slot that holds none and is not in use; its counter starts at 0 (R383, R384). -/
def fillKey (s : State) (l : Nat) (sends slot : Bool) : State :=
  let k := linkAt s l
  if k.state ≠ 2 then s
  else if sends then
    if k.txKeys.getLsbD (keyBit slot) then s
    else pumpLink (setLink s l ({ k with txKeys := k.txKeys ||| (1#2 <<< keyBit slot) }.setCount slot 0)) l (k.backlog.length + 2)
  else setLink s l { k with rxKeys := k.rxKeys ||| (1#2 <<< keyBit slot) }

/-- LINK_SILENCE_TIMEOUT (R386): no flit for 10 µs outside a link-retrain slot. -/
def execLinkSilenceTimeout (l : Nat) (s : State) : Result :=
  if (linkAt s l).state = 2 && !retraining s l && decide (10000 ≤ (linkAt s l).silent) then .next (linkDies s l) else .next s

/-- LOSS_OF_LOCK (R386). -/
def execLossOfLock (l : Nat) (s : State) : Result :=
  if (linkAt s l).state = 2 then .next (linkDies s l) else .next s

/-- ABORT_SEGMENT (R401): an abort reaches an engine. -/
def execAbortSegment (hub : Nat) (seg : Segment) (s : State) : Result :=
  .next (pumpEngine (deliverSeg s hub localOrigin { seg with phase := .abort }) hub)

/-- A dead link begins to retrain in a slot (R386). -/
def retrainLink (s : State) (l : Nat) : State :=
  let k := linkAt s l
  if k.state = 3 then setLink s l { k with state := 1 } else s

/-- The end of a link-retrain slot: a link whose retraining has not succeeded is dead (R386), and the others go on. -/
def endRetrain (s : State) (l : Nat) : State :=
  let k := linkAt s l
  if k.state = 1 then setLink s l { k with state := 3 } else pumpLink s l (k.backlog.length + 2)

/-- Training completes, with fresh keys in both slots (R382, R386); boot trains links that are down. A link between two links
of one module does not train (R383). -/
def trainedLink (s : State) (l src : Nat) : State :=
  let k := linkAt s l
  if (k.state = 0 || k.state = 1) && src != Config.moduleId.toNat then
    setLink s l { Link.reset with
      state := 2, txKeys := 3, rxKeys := 3, replays := k.replays, deaths := k.deaths, peer := src }
  else s

/-! ### Group entries (R391) -/

/-- A store to doubleword dw of a group entry (R391): ignored while BUSY; a store to GCTL returns the entry to its
primary path. -/
def storeGroup (s : State) (hub g dw : Nat) (v : Word) : State :=
  let x := groupAt s hub g
  if x.busy then s
  else if dw = 0 then
    setGroup s hub g { x with size := BitVec.ofNat 12 (field v 36 12), rank := BitVec.ofNat 12 (field v 24 12),
                              core := BitVec.ofNat 10 (field v 14 10), v := bit v 0, rerouted := false, active := false }
  else if dw = 1 then setGroup s hub g { x with tag := v }
  else if dw = 2 then
    setGroup s hub g { x with link := BitVec.ofNat 6 (field v 28 6), module := BitVec.ofNat 14 (field v 14 14),
                              ncore := BitVec.ofNat 10 (field v 0 10) }
  else if dw = 3 then setGroup s hub g { x with alink := BitVec.ofNat 6 (field v 28 6), av := bit v 0 }
  else if dw = 4 then
    setGroup s hub g { x with plink := BitVec.ofNat 6 (field v 28 6), pmodule := BitVec.ofNat 14 (field v 14 14),
                              pcore := BitVec.ofNat 10 (field v 0 10) }
  else s

def execGroupEntryWrite (_ag : Agent) (hub g dw : Nat) (v : Word) (s : State) : Result := .next (storeGroup s hub g dw v)

/-- Doubleword dw of a group entry as it reads. -/
def groupDw (x : Group) (dw : Nat) : Word :=
  if dw = 0 then BitVec.ofNat 64 (x.size.toNat * 2 ^ 36 + x.rank.toNat * 2 ^ 24 + x.core.toNat * 2 ^ 14 +
    (if x.active then 8 else 0) + (if x.rerouted then 4 else 0) + (if x.busy then 2 else 0) + (if x.v then 1 else 0))
  else if dw = 1 then x.tag
  else if dw = 2 then BitVec.ofNat 64 (x.link.toNat * 2 ^ 28 + x.module.toNat * 2 ^ 14 + x.ncore.toNat)
  else if dw = 3 then BitVec.ofNat 64 (x.alink.toNat * 2 ^ 28 + (if x.av then 1 else 0))
  else if dw = 4 then BitVec.ofNat 64 (x.plink.toNat * 2 ^ 28 + x.pmodule.toNat * 2 ^ 14 + x.pcore.toNat)
  else if dw = 5 then x.collno else 0

/-- The page of an Accord engine (R389, R390, R392). -/
def engineDw (s : State) (hub off : Nat) : Word :=
  let e := engineAt s hub
  if off = 0 then
    let cs := s.colls.filter fun c => c.hub == hub
    BitVec.ofNat 64 (cs.length + retained s hub * 2 ^ 16)
  else if off = 8 then BitVec.ofNat 64 e.dropped
  else if 0x100 ≤ off && off < 0x148 then
    let k := linkAt s (9 * hub + (off - 0x100) / 8)
    BitVec.ofNat 64 (k.replays * 2 ^ 32 + k.deaths * 2 ^ 16 + (if k.rks then 32 else 0) + (if k.tks then 16 else 0) +
      k.state.toNat)
  else if 0x1000 ≤ off && off < 0x5000 then groupDw (groupAt s hub ((off - 0x1000) / 64)) ((off - 0x1000) % 64 / 8)
  else if 0x8000 ≤ off && off < 0x9800 then
    let x := hstatAt s (768 * hub + (off - 0x8000) / 8)
    BitVec.ofNat 64 (x.done * 2 ^ 32 + x.reroutes * 2 ^ 16 + x.last.toNat)
  else 0

/-- Every collective of a hart, or of an engine, is abandoned without a fault (R401, R402). -/
def abandonOf (s : State) (p : CollSt → Bool) : State :=
  (s.colls.filter p).foldl (fun s c => abandonColl s c none true true) s

end Sys2Proof.Machine
end

