-- ==== Sys2Proof/Machine/Context.lean ====
section
/-! DEFINITION. The context page (R249 to R257, R262, R266, R302, R303, R354, R413): its fields as they read and as
stores change them, how a hart starts, stops, resumes and ends, team barriers (R282 to R284), and the events that
are stores to it. -/

namespace Sys2Proof.Machine

/-! ### Team barriers (R282 to R284) -/

def scopeNum : Scope → Nat
  | .hart => 0 | .core => 1 | .cluster => 2 | .die => 3 | .package => 4 | .fabric => 5 | .system => 6

/-- Two harts lie within one instance of a scope (R171, R282). -/
def sameInstance (sc : Scope) (a b : Nat) : Bool :=
  match sc with
  | .hart => a == b
  | .core => coreOf a == coreOf b
  | .cluster => clusterOf a == clusterOf b
  | .die => dieOf a == dieOf b
  | .package | .fabric | .system => true

def barsDone (h : Hart) (sc : Scope) : Nat := h.barCount[scopeNum sc]?.getD 0

/-- The participants of a barrier that have not halted (R282). -/
def participants (s : State) (hid : Nat) (sc : Scope) : List Member :=
  match (hartAt s hid).team with
  | none => []
  | some t => (teamAt s t).members.filter fun m => !m.ended && sameInstance sc hid m.hid

/-- A participant has arrived at the k-th barrier of a scope, or has passed it. -/
def hasArrived (s : State) (sc : Scope) (k : Nat) (m : Member) : Bool :=
  m.launched && (let h := hartAt s m.hid
    decide (k < barsDone h sc) || (barsDone h sc == k && h.barArrived == some sc))

/-- The BAR of a hart has executed: PC advances past it. -/
def passBar (s : State) (sc : Scope) (hid : Nat) : State :=
  let h := hartAt s hid
  setHart s hid (nextPc { h with barCount := h.barCount.setIfInBounds (scopeNum sc) (barsDone h sc + 1), barArrived := none } 4)

/-- A hart waits in BAR and everyone has arrived: the barrier completes for all who wait in it (R283). -/
def tryBar (s : State) (hid : Nat) : State :=
  let h := hartAt s hid
  match h.barArrived with
  | none => s
  | some sc =>
    let ps := participants s hid sc
    let k := barsDone h sc
    if ps.all (hasArrived s sc k) then
      (ps.filter fun m => barsDone (hartAt s m.hid) sc == k).foldl (fun s m => passBar s sc m.hid) s
    else s

/-- The barriers of a team looked at again (R284). -/
def tryTeam (s : State) (t : Option Nat) : State :=
  match t with
  | none => s
  | some t => (teamAt s t).members.foldl (fun s m => tryBar s m.hid) s

/-! ### Residency (R217) -/

def coreEmpty (s : State) (core : Nat) : Bool := (List.range 4).all fun i => !resident s (4 * core + i)

/-- The wiped state of a core: its world, retirements and gating stand. -/
def wipedCore (c : CoreSt) : CoreSt := { CoreSt.reset with flid := c.flid, retired := c.retired, gated := c.gated }

/-- The core is wiped when its last resident hart has left (R217). -/
def wipeIfEmpty (s : State) (core : Nat) : State :=
  if coreEmpty s core then setCore s core (wipedCore (coreAt s core)) else s

/-- Loans to a slot end (R210). -/
def endLoans (s : State) (core slot : Nat) : State :=
  let c := coreAt s core
  setCore s core { c with loans := c.loans.filter fun l => l.slot != slot }

/-- A hart's lanes at its end: returned, or held for the parent of a child not yet joined (R117, R214, R254). -/
def endedHart (h : Hart) (halted : Bool) : Hart :=
  { h with
    ctl := .idle
    windows := h.newWindows.getD h.windows
    root := h.newRoot.getD h.root
    newWindows := none
    newRoot := none
    images := []
    queue := []
    rq := []
    rqHeld := []
    conv := none
    pending := []
    own := if h.parent.isSome then h.own else 0
    awaitJoin := h.parent.isSome
    vstate := if halted then h.vstate else .absent
    team := none
    stalled := false
    gStall := none
    eStall := []
    wait := none
    barArrived := none
    genStopped := false
    gcount := 0
    qStopped := false
    inWindow := false
    timer := 0 }

/-- The children of a hart that has ended: no hart can join them, and they hold their lanes and slots (R214). -/
def orphanChildren (s : State) (hid : Nat) : State :=
  (List.range 4).foldl (fun s i =>
    let k := 4 * coreOf hid + i
    if (hartAt s k).parent = some hid then setHart s k { hartAt s k with parent := some Config.hartSlots } else s) s

/-- THE END OF A HART by HALT (R117), by IDLE (R254) or by a rung (R371): its collectives are abandoned (R401), its
claims released, its team told, its barriers looked at again, and its core wiped if it was the last. -/
def endHart (s : State) (hid : Nat) (halted : Bool) : State :=
  let s := drainWc s hid
  let s := abandonOf (leaveWindow s hid) fun c => c.hid == hid
  let s := releaseTiles s (coreOf hid) ((hartAt s hid).queue.flatMap (·.claims))
  let team := (hartAt s hid).team
  let s := noteReport (memberEnded s hid halted) hid halted
  let s := setHart (takeWindows s hid) hid (endedHart (hartAt s hid) halted)
  let s := orphanChildren (endLoans s (coreOf hid) (slotOf hid)) hid
  let s := tryTeam s team
  wakeCore (wipeIfEmpty s (coreOf hid)) (coreOf hid)

/-! ### The check of the queue image at RUN (R413, R268) -/

/-- The illegal combinations that RUN looks for (R413). Whole tiles (R233) are a matter of the EMIT: a stop inside a tile
rewrites the captured registers of a CPY (R237). -/
def imageCombo (c : EClass) (w : EFields) (e : Entry) (lcs : Nat) (flid : BitVec 8) : Bool :=
  match c with
  | .cpy => !(codeOk e.taga && codeOk e.tagb && codeOk e.tagd && cpyOk e (bit (w.imm.setWidth 64) 5) flid)
  | c => illegalCombo c w e lcs flid

/-- The conditions of R413 that one entry decides. -/
def imageBad (lcs : Nat) (flid : BitVec 8) (e : Entry) : Bool :=
  match classOfWord e.word with
  | none => true
  | some (c, w) =>
    let rows := e.rows.toNat
    rows == 0 || decide (8 < rows) || !(rowsExist c w rows e.shape && pitchExists c w rows) || imageCombo c w e lcs flid ||
      (writesVec c && e.tagd != dstTag c e.mode e.taga false)

/-- A word that reads a load queue captured the VL and ROWS of the VLD that fills it (R153). -/
def lqAgrees (group : List Entry) (e : Entry) : Bool :=
  match queuedClass e.word with
  | none => true
  | some (c, w) => (lqReads c w).all fun q => match lqFiller group q with
    | some f => f.vl == e.vl && f.rows == e.rows
    | none => true

/-- Entries marked in order, each group under R80. DESIGN CHOICE: an entry that fails it is no member of its group when later ones are
checked (log 59). -/
def markEntries (lcs : Nat) (flid : BitVec 8) (l group : List Entry) : List Entry :=
  match l with
  | [] => []
  | e :: rest =>
    let group := if e.conv then [] else group
    let rowsBad := e.rows == 0 || decide (8 < e.rows.toNat)
    let bad := imageBad lcs flid e || !lqAgrees group e
    let e := { e with icx := e.icx || bad, rows := if rowsBad then 1 else e.rows }
    if convoyOk ((group ++ [e]).filterMap convoyWord) then e :: markEntries lcs flid rest (group ++ [e])
    else { e with icx := true } :: markEntries lcs flid rest group

/-- A VLD of a closed group whose load queue no later word of the group reads (R80). -/
def unconsumed (e : Entry) (rest : List Entry) : Bool :=
  let group := rest.takeWhile fun x => !x.conv
  decide (group.length < rest.length) && (match queuedClass e.word with
    | none => false
    | some (c, _) => (lqWrites c).any fun q => !(group.any fun x => match queuedClass x.word with
        | some (d, w) => (lqReads d w).contains q
        | none => false))

def markUnconsumed (l : List Entry) : List Entry :=
  match l with
  | [] => []
  | e :: rest => { e with icx := e.icx || unconsumed e rest } :: markUnconsumed rest

/-- The entry whose pushes take the commitment above 16 (R203, R413). -/
def overCommit (held : Nat) (l : List Entry) : Option Entry :=
  match l with
  | [] => none
  | e :: rest => if held + owed [e] > 16 then some e else overCommit (held + owed [e]) rest

/-- Which words of a convoy are at their DONE and not at VSTART: those that wait until an earlier element-wise word has
completed, and a VLD whose load queue such a word consumes, or none yet (log 11). -/
def behindOthers (live : List Writer) (after : Uses) : List Entry → List Bool
  | [] => []
  | e :: rest =>
    match queuedClass e.word with
    | none => false :: behindOthers live after rest
    | some (c, w) =>
      let rows := e.rows.toNat
      let u := usesOf c w rows
      if e.complete || (elementWise c && (keysLeft e).isEmpty) then false :: behindOthers live after rest
      else if elementWise c then
        if clashes u after || (accessesMemory c && live.any fun y => isVamo y.cls) then
          true :: behindOthers live (addUses after u) rest
        else false :: behindOthers (live ++ [⟨c, w, rows, 0⟩]) after rest
      else if clashes u after || waitsForLive c w rows live then false :: behindOthers live (addUses after u) rest
      else false :: behindOthers live after rest

/-- A VLD to a load queue is where its consumer is (R155). -/
def behindQueues : List (Entry × Bool) → List Bool
  | [] => []
  | (e, b) :: rest =>
    (b || (match queuedClass e.word with
      | none => false
      | some (c, _) => (lqWrites c).any fun q => match rest.find? fun x => wordReadsQueue q x.1 with
        | some x => x.2
        | none => true)) :: behindQueues rest
where
  wordReadsQueue (q : Nat) (e : Entry) : Bool := match queuedClass e.word with
    | some (d, w) => (lqReads d w).contains q
    | none => false

/-- A word of the head convoy takes up VSTART, RSTATE and KPROG (R30, R143, R164, R192): an element-wise word resumes at
the later of VSTART and its DONE; of the others the oldest reads VSTART (R124). -/
def primeWord (h : Hart) (first behind : Bool) (e : Entry) : Entry :=
  let sweeps := wordIs elementWise e || wordIs tileWise e
  { e with
    start := if first || (sweeps && !behind) then maxPos h.vstart e.done else e.done
    fold := if wordIs isFold e then h.rstate else e.fold
    kdone := h.kprog }

/-- The words of the head convoy take up their progress; those behind it start at their DONE. -/
def primeConvoy (h : Hart) (q : List Entry) : List Entry :=
  let conv := (headConvoy q).map fun e => { e with start := maxPos h.vstart e.done }
  let behind := behindQueues (conv.zip (behindOthers [] .none conv))
  (List.range conv.length).zipWith (fun i x => primeWord h (i == 0) x.2 x.1) (conv.zip behind) ++
    (q.drop conv.length).map fun e => { e with start := e.done }

/-- ROWS as the check leaves it is what a later word of the open convoy is checked against (R413). -/
def convRows (l : List Entry) (q : List Entry) : List Entry :=
  let n := min l.length q.length
  l.take (l.length - n) ++ (l.drop (l.length - n)).zipWith (fun e x => { e with rows := x.rows, icx := x.icx }) (q.drop (q.length - n))

/-- RUN's checks of the queue, made before anything issues (R413). -/
def imageCheck (s : State) (hid : Nat) : State :=
  let h := hartAt s hid
  let q := markUnconsumed (markEntries (laneCount h.own) (worldOf s hid) h.queue [])
  setHart s hid { h with queue := primeConvoy h q, conv := h.conv.map fun l => convRows l q }

/-- A fault that RUN itself delivers: no queued word issues before it is handled. -/
def runFault (s : State) (hid : Nat) (f : FaultRec) : State :=
  deliverTrap (setHart s hid { hartAt s hid with qStopped := true }) hid f

/-- RUN for a page that is not running (R250, R192, R268, R413): the pending fault first, then the image checked, the commitment,
then vector state. What the check marks in the entries stands only when RUN takes no fault of its own: it leaves the queue unchanged
where it does (R268; for class 4 log 59). -/
def runHart (s : State) (hid : Nat) : State :=
  let r := resumeHart s hid
  let checked := imageCheck s hid
  let h := hartAt checked hid
  if !(hartAt s hid).pending.isEmpty then r
  else
    match overCommit h.rq.length h.queue with
    | some e => runFault r hid ⟨false, 4, 0, 0, 0, e.thread, e.emitPc, e.seq⟩
    | none =>
      if h.vstate == .absent && h.queue.any touchesVectorWord then
        runFault r hid (gFaultRec 7 (if laneCount h.own = 0 then 1 else 0) 0)
      else joinWindow (resumeHart checked hid) hid

/-- A hart starts in an IDLE slot (R251): it receives the lane clusters that LANES.OWN names, that no other hart
holds and that are not retired; what they hold is undefined (R7). DESIGN CHOICE: it starts with no open convoy, so a first EMIT
with C = 0 does not join the last group of an image that the page held (R79, R413; log 59). -/
def startHart (s : State) (hid : Nat) : State :=
  let h := hartAt s hid
  let own := h.own &&& ~~~(ownedOnCore s (coreOf hid) hid) &&& ~~~(coreAt s (coreOf hid)).retired
  let v := freshVregs s
  runHart (setHart v.2 hid { h with
    own := own
    vregs := v.1
    rqHeld := []
    conv := none
    barCount := Vector.replicate 7 0
    barArrived := none
    parent := none
    wc := []
    wait := none
    inWindow := false }) hid

/-! ### Stops (R250, R252, R253, R402) -/

/-- The hart becomes STOPPED: the open convoy is closed (R79, R253). -/
def stopHart (s : State) (hid : Nat) : State :=
  let h := hartAt s hid
  setHart s hid { h with
    ctl := .stopped, conv := none, stalled := false, gStall := none, wait := none, barArrived := none, genStopped := false, gcount := 0 }

/-- A COLL that has not started: a stop leaves it in the queue (R402). -/
def idleColl (e : Entry) (c : EClass) : Bool :=
  match c with
  | .coll _ => !e.started && !e.icx
  | _ => false

/-- What is left of a convoy is COLLs that have not started, and words that wait for them. left: such words before. -/
def onlyIdleColls (left : List (EClass × EFields × Nat)) : List Entry → Bool
  | [] => !left.isEmpty
  | e :: rest =>
    if e.complete then onlyIdleColls left rest
    else match queuedClass e.word with
      | none => false
      | some (c, w) =>
        let rows := e.rows.toNat
        (idleColl e c || !runsAfter left c w rows) && onlyIdleColls (left ++ [(c, w, rows)]) rest

/-- A hart that drains is done: its generator has stopped, and its queue is empty or comes no further for a COLL that has not started
(R252, R402; log 23). -/
def drained (h : Hart) : Bool := h.ctl == .stopDrain && h.genStopped && (h.queue.isEmpty || onlyIdleColls [] (headConvoy h.queue))

/-- STOP_DRAIN_COMPLETE (R252): what is left in the queue stays. -/
def execStopDrainComplete (hid : Nat) (s : State) : Result :=
  let h := hartAt s hid
  if !drained h then .next s
  else if h.queue.isEmpty then .next (stopHart s hid)
  else .next (stopHart (setHart (leaveWindow s hid) hid (interruptConvoy h)) hid)

/-- STOP_FREEZE_COMPLETE (R253): the generator has stopped, and no COLL of the hart is under way (R402). A CPY
under way stops at its row, with its captured registers already rewritten (R237). -/
def execStopFreezeComplete (hid : Nat) (s : State) : Result :=
  let h := hartAt s hid
  if h.ctl = .stopFreeze && h.genStopped && (startedColl h).isNone then
    .next (stopHart (setHart (leaveWindow s hid) hid (interruptConvoy h)) hid)
  else .next s

/-- STOP_DRAIN_COUNT_EXPIRY (R252): 4,096 G-words have executed since the store, so the next stop point will do. -/
def execStopDrainCountExpiry (hid : Nat) (s : State) : Result :=
  let h := hartAt s hid
  if h.ctl = .stopDrain then .next (setHart s hid { h with gcount := 4096, stalled := false }) else .next s

/-! ### The control word (R249, R250) -/

/-- The VI of an agent (R307). -/
def agentVi (s : State) : Agent → Nat
  | .hart k => (hartAt s k).vi
  | .host v => v
  | .firmware => 0

/-- RUN stored to a page. A slot that holds a child awaiting JOIN is not free (R213). -/
def storeRun (s : State) (ag : Agent) (hid : Nat) : State :=
  let h := hartAt s hid
  match h.ctl with
  | .idle =>
    if h.awaitJoin then s
    else startHart (setHart s hid { h with vi := agentVi s ag, team := none, farmGen := 0 }) hid
  | .stopDrain => setHart s hid { h with ctl := .run, genStopped := false, gcount := 0, stalled := false }
  | .stopped | .trapped => runHart s hid
  | .run | .stopFreeze => s

def storeStopDrain (s : State) (hid : Nat) : State :=
  let h := hartAt s hid
  match h.ctl with
  | .run => setHart s hid { h with ctl := .stopDrain, gcount := 0, genStopped := false, stalled := false }
  | .idle | .stopDrain | .stopFreeze | .stopped | .trapped => s

def storeStopFreeze (s : State) (hid : Nat) : State :=
  let h := hartAt s hid
  match h.ctl with
  | .run | .stopDrain => setHart s hid { h with ctl := .stopFreeze, genStopped := false, stalled := false }
  | .idle | .stopFreeze | .stopped | .trapped => s

def storeIdle (s : State) (hid : Nat) : State :=
  match (hartAt s hid).ctl with
  | .stopped | .trapped => endHart s hid false
  | .idle | .run | .stopDrain | .stopFreeze => s

/-- A store to the control word (R249): values 4 to 7 are ignored. -/
def storeControl (s : State) (ag : Agent) (hid : Nat) (v : Word) : State :=
  let c := field v 0 3
  if c = 0 then storeIdle s hid
  else if c = 1 then storeRun s ag hid
  else if c = 2 then storeStopDrain s hid
  else if c = 3 then storeStopFreeze s hid
  else s

def execCtrlRun (ag : Agent) (hid : Nat) (s : State) : Result := .next (storeRun s ag hid)
def execCtrlStopDrain (_ag : Agent) (hid : Nat) (s : State) : Result := .next (storeStopDrain s hid)
def execCtrlStopFreeze (_ag : Agent) (hid : Nat) (s : State) : Result := .next (storeStopFreeze s hid)
def execCtrlIdle (_ag : Agent) (hid : Nat) (s : State) : Result := .next (storeIdle s hid)

/-! ### The fields of the page as they read (R255) -/

def vstateCode : VState → Nat
  | .absent => 0 | .present => 1 | .saved => 2

/-- SSR (R32). -/
def ssrWord (s : State) (hid : Nat) : Word :=
  let h := hartAt s hid
  BitVec.ofNat 64 ((if h.ict then 512 else 0) + (if h.rct then 256 else 0) + (worldOf s hid).toNat)

/-- LANES (R33). -/
def lanesWord (h : Hart) : Word := BitVec.ofNat 64 (16 * laneCount h.own + h.own.toNat)

/-- Special register n (R29 to R33). -/
def specialReg (s : State) (hid n : Nat) : Word :=
  let h := hartAt s hid
  if n = 0 then h.vl
  else if n = 1 then h.rows.setWidth 64
  else if n = 2 then h.vstart.setWidth 64
  else if n = 3 then h.rstate
  else if n = 4 then h.kprog
  else if n = 5 then h.vxsr.setWidth 64
  else if n = 6 then ssrWord s hid
  else if n = 7 then BitVec.ofNat 64 hid
  else if n = 8 then lanesWord h
  else if n = 9 then h.emitseq
  else if n = 10 then BitVec.ofNat 64 s.pt
  else if n = 11 then h.bypth
  else if n = 12 then h.trapsink
  else 0

/-- The trap record (R189). -/
def trapDw (t : TrapRec) (off : Nat) : Word :=
  if off = 0x20 then t.cause else if off = 0x28 then t.gpc else if off = 0x30 then t.thread
  else if off = 0x38 then t.emitPc else if off = 0x40 then t.seq else if off = 0x48 then t.vstart
  else if off = 0x50 then t.addr else if off = 0x58 then t.port else if off = 0x60 then t.sinkSeq else 0

/-- Bytes of each mask register of a shape (R255). -/
def maskBytes (shape : Bool) : Nat := if shape then 1024 else 512

/-- Bytes of each vector register that the page's lanes hold; an IDLE page owns no lane cluster (R267). -/
def windowBytes (h : Hart) : Nat := if h.ctl = .idle then 0 else ownedBytes h.own h.shape

/-- An offset of the vector window lies in a byte that the hart's lanes hold. -/
def windowHeld (h : Hart) (o : Nat) : Bool := decide (o % (if h.shape then 4096 else 2048) < windowBytes h)

def tagsDw (h : Hart) (i : Nat) : Word :=
  BitVec.ofNat 64 ((List.range 16).foldl (fun n k => n + (h.tags[16 * i + k]?.getD 0).toNat * 2 ^ (4 * k)) 0)

def reclaimDw (r : Reclaim) : Word :=
  BitVec.ofNat 64 (r.status.toNat * 1024 + (if r.tv then 128 else 0) + r.target.toNat * 32 + r.keep.toNat)

/-- The doubleword of a queue image at an offset of the page (R77). -/
def imageDw (q : List Entry) (off : Nat) : Word :=
  match q[(off - 0x8000) / 128]? with
  | some e => entryDw e ((off - 0x8000) % 128)
  | none => 0

/-- Windows and root as the page holds them: as stored, though they may still have to take effect (R303). -/
def pageWindows (h : Hart) : Vector Window 8 := h.newWindows.getD h.windows
def pageRoot (h : Hart) : Word := h.newRoot.getD h.root

/-- The doubleword of a context page at an offset, as an agent that sees the whole page reads it. -/
def ctxDw (s : State) (hid off : Nat) : Word :=
  let h := hartAt s hid
  if off = 0 then BitVec.ofNat 64 (ctlCode h.ctl)
  else if off = 0x8 then h.pc
  else if off = 0x10 then ssrWord s hid
  else if off = 0x18 then h.trapsink
  else if off < 0x100 then trapDw h.trapRec off
  else if off < 0x300 then rdN h ((off - 0x100) / 8)
  else if off < 0x368 then specialReg s hid ((off - 0x300) / 8)
  else if off = 0x368 then h.ept.setWidth 64
  else if off = 0x370 then ofBool64 h.shape
  else if 0x4000 ≤ off && off < 0x8000 then
    let n := (off - 0x4000) / 1024
    let b := (off - 0x4000) % 1024
    if n = 0 then allOnes64
    else if maskBytes h.shape ≤ b then 0
    else BitVec.ofNat 64 (bitsAt (h.masks[n]?.getD 0) (8 * b) 64)
  else if 0x8000 ≤ off && off < 0xA000 then imageDw h.queue off
  else if 0xA000 ≤ off && off < 0xA080 then
    let i := (off - 0xA000) / 8
    h.rq[i]?.getD (fmGet h.rqHeld 0 i)
  else if off = 0xA080 then BitVec.ofNat 64 h.rq.length
  else if 0x10000 ≤ off && off < 0x20000 then
    let o := off - 0x10000
    if windowHeld h o then BitVec.ofNat 64 (bitsAt (h.vregs[o / 2048]?.getD 0) (8 * (o % 2048)) 64) else 0
  else if off = 0x20000 then tagsDw h 0
  else if off = 0x20008 then tagsDw h 1
  else if off = 0x20010 then h.dirty.setWidth 64
  else if off = 0x20018 then BitVec.ofNat 64 (vstateCode h.vstate)
  else if off = 0x20020 then h.trapCount
  else if 0x21000 ≤ off && off < 0x21080 then
    let w := (pageWindows h)[(off - 0x21000) / 16]?.getD Window.none
    if off % 16 = 0 then w.base else w.limit
  else if off = 0x21080 then pageRoot h
  else if off = 0x22000 then h.saveptr
  else if off = 0x22008 then BitVec.ofNat 64 (h.saveStatus.toNat * 256)
  else if off = 0x22010 then reclaimDw h.reclaim
  else 0

/-- Fields that read live while the page is running (R255). -/
def liveField (off : Nat) : Bool :=
  off == 0 || (decide (0x20 ≤ off) && decide (off < 0x100)) || (decide (0x8000 ≤ off) && decide (off < 0xA000)) ||
    off == 0x20018 || off == 0x20020 || off == 0x22000 || off == 0x22008 || off == 0x22010

/-- Fields that an agent outside the core's flacon may read (R354). -/
def openField (off : Nat) : Bool :=
  off == 0 || off == 0x20 || off == 0x60 || off == 0x20018 || off == 0x20020 || off == 0x22000 || off == 0x22008

/-- The agent belongs to the world of the page's core (R352). -/
def sameWorld (s : State) (ag : Agent) (hid : Nat) : Bool :=
  let w := worldOf s hid
  w == 0 || (match ag with
    | .hart k => worldOf s k == w
    | .host _ | .firmware => false)

/-- Access to data on a gated lane cluster wakes it (R212). -/
def ungate (s : State) (hid off : Nat) : State :=
  if 0x4000 ≤ off && off < 0x20010 && !(decide (0x8000 ≤ off) && decide (off < 0x10000)) then
    let c := coreAt s (coreOf hid)
    if c.gated &&& (hartAt s hid).own ≠ 0 then
      setCore s (coreOf hid) { c with gated := c.gated &&& ~~~(hartAt s hid).own }
    else s
  else s

/-- The queue of a running page as a hart reads it under a key (R201): as it stood at that key's first read. -/
def imageFor (s : State) (k key hid : Nat) : List Entry × State :=
  let h := hartAt s k
  match h.images.find? fun x => x.reader == key && x.page == hid with
  | some x => (x.entries, s)
  | none =>
    let q := (hartAt s hid).queue
    (q, setHart s k { h with images := ⟨key, hid, q⟩ :: h.images })

/-- A load of a doubleword of a context page (R255, R354). key: what one instant of the queue image holds for (R201). -/
def ctxLoad (s : State) (ag : Agent) (key hid off : Nat) : Word × State :=
  if !sameWorld s ag hid && !openField off then (0, s)
  else if running (hartAt s hid) then
    if 0x8000 ≤ off && off < 0xA000 then
      match ag with
      | .hart k =>
        let r := imageFor s k key hid
        (imageDw r.1 off, r.2)
      | .host _ | .firmware => (ctxDw s hid off, s)
    else if liveField off then (ctxDw s hid off, ungate s hid off)
    else freshWord s
  else (ctxDw s hid off, ungate s hid off)

/-! ### The fields of the page as stores change them (R255, R256, R413) -/

/-- Data of the lane clusters after a change of ownership: a cluster held before keeps its bytes, another's are undefined. -/
def moveLanes (h : Hart) (own : BitVec 4) (fresh : Vector (BitVec 16384) 32) : Vector (BitVec 16384) 32 :=
  let size := if h.shape then 1024 else 512
  let old := ownBits h.own
  let new := ownBits own
  if h.own = own then h.vregs
  else Vector.ofFn fun (i : Fin 32) =>
    -- each slice is 2,048 bytes; in the wide shape two slices hold one register
    let reg := if h.shape then i.val / 2 else i.val
    let lo := if h.shape then i.val % 2 * 2048 else 0
    let src := vreg h h.shape reg
    let out := (new.zip (List.range 4)).foldl (fun v p =>
      match old.findIdx? (· == p.1) with
      | some j => putBits v (8 * size * p.2) (8 * size) (bitsAt src (8 * size * j) (8 * size))
      | none => putBits v (8 * size * p.2) (8 * size) (bitsAt (fresh[i.val]?.getD 0) (8 * (size * p.2 % 2048)) (8 * size)))
      (0 : BitVec 32768)
    (out >>> (8 * lo)).setWidth 16384

/-- A store to LANES: an IDLE page records it for the next RUN; a stopped page keeps what no other hart holds (R33). DESIGN
CHOICE: in an IDLE page whose halted child awaits JOIN it changes nothing, for that slot's lane clusters are the parent's to
come (R214; log 34). -/
def storeLanes (s : State) (hid : Nat) (v : Word) : State :=
  let h := hartAt s hid
  let asked := BitVec.ofNat 4 (field v 0 4)
  if h.ctl = .idle then (if h.awaitJoin then s else setHart s hid { h with own := asked })
  else
    let own := asked &&& ~~~(ownedOnCore s (coreOf hid) hid) &&& ~~~(coreAt s (coreOf hid)).retired
    let f := freshVregs s
    setHart f.2 hid { h with own := own, vregs := moveLanes h own f.1 }

/-- A change of shape that leaves vector state undefined (R21, R256). -/
def reshape (s : State) (hid : Nat) (shape : Bool) : State :=
  let f := freshVregs s
  let h := hartAt f.2 hid
  setHart f.2 hid { h with
    shape := shape, vregs := f.1, tags := Vector.replicate 32 0, masks := Vector.replicate 16 0
    vstart := 0, rstate := 0, kprog := 0 }

/-- SHAPE stored to a page that is not running (R256). -/
def storeShape (s : State) (hid : Nat) (v : Word) : State :=
  let h := hartAt s hid
  let shape := bit v 0
  if h.shape = shape then s
  else if h.vstate = .absent then setHart s hid { h with shape := shape }
  else reshape s hid shape

/-- A special register stored to a page that is not running (R255). -/
def storeSpecial (s : State) (hid n : Nat) (v : Word) : State :=
  let h := hartAt s hid
  if n = 0 then setHart s hid { h with vl := v }
  else if n = 1 then
    if 1 ≤ field v 0 4 && field v 0 4 ≤ 8 then setHart s hid { h with rows := BitVec.ofNat 4 (field v 0 4) } else s
  else if n = 2 then setHart s hid { h with vstart := v.setWidth 32 }
  else if n = 3 then setHart s hid { h with rstate := v }
  else if n = 4 then setHart s hid { h with kprog := v }
  else if n = 5 then setHart s hid { h with vxsr := v.setWidth 8 }
  else if n = 6 then setHart s hid { h with rct := bit v 8, ict := bit v 9 }
  else if n = 8 then storeLanes s hid v
  else if n = 9 then setHart s hid { h with emitseq := v }
  else if n = 11 then setHart s hid { h with bypth := v }
  else if n = 12 then setHart s hid { h with trapsink := v &&& ~~~7#64 }
  else s

/-- EPT (R247): 16 to 40. -/
def eptField (v : Word) : BitVec 6 := BitVec.ofNat 6 (max 16 (min 40 (field v 0 6)))

/-- The entries of the queue's last group. -/
def lastGroup (q : List Entry) : Nat := (q.reverse.takeWhile fun e => !e.conv).length

/-- The open convoy follows edits of the image: its freed words stand, the rest is the last group (R413). -/
def convAfter (h : Hart) (q : List Entry) : Option (List Entry) :=
  h.conv.map fun l =>
    let tail := min h.queue.length (lastGroup h.queue + 1)
    let freed := l.take (l.length - min l.length tail)
    let tail' := min q.length (lastGroup q + 1)
    (if q.length - tail' = h.queue.length - tail then freed else []) ++ q.drop (q.length - tail')

/-- An entry with a doubleword of its image stored. A word that had completed and whose DONE lies before the end that its new ROWS and
VL give has the rest still to perform (R30, R413). -/
def editImage (e : Entry) (off : Nat) (v : Word) : Entry :=
  let x := putEntryDw e off v
  if off = 0x30 && x.complete && wordIs (fun c => recordsPosition c && c != .mcvt) x && !pastEnd x then x.edited else x

/-- A store to the queue image of a page that is not running (R413). -/
def storeImage (s : State) (hid n off : Nat) (v : Word) : State :=
  let h := hartAt s hid
  let put (s : State) (q : List Entry) : State :=
    let h := hartAt s hid
    setHart s hid { h with queue := q, conv := convAfter h q }
  if n < h.queue.length then
    if off = 0 && v = 0 then
      put (releaseTiles s (coreOf hid) ((h.queue.drop n).flatMap (·.claims))) (h.queue.take n)
    else put s (h.queue.modify n fun e => editImage e off v)
  else if n = h.queue.length && n < 64 && off = 0 && v ≠ 0 then put s (h.queue ++ [{ Entry.blank with word := v }])
  else s

/-- RQCOUNT stored: entries beyond those held come from what was stored above it. DESIGN CHOICE: a value of 17 to 31 is stored as 16
(log 28). -/
def storeRqCount (h : Hart) (v : Word) : Hart :=
  let n := min 16 (field v 0 5)
  { h with rq := (List.range n).map fun i => h.rq[i]?.getD (fmGet h.rqHeld 0 i), rqHeld := [] }

def tagOf (v : Word) (k : Nat) : BitVec 4 :=
  let t := BitVec.ofNat 4 (field v (4 * k) 4)
  if codeOk t then t else 0

def storeTags (h : Hart) (i : Nat) (v : Word) : Hart :=
  { h with tags := (List.range 16).foldl (fun t k => t.setIfInBounds (16 * i + k) (tagOf v k)) h.tags }

/-- VSTATE becomes ABSENT: the lanes hold nothing of the context, and its window is undefined (R7, R257). -/
def dropVectors (s : State) (hid : Nat) : State :=
  if (hartAt s hid).vstate = .absent then s
  else
    let f := freshVregs s
    setHart f.2 hid { hartAt f.2 hid with vstate := .absent, vregs := f.1 }

/-- VSTATE stored (R257). What ABSENT drops is undefined; the bytes that a handler has put into the window since then stand
when it stores PRESENT (R193). -/
def storeVstate (s : State) (hid : Nat) (v : Word) : State :=
  let h := hartAt s hid
  let c := field v 0 2
  let h := { h with lastArea := none }
  if c = 1 then setHart s hid { h with vstate := .present }
  else if c = 2 then setHart s hid { h with vstate := .saved }
  else dropVectors (setHart s hid h) hid

def putSlice (h : Hart) (o : Nat) (v : Word) : Hart :=
  { h with vregs := h.vregs.setIfInBounds (o / 2048) (putBits (h.vregs[o / 2048]?.getD 0) (8 * (o % 2048)) 64 v.toNat) }

/-- A doubleword of the scalar part and the window, as both a store and the sequencer write it (R255, R259). DIRTY is for the
sequencer alone. -/
def storeField (s : State) (hid off : Nat) (v : Word) : State :=
  let h := hartAt s hid
  if off = 0x8 then setHart s hid { h with pc := v &&& ~~~3#64 }
  else if off = 0x10 then storeSpecial s hid 6 v
  else if off = 0x18 then storeSpecial s hid 12 v
  else if 0x100 ≤ off && off < 0x300 then setHart s hid (wr h (BitVec.ofNat 6 ((off - 0x100) / 8)) v)
  else if 0x300 ≤ off && off < 0x368 then storeSpecial s hid ((off - 0x300) / 8) v
  else if off = 0x368 then setHart s hid { h with ept := eptField v }
  else if off = 0x370 then storeShape s hid v
  else if 0x4000 ≤ off && off < 0x8000 then
    let n := (off - 0x4000) / 1024
    let b := (off - 0x4000) % 1024
    if n = 0 || decide (maskBytes h.shape ≤ b) then s
    else setHart s hid { h with masks := h.masks.setIfInBounds n (putBits (h.masks[n]?.getD 0) (8 * b) 64 v.toNat) }
  else if 0x8000 ≤ off && off < 0xA000 then storeImage s hid ((off - 0x8000) / 128) ((off - 0x8000) % 128) v
  else if 0xA000 ≤ off && off < 0xA080 then
    let i := (off - 0xA000) / 8
    setHart s hid (if i < h.rq.length then { h with rq := h.rq.set i v } else { h with rqHeld := fmSet h.rqHeld i v })
  else if off = 0xA080 then setHart s hid (storeRqCount h v)
  else if 0x10000 ≤ off && off < 0x20000 then
    if windowHeld h (off - 0x10000) then setHart s hid (putSlice { h with lastArea := none } (off - 0x10000) v)
    else setHart s hid { h with lastArea := none }
  else if off = 0x20000 then setHart s hid (storeTags h 0 v)
  else if off = 0x20008 then setHart s hid (storeTags h 1 v)
  else if off = 0x20018 then storeVstate s hid v
  else if off = 0x22000 then setHart s hid { h with saveptr := v &&& ~~~0xFFF#64 }
  else s

/-! ### Frame windows and root (R302, R303) -/

def baseField (v : Word) : Word := BitVec.ofNat 64 (field v 19 29 * 2 ^ 19)
def limitField (v : Word) : Word := BitVec.ofNat 64 (field v 19 29 * 2 ^ 19 + field v 2 3 * 4 + field v 0 1)

/-- A window that contains nothing (R302, R303). -/
def emptyWindow (w : Window) : Bool := !bit w.limit 0 || decide (field w.limit 19 29 < field w.base 19 29)

/-- A window lies within a valid window and has no permission that it lacks (R303). -/
def windowWithin (w outer : Window) : Bool :=
  bit outer.limit 0 && decide (field outer.base 19 29 ≤ field w.base 19 29) &&
    decide (field w.limit 19 29 ≤ field outer.limit 19 29) &&
    Nat.land (field w.limit 2 3) (field outer.limit 2 3) == field w.limit 2 3

/-- The window that a store to BASE or LIMIT would leave. -/
def editWindow (w : Window) (limit : Bool) (v : Word) : Window :=
  if limit then { w with limit := limitField v } else { w with base := baseField v }

/-- The window check of R303 for a store by a hart; template: R333 exempts every store that leaves the window empty. -/
def windowAccepted (s : State) (ag : Agent) (old new : Window) (limit template : Bool) : Bool :=
  match ag with
  | .hart k =>
    (!limit && !bit old.limit 0) || ((limit || template) && emptyWindow new) ||
      (hartAt s k).windows.toList.any (windowWithin new)
  | .host _ | .firmware => true

/-- Windows and a root stored (R303): while the page is TRAPPED its queue may still issue (R186), so there they take effect
when it leaves that state. -/
def putWindows (h : Hart) (w : Vector Window 8) : Hart :=
  if h.ctl = .trapped then { h with newWindows := some w } else { h with windows := w }
def putRoot (h : Hart) (r : Word) : Hart := if h.ctl = .trapped then { h with newRoot := some r } else { h with root := r }

/-- A store to a frame window or to ROOT (R303). -/
def storeWindow (s : State) (ag : Agent) (hid off : Nat) (v : Word) : State :=
  let h := hartAt s hid
  if ag = .hart hid || running h then s
  else if off = 0x21080 then setHart s hid (putRoot h (BitVec.ofNat 64 (field v 19 29 * 2 ^ 19 + field v 0 1)))
  else if 0x21000 ≤ off && off < 0x21080 then
    let i := (off - 0x21000) / 16
    let limit := off % 16 == 8
    let old := (pageWindows h)[i]?.getD Window.none
    let new := editWindow old limit v
    if windowAccepted s ag old new limit false then setHart s hid (putWindows h ((pageWindows h).setIfInBounds i new)) else s
  else s

/-! ### RECLAIM (R262) -/

/-- A store to RECLAIM: a nonzero must-be-zero field, or KEEP 5 to 7, makes it ignored. -/
def storeReclaim (s : State) (hid : Nat) (v : Word) : State :=
  if field v 8 2 ≠ 0 || field v 3 2 ≠ 0 || decide (4 < field v 0 3) then s
  else
    let h := hartAt s hid
    setHart s hid { h with
      reclaim := ⟨1, bit v 7, BitVec.ofNat 2 (field v 5 2), BitVec.ofNat 3 (field v 0 3), none⟩, stalled := false }

/-! ### Events that are stores to the page -/

/-- A store by an agent to a field that only agents of the core's world may change, in a page that is not running. -/
def guarded (s : State) (ag : Agent) (hid : Nat) (f : State → State) : State :=
  if sameWorld s ag hid && !running (hartAt s hid) then f s else s

def execQueueImageWrite (ag : Agent) (hid n off : Nat) (v : Word) (s : State) : Result :=
  .next (guarded s ag hid fun s => storeImage s hid n off v)

def execShapeWrite (ag : Agent) (hid : Nat) (v : Word) (s : State) : Result :=
  .next (guarded s ag hid fun s => storeShape s hid v)

def execReclaimRequest (ag : Agent) (hid : Nat) (v : Word) (s : State) : Result :=
  .next (if sameWorld s ag hid then storeReclaim s hid v else s)

def execFrameWindowWrite (ag : Agent) (hid off : Nat) (v : Word) (s : State) : Result :=
  .next (guarded s ag hid fun s => storeWindow s ag hid off v)

/-- BARRIER_COMPLETE (R283): the barrier that a hart waits in is looked at. -/
def execBarrierComplete (hid : Nat) (s : State) : Result := .next (tryBar s hid)

/-- WRITE_COMBINE_DRAIN (R172). -/
def execWriteCombineDrain (hid : Nat) (s : State) : Result := .next (drainWc s hid)

end Sys2Proof.Machine
end

