-- ==== Sys2Proof/Machine/Queue.lean ====
section
/-! DEFINITION. Queues, packets, the global scheduler and the leaf controllers (R276, R320 to R337, R414), farm
generations at their declaration (R278, R292), hang detection (R372) and the queue-head, team and VI pages. -/

namespace Sys2Proof.Machine

/-! ### The queue-head page (R320, R321) -/

def queueIndex (vi q : Nat) : Nat := 64 * vi + q

def ctlDw (x : QueueSt) : Word :=
  BitVec.ofNat 64 (x.ring * 2 ^ 7 + (if x.fault then 32 else 0) + x.log2 * 2 + (if x.en then 1 else 0))

/-- A doubleword of a queue-head page. -/
def queueDw (s : State) (qi off : Nat) : Word :=
  let x := queueAt s qi
  if off = 0 then ctlDw x
  else if off = 0x8 then BitVec.ofNat 64 x.tail
  else if off = 0x10 then BitVec.ofNat 64 x.head
  else if off = 0x18 then BitVec.ofNat 64 x.scan
  else if off = 0x20 then BitVec.ofNat 64 x.stale
  else if off = 0x28 then x.priocap.setWidth 64
  else if off = 0x100 then x.sinkt
  else if off = 0x108 then x.savet
  else if off = 0x110 then x.eptt.setWidth 64
  else if off = 0x180 then x.roott
  else if 0x200 ≤ off && off < 0x280 then
    let w := x.wins[(off - 0x200) / 16]?.getD Window.none
    if off % 16 = 0 then w.base else w.limit
  else 0

/-- A store to CTL (R321). -/
def storeCtl (s : State) (qi : Nat) (v : Word) : State :=
  let x := queueAt s qi
  let en := bit v 0
  if x.en then setQueue s qi { x with en := en, fault := x.fault && en }
  else
    let log2 := field v 1 4
    if en && log2 = 0 then s
    else setQueue s qi { x with ring := field v 7 41, log2 := log2, en := en, fault := x.fault && en }

/-- A store to TAIL (R322). -/
def storeTail (s : State) (qi : Nat) (v : Word) : State :=
  let x := queueAt s qi
  if x.tail < v.toNat then setQueue s qi { x with tail := v.toNat }
  else if v.toNat = x.tail then s
  else setQueue s qi { x with stale := min (x.stale + 1) (2 ^ 64 - 1) }

/-- A store to PRIOCAP: a hart's is ignored (R330). -/
def storePriocap (s : State) (ag : Agent) (qi : Nat) (v : Word) : State :=
  match ag with
  | .hart _ => s
  | .host _ | .firmware => setQueue s qi { queueAt s qi with priocap := v.setWidth 2 }

/-- A store to a template window (R333). -/
def storeTemplate (s : State) (ag : Agent) (qi w : Nat) (limit : Bool) (v : Word) : State :=
  let x := queueAt s qi
  let old := x.wins[w]?.getD Window.none
  let new := editWindow old limit v
  if windowAccepted s ag old new limit true then setQueue s qi { x with wins := x.wins.setIfInBounds w new } else s

/-- A store to a queue-head page. -/
def storeQueuePage (s : State) (ag : Agent) (qi off : Nat) (v : Word) : State :=
  let x := queueAt s qi
  if off = 0 then storeCtl s qi v
  else if off = 0x8 then storeTail s qi v
  else if off = 0x28 then storePriocap s ag qi v
  else if off = 0x100 then setQueue s qi { x with sinkt := v }
  else if off = 0x108 then setQueue s qi { x with savet := v }
  else if off = 0x110 then setQueue s qi { x with eptt := eptField v }
  else if off = 0x180 then setQueue s qi { x with roott := BitVec.ofNat 64 (field v 19 29 * 2 ^ 19 + field v 0 1) }
  else if 0x200 ≤ off && off < 0x280 then storeTemplate s ag qi ((off - 0x200) / 16) (off % 16 == 8) v
  else s

def execQueueCtlWrite (_ag : Agent) (vi q : Nat) (v : Word) (s : State) : Result := .next (storeCtl s (queueIndex vi q) v)
def execTailWrite (_ag : Agent) (vi q : Nat) (v : Word) (s : State) : Result := .next (storeTail s (queueIndex vi q) v)
def execTemplateWrite (ag : Agent) (vi q w : Nat) (limit : Bool) (v : Word) (s : State) : Result :=
  .next (storeTemplate s ag (queueIndex vi q) w limit v)
def execPriocapWrite (ag : Agent) (vi q : Nat) (v : Word) (s : State) : Result :=
  .next (storePriocap s ag (queueIndex vi q) v)

/-! ### The scheduler's accesses to rings (R321, R323, R331) -/

/-- A doubleword read by the scheduler through stage 2; none where it is not mapped, keyed, or poisoned (R321, R358). -/
def schedRead (s : State) (vi via : Nat) : Option Word :=
  match stageTwo s vi via with
  | none => none
  | some p =>
    if p.key ≠ 0 || p.kind = 3 || poisoned s.mem p.pa 8 then none
    else some (BitVec.ofNat 64 (freshMem s.mem p.pa 8))

def schedWrite (s : State) (vi via : Nat) (v : Word) : Option State :=
  match stageTwo s vi via with
  | none => none
  | some p => if p.key ≠ 0 || p.kind = 3 then none else some { s with mem := uncachedWrite s.mem p.pa (splitBytes 8 v.toNat) }

/-- FAULT set: the queue makes no further progress (R321). -/
def queueFault (s : State) (qi : Nat) : State := setQueue s qi { queueAt s qi with fault := true }

/-- The state word (R326). -/
def pktWord (p : Packet) : Word := p.words[1]?.getD 0
def pktState (w : Word) : Nat := field w 0 4
def pktHarts (w : Word) : Nat := field w 4 12
def pktNdep (w : Word) : Nat := field w 16 3
def pktNbuf (w : Word) : Nat := field w 19 3
def pktLcs (w : Word) : Nat := field w 22 3
def pktSpan (w : Word) : Nat := field w 25 3
def pktPrio (w : Word) : Nat := field w 28 2
def pktDep (p : Packet) (i : Nat) : Word := p.words[6 + i]?.getD 0
def pktBuf (p : Packet) (i : Nat) : Word := p.words[10 + i]?.getD 0
def pktEntry (p : Packet) : Word := p.words[2]?.getD 0

/-- The malformed packets of R325 to R327. -/
def wordMalformed (w : Word) : Bool :=
  field w 40 24 != 0 || field w 30 2 != 0 || decide (pktSpan w < 1 ∨ 4 < pktSpan w) || decide (4 < pktLcs w) ||
    decide (6 < pktNbuf w) || decide (4 < pktNdep w) || decide (pktHarts w < 1 ∨ 3072 < pktHarts w) ||
    decide (pktState w < 1 ∨ 5 < pktState w)

def pktMalformed (p : Packet) : Bool :=
  let w := pktWord p
  wordMalformed w || field (pktEntry p) 51 13 != 0 || field (pktEntry p) 0 2 != 0 ||
    (List.range (pktNdep w)).any (fun i => field (pktDep p i) 48 16 != 0 || field (pktDep p i) 0 3 != 0) ||
    (List.range (pktNbuf w)).any fun i => field (pktBuf p i) 0 19 != 0

/-- HEAD over the finished slots that directly follow it (R335). -/
def advanceHead (x : QueueSt) (fuel : Nat) : QueueSt :=
  match fuel with
  | 0 => x
  | n + 1 =>
    if x.finished.contains x.head then
      advanceHead { x with finished := x.finished.filter (· != x.head), head := x.head + 1 } n
    else x

/-- A slot recorded as finished: out of the waiting set, HEAD advanced. -/
def finishSlot (s : State) (qi slot : Nat) : State :=
  let x := queueAt s qi
  let x := { x with waiting := x.waiting.filter (·.slot != slot), finished := slot :: x.finished }
  setQueue s qi (advanceHead x x.finished.length)

/-- The MSI-X vector of a queue's function (R375). -/
def fireQueue (s : State) (qi : Nat) : State := { s with msix := s.msix ++ [(qi / 64, qi % 64)] }

/-- FAILED with a reason over a state word (R326). -/
def failedWord (w : Word) (reason : Nat) : Word := putField (putField w 32 8 reason) 0 4 5

/-- The packet becomes FAILED by a CAS from the word that the scheduler has read (R330): a cancel that won stands. -/
def failPacket (s : State) (qi : Nat) (p : Packet) (reason : Nat) : State :=
  match schedRead s (qi / 64) (p.via + 8) with
  | none => queueFault s qi
  | some cur =>
    if cur = pktWord p then
      match schedWrite s (qi / 64) (p.via + 8) (failedWord cur reason) with
      | none => queueFault s qi
      | some s => fireQueue (finishSlot s qi p.slot) qi
    else s

/-- The scheduler looks again at the state word of a packet in its waiting set (R331, R414). -/
def recheckPacket (s : State) (qi : Nat) (p : Packet) : State :=
  match schedRead s (qi / 64) (p.via + 8) with
  | none => queueFault s qi
  | some w =>
    let p := { p with words := p.words.set 1 w }
    if 2 ≤ pktState w && pktState w ≤ 5 then finishSlot s qi p.slot
    else if pktMalformed p then failPacket s qi p 1
    else
      let x := queueAt s qi
      setQueue s qi { x with waiting := x.waiting.map fun y => if y.slot = p.slot then p else y }

/-- Queues work once boot firmware has enabled them, under a live scheduler (R366, R369, R372). -/
def schedulerUp (s : State) : Bool := s.resetPage.ready.getLsbD 0 && s.schedRunning

/-- There is a slot to examine (R324). -/
def scanOpen (x : QueueSt) : Bool :=
  x.en && !x.fault && decide (x.scan < x.tail) && decide (x.scan < x.head + 2 ^ x.log2) && decide (x.waiting.length < 64)

/-- The wake is over, or has more slots to examine (R380). -/
def noteWake (s : State) (qi : Nat) (more : Bool) : State :=
  let x := queueAt s qi
  setQueue s qi { x with waking := more && scanOpen x }

/-- The scan of one slot (R323, R324). While a wake has more slots to examine, nothing of the queue is dispatched (R380). -/
def scanSlot (s : State) (qi : Nat) : State :=
  let x := queueAt s qi
  if schedulerUp s && scanOpen x then
    let via := x.ring * 128 + 128 * (x.scan % 2 ^ x.log2)
    match schedRead s (qi / 64) via with
    | none => queueFault s qi
    | some seq =>
      if seq ≠ BitVec.ofNat 64 x.scan then noteWake s qi false
      else
        let words := (List.range 16).map fun i => schedRead s (qi / 64) (via + 8 * i)
        if words.any (·.isNone) then queueFault s qi
        else
          let p : Packet := ⟨x.scan, via, words.map (·.getD 0), none⟩
          noteWake (recheckPacket (setQueue s qi { x with scan := x.scan + 1, waiting := x.waiting ++ [p] }) qi p) qi true
  else noteWake s qi false

/-- SLOT_SCAN (R324, R330). -/
def execSlotScan (vi q : Nat) (s : State) : Result := .next (scanSlot s (queueIndex vi q))
/-- SCAN_REREAD (R324): a stopped scan reads its slot again. -/
def execScanReread (vi q : Nat) (s : State) : Result := .next (scanSlot s (queueIndex vi q))

def findPacket (s : State) (qi slot : Nat) : Option Packet := (queueAt s qi).waiting.find? (·.slot == slot)

/-- STATE_WORD_RECHECK (R331, R335, R414). -/
def execStateWordRecheck (vi q slot : Nat) (s : State) : Result :=
  match findPacket s (queueIndex vi q) slot with
  | some p =>
    if schedulerUp s && !(queueAt s (queueIndex vi q)).fault then .next (recheckPacket s (queueIndex vi q) p) else .next s
  | none => .next s

/-- The words of a packet's dependences as they read now. -/
def depWords (s : State) (qi : Nat) (p : Packet) : List (Option Word) :=
  (List.range (pktNdep (pktWord p))).map fun i => schedRead s (qi / 64) (field (pktDep p i) 3 45 * 8)

/-- DEPENDENCE_CHECK (R329). -/
def execDependenceCheck (vi q slot : Nat) (s : State) : Result :=
  let qi := queueIndex vi q
  match findPacket s qi slot with
  | none => .next s
  | some p =>
    if !schedulerUp s || !(queueAt s qi).en || (queueAt s qi).fault then .next s
    else
      let d := depWords s qi p
      if d.any (·.isNone) then .next (queueFault s qi)
      else if d.any fun w => pktState (w.getD 0) = 3 || pktState (w.getD 0) = 5 then .next (failPacket s qi p 2)
      else .next s

/-! ### Placement (R276, R330, R332; log 18) -/

def coreRetired (s : State) (core : Nat) : Bool := (fmGet s.hallmark.retired 0 core).getLsbD 4

/-- Members of active teams that a leaf controller has still to place. -/
def reserved (s : State) : List Member :=
  s.teams.flatMap fun t => if t.2.active then t.2.members.filter fun m => !m.launched && !m.ended else []

def slotFree (s : State) (hid : Nat) : Bool := !resident s hid && !(hartAt s hid).awaitJoin

/-- Lane clusters of a core that nobody holds. -/
def freeLcs (s : State) (core : Nat) (held : List Member) : List Nat :=
  let taken := ownedOnCore s core 3072 ||| (coreAt s core).retired |||
    held.foldl (fun b m => if coreOf m.hid = core then b ||| m.own else b) 0
  (List.range 4).filter fun i => !taken.getLsbD i

/-- Slots taken in order from a list of HIDs, each with LCS lane clusters, until n are found. -/
def takeSlots (s : State) (lcs : Nat) (cands : List Nat) (n : Nat) (held got : List Member) : Option (List Member) :=
  if n = 0 then some got
  else
    match cands with
    | [] => none
    | hid :: rest =>
      let core := coreOf hid
      let lc := freeLcs s core (held ++ got)
      if !coreRetired s core && (clusterAt s (clusterOf hid)).running && slotFree s hid &&
          !(held.any fun m => m.hid == hid) && decide (lcs ≤ lc.length) then
        takeSlots s lcs rest (n - 1) held (got ++ [⟨hid, bits4 (lc.take lcs), false, false, false⟩])
      else takeSlots s lcs rest n held got

/-- Hart slots of one instance of SPAN (R326). -/
def spanSlots (span : Nat) : Nat := if span = 1 then 4 else if span = 2 then 16 else if span = 3 then 128 else 3072

/-- The members sorted by HID: ranks follow (R332). -/
def insertMember (m : Member) (l : List Member) : List Member :=
  match l with
  | [] => [m]
  | x :: rest => if m.hid ≤ x.hid then m :: x :: rest else x :: insertMember m rest

/-- Instances of SPAN tried in turn from the one that holds start; slots within the first one from start on. -/
def tryInstances (s : State) (harts lcs size start : Nat) (held : List Member) (k fuel : Nat) : Option (List Member) :=
  match fuel with
  | 0 => none
  | f + 1 =>
    let inst := (start / size + k) % (3072 / size)
    let first := if k = 0 then start % size else 0
    let cands := (List.range size).map fun i => inst * size + (first + i) % size
    match takeSlots s lcs cands harts held [] with
    | some l => some l
    | none => tryInstances s harts lcs size start held (k + 1) f

def placeTeam (s : State) (w : Word) (start : Nat) : Option (List Member) :=
  let size := spanSlots (pktSpan w)
  (tryInstances s (pktHarts w) (pktLcs w) size start (reserved s) 0 (3072 / size)).map
    fun l => l.foldr insertMember []

/-- Harts that a core in service can hold with LCS lane clusters each. -/
def coreRoom (s : State) (lcs core : Nat) : Nat :=
  if coreRetired s core then 0
  else if lcs = 0 then 4
  else min 4 ((4 - laneCount (coreAt s core).retired) / lcs)

/-- No instance of SPAN could ever hold the team (R330, step 4). -/
def neverFits (s : State) (w : Word) : Bool :=
  let cores := spanSlots (pktSpan w) / 4
  (List.range (768 / cores)).all fun i =>
    decide (((List.range cores).foldl (fun n c => n + coreRoom s (pktLcs w) (i * cores + c)) 0) < pktHarts w)

/-! ### Choosing and dispatching (R329 to R332) -/

structure Candidate where
  qi : Nat
  p : Packet
  cls : Nat
deriving DecidableEq, Repr

/-- The ready packets of a queue, in slot order; an NDEP = 0 packet only when no earlier one waits (R330). -/
def readyOf (s : State) (qi : Nat) : List Candidate :=
  let x := queueAt s qi
  if x.en && !x.fault && !x.waking then
    (x.waiting.filter fun p =>
      (pktNdep (pktWord p) != 0 || !(x.waiting.any fun y => pktNdep (pktWord y) == 0 && decide (y.slot < p.slot))) &&
      (depWords s qi p).all (fun w => w.any fun v => pktState v == 4)).map fun p =>
        ⟨qi, p, min (pktPrio (pktWord p)) x.priocap.toNat⟩
  else []

/-- Queues in round-robin order after the one served last within a class. -/
def roundRobin (s : State) (cls : Nat) : List Nat :=
  let ks := s.queues.map (·.1)
  let last := s.rrQueue[cls]?.getD 0
  ks.filter (last < ·) ++ ks.filter (· ≤ last)

/-- Passed over for lack of room for 1 ms (R330, step 3). -/
def overdue (s : State) (c : Candidate) : Bool := c.p.passed.any fun t => decide (t + 1000000 ≤ s.pt)

/-- The highest class with a ready packet that is overdue, whether or not its queue would offer it now (R330, step 3). -/
def overdueClass (s : State) : Option Nat :=
  let all := s.queues.flatMap fun x => readyOf s x.1
  [3, 2, 1, 0].find? fun c => all.any fun x => x.cls == c && overdue s x

/-- Of each queue in turn the lowest slot of a class that it has to offer (R330, step 2); only: overdue ones. -/
def offers (s : State) (only : Bool) (cls : Nat) : List Candidate :=
  (roundRobin s cls).filterMap fun qi => (readyOf s qi).find? fun x => x.cls == cls && (!only || overdue s x)

/-- The packets that may be dispatched now, in their order: class by class, and nothing that an overdue packet of its class or a
higher one holds back (R330). -/
def inOrder (s : State) : List Candidate :=
  match overdueClass s with
  | none => [3, 2, 1, 0].flatMap (offers s false)
  | some b => ([3, 2, 1].filter (b < ·)).flatMap (offers s false) ++ offers s true b

/-- The first free team number (R332). -/
def freeTeam (s : State) : Option Nat := (List.range 4096).find? fun t => !(teamAt s t).active

/-- VIAs of the pages of a buffer (R327). -/
def bufPages (b : Word) : List Nat := (List.range (field b 48 14 + 1)).map fun k => (field b 19 29 + k) * 2 ^ 19

def pktBufs (p : Packet) : List Word := (List.range (pktNbuf (pktWord p))).map (pktBuf p)

/-- A page of a packet's buffers is not mapped by stage 2 (R332, step 2). -/
def bufferUnmapped (s : State) (vi : Nat) (p : Packet) : Bool :=
  (pktBufs p).any fun b => (bufPages b).any fun via => (stageTwo s vi via).isNone

/-- The cached lines of a packet's buffers written back, and discarded or kept clean, where a bit of MODE asks for it
(R327, R328): bit 0 before its harts run, bit 1 after they have halted. -/
def sweepBuffers (s : State) (vi : Nat) (p : Packet) (after : Bool) : State :=
  if (heldLines s.mem).isEmpty then s
  else
    let pages := ((pktBufs p).filter fun b => bit b (if after then 63 else 62)).flatMap bufPages
    pages.foldl (fun s via => match stageTwo s vi via with
      | some x => { s with mem := sweepLines s.mem x.pa (2 ^ 19) (!after) }
      | none => s) s

/-- The dies of a team in ascending order. -/
def teamDies (l : List Member) : List Nat := (List.range 24).filter fun d => l.any fun m => dieOf m.hid == d

/-- The ranges of a generation when it is fixed (R292). -/
def fixGen (num lo count : Nat) (dies : List Nat) : FarmGen where
  num := num
  shares := (dies.zip (List.range dies.length)).map fun x =>
    ⟨x.1, lo + x.2 * count / dies.length, lo + (x.2 + 1) * count / dies.length⟩

/-- The count of a range cut so that no index is 2^64 − 1 (R279). -/
def cutCount (lo n : Word) : Nat := min n.toNat (2 ^ 64 - 1 - lo.toNat)

/-- The CAS from PENDING to DISPATCHED made, and the team formed or the packet failed (R331, R332). -/
def formTeam (s : State) (c : Candidate) (t : Nat) (members : List Member) : State :=
  let vi := c.qi / 64
  match schedRead s vi (c.p.via + 8) with
  | none => queueFault s c.qi
  | some cur =>
    if cur ≠ pktWord c.p || pktState cur ≠ 1 then recheckPacket s c.qi c.p
    else
      let word := putField cur 0 4 2
      match schedWrite s vi (c.p.via + 8) word with
      | none => queueFault s c.qi
      | some s =>
        let p := { c.p with words := c.p.words.set 1 word }
        let s := { s with rrQueue := s.rrQueue.setIfInBounds c.cls c.qi }
        if bufferUnmapped s vi p then failPacket s c.qi p 5
        else
          let s := sweepBuffers s vi p false
          let x := queueAt s c.qi
          let s := setQueue s c.qi { x with waiting := x.waiting.filter (·.slot != p.slot) }
          let lo := p.words[4]?.getD 0
          let n := p.words[5]?.getD 0
          let gens := if n = 0 then [] else [fixGen 1 lo.toNat (cutCount lo n) (teamDies members)]
          setTeam s t ⟨true, vi, c.qi, false, p, members, gens, x.roott, x.wins, x.eptt, x.sinkt, x.savet⟩

/-- Candidates in order: the first whose team fits is dispatched, those before it are noted as passed over. -/
def dispatchFrom (s : State) (start t : Nat) (l : List Candidate) : State :=
  match l with
  | [] => s
  | c :: rest =>
    if neverFits s (pktWord c.p) then failPacket s c.qi c.p 4
    else
      match placeTeam s (pktWord c.p) start with
      | some members => formTeam s c t members
      | none =>
        let x := queueAt s c.qi
        let s := setQueue s c.qi { x with waiting := x.waiting.map fun p =>
          if p.slot = c.p.slot && p.passed.isNone then { p with passed := some s.pt } else p }
        dispatchFrom s start t rest

/-- PACKET_DISPATCH (R330 to R332): start is the HID from which slots are looked for (log 18). -/
def execPacketDispatch (start : Nat) (s : State) : Result :=
  if schedulerUp s then
    match freeTeam s with
    | some t => .next (dispatchFrom s start t (inOrder s))
    | none => .next s
  else .next s

/-! ### Launch (R11, R276, R332, R336) -/

/-- The state of R11 with the template's fields (R332), written by the leaf controller. -/
def launchState (h : Hart) (x : TeamSt) (t rank : Nat) (m : Member) : Hart :=
  let saveptr := if x.savet = 0 then h.saveptr else x.savet &&& ~~~0xFFF#64
  let regs := ((Vector.replicate 64 (0 : Word)).setIfInBounds 1 (x.packet.words[3]?.getD 0)).setIfInBounds 2 (BitVec.ofNat 64 rank)
  { h with
    pc := pktEntry x.packet
    sregs := regs.setIfInBounds 3 (BitVec.ofNat 64 (pktHarts (pktWord x.packet)))
    vl := 0, vstart := 0, rstate := 0, kprog := 0, vxsr := 0, rows := 1, shape := false, rct := true, ict := true
    vstate := if m.own = 0 then .absent else .present
    tags := Vector.replicate 32 0, masks := Vector.replicate 16 0
    queue := [], rq := [], rqHeld := [], conv := none, pending := []
    lq0 := 0, lq1 := 0
    emitseq := 0, bypth := 262144, trapCount := 0, dirty := 0
    own := m.own
    root := x.root, windows := x.wins, newWindows := none, newRoot := none, ept := x.ept
    trapsink := if x.sinkt = 0 then h.trapsink else x.sinkt &&& ~~~7#64
    saveptr := saveptr
    lastArea := some saveptr
    vi := x.vi, team := some t, rank := rank
    farmGen := if x.packet.words[5]?.getD 0 = 0 then 0 else 1 }

/-- A hart of a rank may have a HID: ranks ascend with the HIDs of the harts placed already (R332). -/
def rankFits (members : List Member) (rank hid : Nat) : Bool :=
  members.zipIdx.all fun x => !x.1.launched || x.2 == rank || (if x.2 < rank then decide (x.1.hid < hid) else decide (hid < x.1.hid))

/-- Where the leaf controller can place the hart of a rank now (R276): in the slot reserved for it, or in the lowest other of its
cluster, of its core where the team is to share one (R326), be it one that is reserved for a hart of the team not placed yet. -/
def placeFor (s : State) (x : TeamSt) (rank : Nat) (m : Member) : Option Member :=
  if slotFree s m.hid && ownedOnCore s (coreOf m.hid) m.hid &&& m.own = 0 && rankFits x.members rank m.hid then some m
  else
    let w := pktWord x.packet
    let cands := if pktSpan w = 1 then (List.range 4).map (4 * coreOf m.hid + ·) else (List.range 16).map (16 * clusterOf m.hid + ·)
    let held := (reserved s).filter fun y => !x.members.any fun z => z.hid == y.hid && clusterOf z.hid == clusterOf m.hid
    (takeSlots s (pktLcs w) (cands.filter (rankFits x.members rank)) 1 held []).bind List.head?

/-- The members once the hart of a rank is placed: a hart whose reservation it took has the one that it leaves. -/
def placeMember (members : List Member) (rank : Nat) (m n : Member) : List Member :=
  members.zipIdx.map fun x =>
    if x.2 = rank then { n with launched := true }
    else if x.1.hid = n.hid && !x.1.launched then { x.1 with hid := m.hid, own := m.own } else x.1

/-- A hart placed, when a slot and lane clusters are free (R276); else it is held back. -/
def launchHart (s : State) (t rank : Nat) (m : Member) : State :=
  let x := teamAt s t
  match placeFor s x rank m with
  | some n =>
    let s := setTeam s t { x with members := placeMember x.members rank m n }
    startHart (setHart s n.hid (launchState (hartAt s n.hid) x t rank n)) n.hid
  | none => s

/-- Every hart of a team on a cluster that is not placed yet is tried. -/
def placeHarts (s : State) (t cl : Nat) : State :=
  (List.range (teamAt s t).members.length).foldl (fun s rank =>
    match (teamAt s t).members[rank]? with
    | some m => if clusterOf m.hid = cl && !m.launched && !m.ended then launchHart s t rank m else s
    | none => s) s

def unplaced (s : State) (t cl : Nat) : Bool :=
  (teamAt s t).members.any fun m => clusterOf m.hid == cl && !m.launched && !m.ended

/-- The leaf controller notes which teams it still holds back. -/
def noteHeld (s : State) (t cl : Nat) : State :=
  let c := clusterAt s cl
  setCluster s cl { c with held := (c.held.filter (· != t)) ++ (if unplaced s t cl then [t] else []) }

/-- A leaf controller carries out the commands on its link that it has not yet carried out (R337): a number that it knows
already it discards. -/
def carryOut (s : State) (cl : Nat) : State :=
  let c := clusterAt s cl
  if c.running then
    c.unacked.foldl (fun s m =>
      let c := clusterAt s cl
      if m.num ≤ c.carried then s
      else noteHeld (placeHarts (setCluster s cl { c with carried := m.num }) m.team cl) m.team cl) s
  else s

/-- LAUNCH_COMMAND (R276, R336): a command takes a permit; a leaf controller that already holds the team tries again. -/
def execLaunchCommand (team cluster : Nat) (s : State) : Result :=
  let c := clusterAt s cluster
  if !(teamAt s team).active || !unplaced s team cluster then .next s
  else if c.held.contains team then .next (if c.running then noteHeld (placeHarts s team cluster) team cluster else s)
  else if c.cmdPermits = 0 || !schedulerUp s || c.unacked.any (fun m => m.team == team && decide (c.carried < m.num)) then .next s
  else
    let s := setCluster s cluster { c with
      cmdPermits := c.cmdPermits - 1, unacked := c.unacked ++ [⟨c.nextCmd, team⟩], nextCmd := c.nextCmd + 1 }
    .next (carryOut s cluster)

/-- LEAF_REPORT (R336): one halt or end is reported; it takes a permit. -/
def execLeafReport (cluster : Nat) (s : State) : Result :=
  let c := clusterAt s cluster
  match c.reports with
  | [] => .next s
  | _ :: rest =>
    if c.repPermits = 0 || !c.running then .next s
    else .next (setCluster s cluster { c with reports := rest, repPermits := c.repPermits - 1, unackedReports := c.unackedReports + 1 })

/-- COMMAND_LINK_ACKNOWLEDGE (R336): a permit returns, of commands (down) or of reports. -/
def execCommandLinkAcknowledge (cluster : Nat) (down : Bool) (s : State) : Result :=
  let c := clusterAt s cluster
  if down then
    match c.unacked with
    | [] => .next s
    | m :: rest => if c.carried < m.num then .next s else .next (setCluster s cluster { c with unacked := rest, cmdPermits := min 16 (c.cmdPermits + 1) })
  else if c.unackedReports = 0 then .next s
  else .next (setCluster s cluster { c with unackedReports := c.unackedReports - 1, repPermits := min 16 (c.repPermits + 1) })

/-! ### Completion (R334, R335) -/

/-- Every hart of a team has ended and has been reported. -/
def teamEnded (s : State) (x : TeamSt) : Bool :=
  x.members.all fun m => m.ended && !((clusterAt s (clusterOf m.hid)).reports.contains m.hid)

/-- The final state word (R334). -/
def finalWord (x : TeamSt) : Word :=
  let w := pktWord x.packet
  if x.members.all (·.halted) then putField w 0 4 4 else failedWord w 3

/-- PACKET_COMPLETE (R334, R335, R375). -/
def execPacketComplete (team : Nat) (s : State) : Result :=
  let x := teamAt s team
  if x.active && schedulerUp s && teamEnded s x then
    let s := setTeam (sweepBuffers s x.vi x.packet true) team TeamSt.free
    match schedWrite s x.vi (x.packet.via + 8) (finalWord x) with
    | none => .next (queueFault s x.queue)
    | some s => .next (fireQueue (if x.ringGone then s else finishSlot s x.queue x.packet.slot) x.queue)
  else .next s

/-! ### The team page: the steal table of the latest generation (R293; log 17) -/

def latestGen (x : TeamSt) : Option FarmGen :=
  x.gens.foldl (fun b g => match b with
    | none => some g
    | some h => if h.num < g.num then some g else b) none

def teamDw (s : State) (t off : Nat) : Word :=
  match latestGen (teamAt s t) with
  | none => 0
  | some g =>
    match g.shares[off / 32]? with
    | none => 0
    | some x =>
      if off % 32 = 0 then BitVec.ofNat 64 x.die
      else if off % 32 = 8 then BitVec.ofNat 64 x.next
      else if off % 32 = 16 then BitVec.ofNat 64 x.stop
      else BitVec.ofNat 64 g.num

/-! ### The VI page (R308 to R310) -/

def rangeDw (r : RangeReg) (dw : Nat) : Word :=
  if dw = 0 then BitVec.ofNat 64 (r.vbase / 2 ^ 19 * 2 ^ 19)
  else if dw = 1 then BitVec.ofNat 64 (r.vlast / 2 ^ 19 * 2 ^ 19)
  else if dw = 2 then BitVec.ofNat 64 (r.pbase / 2 ^ 19 * 2 ^ 19)
  else BitVec.ofNat 64 (r.key.toNat * 256 + r.kind.toNat)

def viDw (s : State) (vi off : Nat) : Word :=
  if off = 0 then BitVec.ofNat 64 vi
  else if off = 0x10 then (if vi = 0 then 0 else (viAt s vi).rangegen)
  else if 0x100 ≤ off && off < 0x300 then rangeDw (rangeReg s vi ((off - 0x100) / 32)) ((off - 0x100) % 32 / 8)
  else 0

/-- The region of a kind, first and last address, the same in VIA and PA but for the HBM's end (R307, R310). -/
def kindRegion (kind : Nat) (pa : Bool) : Nat × Nat :=
  if kind = 1 then (0, if pa then Config.hbmBytes - 1 else Config.hostBase - 1)
  else if kind = 2 then (Config.hostBase, Config.ctlBase - 1)
  else (Config.ctlBase, 2 ^ 48 - 1)

/-- The conditions of R310 for a register to be made live. -/
def rangeOk (s : State) (vi n : Nat) (r : RangeReg) : Bool :=
  let v := kindRegion r.kind.toNat false
  let p := kindRegion r.kind.toNat true
  decide (r.vbase ≤ r.vlast) && decide (v.1 ≤ r.vbase) && decide (r.vlast + 2 ^ 19 ≤ v.2 + 1) &&
    decide (p.1 ≤ r.pbase + (r.vlast - r.vbase)) && decide (r.pbase + (r.vlast - r.vbase) + 2 ^ 19 ≤ p.2 + 1) &&
    ((List.range 16).all fun i =>
      let x := rangeReg s vi i
      i == n || x.kind == 0 || decide (r.vlast < x.vbase) || decide (x.vlast < r.vbase)) &&
    (r.key == 0 || (r.kind == 1 && (keyAt s r.key.toNat).state == 1))

/-- Stores to the page of VI v by a hart of VI v or through its function are ignored, and VI 0's registers are fixed (R310). -/
def ownViPage (s : State) (ag : Agent) (vi : Nat) : Bool :=
  match ag with
  | .hart k => (hartAt s k).vi == vi
  | .host v => v == vi
  | .firmware => false

/-- A store to a doubleword of a range register (R309, R310). -/
def storeRange (s : State) (ag : Agent) (vi n dw : Nat) (v : Word) : State :=
  if ownViPage s ag vi || vi = 0 then s
  else
    let x := viAt s vi
    let r := x.ranges[n]?.getD RangeReg.reset
    let put (r : RangeReg) : State := setVi s vi { x with ranges := x.ranges.setIfInBounds n r }
    let page := field v 19 29 * 2 ^ 19
    if dw = 3 then
      let kind := BitVec.ofNat 2 (field v 0 2)
      if kind = 0 then put { r with key := BitVec.ofNat 8 (field v 8 8), kind := 0 }
      else if r.kind ≠ 0 then s
      else
        let r' := { r with key := BitVec.ofNat 8 (field v 8 8), kind := kind }
        if rangeOk s vi n r' then
          setVi s vi { ranges := x.ranges.setIfInBounds n r', rangegen := x.rangegen + 1 }
        else s
    else if r.kind ≠ 0 then s
    else if dw = 0 then put { r with vbase := page }
    else if dw = 1 then put { r with vlast := page }
    else put { r with pbase := page }

/-- TSHOOT (R304, R308, R310). -/
def storeTshoot (s : State) (ag : Agent) (vi : Nat) : State := if ownViPage s ag vi then s else dropVi s vi

def storeViPage (s : State) (ag : Agent) (vi off : Nat) (v : Word) : State :=
  if off = 0x8 then storeTshoot s ag vi
  else if 0x100 ≤ off && off < 0x300 then storeRange s ag vi ((off - 0x100) / 32) ((off - 0x100) % 32 / 8) v
  else s

def execTshoot (ag : Agent) (vi : Nat) (s : State) : Result := .next (storeTshoot s ag vi)
def execRangeRegisterWrite (ag : Agent) (vi n dw : Nat) (v : Word) (s : State) : Result := .next (storeRange s ag vi n dw v)

/-- TRANSLATION_DROPPED (R304): a cached translation may be dropped, and an entry walked and cached, at any time. -/
def execTranslationDropped (x : XlatChange) (s : State) : Result :=
  match x with
  | .drop n => .next { s with tlb := s.tlb.eraseIdx n }
  | .walk hid va => .next (walkAgain s hid va)

end Sys2Proof.Machine
end

