-- ==== Sys2Proof/Machine/Power.lean ====
section
/-! DEFINITION. Package time (R339), the anneal calendar (R340 to R346), tokens and ingots (R347 to R350), the
element-progress timers that time advances (R247), and the control flits of a link (R350, R382, R386). -/

namespace Sys2Proof.Machine

/-! ### The calendar page (R340, R341) -/

def kindBit (k : Nat) : Nat := 2 ^ k

def slotDw (x : Slot) : Word :=
  BitVec.ofNat 64 (x.hubs.toNat * 2 ^ 60 + x.dies.toNat * 2 ^ 36 + kindBit x.kind * 2 ^ 32 + x.dur)

def calendarDw (s : State) (off : Nat) : Word :=
  let c := s.calendar
  if off = 0 then BitVec.ofNat 64 c.gen
  else if off = 0x8 then BitVec.ofNat 64 s.pt
  else if off = 0x10 then BitVec.ofNat 64 c.event
  else if off = 0x18 then BitVec.ofNat 64 (c.lastOver * 2 ^ 32 + c.lastKind)
  else if off = 0x20 then BitVec.ofNat 64 c.lastStart
  else if off = 0x28 then BitVec.ofNat 64 c.shift
  else if 0x100 ≤ off && off < 0x1100 then
    match c.slots[(off - 0x100) / 16]? with
    | some x => if off % 16 = 0 then BitVec.ofNat 64 x.start else slotDw x
    | none => if off % 16 = 0 then allOnes64 else 0
  else 0

def slotEnd (x : Slot) : Nat := x.start + x.dur

/-- A slot inserted in ascending order of START, then of KIND bit. -/
def insertSlot (x : Slot) (l : List Slot) : List Slot :=
  match l with
  | [] => [x]
  | y :: rest => if x.start < y.start || (x.start = y.start && x.kind < y.kind) then x :: y :: rest else y :: insertSlot x rest

/-- Entries of the list (R340). -/
def listRoom : Nat := 256
def refreshEvery : Nat := 3900
/-- ns before its start by which a slot is listed (R341). -/
def listAhead : Nat := 800000

/-- Duration of a kind, and its nominal interval (R342). -/
def kindDur (k : Nat) : Nat := if k = 0 then 280 else if k = 1 then 2000 else if k = 2 then 1000 else 100
def kindEvery (k : Nat) : Nat := if k = 1 then 64000000 else if k = 2 then 128000000 else 500000

/-- Duration and scope of the kinds that are placed between refresh slots (R342). -/
def shapeLegal (x : Slot) : Bool :=
  1 ≤ x.kind && decide (x.kind < 4) && x.dur == kindDur x.kind &&
    (if x.kind = 3 then x.dies == BitVec.allOnes 24 && x.hubs == 15
     else if x.kind = 1 then x.dies == BitVec.allOnes 24 else true)

/-- Inside a gap between refresh slots, at least 150 ns from either, and clear of every other listed slot (R342). -/
def gapLegal (l : List Slot) (x : Slot) : Bool :=
  (l.any fun y => y.kind == 0 && decide (slotEnd x + 150 ≤ y.start)) &&
    l.all fun y => if y.kind = 0 then decide (slotEnd y + 150 ≤ x.start ∨ slotEnd x + 150 ≤ y.start)
      else decide (slotEnd y ≤ x.start ∨ slotEnd x ≤ y.start)

/-- Within one refresh interval of its nominal time, once a slot of the kind has been listed (R342). -/
def nominalLegal (c : Calendar) (x : Slot) : Bool :=
  match fmFind c.nominal x.kind with
  | some t => decide (t ≤ x.start + refreshEvery ∧ x.start ≤ t + refreshEvery)
  | none => true

/-- A slot of firmware's choice may be listed now (R341, R342): in time, but for the first publication after a boot. -/
def slotLegal (c : Calendar) (pt : Nat) (x : Slot) : Bool :=
  shapeLegal x && gapLegal c.slots x && nominalLegal c x && decide (pt < x.start) &&
    (decide (c.gen ≤ 1) || decide (pt + listAhead ≤ x.start))

/-- The next nominal time of a kind of which a slot is listed. -/
def nextNominal (c : Calendar) (x : Slot) : FMap Nat := fmSet c.nominal x.kind ((fmFind c.nominal x.kind).getD x.start + kindEvery x.kind)

/-- Slots of firmware's choice listed, while the list has room. -/
def listSlots (c : Calendar) (pt : Nat) (l : List Slot) : Calendar :=
  match l with
  | [] => c
  | x :: rest =>
    if slotLegal c pt x && decide (c.slots.length < listRoom) then
      listSlots { c with slots := insertSlot x c.slots, nominal := nextNominal c x } pt rest
    else listSlots c pt rest

/-- Refresh slots appended, each 3,900 ns after the one before (R342), until the list holds n. first: where the schedule
begins, when none has been listed. -/
def listRefresh (c : Calendar) (first n fuel : Nat) : Calendar :=
  match fuel with
  | 0 => c
  | k + 1 =>
    if n ≤ c.slots.length then c
    else
      let start := match c.lastRefresh with
        | some t => t + refreshEvery
        | none => first
      listRefresh { c with
        slots := insertSlot ⟨start, kindDur 0, 0, BitVec.allOnes 24, 15⟩ c.slots, lastRefresh := some start } first n k

/-- Firmware lists a slot of its choice at the last when its nominal time lies this near (R341, R342). -/
def listLatest : Nat := listAhead + 3 * refreshEvery

/-- The slot of a kind that firmware lists of itself when no other has been listed in time: in the first gap that takes it; which
hubs and dies it names is open (R342; log 10). -/
def ownSlot (c : Calendar) (pt k : Nat) : Option Slot :=
  match fmFind c.nominal k with
  | none => none
  | some t =>
    if pt + listLatest < t then none
    else (c.slots.map fun y => slotEnd y + if y.kind = 0 then 150 else 0).findSome? fun a =>
      let scope := Config.slotScope k a
      let x : Slot := ⟨a, kindDur k, k, if k = 2 then scope.setWidth 24 else BitVec.allOnes 24,
        if k = 3 then 15 else scope.extractLsb' 24 4⟩
      if slotLegal c pt x then some x else none

/-- Nominal times that have passed with no slot give way to the next (R342). -/
def dropMissed (c : Calendar) (pt : Nat) : Calendar :=
  { c with nominal := c.nominal.map fun y =>
      if y.2 + refreshEvery < pt + (if c.gen ≤ 1 then 0 else listAhead) then (y.1, y.2 + kindEvery y.1) else y }

/-- The slots that firmware lists of itself. -/
def ownSlots (c : Calendar) (pt : Nat) : Calendar :=
  [1, 2, 3].foldl (fun c k => match ownSlot c pt k with
    | some x => listSlots c pt [x]
    | none => c) (dropMissed c pt)

/-- The first refresh slot after a boot that lies ahead (R342). -/
def firstRefresh (s : State) : Nat :=
  let p := Config.refreshPhase s.hallmark.boots % (refreshEvery + 1)
  if s.pt ≤ p then p else p + (s.pt - p + refreshEvery - 1) / refreshEvery * refreshEvery

/-- The list brought up to date (R341): slots that have ended dropped, new ones listed, 256 in all. A slot that is still open
stays, and so does every one that it keeps from starting (R346). -/
def updateList (s : State) (add : List Slot) : Calendar :=
  let c := s.calendar
  let c := { c with slots := c.slots.filter fun x => decide (s.pt < slotEnd x) || c.current.any fun y => decide (y.start ≤ x.start) }
  let c := listRefresh c (firstRefresh s) (listRoom - min (add.length + 3) listRoom) (listRoom + 1)
  listRefresh (ownSlots (listSlots c s.pt add) s.pt) (firstRefresh s) listRoom (listRoom + 1)

/-- Firmware begins a rewrite of the list: GEN is odd (R340). -/
def beginRewrite (s : State) (r : Rewrite) : State :=
  { s with calendar := { s.calendar with gen := s.calendar.gen + 1, rewrite := some r } }

/-- An overrun (R346): every later slot moves, SHIFT, LASTEV, LASTSTART and EVENT follow, and the event is logged. -/
def overrun (s : State) (x : Slot) (late : Nat) : State :=
  let c := s.calendar
  let moved := c.slots.map fun y => if x.start < y.start then { y with start := y.start + late } else y
  let s := { s with calendar := { c with
    slots := moved, lastRefresh := c.lastRefresh.map (· + late), nominal := c.nominal.map fun y => (y.1, y.2 + late)
    shift := c.shift + late, lastOver := late, lastKind := kindBit x.kind, lastStart := x.start
    event := c.event + 1 } }
  logError s 8 0 1 0 0 0 0 (BitVec.ofNat 64 late)

/-- The rewrite that firmware has begun is complete: GEN is even (R340). -/
def endRewrite (s : State) : State :=
  match s.calendar.rewrite with
  | none => s
  | some r =>
    let s := match r.overrun with
      | some x => overrun s x.1 x.2
      | none => { s with calendar := updateList s r.add }
    { s with calendar := { s.calendar with gen := s.calendar.gen + 1, rewrite := none } }

/-- A whole publication (R341). -/
def publish (s : State) (add : List Slot) : State := endRewrite (beginRewrite (endRewrite s) ⟨add, none⟩)

/-- CALENDAR_PUBLISH (R340, R341): firmware begins a rewrite, and completes one that it has begun. -/
def execCalendarPublish (add : List Slot) (s : State) : Result :=
  match s.calendar.rewrite with
  | none => .next (beginRewrite s ⟨add, none⟩)
  | some r =>
    .next (endRewrite { s with calendar := { s.calendar with rewrite := some { r with add := r.add ++ add } } })

/-- The links of hubs. -/
def linksOf (hubs : BitVec 4) : List Nat := (List.range 36).filter fun l => hubs.getLsbD (l / 9)

/-- A slot opens (R343): no page is moved inside it (R317), and in a link-retrain slot the dead links of the named hubs retrain
(R386). -/
def openSlot (s : State) (x : Slot) : State :=
  let s := endMigration s
  let s := { s with calendar := { s.calendar with current := some x, extra := 0 } }
  if x.kind = 1 then (linksOf x.hubs).foldl retrainLink s else s

/-- A blocked window of some dies has ended (R344). -/
def noteBlocked (c : Calendar) (x : Slot) (pt : Nat) : FMap Nat :=
  ((List.range 24).filter (blocksDie x)).foldl (fun m d => fmSet m d (pt + 1)) c.blockEnd

/-- The open slot closes: what it stalled goes on, and if it ran past its published end, that is an overrun (R346). -/
def closeSlot (s : State) (x : Slot) : State :=
  let s := { s with calendar := { s.calendar with current := none, extra := 0, blockEnd := noteBlocked s.calendar x s.pt } }
  let s := if x.kind = 1 then (linksOf x.hubs).foldl endRetrain s else s
  if s.pt ≤ slotEnd x then s else beginRewrite (endRewrite s) ⟨[], some (x, s.pt - slotEnd x)⟩

/-- The slot that is due; none while an overrun has still to move the slots after it (R346). -/
def dueSlot (s : State) : Option Slot :=
  if s.calendar.rewrite.any (·.overrun.isSome) then none
  else s.calendar.slots.find? fun x => decide (x.start ≤ s.pt) && decide (s.pt < slotEnd x)

/-- ANNEAL_SLOT_START (R343): a slot that is due opens. -/
def execAnnealSlotStart (s : State) : Result :=
  match s.calendar.current, dueSlot s with
  | none, some x => .next (openSlot s x)
  | _, _ => .next s

/-- ANNEAL_SLOT_END (R343, R346): the housekeeping of the open slot is to run late ns past its published end, or, where that
time has come, has now finished. -/
def execAnnealSlotEnd (late : Nat) (s : State) : Result :=
  match s.calendar.current with
  | none => .next s
  | some x =>
    if s.pt < slotEnd x + late then .next { s with calendar := { s.calendar with extra := late } }
    else .next (if s.pt < slotEnd x then s else closeSlot s x)

/-- An anneal slot is in progress whose scope names a die. -/
def slotOn (s : State) (die : Nat) : Bool :=
  match s.calendar.current with
  | some x => x.dies.getLsbD die
  | none => false

def inSweep (s : State) : Bool :=
  match s.calendar.current with
  | some x => x.kind == 3
  | none => false

/-! ### Tokens (R348) -/

/-- REFILL from the allowance. -/
def refillOf (p : Power) : Nat := (p.granted + p.borrowed - p.lent - p.fixed.toNat) * 108 / 192

/-- Changes of ALLOW take effect at a refill, but not inside a sensor sweep (R350). -/
def adopt (s : State) : State :=
  if inSweep s then s
  else
    let p := s.power
    let p := { p with granted := p.nextGranted, borrowed := p.nextBorrowed, lent := p.nextLent }
    { s with power := { p with refill := refillOf p } }

/-- A cluster's balance refilled; a SETVL that waits on it is woken when it is no longer negative. -/
def refillCluster (s : State) (cl : Nat) : State :=
  let c := clusterAt s cl
  let bal := min (s.power.cap.toNat : Int) (c.bal + s.power.refill)
  let s := setCluster s cl { c with bal := bal }
  if bal < 0 then s else (List.range 4).foldl (fun s i => wakeCore s (4 * cl + i)) s

def refillAll (s : State) : State := (List.range Config.clusters).foldl refillCluster (adopt s)

/-! ### Loans (R210, R211, R348) -/

/-- Tokens taken from a cluster. -/
def debit (s : State) (cl n : Nat) : State :=
  let c := clusterAt s cl
  setCluster s cl { c with bal := c.bal - n }

/-- A negative balance ends every loan in the cluster (R210). -/
def endOverdrawn (s : State) (cl : Nat) : State :=
  if 0 ≤ (clusterAt s cl).bal then s
  else (List.range 4).foldl (fun s i =>
    let k := coreAt s (4 * cl + i)
    if k.loans.isEmpty then s else setCore s (4 * cl + i) { k with loans := [] }) s

/-- A loan of a core pays for the µs that has passed: 1 token (R211, R348). -/
def payLoan (core : Nat) (s : State) (l : Loan) : State :=
  let c := coreAt s core
  if c.loans.contains l && decide (l.since + 1000 ≤ s.pt) then
    let s := setCore s core { c with loans := c.loans.map fun x => if x == l then { x with since := x.since + 1000 } else x }
    endOverdrawn (debit s (core / 4) 1) (core / 4)
  else s

def payLoans (s : State) : State :=
  s.cores.foldl (fun s x => x.2.loans.foldl (payLoan x.1) s) s

/-! ### The standby scheduler (R337) -/

/-- The standby takes over: dispatch goes on, and every unacknowledged command is sent again. -/
def takeOver (s : State) : State :=
  if s.takeover.isNone then s
  else
    let s := { s with takeover := none, schedRunning := true, standbyActive := true }
    (s.clusters.map (·.1)).foldl carryOut s

/-! ### Time (R247, R339) -/

def clockOf (s : State) (die : Nat) : Nat := fmGet s.power.clocks 210 die

/-- Core cycles of a die in n ns. -/
def cyclesOf (s : State) (die n : Nat) : Nat := n * clockOf s die / 100

/-- Lane clusters that the oldest word uses. -/
def oldestClusters (h : Hart) : BitVec 4 :=
  match h.queue.find? fun e => !e.complete with
  | some e => clustersOf h e
  | none => 0

/-- The element-progress timer of a hart counts (R247): not while lane clusters that the oldest word uses are gated. -/
def timerCounts (s : State) (hid : Nat) : Bool :=
  let h := hartAt s hid
  issuing h && !slotOn s (dieOf hid) && (coreAt s (coreOf hid)).gated &&& oldestClusters h == 0

/-- A core has a thread that is ready: its hart is running, its generator has not stopped (R252, R253), and it does not wait (R195,
R372). -/
def coreBusy (s : State) (core : Nat) : Bool :=
  (List.range 4).any fun i =>
    let h := hartAt s (4 * core + i)
    running h && !h.genStopped && !h.stalled

/-- A core's count of cycles without a retired G-word, outside anneal slots (R372). -/
def countQuiet (n : Nat) (s : State) (core : Nat) : State :=
  let c := coreAt s core
  if coreBusy s core then
    if slotOn s (core / 32) then s else setCore s core { c with quiet := c.quiet + cyclesOf s (core / 32) n }
  else if c.quiet = 0 then s
  else setCore s core { c with quiet := 0 }

/-- Cores with a hart that the state holds. -/
def knownCores (s : State) : List Nat :=
  (s.harts.map fun x => coreOf x.1).foldl (fun l c => if l.contains c then l else c :: l) []

/-- n ns pass with nothing else in them: timers, and PT. -/
def passTime (s : State) (n : Nat) : State :=
  let s := (knownCores s).foldl (countQuiet n) s
  let harts := s.harts.map fun x =>
    if timerCounts s x.1 then (x.1, { x.2 with timer := x.2.timer + cyclesOf s (dieOf x.1) n }) else x
  let links := s.links.map fun x =>
    if x.2.state = 2 && !retraining s x.1 then (x.1, { x.2 with silent := x.2.silent + n }) else x
  { s with harts := harts, links := links, pt := s.pt + n }

/-- The leaf controllers of clusters add their counters to the hallmark record (R287). -/
def flushClusters (s : State) (l : List Nat) : State := l.foldl flushCluster s

/-- ns between the flushes of the leaf controllers (R287), and between refills (R348). -/
def flushEvery : Nat := 10000000000
def refillEvery : Nat := 10000
/-- ns within which write combining drains (R172). -/
def combineLimit : Nat := 2000

/-- ns that the move of a page takes at most (R317). -/
def migrationLimit : Nat := 60000

/-- Write combining that has held a store for 2 µs drains (R172). -/
def drainOld (s : State) (hid : Nat) : State :=
  if (hartAt s hid).wc.any fun w => decide (w.since + combineLimit ≤ s.pt) then drainWc s hid else s

/-- PT by which the next refresh slot must be listed (R341). -/
def publishBy (c : Calendar) : Option Nat := c.lastRefresh.map fun t => t + refreshEvery - listAhead

/-- The list is rewritten in time. -/
def keepList (s : State) : State :=
  match publishBy s.calendar with
  | some t => if t ≤ s.pt then publish s [] else s
  | none => s

/-- A slot that has run to its end closes, and one that is due opens. -/
def turnSlot (s : State) : State :=
  let s := match s.calendar.current with
    | some x => if slotEnd x + s.calendar.extra ≤ s.pt then closeSlot s x else s
    | none => s
  match s.calendar.current, dueSlot s with
  | none, some x => openSlot s x
  | _, _ => s

/-- What falls due when PT has come to a value. -/
def arrive (s : State) : State :=
  let s := turnSlot s
  let s := if s.pt % refillEvery = 0 then refillAll s else s
  let s := payLoans ((s.harts.map (·.1)).foldl drainOld s)
  let s := if s.pt % flushEvery = 0 then flushClusters s (List.range Config.clusters) else s
  let s := if s.takeover.any fun t => decide (t ≤ s.pt) then takeOver s else s
  let s := if s.migration.any fun m => decide (m.since + migrationLimit ≤ s.pt) then endMigration s else s
  keepList s

/-- The times at which something falls due. -/
def dueTimes (s : State) : List Nat :=
  let c := s.calendar
  [(s.pt / refillEvery + 1) * refillEvery, (s.pt / flushEvery + 1) * flushEvery] ++
    (match c.current with
     | some x => [slotEnd x + c.extra]
     | none => (c.slots.map (·.start))) ++
    (s.harts.flatMap fun x => x.2.wc.map fun w => w.since + combineLimit) ++
    (s.cores.flatMap fun x => x.2.loans.map fun l => l.since + 1000) ++
    s.takeover.toList ++ (s.migration.map fun m => m.since + migrationLimit).toList ++ (publishBy c).toList

/-- The next time, up to a limit, at which something falls due. -/
def nextDue (s : State) (limit : Nat) : Nat := ((dueTimes s).filter (s.pt < ·)).foldl min limit

/-- Time passes to a PT, and whatever falls due on the way happens at its time. A rewrite that firmware has begun is complete
before. -/
def elapseTo (s : State) (limit fuel : Nat) : State :=
  match fuel with
  | 0 => s
  | k + 1 =>
    let s := turnSlot (endRewrite s)
    if limit ≤ s.pt then s else elapseTo (arrive (passTime s (nextDue s limit - s.pt))) limit k

/-- n ns pass. -/
def elapse (s : State) (n : Nat) : State := elapseTo s (s.pt + n) (n + 1)

/-- TOKEN_REFILL (R348): time passes to the next refill boundary, and the refill is made. -/
def execTokenRefill (s : State) : Result := .next (elapse s (refillEvery - s.pt % refillEvery))

/-! ### The power page (R347) -/

def pwrctlDw (p : Power) : Word :=
  BitVec.ofNat 64 (p.cap.toNat * 2 ^ 24 + p.cost.toNat * 2 ^ 16 + p.lendmax.toNat * 2 ^ 8 + p.fixed.toNat)

def powerDw (s : State) (off : Nat) : Word :=
  let p := s.power
  if off = 0 then pwrctlDw p
  else if off = 0x8 then BitVec.ofNat 64 (p.lent * 2 ^ 32 + p.borrowed * 2 ^ 16 + p.granted)
  else if off = 0x10 then BitVec.ofNat 64 p.refill
  else if off = 0x18 then BitVec.ofNat 64 (p.clkdie.toNat * 256 + clockOf s p.clkdie.toNat % 256)
  else if 0x1000 ≤ off && off < 0x1600 then BitVec.ofInt 64 (clusterAt s ((off - 0x1000) / 8)).bal
  else 0

def storePwrctl (s : State) (v : Word) : State :=
  let cost := field v 16 8
  { s with power := { s.power with
    cap := BitVec.ofNat 16 (field v 24 16), cost := BitVec.ofNat 8 (if cost = 0 then 1 else cost)
    lendmax := BitVec.ofNat 8 (field v 8 8), fixed := BitVec.ofNat 8 (field v 0 8) } }

def storeClkdie (s : State) (v : Word) : State :=
  { s with power := { s.power with clkdie := BitVec.ofNat 5 (field v 8 5) } }

def storePower (s : State) (off : Nat) (v : Word) : State :=
  if off = 0 then storePwrctl s v else if off = 0x18 then storeClkdie s v else s

def execClkdieSelect (_ag : Agent) (v : Word) (s : State) : Result := .next (storeClkdie s v)

/-- RACK_COORDINATOR_GRANT (R347, R350): effective at a refill boundary. -/
def execRackCoordinatorGrant (n : Nat) (s : State) : Result :=
  .next { s with power := { s.power with nextGranted := min n 65535 } }

/-- THROTTLING (R349): the die's clock in units of 10 MHz, at most the nominal 210; it does not change in a sensor sweep. -/
def execThrottling (die clk : Nat) (s : State) : Result :=
  if inSweep s then .next s
  else .next { s with power := { s.power with clocks := fmSet s.power.clocks die (min clk 210) } }

/-- LOAN_DEBIT (R211, R348): time passes to the end of a loan's µs, and it is paid for. -/
def execLoanDebit (core lc : Nat) (s : State) : Result :=
  match (coreAt s core).loans.find? (·.lc == lc) with
  | some l => .next (elapse s (l.since + 1000 - s.pt))
  | none => .next s

/-! ### Ingots (R350) -/

/-- n ingots lent over a link. -/
def lend (s : State) (l n : Nat) : State :=
  let k := linkAt s l
  { setLink s l { k with lent := k.lent + n } with power := { s.power with nextLent := s.power.nextLent + n } }

/-- n ingots lent over a link come back. -/
def takeBack (s : State) (l n : Nat) : State :=
  let k := linkAt s l
  let n := min n k.lent
  { setLink s l { k with lent := k.lent - n } with power := { s.power with nextLent := s.power.nextLent - n } }

def borrow (s : State) (l n : Nat) : State :=
  let k := linkAt s l
  { setLink s l { k with borrowed := k.borrowed + n } with power := { s.power with nextBorrowed := s.power.nextBorrowed + n } }

/-- n borrowed ingots go back. -/
def payBack (s : State) (l n : Nat) : State :=
  let k := linkAt s l
  let n := min n k.borrowed
  sendOn { setLink s l { k with borrowed := k.borrowed - n } with
    power := { s.power with nextBorrowed := s.power.nextBorrowed - n } } l (.control (.giveBack n))

/-- ns between offers of ingots (R350). -/
def tradeEvery : Nat := 1000000

/-- The allowance A of R348. -/
def allowance (p : Power) : Nat := p.granted + p.borrowed - p.lent

/-- n ingots may be offered over a link now (R350): the neighbour asks for them, LENDMAX lets them go, the measured power lies
20 W below the allowance, and nothing has been offered on the link in this ms. -/
def mayOffer (s : State) (k : Link) (n : Nat) : Bool :=
  decide (0 < n ∧ n ≤ k.asked ∧ s.power.nextLent + n ≤ s.power.lendmax.toNat) &&
    decide (s.power.measured + 20 ≤ 10 * allowance s.power) && k.offered != some (s.pt / tradeEvery)

/-- A SETVL has waited on a refill in this ms (R350). -/
def setvlWaited (s : State) : Bool := s.clusters.any fun c => c.2.waited.any fun t => t / tradeEvery == s.pt / tradeEvery

/-- INGOT_TRADE (R350): this module offers what it may, asks after a SETVL has waited, recalls or gives back. -/
def execIngotTrade (link : Nat) (m : CtlMsg) (s : State) : Result :=
  let k := linkAt s link
  if k.state ≠ 2 then .next s
  else
    match m with
    | .offer n =>
      if mayOffer s k n then
        let s := setLink s link { k with asked := k.asked - n, offered := some (s.pt / tradeEvery) }
        .next (sendOn (lend s link n) link (.control (.offer n)))
      else .next s
    | .ask n => if setvlWaited s then .next (sendOn s link (.control (.ask n))) else .next s
    | .recall n => .next (sendOn s link (.control (.recall (min n k.lent))))
    | .giveBack n => .next (payBack s link n)
    | .trained | .heartbeat => .next s

/-- What a control flit does once delivered. -/
def takeControl (s : State) (l : Nat) (m : CtlMsg) : State :=
  match m with
  | .offer n => borrow s l n
  | .giveBack n => takeBack s l n
  | .recall n => payBack s l n
  | .ask n => setLink s l { linkAt s l with asked := (linkAt s l).asked + n }
  | .heartbeat | .trained => s

/-- FLIT_CONTROL (R350, R382): training completes a link that is down or training; on a link that is up the flit is
checked and acknowledged as any other. -/
def execFlitControl (l : Nat) (h : FlitHdr) (m : CtlMsg) (s : State) : Result :=
  if m = .trained && (linkAt s l).state ≠ 2 then .next (if h.ok then trainedLink s l h.src else s)
  else
    let r := receiveFlit s l h false
    if !r.2 then .next r.1
    else .next (keysRunOut (takeControl (acknowledge r.1 l h.seq false) l m) l)

end Sys2Proof.Machine
end

