-- ==== Sys2Proof/Machine/Trust.lean ====
section
/-! DEFINITION. Flacons, key slots and the security controller (R352 to R368): their pages and the commands that the
security controller carries out. The cryptographic values are uninterpreted (log 16). -/

namespace Sys2Proof.Machine

/-! ### The flacon page (R355) -/

/-- Cores in a flacon. -/
def ncores (s : State) (f : Nat) : Nat := ((List.range Config.cores).filter fun c => (coreAt s c).flid.toNat == f).length

def flctlDw (x : Flacon) : Word := BitVec.ofNat 64 (x.result.toNat * 256 + x.state.toNat)
def corecmdDw (x : Flacon) : Word := BitVec.ofNat 64 (x.coreResult.toNat * 2 ^ 24 + x.core.toNat)

def flaconDw (s : State) (f off : Nat) : Word :=
  let x := flaconAt s f
  if off = 0 then flctlDw x
  else if off = 0x8 then corecmdDw x
  else if off = 0x10 then x.measpa
  else if off = 0x18 then x.tagbase
  else if off = 0x20 then x.taglo
  else if off = 0x28 then x.taghi
  else if off = 0x30 then BitVec.ofNat 64 (ncores s f)
  else if 0x40 ≤ off && off < 0x80 then BitVec.ofNat 64 (bitsAt x.measure (8 * (off - 0x40)) 64)
  else 0

/-- A store to FLCTL (R356): ignored while a command is busy; CMD 1 to 4 goes to the security controller. -/
def storeFlctl (s : State) (f : Nat) (v : Word) : State :=
  let x := flaconAt s f
  let c := field v 4 4
  if x.result = 2 then s
  else if 1 ≤ c && c ≤ 4 then setFlacon s f { x with cmd := BitVec.ofNat 4 c, result := 2 }
  else setFlacon s f { x with cmd := 0, result := 6 }

/-- A store to CORECMD (R355). -/
def storeCorecmd (s : State) (f : Nat) (v : Word) : State :=
  let x := flaconAt s f
  let op := field v 12 2
  let core := field v 0 10
  if x.coreResult = 1 then s
  else
    let x := { x with core := BitVec.ofNat 10 core }
    if (op = 1 || op = 2) && decide (core < Config.cores) then
      setFlacon s f { x with coreOp := BitVec.ofNat 2 op, coreResult := 1 }
    else setFlacon s f { x with coreOp := 0, coreResult := 6 }

def storeFlaconPage (s : State) (f off : Nat) (v : Word) : State :=
  let x := flaconAt s f
  if off = 0 then storeFlctl s f v
  else if off = 0x8 then storeCorecmd s f v
  else if off = 0x10 then setFlacon s f { x with measpa := v &&& ~~~0x7FFFF#64 }
  else if x.state ≠ 1 then s
  else if off = 0x18 then setFlacon s f { x with tagbase := v &&& ~~~7#64 }
  else if off = 0x20 then setFlacon s f { x with taglo := v &&& ~~~0x3FFF#64 }
  else if off = 0x28 then setFlacon s f { x with taghi := v &&& ~~~0x3FFF#64 }
  else s

/-! ### Key slots (R357, R362) -/

def kctlDw (k : KeySlot) : Word :=
  BitVec.ofNat 64 (k.owner.toNat * 2 ^ 32 + k.result.toNat * 2 ^ 24 + k.arg.toNat * 2 ^ 16 + k.state.toNat)

def keyDw (s : State) (k off : Nat) : Word :=
  if off = 0 then kctlDw (keyAt s k) else if off = 0x8 then BitVec.ofNat 64 (keyAt s k).flushed else 0

/-- A store to KCTL: ignored while a command is busy; a CMD other than 1 and 2 is a bad argument, and 0 only sets ARG. -/
def storeKctl (s : State) (k : Nat) (v : Word) : State :=
  let x := keyAt s k
  let c := field v 12 4
  if x.result = 2 then s
  else
    let x := { x with arg := BitVec.ofNat 8 (field v 16 8) }
    if c = 1 || c = 2 then setKey s k { x with cmd := BitVec.ofNat 4 c, result := 2 }
    else if c = 0 then setKey s k x
    else setKey s k { x with result := 6 }

/-- A cached translation leads to a page keyed by a slot; one of a block where a register keyed by it contains a page of the block. -/
def keyedBy (s : State) (k : Nat) (t : TlbEntry) : Bool :=
  if t.block then (List.range 16).any fun n =>
    let r := rangeReg s t.vi n
    r.kind != 0 && r.key.toNat == k && decide (r.vbase / 2 ^ 19 < t.viaPage + blockPages ∧ t.viaPage ≤ r.vlast / 2 ^ 19)
  else match stageTwo s t.vi (t.viaPage * 2 ^ 19) with
    | some p => p.key.toNat == k
    | none => false

/-- Stores still in write-combining buffers under an epoch have begun to perform, and complete (R362). -/
def drainEpoch (s : State) (epoch : Nat) : State :=
  s.harts.foldl (fun s x => if x.2.wc.any (·.epoch == epoch) then drainWc s x.1 else s) s

/-- Dirty lines that hold a block stored under an epoch (R362). -/
def dirtyUnder (m : Memory) (epoch : Nat) : List Nat :=
  (m.dirty.map (·.1)).filter fun ln => (List.range 8).any fun j => fmGet m.locks 0 (8 * ln + j) == epoch

/-- Step 1 of R362: what has begun to perform completes, and later accesses stall. -/
def beginRevoke (s : State) (k : Nat) : State :=
  let s := drainEpoch s (keyAt s k).epoch
  setKey s k { keyAt s k with state := 2 }

/-- Steps 2 and 3 of R362: dirty lines written back and counted, translations removed, the key erased; what has stalled goes on,
and finds the key absent. -/
def endRevoke (s : State) (k : Nat) : State :=
  let x := keyAt s k
  let lines := dirtyUnder s.mem x.epoch
  let s := { s with
    mem := { s.mem with dirty := s.mem.dirty.filter fun d => !lines.contains d.1 }
    tlb := s.tlb.filter fun t => !keyedBy s k t }
  wakeAll (setKey s k { x with owner := 0, state := 0, epoch := 0, cmd := 0, flushed := lines.length, result := 1 })

def revokeSlot (s : State) (k : Nat) : State := endRevoke (beginRevoke s k) k

/-- GENERATE (R357). -/
def execGenerate (k : Nat) (s : State) : Result :=
  let x := keyAt s k
  if x.cmd ≠ 1 || x.result ≠ 2 then .next s
  else
    let x := { x with cmd := 0 }
    if x.state ≠ 0 then .next (setKey s k { x with result := 4 })
    else if x.arg = 0 || (flaconAt s x.arg.toNat).state = 0 then .next (setKey s k { x with result := 6 })
    else
      .next (setKey { s with epochs := s.epochs + 1 } k
        { x with owner := x.arg, state := 1, epoch := s.epochs + 1, result := 1 })

/-- REVOKE (R362): it begins on a slot that is LIVE, and completes on one that is REVOKING. -/
def execRevoke (k : Nat) (s : State) : Result :=
  let x := keyAt s k
  if x.cmd ≠ 2 || x.result ≠ 2 then .next s
  else if x.state = 1 then .next (beginRevoke s k)
  else if x.state = 2 then .next (endRevoke s k)
  else .next (setKey s k { x with cmd := 0, result := 4 })

/-! ### Commands of a flacon (R356, R364) -/

/-- The pending command of a flacon, carried out. -/
def flaconCmd (s : State) (f c : Nat) (run : State → Flacon → State) : Result :=
  let x := flaconAt s f
  if x.cmd.toNat ≠ c || x.result ≠ 2 then .next s else .next (run s { x with cmd := 0 })

/-- CREATE latches DEBUG (R364), draws two keys and starts MEASURE. -/
def execCreate (f : Nat) (s : State) : Result :=
  flaconCmd s f 1 fun s x =>
    if x.state ≠ 0 then setFlacon s f { x with result := 4 }
    else if s.sec.debug then setFlacon s f { x with result := 3 }
    else
      setFlacon { s with epochs := s.epochs + 2 } f
        { x with state := 1, result := 1, measure := Config.shake256 [], debugLatch := s.sec.debug,
                 tagKey := s.epochs + 1, ctxKey := s.epochs + 2 }

/-- The key slot under which a live range register of some VI maps a PA page, when it belongs to a flacon (R356). -/
def measureSlot (s : State) (f pa : Nat) : Option Nat :=
  (s.vis.flatMap fun v => v.2.ranges.toList).findSome? fun r =>
    let k := keyAt s r.key.toNat
    if r.kind = 1 ∧ r.key ≠ 0 ∧ k.state = 1 ∧ k.owner.toNat = f ∧ r.pbase ≤ pa ∧ pa ≤ r.pbase + (r.vlast - r.vbase) then
      some r.key.toNat
    else none

/-- MEASURE absorbs one PA page (R356). -/
def execMeasure (f : Nat) (s : State) : Result :=
  flaconCmd s f 2 fun s x =>
    if x.state ≠ 1 then setFlacon s f { x with result := 4 }
    else
      match measureSlot s f x.measpa.toNat with
      | none => setFlacon s f { x with result := 6 }
      | some k =>
        let old := splitBytes 64 x.measure.toNat
        let page := readBytes s.mem (keyAt s k).epoch x.measpa.toNat (2 ^ 19)
        setFlacon s f { x with measure := Config.shake256 (old ++ splitBytes 8 x.measpa.toNat ++ page), result := 1 }

/-- FINALIZE (R356): what TAGBASE, TAGLO and TAGHI hold no longer changes, for STATE is not BUILDING. -/
def execFinalize (f : Nat) (s : State) : Result :=
  flaconCmd s f 3 fun s x =>
    if x.state ≠ 1 then setFlacon s f { x with result := 4 } else setFlacon s f { x with state := 2, result := 1 }

/-- The slots that a flacon owns, those still being revoked among them. -/
def slotsOf (s : State) (f : Nat) : List Nat :=
  ((List.range 256).filter fun k => (keyAt s k).state != 0 && (keyAt s k).owner.toNat == f && k != 0)

/-- DESTROY (R356): every slot revoked, both keys erased. -/
def execDestroy (f : Nat) (s : State) : Result :=
  flaconCmd s f 4 fun s x =>
    if x.state ≠ 1 && x.state ≠ 2 then setFlacon s f { x with result := 4 }
    else if ncores s f ≠ 0 then setFlacon s f { x with result := 5 }
    else
      let s := (slotsOf s f).foldl revokeSlot s
      setFlacon s f { x with state := 0, result := 1, tagKey := 0, ctxKey := 0, debugLatch := false }

/-! ### A core changes world (R353) -/

/-- The register file, return and load queues and barrier state of a slot wiped. -/
def wipeSlot (s : State) (hid : Nat) : State :=
  setHart s hid { hartAt s hid with
    sregs := Vector.replicate 64 0, vregs := Vector.replicate 32 0, tags := Vector.replicate 32 0
    masks := Vector.replicate 16 0, rq := [], rqHeld := [], lq0 := 0, lq1 := 0
    barCount := Vector.replicate 7 0, barArrived := none }

/-- The steps of R353 on a core whose four pages read IDLE. -/
def moveCore (s : State) (core : Nat) (flid : BitVec 8) : State :=
  let s := (List.range 4).foldl (fun s i => drainWc s (4 * core + i)) s
  let s := (List.range 4).foldl (fun s i => wipeSlot s (4 * core + i)) s
  setCore s core { wipedCore (coreAt s core) with flid := flid }

/-- The pending command of CORECMD, carried out, with its RESULT. -/
def coreCmd (s : State) (f op : Nat) (run : State → Nat → State × BitVec 8) : Result :=
  let x := flaconAt s f
  if x.coreOp.toNat ≠ op || x.coreResult ≠ 1 then .next s
  else
    let r := run s x.core.toNat
    .next (setFlacon r.1 f { flaconAt r.1 f with coreOp := 0, coreResult := r.2 })

/-- ASSIGN (R353, R355). -/
def execAssign (f : Nat) (s : State) : Result :=
  coreCmd s f 1 fun s core =>
    if !coreEmpty s core then (s, 3)
    else if (flaconAt s f).state ≠ 2 then (s, 4)
    else if coreRetired s core || ((coreAt s core).flid ≠ 0 && (coreAt s core).flid.toNat ≠ f) then (s, 5)
    else (moveCore s core (BitVec.ofNat 8 f), 2)

/-- RELEASE (R353, R355). -/
def execRelease (f : Nat) (s : State) : Result :=
  coreCmd s f 2 fun s core =>
    if !coreEmpty s core then (s, 3)
    else if (coreAt s core).flid.toNat ≠ f then (s, 6)
    else (moveCore s core 0, 2)

/-! ### The security controller (R363 to R365) -/

def secDw (s : State) (off : Nat) : Word :=
  if off = 0 then BitVec.ofNat 64 (s.sec.life.toNat * 16 + if s.sec.debug then 1 else 0)
  else if off = 0x8 then s.sec.tokpa
  else if off = 0x10 then BitVec.ofNat 64 (s.sec.result.toNat * 256)
  else if off = 0x18 then Config.nonce s.sec.nonces
  else if off = 0x20 then Config.certLen
  else if 0x1000 ≤ off && decide (off - 0x1000 < Config.certLen.toNat) then
    BitVec.ofNat 64 (joinBytes ((List.range 8).map fun i =>
      if off - 0x1000 + i < Config.certLen.toNat then Config.certByte (off - 0x1000 + i) else 0))
  else 0

/-- A store to the security controller's page: a TOKCMD is ignored while one is busy; a CMD that is none is rejected. -/
def storeSec (s : State) (off : Nat) (v : Word) : State :=
  let c := field v 0 4
  if off = 0x8 then { s with sec := { s.sec with tokpa := v &&& ~~~0xFFF#64 } }
  else if off = 0x10 then
    if s.sec.result = 1 then s
    else if 1 ≤ c && c ≤ 3 then { s with sec := { s.sec with cmd := BitVec.ofNat 4 c, result := 1 } }
    else { s with sec := { s.sec with cmd := 0, result := 3 } }
  else s

/-- A doubleword of the buffer at TOKPA, as an open-world agent reads it; a keyed buffer reads as it is stored (R358). -/
def tokDw (s : State) (o : Nat) : Word := BitVec.ofNat 64 (freshMem s.mem (s.sec.tokpa.toNat + o) 8)

/-- The token at TOKPA is accepted for a kind (R363). -/
def tokenOk (s : State) (kind : Nat) : Bool :=
  let p := s.sec.tokpa.toNat
  tokDw s 0 == Config.moduleId.setWidth 64 && tokDw s 8 == Config.nonce s.sec.nonces &&
    tokDw s 0x10 == BitVec.ofNat 64 kind && tokDw s 0x18 == 0 && !poisoned s.mem p 3341 &&
    Config.vendorSigOk (Config.shake256 (freshBytesAt s.mem p 32)) (freshBytesAt s.mem (p + 32) 3309)

/-- A token command is pending. -/
def tokPending (s : State) (c : Nat) : Bool := s.sec.cmd.toNat == c && s.sec.result == 1

/-- The end of a token command: RESULT, and a new NONCE (R363). -/
def tokDone (s : State) (accepted : Bool) : State :=
  { s with sec := { s.sec with cmd := 0, result := if accepted then 2 else 3, nonces := s.sec.nonces + 1 } }

/-- DEBUG-UNLOCK (R363, R364). -/
def execDebugUnlock (s : State) : Result :=
  if !tokPending s 1 then .next s
  else
    let ok := tokenOk s 1
    .next (tokDone { s with sec := { s.sec with debug := s.sec.debug || ok } } ok)

/-- The report of R365, without its signature. -/
def attestReport (s : State) (f : BitVec 8) : List Byte :=
  splitBytes 8 Config.moduleId.toNat ++
  splitBytes 8 (f.toNat + s.sec.life.toNat * 256 + if s.sec.debug then 1024 else 0) ++
  splitBytes 64 Config.bootDigest.toNat ++
  splitBytes 64 (flaconAt s f.toNat).measure.toNat ++
  freshBytesAt s.mem (s.sec.tokpa.toNat + 8) 32

/-- ATTEST (R365): FLID is the doubleword at TOKPA. -/
def execAttest (s : State) : Result :=
  if !tokPending s 3 then .next s
  else
    let w := tokDw s 0
    let f := w.setWidth 8
    if f = 0 || decide (255 < w.toNat) || (flaconAt s f.toNat).state ≠ 2 then .next (tokDone s false)
    else
      let r := attestReport s f
      let sig := (List.range 3309).map (Config.attestSig (Config.shake256 r))
      .next (tokDone { s with mem := uncachedWrite s.mem (s.sec.tokpa.toNat + 0x1000) (r ++ sig) } true)

end Sys2Proof.Machine
end

