-- ==== Sys2Proof/Machine/Reset.lean ====
section
/-! DEFINITION. The reset ladder (R295, R369 to R371), boot (R288, R366, R376), hang detection (R372), and the pages
of errors and the hallmark record; memory and cluster-local faults (R272, R277, R286). -/

namespace Sys2Proof.Machine

/-! ### The reset page (R369, R370) -/

def resetDw (s : State) (off : Nat) : Word :=
  let r := s.resetPage
  if off = 0 then BitVec.ofNat 64 (r.status.toNat * 2 ^ 32 + r.target.toNat * 2 ^ 16)
  else if off = 0x8 then BitVec.ofNat 64 r.done
  else if off = 0x10 then r.ready.setWidth 64
  else 0

/-- TARGET lies in the range of its rung (R369). -/
def targetOk (rung target : Nat) : Bool :=
  if rung = 2 then decide (target < Config.cores) || (decide (0x800 ≤ target) && decide (target < 0x804))
  else if rung = 3 || rung = 5 then decide (target < 64)
  else if rung = 4 then decide (target < 24)
  else rung == 1 || rung == 6

/-- A store to RSTCMD (R370): ignored while a rung is busy, but for RUNG 6. -/
def storeRstcmd (s : State) (v : Word) : State :=
  let r := s.resetPage
  let rung := field v 0 4
  let target := field v 16 12
  if r.status = 1 && rung ≠ 6 then s
  else if targetOk rung target then
    { s with resetPage := { r with status := 1, target := BitVec.ofNat 12 target, rung := rung } }
  else { s with resetPage := { r with status := 3, target := BitVec.ofNat 12 target, rung := 0 } }

def storeResetPage (s : State) (off : Nat) (v : Word) : State := if off = 0 then storeRstcmd s v else s

/-- A rung has completed (R370): RSTDONE, and its record of KIND 14. -/
def rungCounted (s : State) (rung site die clu core : Nat) : State :=
  let r := s.resetPage
  logError { s with resetPage := { r with done := r.done + 1 } } 14 0 site die clu core rung 0

/-- The rung that RSTCMD has commanded has completed. -/
def rungDone (s : State) (rung site die clu core : Nat) : State :=
  rungCounted { s with resetPage := { s.resetPage with status := 2, rung := 0 } } rung site die clu core

/-- A rung runs only when it is the one commanded. -/
def commanded (s : State) (rung target : Nat) : Bool :=
  s.resetPage.status == 1 && s.resetPage.rung == rung && s.resetPage.target.toNat == target

/-! ### Rung 1: a queue -/

def resetQueue (s : State) (qi : Nat) : State :=
  let x := queueAt s qi
  let s := setQueue s qi { x with
    en := false, fault := false, tail := 0, head := 0, scan := 0, stale := 0, waiting := [], finished := [], waking := false }
  { s with teams := s.teams.map fun t =>
      if t.2.active && t.2.queue == qi then (t.1, { t.2 with ringGone := true }) else t }

def execRungQueue (target : Nat) (s : State) : Result :=
  if commanded s 1 target then .next (rungDone (resetQueue s target) 1 0 0 0 0) else .next s

/-! ### Rung 2: an engine -/

/-- Class 20 for a word that an engine served: a hart that is stopped or trapped takes it at its next RUN, after faults that
already wait (R188). The convoy is interrupted either way (R237). -/
def engineFault (s : State) (hid : Nat) (f : FaultRec) : State :=
  let h := hartAt s hid
  let keep : Hart := { interruptConvoy h with pending := h.pending ++ [f], qStopped := true }
  match h.ctl with
  | .stopped => setHart s hid keep
  | .trapped => if h.pending.isEmpty then deliver s hid none f else setHart (leaveWindow s hid) hid keep
  | .run | .stopDrain | .stopFreeze => deliver s hid none f
  | .idle => s

/-- The copy commands of a hart abandoned: claims released, the first of them takes class 20. -/
def abandonCopies (s : State) (hid : Nat) : State :=
  let h := hartAt s hid
  let hit (e : Entry) : Bool := e.started && !e.complete && wordIs (· == .cpy) e
  match h.queue.find? hit with
  | none => s
  | some e =>
    let s := releaseTiles s (coreOf hid) ((h.queue.filter hit).flatMap (·.claims))
    let h := hartAt s hid
    let stop (e : Entry) : Entry := if hit e then { e with started := false, claims := [], judged := false, deferred := none } else e
    let s := setHart s hid { h with queue := h.queue.map stop }
    engineFault s hid (eFaultRec e 20 0 0 4)

/-- The engine rung at an Accord engine (R402): the clusters whose words it ends have their counters flushed first (R370). -/
def abandonHub (s : State) (hub : Nat) : State :=
  let s := flushClusters s ((s.colls.filter fun c => c.hub == hub).map fun c => clusterOf c.hid)
  (s.colls.filter fun c => c.hub == hub).foldl (fun s c =>
    let f := (collEntry s c).map fun e => eFaultRec e 20 0 0 5
    let s := abandonColl s c none true true
    match f with
    | some f => engineFault s c.hid f
    | none => s) s

def resetEngine (s : State) (target : Nat) : State :=
  if target < Config.cores then
    let s := flushCluster s (target / 4)
    let s := (List.range 4).foldl (fun s i => abandonCopies s (4 * target + i)) s
    { s with hung := fmErase s.hung target }
  else abandonHub s (target - 0x800)

def execRungEngine (target : Nat) (s : State) : Result :=
  if commanded s 2 target then
    let s := resetEngine s target
    .next (if target < Config.cores then rungDone s 2 0 (target / 32) (target / 4 % 8) (target % 4)
      else rungDone s 2 1 (target - 0x800) 0 0)
  else .next s

/-! ### Rung 3: a partition -/

/-- A hart that a rung ends (R254, R371); a child that has halted and awaits JOIN gives its lanes back. -/
def rungEnds (s : State) (hid : Nat) : State :=
  let s := dropContext s hid
  let s := if resident s hid then endHart s hid false else s
  let h := hartAt s hid
  let s := setHart s hid { h with parent := none, awaitJoin := false, own := 0, vstate := .absent }
  wakeCore s (coreOf hid)

/-- The slots of a VI's harts. -/
def hartsOf (s : State) (p : Nat → Hart → Bool) : List Nat :=
  (s.harts.filter fun x => (x.2.ctl != .idle || x.2.awaitJoin) && p x.1 x.2).map (·.1)

def resetPartition (s : State) (vi : Nat) : State :=
  let l := hartsOf s fun _ h => h.vi == vi
  let s := flushClusters s (l.map clusterOf)
  let s := l.foldl rungEnds s
  let s := (List.range 64).foldl (fun s q => resetQueue s (queueIndex vi q)) s
  dropVi s vi

def execRungPartition (vi : Nat) (s : State) : Result :=
  if commanded s 3 vi then .next (rungDone (resetPartition s vi) 3 0 0 0 0) else .next s

/-! ### Rung 4: a die (R295) -/

/-- The register file of a slot wiped. -/
def wipeRegisters (s : State) (hid : Nat) : State :=
  let s := wipeSlot s hid
  setHart s hid { hartAt s hid with vstate := .absent }

/-- A line stands dirty in a cluster's L2. -/
def dirtyIn (m : Memory) (cl ln : Nat) : Bool :=
  fmGet m.dirty 0 ln == cl + 1 && (fmFind m.lines ln).all fun l => !l.dirty.isEmpty

/-- A line leaves a cluster's L2 with nothing written back; one that is dirty in another L2 stays there. -/
def loseLine (m : Memory) (cl ln : Nat) : Memory :=
  let owner := fmGet m.dirty 0 ln
  if owner = 0 || owner = cl + 1 then { m with dirty := fmErase m.dirty ln, lines := fmErase m.lines ln } else m

/-- A dirty line of a cluster's L2 lost: poisoned (R272, R295). -/
def poisonLine (m : Memory) (cl ln : Nat) : Memory := loseLine (poisonRange m (128 * ln) 128) cl ln

/-- A tag error of a set of one bank (R272): the set is invalidated, and its dirty lines are poisoned (log 5). -/
def loseSet (m : Memory) (cl ln : Nat) : Memory :=
  ((heldLines m).filter (sameSet · ln)).foldl (fun m x => if dirtyIn m cl x then poisonLine m cl x else loseLine m cl x) m

/-- The dirty lines of a cluster's L2 when its die is reset (R295): written back where the L2 answers in time, else poisoned. -/
def settleCache (s : State) (cl : Nat) (answers : Bool) : State :=
  let mine := (heldLines s.mem).filter (dirtyIn s.mem cl)
  { s with mem := mine.foldl (fun m ln => if answers then cleanLine m ln else poisonLine m cl ln) s.mem }

/-- Whether each L2 of a die answers within 10 µs is open: a free value (log 7). -/
def settleDie (s : State) (die : Nat) : State :=
  let f := freshWord s
  (List.range 8).foldl (fun s i => settleCache s (8 * die + i) (bit f.1 i)) f.2

/-- The die rung (R295). -/
def dieReset (s : State) (die : Nat) : State :=
  let slots := (s.harts.filter fun x => dieOf x.1 == die).map (·.1)
  let s := flushClusters s ((List.range 8).map (8 * die + ·))
  let s := slots.foldl rungEnds s
  let s := slots.foldl wipeRegisters s
  let s := (s.cores.filter fun x => x.1 / 32 == die).foldl (fun s x => setCore s x.1 (wipedCore (coreAt s x.1))) s
  let s := settleDie { s with
    tlb := s.tlb.filter fun t => t.cluster / 8 != die, hung := s.hung.filter fun c => c.1 / 32 != die } die
  (List.range 8).foldl (fun s i =>
    carryOut (setCluster s (8 * die + i) { clusterAt s (8 * die + i) with running := true }) (8 * die + i)) s

/-- The die rung when the ladder itself takes it (R371, R372): a rung that RSTCMD has commanded stands. -/
def dieRung (s : State) (die : Nat) : State := rungCounted (dieReset s die) 4 0 die 0 0

def execRungDie (die : Nat) (s : State) : Result :=
  if commanded s 4 die then .next (rungDone (dieReset s die) 4 0 die 0 0) else .next s

/-! ### Rungs 5 and 6, and the wipe (R367) -/

/-- Memory after the wipe: the host's own memory is not the device's. -/
def wipedMem (m : Memory) : Memory where
  cells := m.cells.filter fun c => decide (Config.hostBase ≤ c.1)
  locks := m.locks.filter fun c => decide (Config.hostBase ≤ 16 * c.1)
  poison := m.poison.filter fun c => decide (Config.hostBase ≤ 32 * c)
  dirty := []
  lines := []

/-- The whole device reset: what survives is the fuses, the hallmark record, the host's memory, and the model's own
counters and outputs. A PF's function-level reset keeps link training and package time (R371). -/
def wholeDevice (s : State) (pf : Bool) : State :=
  { State.reset with
    mem := wipedMem s.mem
    hallmark := { s.hallmark with boots := s.hallmark.boots + 1 }
    sec := { State.reset.sec with life := s.sec.life, nonces := s.sec.nonces + 1 }
    pt := if pf then s.pt else 0
    links := if pf then s.links.map fun l => (l.1, { l.2 with borrowed := 0, lent := 0, asked := 0, offered := none }) else []
    epochs := s.epochs
    seals := s.seals
    msix := s.msix
    outbox := s.outbox
    agenda := s.agenda
    focus := s.focus
    cur := s.cur
    free := s.free }

/-- Rung 6, after the counters are flushed; its record is the first of the new log. -/
def wholeRung (s : State) (pf : Bool) (rung : Nat) : State :=
  logError (wholeDevice (flushClusters s (List.range Config.clusters)) pf) 14 0 0 0 0 0 rung 0

def execRungWholeDevice (s : State) : Result :=
  if s.resetPage.status == 1 && s.resetPage.rung == 6 then .next (wholeRung s false 6) else .next s

/-- PERST# (R371): accepted at any time. -/
def execPerst (s : State) : Result := .next (wholeRung s false 6)

/-- LOSS_OF_POWER (R287): counts since the last flush are lost. -/
def execLossOfPower (s : State) : Result := .next (wholeDevice s false)

/-- A fatal error of a kind that firmware cannot contain (R371): rung 6. DEDUCED: the host is told as R375 has it of a record of
severity 2, and what it has been told stands after the rung (log 58). -/
def fatalError (s : State) : State :=
  let t := wholeRung s false 6
  { t with aer := t.aer ++ [⟨0, true⟩] }

/-- Rung 5 of a virtual function: its partition, and what its PCI Express configuration space has recorded (R371, R375). -/
def resetFunction (s : State) (fn : Nat) : State :=
  let s := resetPartition s fn
  { s with aer := s.aer.filter fun x => x.fn != fn }

/-- Rung 5 as RSTCMD commands it: function 0 is the PF. -/
def functionRung (s : State) (fn : Nat) : State :=
  if fn = 0 then wholeRung s true 5 else rungDone (resetFunction s fn) 5 0 0 0 0

def execRungFunctionLevel (fn : Nat) (s : State) : Result :=
  if commanded s 5 fn then .next (functionRung s fn) else .next s

/-- The rung in progress, carried out. -/
def runRung (s : State) : State :=
  let r := s.resetPage
  let t := r.target.toNat
  if r.status ≠ 1 then s
  else if r.rung = 1 then rungDone (resetQueue s t) 1 0 0 0 0
  else if r.rung = 2 then
    if t < Config.cores then rungDone (resetEngine s t) 2 0 (t / 32) (t / 4 % 8) (t % 4)
    else rungDone (resetEngine s t) 2 1 (t - 0x800) 0 0
  else if r.rung = 3 then rungDone (resetPartition s t) 3 0 0 0 0
  else if r.rung = 4 then rungDone (dieReset s t) 4 0 t 0 0
  else if r.rung = 5 then functionRung s t
  else wholeRung s false 6

/-- FUNCTION_LEVEL_RESET arriving on the host link waits for a rung that is busy, and then runs (R370). -/
def execFunctionLevelReset (fn : Nat) (s : State) : Result :=
  let s := runRung s
  .next (if fn = 0 then wholeRung s true 5 else rungCounted (resetFunction s fn) 5 0 0 0 0)

/-! ### Life cycle (R363, R367) -/

def lifeAccepted (s : State) : Option (BitVec 2) :=
  if tokenOk s 2 && s.sec.life ≠ 1 then some 1
  else if tokenOk s 3 && s.sec.life = 1 then some 2
  else none

/-- LIFE-CYCLE: a transition sets LIFE, wipes, and takes the whole-device rung; RETURN clears retirements. -/
def execLifeCycle (s : State) : Result :=
  if !tokPending s 2 then .next s
  else
    match lifeAccepted s with
    | none => .next (tokDone s false)
    | some life =>
      let s := { s with
        sec := { s.sec with life := life }
        hallmark := if life = 2 then { s.hallmark with retired := [] } else s.hallmark }
      .next (wholeRung s false 6)

/-! ### Boot (R288, R366, R376) -/

def counterOf (s : State) (core w : Nat) : Nat := fmGet s.hallmark.counters 0 (128 * core + w)

/-- Lane cluster l of a core is to be retired (R288). -/
def retireLane (s : State) (core l : Nat) : Bool :=
  decide (256 < (List.range 16).foldl (fun n i => n + counterOf s core (16 * l + i)) (counterOf s core (64 + l))) ||
    decide (4 ≤ counterOf s core (68 + l))

def retireCore (s : State) (core : Nat) : Bool :=
  ((List.range 16).any fun i => decide (256 < counterOf s core (72 + i))) || decide (4 ≤ counterOf s core 88)

/-- The retirements of a core after boot. -/
def retiredBits (s : State) (core : Nat) : BitVec 5 :=
  let lanes := (bits4 ((List.range 4).filter (retireLane s core))).setWidth 5
  fmGet s.hallmark.retired 0 core ||| lanes ||| (if retireCore s core then 16 else 0)

/-- Cores with a counter or a retirement: only they can change. -/
def countedCores (s : State) : List Nat :=
  let keys : List Nat := (s.hallmark.counters.map fun (x : Nat × Nat) => x.1 / 128) ++
    s.hallmark.retired.map fun (x : Nat × BitVec 5) => x.1
  keys.foldl (fun l c => if l.contains c then l else c :: l) []

def retireAt (s : State) (core : Nat) : State :=
  let b := retiredBits s core
  let s := { s with hallmark := { s.hallmark with retired := fmSet s.hallmark.retired core b } }
  setCore s core { coreAt s core with retired := if b.getLsbD 4 then 15 else b.setWidth 4 }

/-- Boot firmware: images checked, retirements applied, the calendar published (R341), READY set; a failed image is recorded and
nothing runs. -/
def bootStep (s : State) : State :=
  if Config.imagesOk s.hallmark.boots then
    let s := (countedCores s).foldl retireAt s
    let nominal := [1, 2, 3].map fun k => (k, s.pt + Config.slotPhase s.hallmark.boots k % kindEvery k)
    let s := publish { s with calendar := { s.calendar with nominal := nominal } } []
    { s with booted := true, resetPage := { s.resetPage with ready := 1 } }
  else
    let s := logError s 13 2 1 0 0 0 0 0
    { s with booted := true, resetPage := { s.resetPage with ready := 2 } }

/-! ### Hang detection (R372) -/

/-- Core cycles without a retired G-word after which a Crucible is hung, and the ns after which it is still hung (R372). -/
def hangCycles : Nat := 2 ^ 22
def stillHung : Nat := 1000000

/-- CRUCIBLE_HANG: declared, its harts are ended, with a record and UNCORR of each lane cluster; a Crucible that is still hung
1 ms later takes rung 4 on its die. -/
def execCrucibleHang (core : Nat) (s : State) : Result :=
  match fmFind s.hung core with
  | some t => .next (if t + stillHung ≤ s.pt then dieRung s (core / 32) else s)
  | none =>
    if coreBusy s core && decide (hangCycles ≤ (coreAt s core).quiet) then
      let s := (hartsOf s fun k _ => coreOf k == core).foldl rungEnds s
      let s := logError s 9 1 0 (core / 32) (core / 4 % 8) (core % 4) 0 0
      let s := (List.range 4).foldl (fun s l => hallCount s core (68 + l)) s
      .next { s with hung := fmSet s.hung core s.pt }
    else .next s

/-- ns within which the standby takes over (R337). -/
def takeoverLimit : Nat := 100000

/-- HEARTBEAT_TIMEOUT: dispatch waits for the standby, or for the host where the standby is hung too. -/
def execHeartbeatTimeout (w : Watched) (s : State) : Result :=
  match w with
  | .leaf cl =>
    if (clusterAt s cl).running then
      let s := logError s 10 1 0 (cl / 8) (cl % 8) 0 0 0
      .next (setCluster s cl { clusterAt s cl with running := false })
    else .next s
  | .scheduler =>
    if s.standbyActive || !s.schedRunning then .next s
    else .next { logError s 11 1 1 0 0 0 0 0 with schedRunning := false, takeover := some (s.pt + takeoverLimit) }
  | .both => .next { logError s 11 2 1 0 0 0 0 0 with schedRunning := false, takeover := none }

/-- LEAF_CONTROLLER_RESTART: its harts have kept running, and the commands that wait for it are carried out; a failed restart
takes rung 4 on its die. -/
def execLeafControllerRestart (cl : Nat) (ok : Bool) (s : State) : Result :=
  let c := clusterAt s cl
  if c.running then .next s
  else if ok then .next (carryOut (setCluster s cl { c with running := true }) cl)
  else .next (dieRung s (cl / 8))

/-! ### Errors of memory and of translation structures (R272, R277, R289) -/

/-- The record, and the summary that the leaf controller sends (R277). -/
def localRecord (s : State) (cl kind sev core unit : Nat) (detail : Word) : State :=
  let s := logError s kind sev 0 (cl / 8) (cl % 8) (core % 4) unit detail
  let c := clusterAt s cl
  setCluster s cl { c with reports := c.reports ++ [Config.hartSlots] }

/-- L2_ERROR (R272, R277), of the line of a PA in a cluster's L2. -/
def execL2Error (cl pa : Nat) (k : EccKind) (s : State) : Result :=
  let log (s : State) (kind sev : Nat) : State := localRecord s cl kind sev 0 (bankOf pa) (BitVec.ofNat 64 pa)
  let held := dirtyIn s.mem cl (pa / 128)
  match k with
  | .single => .next (log s 1 0)
  | .doubleClean => .next (if held then s else log { s with mem := loseLine s.mem cl (pa / 128) } 1 0)
  | .doubleDirty => .next (if held then log { s with mem := poisonRange s.mem (pa / 32 * 32) 32 } 2 1 else s)
  | .tag => .next (log { s with mem := loseSet s.mem cl (pa / 128) } 2 1)

/-- HBM_ERROR (R289), on the die that holds the frame of the PA (R290). -/
def execHbmError (die pa : Nat) (double : Bool) (s : State) : Result :=
  if Config.hbmBytes ≤ pa || (frameAt s (pa / 2 ^ 19)).1 ≠ die then .next s
  else if double then
    .next (logError { s with mem := poisonRange s.mem (pa / 32 * 32) 32 } 4 1 0 die 0 0 0 (BitVec.ofNat 64 pa))
  else .next (logError s 3 0 0 die 0 0 0 (BitVec.ofNat 64 pa))

/-- An error that a translation structure has detected: the cluster's structures are invalidated (R277). DESIGN CHOICE: its record has
severity 0 and UNIT 0 (log 36). -/
def structureError (s : State) (cl : Nat) : State :=
  localRecord { s with tlb := s.tlb.filter fun t => t.cluster != cl } cl 7 0 0 0 0

/-! ### Pages of housekeeping -/

/-- The error log (R373). -/
def errlogDw (s : State) (off : Nat) : Word :=
  let g := s.errlog
  if off = 0 then BitVec.ofNat 64 g.written
  else if off = 0x8 then BitVec.ofNat 64 (g.sev0 * 2 ^ 32 + g.sev1 * 2 ^ 16 + if g.fatal then 1 else 0)
  else if 0x1000 ≤ off && off < 0x9000 then
    match g.recs.find? (·.1 == (off - 0x1000) / 32) with
    | none => 0
    | some (_, r) =>
      if off % 32 = 0 then BitVec.ofNat 64 r.seq else if off % 32 = 8 then BitVec.ofNat 64 r.pt
      else if off % 32 = 16 then r.cls else r.detail
  else 0

/-- The hallmark record's window (R376). -/
def hallmarkDw (s : State) (off : Nat) : Word :=
  let h := s.hallmark
  if off = 0 then 1
  else if off = 0x8 then BitVec.ofNat 64 h.boots
  else if off = 0x10 then
    let cores := (h.retired.filter fun x => x.2.getLsbD 4).length
    let lcs := h.retired.foldl (fun n x => n + laneCount (x.2.setWidth 4)) 0
    BitVec.ofNat 64 (lcs * 2 ^ 16 + cores)
  else if 0x1000 ≤ off && off < 0x2800 then (fmGet h.retired 0 ((off - 0x1000) / 8)).setWidth 64
  else if 0x4000 ≤ off && off < 0x64000 then
    let w := (off - 0x4000) / 4
    BitVec.ofNat 64 (fmGet h.counters 0 w + fmGet h.counters 0 (w + 1) * 2 ^ 32)
  else 0

/-- HALLMARK_FLUSH (R287). -/
def execHallmarkFlush (s : State) : Result := .next (flushClusters s (List.range Config.clusters))

/-! ### The frame map (R290, R316, R317) -/

def frameDw (s : State) (p : Nat) : Word :=
  if p < 1474560 then
    BitVec.ofNat 64 ((if moving s p then 2 ^ 63 else 0) + (frameAt s p).2 * 32 + (frameAt s p).1)
  else 0

/-- PAGE_MIGRATION (R317): outside slots, a move of one page to a frame begins, or the one in progress completes; it changes no
value and no order. -/
def execPageMigration (page die frame : Nat) (s : State) : Result :=
  match s.migration with
  | some m => .next (if m.page = page then endMigration s else s)
  | none =>
    if s.calendar.current.isNone && decide (page < 1474560) && decide (die < 24) && decide (frame < 61440) then
      .next (beginMigration s page die frame)
    else .next s

end Sys2Proof.Machine
end

