-- ==== Sys2Proof/Machine/Save.lean ====
section
/-! DEFINITION. The save sequencer and the context DMA engine (R258 to R261, R265 to R267, R361). -/

namespace Sys2Proof.Machine

/-! ### The save area (R258) -/

def saveWrite : Access := ⟨2, 1, false, true, false, false, false⟩
def saveRead : Access := ⟨1, 1, false, true, false, false, false⟩

/-- The PA at which an agent's address leads, for an unkeyed place of memory outside the control pages (R258, R358). -/
def agentPlace (s : State) (ag : Agent) (k : Access) (a : Word) : Option Nat :=
  match ag with
  | .hart hid =>
    match translate s hid k a with
    | .ok x => if x.place.key = 0 then some x.place.pa else none
    | .error _ => none
  | .host v =>
    if field a 48 16 ≠ 0 then none
    else
      match stageTwo s v a.toNat with
      | some p => if p.key = 0 && p.kind ≠ 3 then some p.pa else none
      | none => none
  | .firmware =>
    if decide (a.toNat < Config.hbmBytes) || (decide (Config.hostBase ≤ a.toNat) && decide (a.toNat < Config.ctlBase)) then some a.toNat
    else none

/-- The pages that n bytes from an address lie on. -/
def pagesOf (ptr : Word) (n : Nat) : Nat := (ptr.toNat % 2 ^ 19 + n + 2 ^ 19 - 1) / 2 ^ 19

/-- Each page's PA; the first entry stands for the page that holds the address itself. -/
def areaPages (s : State) (ag : Agent) (k : Access) (ptr : Word) (n : Nat) : List (Option Nat) :=
  (List.range (pagesOf ptr n)).map fun i =>
    let a := if i = 0 then ptr else BitVec.ofNat 64 (ptr.toNat / 2 ^ 19 * 2 ^ 19 + i * 2 ^ 19)
    (agentPlace s ag k a).map fun pa => pa / 2 ^ 19 * 2 ^ 19

/-- The PA of offset o of the save area. -/
def areaAt (j : SaveJob) (o : Nat) : Option Nat :=
  let q := j.ptr.toNat % 2 ^ 19 + o
  match j.area[q / 2 ^ 19]? with
  | some (some base) => some (base + q % 2 ^ 19)
  | _ => none

def plainArea : Nat := 0x21000
def sealedArea : Nat := 0x200000

/-- The offsets of the scalar part (R259). -/
def scalarOffsets : List Nat :=
  (List.range 5136).map (fun i => 8 + 8 * i) ++ [0x20000, 0x20008, 0x20010, 0x20020]

/-- The offsets of register n of the window that the page's lanes hold. -/
def regOffsets (h : Hart) (n : Nat) : List Nat :=
  (List.range (windowBytes h / 8)).map fun i => 0x10000 + n * (if h.shape then 4096 else 2048) + 8 * i

def regCount (h : Hart) : Nat := if h.shape then 16 else 32

/-- A doubleword written to the save area, past every cache. -/
def areaWrite (s : State) (j : SaveJob) (o : Nat) (v : Word) : State :=
  match areaAt j o with
  | some pa => { s with mem := uncachedWrite s.mem pa (splitBytes 8 v.toNat) }
  | none => s

/-- A doubleword of the save area; none where it is poisoned. -/
def areaRead (s : State) (j : SaveJob) (o : Nat) : Option Word :=
  match areaAt j o with
  | some pa => if poisoned s.mem pa 8 then none else some (BitVec.ofNat 64 (freshMem s.mem pa 8))
  | none => none

/-- Undefined doublewords (R7). -/
def freeDw (base o : Nat) : Word := Config.freeWord (base + o)

/-- The outcome of a command, to be published (R265). -/
def finishJob (s : State) (hid : Nat) (outcome : BitVec 8) : State :=
  let h := hartAt s hid
  setHart s hid { h with saveJob := h.saveJob.map fun j => { j with outcome := some outcome } }

/-- What of the save area of a failed save can be written is undefined (R259). -/
def scrambleArea (s : State) (j : SaveJob) (n : Nat) : State :=
  let base := s.free
  (List.range (n / 8)).foldl (fun s i => areaWrite s j (8 * i) (freeDw base (8 * i))) { s with free := base + n }

/-- A save has failed for a translation (R259): its area is undefined, and the page is unchanged. -/
def failSave (s : State) (hid : Nat) (j : SaveJob) (n : Nat) : State := finishJob (scrambleArea s j n) hid 3

/-! ### Saves (R259) -/

/-- The flags of positions that words still queued have committed. -/
def pendingFlags (h : Hart) : BitVec 8 := h.queue.foldl (fun f e => f ||| e.flags) 0

/-- A doubleword of the page as a save writes it: VXSR with the flags that the image of its queue has no place for (R31,
log 13). -/
def saveDw (s : State) (hid o : Nat) : Word :=
  if o = 0x328 then ctxDw s hid o ||| (pendingFlags (hartAt s hid)).setWidth 64 else ctxDw s hid o

/-- The part of SAVE and SAVE-ALL that writes the page to the area. -/
def saveScalar (s : State) (hid : Nat) (j : SaveJob) : State :=
  let h := hartAt s hid
  let s := setHart s hid { h with conv := none }
  scalarOffsets.foldl (fun s o => areaWrite s j o (saveDw s hid o)) s

def saveRegs (s : State) (hid : Nat) (j : SaveJob) (every : Bool) : State :=
  let h := hartAt s hid
  ((List.range (regCount h)).filter fun n => every || h.dirty.getLsbD n).foldl (fun s n =>
    (regOffsets h n).foldl (fun s o => areaWrite s j o (ctxDw s hid o)) s) s

def savePlain (s : State) (hid : Nat) (j : SaveJob) (all : Bool) : State :=
  if j.area.any (·.isNone) then failSave s hid j plainArea
  else
    let s := saveScalar s hid j
    let h := hartAt s hid
    if h.vstate = .absent then finishJob s hid 2
    else
      let s := saveRegs s hid j (all || h.lastArea != some j.ptr)
      let h := hartAt s hid
      finishJob (setHart s hid { h with dirty := 0, vstate := .saved }) hid 2

/-! ### Restores (R259) -/

/-- A doubleword of the scalar part as a restore writes it: those that a store cannot write included, DIRTY among them, FLID, HID,
PT and the control word excluded, LANES only while the page reads IDLE; the reserved bits of the trap record stay 0 (R6, R189). -/
def restoreField (s : State) (hid off : Nat) (v : Word) : State :=
  let h := hartAt s hid
  let t := h.trapRec
  if off = 0x20 then setHart s hid { h with trapRec := { t with cause := v &&& 0x3FFFFFFF } }
  else if off = 0x28 then setHart s hid { h with trapRec := { t with gpc := v } }
  else if off = 0x30 then setHart s hid { h with trapRec := { t with thread := v &&& 3 } }
  else if off = 0x38 then setHart s hid { h with trapRec := { t with emitPc := v } }
  else if off = 0x40 then setHart s hid { h with trapRec := { t with seq := v } }
  else if off = 0x48 then setHart s hid { h with trapRec := { t with vstart := v } }
  else if off = 0x50 then setHart s hid { h with trapRec := { t with addr := v } }
  else if off = 0x58 then setHart s hid { h with trapRec := { t with port := v &&& 0x1FFF } }
  else if off = 0x60 then setHart s hid { h with trapRec := { t with sinkSeq := v } }
  else if off = 0x340 then (if h.ctl = .idle then storeField s hid off v else s)
  else if off = 0x20010 then setHart s hid { h with dirty := v.setWidth 32 }
  else if off = 0x20020 then setHart s hid { h with trapCount := v }
  else storeField s hid off v

/-- The scalar part written from a source of doublewords. The lanes no longer hold the context, and what was queued is gone:
nothing issues before RUN has checked the new queue (R413). DESIGN CHOICE: R259 does not say what becomes of what the overwritten
words held; their claimed tiles become EMPTY, and their started collectives are abandoned (log 63). -/
def restoreFields (s : State) (hid : Nat) (get : Nat → Word) : State :=
  let s := abandonOf (leaveWindow (dropVectors s hid) hid) fun c => c.hid == hid
  let s := releaseTiles s (coreOf hid) ((hartAt s hid).queue.flatMap (·.claims))
  let s := setHart s hid { hartAt s hid with
    queue := [], conv := none, rq := [], rqHeld := [], inWindow := false, qStopped := true }
  scalarOffsets.foldl (fun s o => restoreField s hid o (get o)) s

/-- The vector part written, for the lanes that the hart owns. -/
def restoreWindow (s : State) (hid : Nat) (get : Nat → Word) : State :=
  let h := hartAt s hid
  let h' := (List.range (regCount h)).foldl (fun h n =>
    (regOffsets h n).foldl (fun h o => putSlice h (o - 0x10000) (get o)) h) h
  setHart s hid { h' with dirty := 0, vstate := .saved }

/-- The tile table, 16 bytes an entry. -/
def tileBytes (t : Tile) : List Byte :=
  let st := match t.state with | .empty => 0 | .filling => 1 | .ready => 2 | .draining => 3
  splitBytes 2 (st + (match t.mode with | .triad => 0 | .bf16 => 4)) ++ splitBytes 2 t.type.toNat ++
    splitBytes 4 t.k.toNat ++ splitBytes 8 t.d

def tileFrom (bs : List Byte) : Tile where
  state := match joinBytes (bs.take 2) % 4 with | 0 => .empty | 1 => .filling | 2 => .ready | _ => .draining
  mode := if joinBytes (bs.take 2) / 4 % 2 = 1 then .bf16 else .triad
  type := BitVec.ofNat 4 (joinBytes ((bs.drop 2).take 2))
  k := BitVec.ofNat 32 (joinBytes ((bs.drop 4).take 4))
  d := joinBytes ((bs.drop 8).take 8)

/-- The bytes of a region of a seal. -/
def sealRegion (x : Seal) (kind : Nat) : List Byte := (x.segs.filter (·.1 == kind)).flatMap (·.2)

def tilesFrom (n : Nat) (bs : List Byte) (t : Vector (BitVec 131072) n) : Vector (BitVec 131072) n :=
  Vector.ofFn fun i => if bs.isEmpty then t[i] else BitVec.ofNat 131072 (joinBytes ((bs.drop (16384 * i.val)).take 16384))

/-- The typed buffers, tile table and barrier state of a seal brought back. DESIGN CHOICE: those that the save did not write stay as
they are, and STATUS is 2 all the same; R261 does not say (log 63). -/
def restoreBuffers (s : State) (hid : Nat) (x : Seal) : State :=
  let core := coreOf hid
  let c := coreAt s core
  let tb := sealRegion x 5
  let bb := sealRegion x 6
  let s := setCore s core { c with
    wb := tilesFrom 64 (sealRegion x 2) c.wb
    ab := tilesFrom 32 (sealRegion x 3) c.ab
    cb := tilesFrom 16 (sealRegion x 4) c.cb
    tiles := if tb.isEmpty then c.tiles else Vector.ofFn fun i => tileFrom ((tb.drop (16 * i.val)).take 16) }
  if bb.isEmpty then s
  else (List.range 4).foldl (fun s i =>
    let h := hartAt s (4 * core + i)
    setHart s (4 * core + i) { h with
      barCount := Vector.ofFn fun k => joinBytes ((bb.drop (56 * i + 8 * k.val)).take 8) }) s

/-- Typed buffers, tile table and barrier state of undefined contents (R7). -/
def freeSeal (base : Nat) : Seal where
  key := 0
  nonce := 0
  segs := [(2, 0x100000), (3, 0x80000), (4, 0x40000), (5, 0x1000), (6, 0x1000)].map fun r =>
    (r.1, (List.range r.2).map fun i => Config.freeByte (base + r.1 * 0x100000 + i))
  shape := false
  regBytes := 0

/-- A failed restore: VSTATE is ABSENT, and the regions being read are undefined (R259), with TBUF those of the core too (R261). -/
def failRestore (s : State) (hid : Nat) (scalar window tbuf : Bool) (outcome : BitVec 8) : State :=
  let base := s.free
  let s := { s with free := base + 0x800000 }
  let s := if tbuf then restoreBuffers s hid (freeSeal base) else s
  let s := if scalar then restoreFields s hid (freeDw base) else s
  let s := if window then restoreWindow s hid (freeDw base) else s
  finishJob (dropVectors s hid) hid outcome

/-- A restore of a context that is not sealed. DESIGN CHOICE: a poisoned doubleword of the save area fails it with STATUS 3, as one
that does not translate does; R258 and R272 name no outcome (log 63). -/
def restorePlain (s : State) (hid : Nat) (j : SaveJob) (scalar window : Bool) : State :=
  let h := hartAt s hid
  if j.area.any (·.isNone) then failRestore s hid scalar window false 3
  else
    let offsets := (if scalar then scalarOffsets else []) ++
      (if window then (List.range (regCount h)).flatMap (regOffsets h) else [])
    if offsets.any fun o => (areaRead s j o).isNone then failRestore s hid scalar window false 3
    else
      let get (o : Nat) : Word := (areaRead s j o).getD 0
      let s := if scalar then restoreFields s hid get else s
      let s := if window then restoreWindow s hid get else s
      finishJob s hid 2

/-! ### Sealed contexts (R261, R361): symbolic ciphertext (log 16) -/

def dwBytes (v : Word) : List Byte := splitBytes 8 v.toNat

/-- A region cut into payloads of at most 4,076 bytes. -/
def cutPayloads (kind : Nat) (bs : List Byte) (fuel : Nat) : List (Nat × List Byte) :=
  match fuel with
  | 0 => []
  | n + 1 => if bs.isEmpty then [] else (kind, bs.take 4076) :: cutPayloads kind (bs.drop 4076) n

def vecBytes {n : Nat} (v : Vector (BitVec 131072) n) : List Byte := v.toList.flatMap fun t => splitBytes 16384 t.toNat

/-- Barrier state of a core: the counts of its four slots. -/
def barrierBytes (s : State) (core : Nat) : List Byte :=
  (List.range 4).flatMap fun i => (hartAt s (4 * core + i)).barCount.toList.flatMap fun n => splitBytes 8 n

/-- The stream of a sealed save: region kinds 0 scalar, 1 vector, 2 to 4 typed buffers, 5 tile table, 6 barriers. -/
def sealedStream (s : State) (hid : Nat) (tbuf : Bool) : List (Nat × List Byte) :=
  let h := hartAt s hid
  let c := coreAt s (coreOf hid)
  let part (kind : Nat) (bs : List Byte) : List (Nat × List Byte) := cutPayloads kind bs 300
  part 0 (scalarOffsets.flatMap fun o => dwBytes (saveDw s hid o)) ++
    part 1 ((List.range (regCount h)).flatMap fun n => (regOffsets h n).flatMap fun o => dwBytes (ctxDw s hid o)) ++
    (if tbuf then
      part 2 (vecBytes c.wb) ++ part 3 (vecBytes c.ab) ++ part 4 (vecBytes c.cb) ++
        part 5 (c.tiles.toList.flatMap tileBytes) ++ part 6 (barrierBytes s (coreOf hid))
     else [])

/-- The plaintext of segment i (R261), up to its payload: padding and CRC follow from it. -/
def segmentPlain (i : Nat) (p : Nat × List Byte) : List Byte := splitBytes 8 i ++ splitBytes 4 p.1 ++ splitBytes 4 p.2.length ++ p.2

/-- A ciphertext segment written at its offset. -/
def writeSegment (s : State) (j : SaveJob) (key : Nat) (nonce : Word) (i : Nat) (p : Nat × List Byte) : Option State :=
  if (areaAt j (0x1000 + 4096 * i)).isNone then none
  else some ((List.range 512).foldl (fun s k =>
    areaWrite s j (0x1000 + 4096 * i + 8 * k) (BitVec.ofNat 64 (joinBytes ((List.range 8).map fun b =>
      Config.sealedByte key nonce i (segmentPlain i p) (8 * k + b))))) s)

/-- Segments written in order until one does not translate. -/
def writeSegments (s : State) (j : SaveJob) (key : Nat) (nonce : Word) (i : Nat) : List (Nat × List Byte) → State × Bool
  | [] => (s, true)
  | p :: rest =>
    match writeSegment s j key nonce i p with
    | none => (s, false)
    | some s => writeSegments s j key nonce (i + 1) rest

def ctxKeyOf (s : State) (hid : Nat) : Nat := (flaconAt s (worldOf s hid).toNat).ctxKey

/-- A sealed save: nonce and segment count in clear, then the segments; at the first that does not translate it has failed. -/
def saveSealed (s : State) (hid : Nat) (j : SaveJob) : State :=
  let drawn := freshWord s
  let nonce := drawn.1
  let s := drawn.2
  let key := ctxKeyOf s hid
  let segs := sealedStream s hid j.tbuf
  if (areaAt j 0).isNone then failSave s hid j sealedArea
  else
    let s := areaWrite (areaWrite s j 0 nonce) j 8 (BitVec.ofNat 64 segs.length)
    let r := writeSegments s j key nonce 0 segs
    if r.2 = false then failSave r.1 hid j sealedArea
    else
      let h := hartAt r.1 hid
      let s := { r.1 with seals := ⟨key, nonce, segs, h.shape, windowBytes h⟩ :: r.1.seals }
      finishJob (setHart s hid { h with
        conv := none, dirty := 0, vstate := if h.vstate = .absent then .absent else .saved }) hid 2

/-- A stored segment still is what the save wrote. -/
def segmentIntact (s : State) (j : SaveJob) (x : Seal) (i : Nat) : Bool :=
  let plain := segmentPlain i (x.segs[i]?.getD (0, []))
  (List.range 4096).all fun b =>
    match areaAt j (0x1000 + 4096 * i + b) with
    | some pa => !poisoned s.mem pa 1 && viewByte s.mem 0 pa == Config.sealedByte x.key x.nonce i plain b
    | none => false

/-- Doubleword at an offset of the scalar part or window, from a region's bytes; what the region does not hold is undefined
(R7). -/
def fromRegion (base : Nat) (offsets : List Nat) (bs : List Byte) (o : Nat) : Word :=
  match offsets.findIdx? (· == o) with
  | some i => BitVec.ofNat 64 (joinBytes ((bs.drop (8 * i)).take 8))
  | none => freeDw base o

/-- The offsets of the window that a seal's vector region holds, in order: those of the lanes that the saved hart owned. -/
def sealOffsets (x : Seal) : List Nat :=
  (List.range (if x.shape then 16 else 32)).flatMap fun n =>
    (List.range (x.regBytes / 8)).map fun i => 0x10000 + n * (if x.shape then 4096 else 2048) + 8 * i

/-- The first of n segments that ends a restore, and how: STATUS 3 where it does not translate, 5 where it is not what the save
wrote (R261). -/
def firstBroken (s : State) (j : SaveJob) (x : Seal) (n : Nat) : Option (BitVec 8) :=
  (List.range n).findSome? fun i =>
    if (areaAt j (0x1000 + 4096 * i)).isNone then some 3 else if segmentIntact s j x i then none else some 5

/-- A sealed restore (R261): STATUS 4 off the flacon, else that of the first segment that fails; a segment count that the save
did not write fails after the segments that there are. -/
def restoreSealed (s : State) (hid : Nat) (j : SaveJob) (scalar window : Bool) : State :=
  match areaRead s j 0, areaRead s j 8 with
  | some nonce, some count =>
    match s.seals.find? (·.nonce == nonce) with
    | none => failRestore s hid scalar window j.tbuf 5
    | some x =>
      if x.key ≠ ctxKeyOf s hid then finishJob (dropVectors s hid) hid 4
      else
        match firstBroken s j x (min count.toNat x.segs.length) with
        | some o => failRestore s hid scalar window j.tbuf o
        | none =>
          if count.toNat ≠ x.segs.length then failRestore s hid scalar window j.tbuf 5
          else
            let base := s.free
            let s := { s with free := base + 0x40000 }
            let s := if scalar then restoreFields s hid (fromRegion base scalarOffsets (sealRegion x 0)) else s
            let s := if window then restoreWindow s hid (fromRegion base (sealOffsets x) (sealRegion x 1)) else s
            let s := if j.tbuf then restoreBuffers s hid x else s
            finishJob s hid 2
  | _, _ => failRestore s hid scalar window j.tbuf 3

/-! ### Commands (R258, R265, R266) -/

/-- A vector restore is stored while the page's hart owns no lane cluster (R267). -/
def noLanes (h : Hart) (c : SaveCmd) : Bool :=
  match c with
  | .restoreVector | .restoreAll => windowBytes h == 0
  | .save | .saveAll | .restoreScalar => false

def isSave : SaveCmd → Bool
  | .save | .saveAll => true
  | .restoreScalar | .restoreVector | .restoreAll => false

/-- What a command that fails with STATUS 4 leaves (R259, R267): a save's area undefined, a restore's page with VSTATE ABSENT. -/
def failCommand (s : State) (hid : Nat) (j : SaveJob) (size : Nat) : State :=
  if isSave j.cmd then scrambleArea s j size else dropVectors s hid

/-- A store to SAVECMD (R258): ignored while busy; STATUS 4 at once on a running page, whose vector state stands (R255; log 63);
else busy, with its area translated now under the storing agent's rule, or with the outcome of a command that fails before it reads
anything (R267). -/
def storeSavecmd (s : State) (ag : Agent) (hid : Nat) (v : Word) : State :=
  let h := hartAt s hid
  if h.saveStatus = 1 then s
  else
    let cmd : Option SaveCmd :=
      match field v 0 4 with
      | 1 => some .save | 2 => some .saveAll | 3 => some .restoreScalar | 4 => some .restoreVector | 5 => some .restoreAll
      | _ => none
    let secret := worldOf s hid ≠ 0
    let size := if secret then sealedArea else plainArea
    let bad := field v 5 3 ≠ 0 || (bit v 4 && !secret) || cmd.isNone
    let c := cmd.getD .save
    let area := if cmd.isNone then [] else areaPages s ag (if isSave c then saveWrite else saveRead) h.saveptr size
    let fails := bad || noLanes h c
    let j : SaveJob := ⟨c, bit v 4, ag, h.saveptr, area, if fails then some 4 else none⟩
    if running h then
      let s := if isSave c && cmd.isSome then scrambleArea s j size else s
      setHart s hid { hartAt s hid with saveStatus := 4, lastArea := none }
    else
      let s := if fails && cmd.isSome then failCommand s hid j size else s
      setHart s hid { hartAt s hid with saveStatus := 1, saveJob := some j }

/-- A transfer that bypasses the caches (R259) waits while a page of its area is being moved (R317). -/
def areaMoving (s : State) (j : SaveJob) : Bool := j.area.any fun p => p.any fun pa => moving s (pa / 2 ^ 19)

/-- The transfer of a command that a page's SAVECMD holds and that has not been made. -/
def runJob (s : State) (hid : Nat) (c : SaveCmd) (f : State → SaveJob → State) : Result :=
  match (hartAt s hid).saveJob with
  | some j => if j.cmd = c && j.outcome.isNone && !areaMoving s j then .next (f s j) else .next s
  | none => .next s

def anySave (s : State) (hid : Nat) (j : SaveJob) (all : Bool) : State :=
  if worldOf s hid ≠ 0 then saveSealed s hid j else savePlain s hid j all

def anyRestore (s : State) (hid : Nat) (j : SaveJob) (scalar window : Bool) : State :=
  if worldOf s hid ≠ 0 then restoreSealed s hid j scalar window else restorePlain s hid j scalar window

/-- SAVE (R259, R261). -/
def execSave (hid : Nat) (s : State) : Result := runJob s hid .save fun s j => anySave s hid j false
/-- SAVE_ALL. -/
def execSaveAll (hid : Nat) (s : State) : Result := runJob s hid .saveAll fun s j => anySave s hid j true
/-- RESTORE_SCALAR. -/
def execRestoreScalar (hid : Nat) (s : State) : Result := runJob s hid .restoreScalar fun s j => anyRestore s hid j true false
/-- RESTORE_VECTOR (R267). -/
def execRestoreVector (hid : Nat) (s : State) : Result := runJob s hid .restoreVector fun s j => anyRestore s hid j false true
/-- RESTORE_ALL (R267). -/
def execRestoreAll (hid : Nat) (s : State) : Result := runJob s hid .restoreAll fun s j => anyRestore s hid j true true

/-- SAVECMD_COMPLETE (R258, R266): STATUS is published, and LASTAREA follows. -/
def completeJob (s : State) (hid : Nat) : State :=
  let h := hartAt s hid
  match h.saveJob with
  | some j =>
    match j.outcome with
    | some o => setHart s hid { h with saveStatus := o, saveJob := none, lastArea := if o = 2 then some j.ptr else none }
    | none => s
  | none => s

def execSavecmdComplete (hid : Nat) (s : State) : Result := .next (completeJob s hid)

end Sys2Proof.Machine
end

