-- ==== Sys2Proof/Machine/Control.lean ====
section
/-! DEFINITION. The control region (R314, R315): where each page lies, loads and 8-byte stores at a PA, the capability
list (R318, R319), and requests that reach the control region or memory through the host link (R182, R358). -/

namespace Sys2Proof.Machine

/-! ### Where the pages sit (R314) -/

inductive CtlPage where
  | context (hid : Nat)
  | queue (qi : Nat)
  | copy (core : Nat)
  | accord (hub : Nat)
  | team (t : Nat)
  | security
  | keySlot (k : Nat)
  | flacon (f : Nat)
  | vi (v : Nat)
  | house (n : Nat)
  | frameMap (n : Nat)
  | reserved
deriving DecidableEq, Repr

/-- The bases of the classes, in the order of R314. -/
def classBases : List Nat :=
  [0xC00000000000, 0xC00100000000, 0xC00200000000, 0xC00280000000, 0xC00300000000, 0xC00400000000, 0xC00480000000,
   0xC00500000000, 0xC00600000000, 0xC00700000000]

/-- Page of a class with a number of pages, if the PA names one. -/
def pageIn (pa base pages : Nat) : Option Nat :=
  if base ≤ pa && decide ((pa - base) / 2 ^ 19 < pages) then some ((pa - base) / 2 ^ 19) else none

/-- The control page of a PA. -/
def ctlPage (pa : Nat) : CtlPage :=
  match pageIn pa 0xC00000000000 3072 with
  | some i => .context i
  | none =>
  match pageIn pa 0xC00100000000 4096 with
  | some i => .queue i
  | none =>
  match pageIn pa 0xC00200000000 768 with
  | some i => .copy i
  | none =>
  match pageIn pa 0xC00280000000 4 with
  | some i => .accord i
  | none =>
  match pageIn pa 0xC00300000000 4096 with
  | some i => .team i
  | none =>
  match pageIn pa 0xC00400000000 256 with
  | some i => if i = 0 then .security else .keySlot i
  | none =>
  match pageIn pa 0xC00480000000 256 with
  | some i => if i = 0 then .reserved else .flacon i
  | none =>
  match pageIn pa 0xC00500000000 64 with
  | some i => .vi i
  | none =>
  match pageIn pa 0xC00600000000 8 with
  | some i => .house i
  | none =>
  match pageIn pa 0xC00700000000 23 with
  | some i => .frameMap i
  | none => .reserved

/-! ### The capability list (R318, R319, R351, R368, R404) -/

/-- Lane cluster l of core c is in service. -/
def inService (s : State) (c l : Nat) : Bool := !(coreAt s c).retired.getLsbD l

def computeBody (s : State) : List Word :=
  let cores := ((List.range Config.cores).filter fun c => !coreRetired s c).length
  let lcs := ((List.range (4 * Config.cores)).filter fun i => inService s (i / 4) (i % 4)).length
  BitVec.ofNat 64 (lcs * 2 ^ 16 + cores) ::
    (List.range 48).map fun d =>
      BitVec.ofNat 64 ((List.range 64).foldl (fun n b =>
        n + if inService s ((64 * d + b) / 4) (b % 4) then 2 ^ b else 0) 0)

/-- Identifier and body of each entry. -/
def capEntries (s : State) : List (Nat × List Word) :=
  [(1, [0x00000A2400000720, Config.stepping.setWidth 64, Config.moduleId.setWidth 64]),
   (2, computeBody s),
   (3, [0xB400000000, 12]),
   (4, classBases.map (BitVec.ofNat 64)),
   (5, [BitVec.ofNat 64 (16 * 256 + 64)]),
   (6, [BitVec.ofNat 64 (280 * 2 ^ 32 + 3900), BitVec.ofNat 64 (209280 * 2 ^ 32 + 150)]),
   (7, [BitVec.ofNat 64 (10 * 2 ^ 32 + 192 * 2 ^ 16 + 108), BitVec.ofNat 64 (0x100000 * 2 ^ 32 + 10000)]),
   (8, [BitVec.ofNat 64 (64 * 2 ^ 32 + 16 * 2 ^ 16 + 255 * 2 ^ 8 + 255), 0x1000]),
   (9, [BitVec.ofNat 64 (16 * 2 ^ 48 + 256 * 2 ^ 32 + 128 * 2 ^ 24 + 36 * 2 ^ 16 + Config.moduleId.toNat),
        BitVec.ofNat 64 (40 * 2 ^ 16 + 192)])]

/-- The entries laid out from an offset, one unused doubleword after each (log 31). -/
def layCaps (off : Nat) (l : List (Nat × List Word)) : List Word :=
  match l with
  | [] => []
  | (id, body) :: rest =>
    let next := off + 8 + 8 * body.length + 8
    let head := BitVec.ofNat 64 ((if rest.isEmpty then 0 else next) * 2 ^ 48 + body.length * 2 ^ 32 + 2 ^ 16 + id)
    (head :: body) ++ 0 :: layCaps next rest

def capFirst : Nat := 0x10

def capDw (s : State) (off : Nat) : Word :=
  let l := capEntries s
  if off = 0 then BitVec.ofNat 64 (l.length * 2 ^ 16 + capFirst)
  else if off < capFirst then 0
  else (layCaps capFirst l)[(off - capFirst) / 8]?.getD 0

/-! ### Loads -/

def houseDw (s : State) (n off : Nat) : Word :=
  if n = 0 then capDw s off
  else if n = 1 then calendarDw s off
  else if n = 2 then powerDw s off
  else if n = 3 then resetDw s off
  else if n = 4 then errlogDw s off
  else if n = 5 then hallmarkDw s off
  else 0

/-- The doubleword at an 8-byte aligned PA of the control region, as an agent reads it under a key of R201; a read has no other
effect than to take free values (log 8), to wake gated lanes (R212), and to hold a queue's image (R201). -/
def ctlReadAs (s : State) (ag : Agent) (key pa : Nat) : Word × State :=
  let off := pa % 2 ^ 19
  match ctlPage pa with
  | .context hid => ctxLoad s ag key hid off
  | .queue qi => (queueDw s qi off, s)
  | .accord hub => (engineDw s hub off, s)
  | .team t => (teamDw s t off, s)
  | .security => (secDw s off, s)
  | .keySlot k => (keyDw s k off, s)
  | .flacon f => (flaconDw s f off, s)
  | .vi v => (viDw s v off, s)
  | .house n => (houseDw s n off, s)
  | .frameMap n => (frameDw s (65536 * n + off / 8), s)
  | .copy _ | .reserved => (0, s)

/-- The doubleword as an agent other than an E-word reads it. -/
def ctlRead (s : State) (ag : Agent) (pa : Nat) : Word × State := ctlReadAs s ag 0 pa

/-! ### Stores of 8 bytes (R101, R106, R166, R184) -/

/-- A store to a context page (R255, R354). -/
def ctxStore (s : State) (ag : Agent) (hid off : Nat) (v : Word) : State :=
  if off = 0 then storeControl s ag hid v
  else if off = 0x22008 then storeSavecmd s ag hid v
  else if !sameWorld s ag hid then
    if off = 0x22000 && !running (hartAt s hid) then storeField s hid off v else s
  else if off = 0x22010 then storeReclaim s hid v
  else if running (hartAt s hid) then s
  else if 0x21000 ≤ off && off < 0x22000 then storeWindow s ag hid off v
  else storeField (ungate s hid off) hid off v

/-- A store to a page of an Accord engine: only its group entries take one. -/
def storeAccord (s : State) (hub off : Nat) (v : Word) : State :=
  if 0x1000 ≤ off && off < 0x5000 then storeGroup s hub ((off - 0x1000) / 64) ((off - 0x1000) % 64 / 8) v else s

def ctlWrite (s : State) (ag : Agent) (pa : Nat) (v : Word) : State :=
  let off := pa % 2 ^ 19
  match ctlPage pa with
  | .context hid => ctxStore s ag hid off v
  | .queue qi => storeQueuePage s ag qi off v
  | .accord hub => storeAccord s hub off v
  | .security => storeSec s off v
  | .keySlot k => if off = 0 then storeKctl s k v else s
  | .flacon f => storeFlaconPage s f off v
  | .vi x => storeViPage s ag x off v
  | .house n => if n = 2 then storePower s off v else if n = 3 then storeResetPage s off v else s
  | .copy _ | .team _ | .frameMap _ | .reserved => s

/-- CONTROL_REGISTER_WRITE (R101, R106, R185): an 8-byte store that reaches a control page. -/
def execControlRegisterWrite (ag : Agent) (pa : Nat) (v : Word) (s : State) : Result :=
  .next (if pa % 8 = 0 then ctlWrite s ag pa v else s)

/-- A trap-sink store that waits for its control page (log 27). -/
def performPosted (s : State) : State :=
  match s.posted with
  | [] => s
  | p :: rest => ctlWrite { s with posted := rest } p.ag p.pa p.value

/-! ### Requests on the host link (R182, R311, R331, R358, R375) -/

/-- A posted write of the host that reaches a control page: one of 8 bytes, aligned, has the page's write effect (R101). -/
def hostControlWrite (s : State) (vi pa : Nat) (bs : List Byte) : State :=
  if pa % 8 = 0 && bs.length = 8 then ctlWrite s (.host vi) pa (BitVec.ofNat 64 (joinBytes bs)) else s

/-- A posted write through the function of a VI to bytes of one page. What the host writes into its own memory no cached line of
the device sees (R328). -/
def hostWritePage (s : State) (vi via : Nat) (bs : List Byte) : State :=
  match stageTwo s vi via with
  | none => s
  | some p =>
    if p.key ≠ 0 then { s with aer := s.aer ++ [⟨vi, false⟩] }
    else if p.kind = 3 then hostControlWrite s vi p.pa bs
    else { s with mem := writeBytes s.mem 0 p.pa bs }

/-- A posted write, on one page or two. -/
def hostWrite (s : State) (vi via : Nat) (bs : List Byte) : State :=
  let room := 2 ^ 19 - via % 2 ^ 19
  let s := hostWritePage s vi via (bs.take room)
  if bs.length ≤ room then s else hostWritePage s vi (via + room) (bs.drop room)

/-- HOST_MEMORY_WRITE (R182): to device memory or a control page; to a kind-2 address, the host's own memory changes
(log 24). -/
def execHostMemoryWrite (vi via : Nat) (bs : List Byte) (s : State) : Result :=
  .next (hostWrite s vi via bs)

/-- A compare-and-swap of a doubleword by the host (R331), atomic toward every agent; log 58. -/
def hostCas (s : State) (vi via : Nat) (expected new : Word) : State :=
  match stageTwo s vi via with
  | none => s
  | some p =>
    if p.key ≠ 0 || p.kind = 3 || via % 8 ≠ 0 then s
    else if BitVec.ofNat 64 (readMem s.mem 0 p.pa 8) = expected then { s with mem := writeMem s.mem 0 p.pa 8 new.toNat }
    else s

/-- A posted write through a BAR of a function (R375): the queue-head pages and the VI page of its VI, the VI's device memory, and,
for the PF, the control region. -/
def barWrite (s : State) (vi bar off : Nat) (bs : List Byte) : State :=
  if 64 ≤ vi then s
  else if bar = 0 then
    if off < 0x2000000 then hostControlWrite s vi (0xC00100000000 + 64 * vi * 2 ^ 19 + off) bs
    else if off < 0x2080000 then hostControlWrite s vi (0xC00500000000 + vi * 2 ^ 19 + (off - 0x2000000)) bs
    else s
  else if bar = 2 then
    if off + bs.length ≤ 2 ^ 39 then hostWrite s vi off bs else s
  else if bar = 4 && vi = 0 && decide (off < 2 ^ 35) then hostControlWrite s vi (Config.ctlBase + off) bs
  else s

/-- n bytes of a control page as the host reads them (R101). -/
def hostControlRead (s : State) (vi pa n : Nat) : List Byte × State :=
  let first := pa / 8
  let r := (List.range ((pa + n + 7) / 8 - first)).foldl (fun r i =>
    let d := ctlRead r.2 (.host vi) (8 * (first + i))
    (r.1 ++ splitBytes 8 d.1.toNat, d.2)) (([] : List Byte), s)
  ((r.1.drop (pa % 8)).take n, r.2)

/-- Bytes of one page as a read through the function of a VI finds them: of a keyed page the stored ciphertext (R358). Where stage 2
maps nothing there are none (log 58). -/
def hostReadPage (s : State) (vi via n : Nat) : Option (List Byte) × State :=
  match stageTwo s vi via with
  | none => (none, s)
  | some p =>
    if p.kind = 3 then
      let r := hostControlRead s vi p.pa n
      (some r.1, r.2)
    else (some (freshBytesAt s.mem p.pa n), s)

/-- A read of n bytes through a BAR of a function (R375): what it gives, where the BAR maps it, and the state after it. -/
def barRead (s : State) (vi bar off n : Nat) : Option (List Byte) × State :=
  let page (pa : Nat) : Option (List Byte) × State :=
    let r := hostControlRead s vi pa n
    (some r.1, r.2)
  if 64 ≤ vi then (none, s)
  else if bar = 0 then
    if off + n ≤ 0x2000000 then page (0xC00100000000 + 64 * vi * 2 ^ 19 + off)
    else if 0x2000000 ≤ off && off + n ≤ 0x2080000 then page (0xC00500000000 + vi * 2 ^ 19 + (off - 0x2000000))
    else (none, s)
  else if bar = 2 && decide (off + n ≤ 2 ^ 39) then
    let room := min n (2 ^ 19 - off % 2 ^ 19)
    let a := hostReadPage s vi off room
    let b := if n ≤ room then (some [], a.2) else hostReadPage a.2 vi (off + room) (n - room)
    (a.1.bind fun x => b.1.map (x ++ ·), b.2)
  else if bar = 4 && vi = 0 && decide (off + n ≤ 2 ^ 35) then page (Config.ctlBase + off)
  else (none, s)

/-- The Device Serial Number of the PF (R375). -/
def serialNumber : Word := Config.moduleId.setWidth 64

end Sys2Proof.Machine
end

