-- ==== Sys2Proof/Machine/Scalar.lean ====
section
/-! DEFINITION. G-words without memory: integer arithmetic (R87 to R91), scalar floating point (R92 to R94),
branches and jumps (R95, R96). -/

namespace Sys2Proof.Machine

/-- sext of an immediate (R88). -/
def sext14 (i : BitVec 14) : Word := i.signExtend 64
def sext20 (i : BitVec 20) : Word := i.signExtend 64

/-! ### ALU-R (R87) -/

/-- A two-source word: both sources are read before the destination is written (R82). -/
def alu (f : Word → Word → Word) (d a b : Reg) (s : State) : Result :=
  .next (retire s d (f (rd (curHart s) a) (rd (curHart s) b)))

/-- A one-source word. -/
def alu1 (f : Word → Word) (d a : Reg) (s : State) : Result := .next (retire s d (f (rd (curHart s) a)))

/-- High half of a product of two numbers. -/
def highHalf (x : Int) : Word := BitVec.ofInt 64 (x / 2 ^ 64)

def leadingZeros (x : Word) : Nat := if x = 0 then 64 else 63 - Nat.log2 x.toNat
def popCount (x : Word) : Nat := (List.range 64).foldl (fun n i => if x.getLsbD i then n + 1 else n) 0

/-- Division (R39, R87): by zero all ones, of the most negative by −1 itself. -/
def divS (a b : Word) : Word := if b = 0 then allOnes64 else BitVec.ofInt 64 (a.toInt.tdiv b.toInt)
def divU (a b : Word) : Word := if b = 0 then allOnes64 else BitVec.ofNat 64 (a.toNat / b.toNat)
def remS (a b : Word) : Word := if b = 0 then a else BitVec.ofInt 64 (a.toInt.tmod b.toInt)
def remU (a b : Word) : Word := if b = 0 then a else BitVec.ofNat 64 (a.toNat % b.toNat)

/-- The shift amount B[5:0]. -/
def shamt (b : Word) : Nat := b.toNat % 64

def minS (a b : Word) : Word := if a.toInt ≤ b.toInt then a else b
def maxS (a b : Word) : Word := if a.toInt ≤ b.toInt then b else a
def minU (a b : Word) : Word := if a.toNat ≤ b.toNat then a else b
def maxU (a b : Word) : Word := if a.toNat ≤ b.toNat then b else a

def execAdd (d a b : Reg) (s : State) : Result := alu (fun a b => a + b) d a b s
def execSub (d a b : Reg) (s : State) : Result := alu (fun a b => a - b) d a b s
def execAnd (d a b : Reg) (s : State) : Result := alu (fun a b => a &&& b) d a b s
def execOr (d a b : Reg) (s : State) : Result := alu (fun a b => a ||| b) d a b s
def execXor (d a b : Reg) (s : State) : Result := alu (fun a b => a ^^^ b) d a b s
def execShl (d a b : Reg) (s : State) : Result := alu (fun a b => a <<< shamt b) d a b s
def execShr (d a b : Reg) (s : State) : Result := alu (fun a b => a >>> shamt b) d a b s
def execSar (d a b : Reg) (s : State) : Result := alu (fun a b => a.sshiftRight (shamt b)) d a b s
def execMul (d a b : Reg) (s : State) : Result := alu (fun a b => a * b) d a b s
def execMulh (d a b : Reg) (s : State) : Result := alu (fun a b => highHalf (a.toInt * b.toInt)) d a b s
def execMulhu (d a b : Reg) (s : State) : Result := alu (fun a b => highHalf ((a.toNat : Int) * b.toNat)) d a b s
def execDiv (d a b : Reg) (s : State) : Result := alu divS d a b s
def execDivu (d a b : Reg) (s : State) : Result := alu divU d a b s
def execRem (d a b : Reg) (s : State) : Result := alu remS d a b s
def execRemu (d a b : Reg) (s : State) : Result := alu remU d a b s
def execMin (d a b : Reg) (s : State) : Result := alu minS d a b s
def execMax (d a b : Reg) (s : State) : Result := alu maxS d a b s
def execMinu (d a b : Reg) (s : State) : Result := alu minU d a b s
def execMaxu (d a b : Reg) (s : State) : Result := alu maxU d a b s
def execSlt (d a b : Reg) (s : State) : Result := alu (fun a b => ofBool64 (decide (a.toInt < b.toInt))) d a b s
def execSltu (d a b : Reg) (s : State) : Result := alu (fun a b => ofBool64 (decide (a.toNat < b.toNat))) d a b s
def execSeq (d a b : Reg) (s : State) : Result := alu (fun a b => ofBool64 (a == b)) d a b s
def execClz (d a : Reg) (s : State) : Result := alu1 (fun a => BitVec.ofNat 64 (leadingZeros a)) d a s
def execPopc (d a : Reg) (s : State) : Result := alu1 (fun a => BitVec.ofNat 64 (popCount a)) d a s

/-! ### Immediates (R88 to R91) -/

def execAddi (d a : Reg) (i : BitVec 14) (s : State) : Result := alu1 (fun a => a + sext14 i) d a s
def execAndi (d a : Reg) (i : BitVec 14) (s : State) : Result := alu1 (fun a => a &&& sext14 i) d a s
def execOri (d a : Reg) (i : BitVec 14) (s : State) : Result := alu1 (fun a => a ||| sext14 i) d a s
def execXori (d a : Reg) (i : BitVec 14) (s : State) : Result := alu1 (fun a => a ^^^ sext14 i) d a s
def execSlti (d a : Reg) (i : BitVec 14) (s : State) : Result :=
  alu1 (fun a => ofBool64 (decide (a.toInt < (sext14 i).toInt))) d a s
def execSltiu (d a : Reg) (i : BitVec 14) (s : State) : Result :=
  alu1 (fun a => ofBool64 (decide (a.toNat < (sext14 i).toNat))) d a s
def execShli (d a n : Reg) (s : State) : Result := alu1 (fun a => a <<< n.toNat) d a s
def execShri (d a n : Reg) (s : State) : Result := alu1 (fun a => a >>> n.toNat) d a s
def execSari (d a n : Reg) (s : State) : Result := alu1 (fun a => a.sshiftRight n.toNat) d a s
def execLui (d : Reg) (i : BitVec 20) (s : State) : Result := .next (retire s d (sext20 i <<< 14))
/-- LIL is three words long (R12). -/
def execLil (d : Reg) (lit : Word) (s : State) : Result := .next (setCur s (nextPc (wr (curHart s) d lit) 12))
def execAuipc (d : Reg) (i : BitVec 20) (s : State) : Result :=
  .next (retire s d ((curHart s).pc + (sext20 i <<< 14)))

/-- A mask of width w1 + 1 bits (R91). -/
def widthMask (w1 : Reg) : Word := allOnes64 >>> (63 - w1.toNat)

def insertField (old a : Word) (p w1 : Reg) : Word :=
  let m := widthMask w1 <<< p.toNat
  (old &&& ~~~m) ||| ((a <<< p.toNat) &&& m)

def execIns (d a p w : Reg) (s : State) : Result :=
  .next (retire s d (insertField (rd (curHart s) d) (rd (curHart s) a) p w))
def execExt (d a p w : Reg) (s : State) : Result := alu1 (fun a => (a >>> p.toNat) &&& widthMask w) d a s

/-! ### Scalar floating point (R92 to R94) -/

/-- Bits [31:0] of a register (R13). -/
def low32 (x : Word) : Nat := x.toNat % 2 ^ 32

/-- The FP32 value in a register; no FTZ applies to G-words (R92). -/
def single (x : Word) : FVal := unpack fmtSingle false (low32 x)

/-- The result goes to bits [31:0], zero above, and the flags are ORed into VXSR (R13, R92). -/
def retireFp (s : State) (d : Reg) (r : FRes) : State :=
  setCur s (nextPc (orFlags (wr (curHart s) d (BitVec.ofNat 64 r.1)) r.2) 4)

/-- A scalar FP word of two sources. -/
def fpWord (f : Word → Word → FRes) (d a b : Reg) (s : State) : Result :=
  .next (retireFp s d (f (rd (curHart s) a) (rd (curHart s) b)))

def execFadd (d a b : Reg) (r : RM) (s : State) : Result :=
  fpWord (fun a b => fAdd fmtSingle r false (single a) (single b)) d a b s
def execFsub (d a b : Reg) (r : RM) (s : State) : Result :=
  fpWord (fun a b => fSub fmtSingle r false (single a) (single b)) d a b s
def execFmul (d a b : Reg) (r : RM) (s : State) : Result :=
  fpWord (fun a b => fMul fmtSingle r false (single a) (single b)) d a b s
def execFdiv (d a b : Reg) (r : RM) (s : State) : Result :=
  fpWord (fun a b => fDiv fmtSingle r false (single a) (single b)) d a b s
/-- FMIN and FMAX are exact: the rounding mode has no effect (R93). -/
def execFmin (d a b : Reg) (_ : RM) (s : State) : Result :=
  fpWord (fun a b => fMinMax fmtSingle false (low32 a) (low32 b)) d a b s
def execFmax (d a b : Reg) (_ : RM) (s : State) : Result :=
  fpWord (fun a b => fMinMax fmtSingle true (low32 a) (low32 b)) d a b s
def execFsqrt (d a : Reg) (r : RM) (s : State) : Result :=
  fpWord (fun a _ => fSqrt fmtSingle r false (single a)) d a a s
def execFcvtW (d a : Reg) (r : RM) (s : State) : Result := fpWord (fun a _ => fToInt .i32 r (single a)) d a a s
def execFcvtS (d a : Reg) (r : RM) (s : State) : Result :=
  fpWord (fun a _ => fFromInt fmtSingle r false (intOf .i32 (low32 a))) d a a s

/-- A comparison (R93): any NaN gives 0; NV on any NaN, or on a signalling one only for FEQ. -/
def fpCompare (quiet : Bool) (holds : Ordering → Bool) (a b : FVal) : FRes :=
  if isNan a || isNan b then (0, flagIf (if quiet then isSnan a || isSnan b else true) flagNV)
  else (if holds (fCompare a b) then 1 else 0, 0)

def execFeq (d a b : Reg) (s : State) : Result :=
  fpWord (fun a b => fpCompare true (· == .eq) (single a) (single b)) d a b s
def execFlt (d a b : Reg) (s : State) : Result :=
  fpWord (fun a b => fpCompare false (· == .lt) (single a) (single b)) d a b s
def execFle (d a b : Reg) (s : State) : Result :=
  fpWord (fun a b => fpCompare false (· != .gt) (single a) (single b)) d a b s
def execFma (d a b c : Reg) (s : State) : Result :=
  .next (retireFp s d (fFma fmtSingle .rne false (single (rd (curHart s) a)) (single (rd (curHart s) b))
    (single (rd (curHart s) c))))

/-! ### Branches and jumps (R95, R96) -/

/-- PC moved to a target, after the registers have been written. -/
def jumpTo (s : State) (h : Hart) (target : Word) : State := setCur s { h with pc := target, stalled := false }

/-- A conditional branch: to its own address + 4 · sext(offset), or on (R95). -/
def branch (c : Word → Word → Bool) (a b : Reg) (o : BitVec 14) (s : State) : Result :=
  let h := curHart s
  if c (rd h a) (rd h b) then .next (jumpTo s h (h.pc + sext14 o * 4)) else .next (advance s)

def execBeq (a b : Reg) (o : BitVec 14) (s : State) : Result := branch (fun a b => a == b) a b o s
def execBne (a b : Reg) (o : BitVec 14) (s : State) : Result := branch (fun a b => a != b) a b o s
def execBlt (a b : Reg) (o : BitVec 14) (s : State) : Result := branch (fun a b => decide (a.toInt < b.toInt)) a b o s
def execBge (a b : Reg) (o : BitVec 14) (s : State) : Result := branch (fun a b => decide (b.toInt ≤ a.toInt)) a b o s
def execBltu (a b : Reg) (o : BitVec 14) (s : State) : Result := branch (fun a b => decide (a.toNat < b.toNat)) a b o s
def execBgeu (a b : Reg) (o : BitVec 14) (s : State) : Result := branch (fun a b => decide (b.toNat ≤ a.toNat)) a b o s

def execJal (d : Reg) (i : BitVec 20) (s : State) : Result :=
  let h := curHart s
  .next (jumpTo s (wr h d (h.pc + 4)) (h.pc + sext20 i * 4))

/-- JALR: the target comes from the old s[a]; a target off a multiple of 4 faults and writes nothing (R96). -/
def execJalr (d a : Reg) (i : BitVec 14) (s : State) : Result :=
  let h := curHart s
  let t := rd h a + sext14 i * 4
  if t.toNat % 4 ≠ 0 then .next (gFault s 2 1 t) else .next (jumpTo s (wr h d (h.pc + 4)) t)

end Sys2Proof.Machine
end

