-- ==== Sys2Proof/Machine/VAddr.lean ====
section
/-! DEFINITION. The element addresses of vector memory words (R148 to R150) and the order of a hart's accesses to one control
page (R175, R183). -/

namespace Sys2Proof.Machine

/-- The index element as a 64-bit offset. -/
def indexOf (h : Hart) (e : Entry) (w : EFields) (r i : Nat) : Word :=
  match tyOf e.tagb with
  | some t => BitVec.ofInt 64 (intOf t (srcElem h e w w.b t r i))
  | none => 0

/-- ea(r, e) of R149. -/
def elemAddr (h : Hart) (e : Entry) (w : EFields) (f : AddrForm) (width r i : Nat) : Word :=
  let pitch := if e.rows.toNat > 1 then e.x2 else 0
  let off := match f with
    | .unit => BitVec.ofNat 64 (i * width / 8)
    | .strided => BitVec.ofNat 64 i * e.x1
    | .indexed => indexOf h e w r i
  e.x0 + BitVec.ofNat 64 r * pitch + off

/-- The form of a vector memory word and whether it goes to global memory. -/
def globalForm : EClass → Option AddrForm
  | .vld f .global _ => some f
  | .vst _ f .global => some f
  | .vamo .. => some .indexed
  | _ => none

def vldAccess : Access := ⟨1, 1, false, false, false, false, true⟩

/-- The access of a vector memory word, as far as it decides which page it reaches. -/
def pageAccess : EClass → Access
  | .vst .. => { vldAccess with code := 2 }
  | .vamo .. => { vldAccess with code := 3 }
  | _ => vldAccess

/-- A VLD that fills a load queue. -/
def fillsQueue (c : EClass) : Bool := !(lqWrites c).isEmpty

/-- The positions at which a word is still to be computed: of a load queue, those not yet filled. -/
def keysToRead (e : Entry) (c : EClass) : List Nat :=
  (keysLeft e).filter fun k => !fillsQueue c || decide (e.filled.toNat ≤ k)

/-- Control pages that the positions left of a vector memory word lie in (R183). -/
def ctlPagesOf (s : State) (hid : Nat) (x : Entry × EClass × EFields) : List Nat :=
  match globalForm x.2.1, tyOf (dstType x.1.mode x.1.taga) with
  | some f, some t =>
    let h := hartAt s hid
    (keysToRead x.1 x.2.1).filterMap fun p =>
      if x.1.icx || !activeAt h x.2.2 (keyElem p) then none
      else match translate s hid (pageAccess x.2.1) (elemAddr h x.1 x.2.2 f (tyWidth t) (keyRow p) (keyElem p)) with
        | .ok y => if y.place.kind = 3 then some (y.place.pa / 2 ^ 19) else none
        | .error _ => none
  | _, _ => []

/-- Registers that decide a vector memory word's addresses: its index rows and its mask. -/
def addrUses (c : EClass) (w : EFields) (rows : Nat) : List Nat :=
  (if globalForm c = some .indexed && isVec w.b then (List.range rows).map (w.b.toNat + ·) else []) ++
    ((maskReads c w).filter (· != 0)).map (32 + ·)

/-- A queued word of a hart may still access one of some control pages: an element address lies in one, or a word that is still
to run decides the addresses (R183). -/
def queuedOnPage (s : State) (hid : Nat) (page : Nat → Bool) (written : List Nat) : List Entry → Bool
  | [] => false
  | e :: rest =>
    if e.complete then queuedOnPage s hid page written rest
    else
      match queuedClass e.word with
      | none => queuedOnPage s hid page written rest
      | some (c, w) =>
        let rows := e.rows.toNat
        ((globalForm c).isSome && !(keysToRead e c).isEmpty &&
            (overlap (addrUses c w rows) written || (ctlPagesOf s hid (e, c, w)).any page)) ||
          queuedOnPage s hid page (written ++ (usesOf c w rows).writes) rest

/-- A G-word's access to a control page has to wait for the hart's queue (R183). -/
def pageBusy (s : State) (hid pa : Nat) : Bool := queuedOnPage s hid (· == pa / 2 ^ 19) [] (hartAt s hid).queue

/-- A control-page access of the hart's queue has still to perform (R107). -/
def ctlBusy (s : State) (hid : Nat) : Bool := queuedOnPage s hid (fun _ => true) [] (hartAt s hid).queue

end Sys2Proof.Machine
end

