-- ==== Sys2Proof/Machine/ScalarMem.lean ====
section
/-! DEFINITION. The G-words that access memory (R98 to R110): loads, stores, atomics, fences and WAIT. -/

namespace Sys2Proof.Machine

/-- Bytes of a GM size. -/
def sizeBytes : Size → Nat
  | .b => 1 | .h => 2 | .w => 4 | .d => 8

/-- ea of a GM word (R98). -/
def gmAddr (h : Hart) (a : Reg) (f : BitVec 9) (n : Nat) : Word := rd h a + f.signExtend 64 * BitVec.ofNat 64 n

/-- n bytes read at a place by the current hart: the doubleword of a control page (R101), or memory (R272). None where a
byte is poisoned. -/
def readPlace (s : State) (p : Place) (n : Nat) : Option (Nat × State) :=
  if p.kind = 3 then
    let r := ctlRead s (.hart s.cur) (p.pa / 8 * 8)
    some (bitsAt r.1 (8 * (p.pa % 8)) (8 * n), r.2)
  else
    let s := drainOverlap s s.cur p.pa n
    if poisoned s.mem p.pa n then none else some (devMem s.mem (epochOf s p.key) p.pa n, s)

/-- n bytes written at a place by the current hart; a control page takes only 8-byte stores (R101). -/
def writePlace (s : State) (p : Place) (n : Nat) (v : Word) : State :=
  if p.kind = 3 then (if n = 8 then ctlWrite s (.hart s.cur) p.pa v else s)
  else
    let s := drainOverlap s s.cur p.pa n
    hartStore s s.cur (epochOf s p.key) p.pa (splitBytes n v.toNat)

/-- The current hart's access has to wait: one hart's accesses to one control page perform in program order (R183). -/
def mustWait (s : State) (p : Place) : Bool := p.kind == 3 && pageBusy s s.cur p.pa

/-- A release by the current hart at a scope (R99, R105, R107, R181): its waiting stores perform, and at system scope what the
caches hold of the host window is sent. -/
def releaseAt (s : State) (sc : Scope) : State := if sc = .system then releaseStores s s.cur else drainWc s s.cur

/-- A plain scalar read: the value, or the state after the trap that it takes or in which it waits. -/
def scalarRead (s : State) (va : Word) (n : Nat) : Except State (Nat × State) :=
  match translate s s.cur (loadAccess n) va with
  | .error f => .error (gXfail s 1 va f)
  | .ok x =>
    if mustWait s x.place then .error (waiting s)
    else
      match readPlace (cacheXlat s x) x.place n with
      | none => .error (gFault s 9 0 va)
      | some r => .ok r

/-- The extended value of a load (R98). -/
def extended (n v : Nat) (signed : Bool) : Word := if signed then (BitVec.ofNat (8 * n) v).signExtend 64 else BitVec.ofNat 64 v

/-- LD (R98 to R101). -/
def execLd (d a : Reg) (z : Size) (_o : Order) (x : Bool) (f : BitVec 9) (s : State) : Result :=
  let n := sizeBytes z
  match scalarRead s (gmAddr (curHart s) a f n) n with
  | .error s => .next s
  | .ok (v, s) => .next (retire s d (extended n v x))

/-- A store that has executed waits: a non-temporal one in write combining (R99), a plain one in the store path (R172). It comes
after every store of this hart that waits, so stores that overlap perform in their order. -/
def combine (s : State) (nt : Bool) (p : Place) (n : Nat) (v : Word) : State :=
  let h := curHart s
  setCur s { h with wc := h.wc ++ [⟨nt, p.pa, epochOf s p.key, n, v, s.pt⟩] }

/-- ST (R98 to R101). A release first makes every earlier store perform (R99); a plain store to memory performs at once, or
waits where the turn says so (R172, log 2). -/
def execSt (d a : Reg) (z : Size) (o : Order) (f : BitVec 9) (s : State) : Result :=
  let n := sizeBytes z
  let va := gmAddr (curHart s) a f n
  let v := rd (curHart s) d
  match translate s s.cur (storeAccess n) va with
  | .error e => .next (gXfail s 2 va e)
  | .ok x =>
    if mustWait s x.place then .next (waiting s)
    else
      let s := cacheXlat s x
      let s := if o = .sync then releaseStores s s.cur else s
      if (o = .nt || (o = .plain && s.storeLate)) && x.place.kind ≠ 3 then .next (advance (combine s (o == .nt) x.place n v))
      else .next (advance (writePlace s x.place n v))

/-! ### Atomics (R103 to R106) -/

def amoAccess (noHost : Bool) : Access := ⟨3, 8, true, false, noHost, false, false⟩

/-- f of R103. -/
def amoOp (p : AmoOp) (old v : Word) : Word :=
  match p with
  | .add => old + v | .and => old &&& v | .or => old ||| v | .xor => old ^^^ v
  | .min => minS old v | .max => maxS old v | .minu => minU old v | .maxu => maxU old v | .swap => v

/-- Operations that a PCI Express AtomicOp carries (R106). -/
def hostCarries : AmoOp → Bool
  | .add | .swap => true
  | .and | .or | .xor | .min | .max | .minu | .maxu => false

/-- A line of the host window that the device holds is written back and discarded before the host's memory is asked: by an
atomic, which the host link carries (R106), and by a WAIT (R110). -/
def askHost (s : State) (p : Place) : State := if p.kind = 2 then { s with mem := dropLine s.mem (p.pa / 128) } else s

/-- One indivisible read-modify-write of a doubleword: the old value, and the value to write if any. sc: the scope of its
release, if it is one. -/
def atomicAt (d a : Reg) (noHost : Bool) (sc : Option Scope) (f : Word → Option Word) (s : State) : Result :=
  let va := rd (curHart s) a
  match translate s s.cur (amoAccess noHost) va with
  | .error e => .next (gXfail s 3 va e)
  | .ok x =>
    if mustWait s x.place then .next (waiting s)
    else
      let s := cacheXlat s x
      let s := match sc with
        | some sc => releaseAt s sc
        | none => s
      match readPlace (askHost s x.place) x.place 8 with
      | none => .next (gFault s 9 0 va)
      | some (v, s) =>
        let old := BitVec.ofNat 64 v
        let s := match f old with
          | some w => writePlace s x.place 8 w
          | none => s
        .next (retire s d old)

/-- AMO (R103, R105, R106). -/
def execAmo (d a b : Reg) (p : AmoOp) (sc : Scope) (r : Bool) (s : State) : Result :=
  let v := rd (curHart s) b
  atomicAt d a (!hostCarries p) (if r then some sc else none) (fun old => some (amoOp p old v)) s

/-- CAS (R104 to R106). -/
def execCas (d a b : Reg) (sc : Scope) (r : Bool) (s : State) : Result :=
  let expected := rd (curHart s) d
  let v := rd (curHart s) b
  atomicAt d a false (if r then some sc else none) (fun old => if old = expected then some v else none) s

/-! ### Waiting for queued E-words, and closing the convoy (R79, R80, R202) -/

/-- A G-word that closes the convoy and waits as WAITV does. -/
def closeAndWait (s : State) (k : State → Result) : Result :=
  let h := curHart s
  if !canClose h then .next (gFault s 6 0 0)
  else
    let s := setCur s { h with conv := none }
    if h.queue.isEmpty then k s else .next (waiting s)

/-! ### Fences (R107, R108) -/

/-- What a FENCE has made perform when it completes (R107, R181): kind W the stores that wait, kinds W and V at system scope
what the caches hold of the host window. Loads have performed already (log 3); after kind IO the image of a queue is read anew
(R201). -/
def fenced (s : State) (sc : Scope) (k : BitVec 5) : State :=
  let s := if k.getLsbD 1 then drainWc s s.cur else s
  let s := if (k.getLsbD 1 || k.getLsbD 2) && sc = .system then { s with mem := cleanAll s.mem } else s
  if k.getLsbD 3 then setCur s { curHart s with images := (curHart s).images.filter fun x => x.reader != 0 } else s

/-- FENCE: kind V (bit 2) waits as WAITV does, kind IO (bit 3) for the control-page accesses of the queue. -/
def execFence (sc : Scope) (k : BitVec 5) (s : State) : Result :=
  let done (s : State) : Result :=
    .next (if k.getLsbD 3 && ctlBusy s s.cur then waiting s else advance (fenced s sc k))
  if k.getLsbD 2 then closeAndWait s done else done s

/-- Every cached translation removed that was derived from an entry that a hart has stored to (R108, R304). -/
def dropStored (s : State) (hid : Nat) : State := { s with tlb := s.tlb.filter fun t => !t.storedBy.contains hid }

/-- TFENCE (R108): the hart's stores perform, and what they have made stale is removed. -/
def execTfence (s : State) : Result :=
  closeAndWait s fun s => .next (advance (dropStored (drainWc s s.cur) s.cur))

/-! ### WAIT (R109, R110) -/

/-- The limit of a WAIT has passed. -/
def waitExpired (s : State) (w : WaitRec) : Bool := w.limit != 0 && decide (w.since + w.limit.toNat ≤ s.pt)

/-- The end of a WAIT: 0 for a change seen, 1 for the limit. -/
def endWait (s : State) (d : Reg) (v : Word) : State :=
  let s := setCur s { curHart s with wait := none }
  retire s d v

/-- A WAIT that goes on sleeping keeps what it read of its registers. -/
def keepWaiting (s : State) (w : WaitRec) : State := setCur s { curHart s with wait := some w, stalled := true }

/-- What a WAIT has asked the host's memory for is no line that the device still holds: it reads there (R110). -/
def askFor (s : State) (va : Word) : State :=
  match translate s s.cur (loadAccess 8) va with
  | .ok x => askHost s x.place
  | .error _ => s

/-- WAIT: the address, the expected value, the limit and PT are read once, even where the first read has to wait; each run of the
word is one read. -/
def execWait (d a b c : Reg) (s : State) : Result :=
  let h := curHart s
  let w := h.wait.getD ⟨rd h a, rd h b, rd h c, s.pt⟩
  match scalarRead (askFor s w.va) w.va 8 with
  | .error s => .next (if (curHart s).stalled then keepWaiting s w else s)
  | .ok (v, s) =>
    if BitVec.ofNat 64 v ≠ w.expected then .next (endWait s d 0)
    else if waitExpired s w then .next (endWait s d 1)
    else .next (keepWaiting s w)

/-- WAIT_WAKE (R110): a hart asleep in WAIT reads again. -/
def execWaitWake (hid : Nat) (s : State) : Result :=
  if (hartAt s hid).wait.isSome then .next (wakeHart s hid) else .next s

/-- WAIT_TIMEOUT (R109): the limit of a hart asleep in WAIT passes, and it reads again. -/
def execWaitTimeout (hid : Nat) (s : State) : Result :=
  match (hartAt s hid).wait with
  | some w => .next (if waitExpired s w then wakeHart s hid else s)
  | none => .next s

/-- HOST_WINDOW_WAIT_READ (R110): a WAIT on the host memory window reads again. -/
def execHostWindowWaitRead (hid : Nat) (s : State) : Result :=
  match (hartAt s hid).wait with
  | some w =>
    match translate s hid (loadAccess 8) w.va with
    | .ok x => .next (if x.place.kind = 2 then wakeHart s hid else s)
    | .error _ => .next s
  | none => .next s

end Sys2Proof.Machine
end

