-- ==== Sys2Proof/Machine/Special.lean ====
section
/-! DEFINITION. Special registers, vector length and shape, reclaimed lanes, the calendar, TRAP, HALT and YIELD
(R21, R25 to R33, R111 to R118, R262, R263). -/

namespace Sys2Proof.Machine

/-! ### GETS and SETS (R29, R30, R111) -/

def execGets (d : Reg) (i : BitVec 14) (s : State) : Result :=
  if i.toNat < 13 then .next (retire s d (specialReg s s.cur i.toNat)) else .next (illegalG s)

/-- A progress register written: the value is held for the next accepted E-word (R30). -/
def storeProgress (s : State) (n : Nat) (v : Word) : State :=
  let h := curHart s
  setCur s (if n = 2 then { h with vstart := v.setWidth 32 } else if n = 3 then { h with rstate := v } else { h with kprog := v })

def execSets (a : Reg) (i : BitVec 14) (s : State) : Result :=
  let h := curHart s
  let v := rd h a
  let n := i.toNat
  if n = 1 then
    if 1 ≤ v.toNat && v.toNat ≤ 8 then .next (advance (setCur s { h with rows := v.setWidth 4 })) else .next (illegalG s)
  else if n = 2 || n = 3 || n = 4 then closeAndWait s fun s => .next (advance (storeProgress s n v))
  else if n = 5 then .next (advance (setCur s { h with vxsr := v.setWidth 8 }))
  else if n = 6 then .next (advance (setCur s { h with rct := bit v 8, ict := bit v 9 }))
  else if n = 11 then .next (advance (setCur s { h with bypth := v }))
  else if n = 12 then .next (advance (setCur s { h with trapsink := v &&& ~~~7#64 }))
  else .next (illegalG s)

/-! ### Lanes ceded and returned (R28, R262, R263; log 19) -/

/-- The save area of a hart's own SAVEPTR, as its RECLAIM uses it; none where it does not translate for writing. -/
def reclaimArea (s : State) (hid : Nat) : Option SaveJob :=
  let ptr := (hartAt s hid).saveptr
  let area := areaPages s (.hart hid) saveWrite ptr plainArea
  if area.any (·.isNone) then none else some ⟨.save, false, .hart hid, ptr, area, none⟩

/-- Window offsets of register n that lie in lane clusters number k and above of count, in the hart's order. -/
def laneOffsets (h : Hart) (k count n : Nat) : List Nat :=
  let size := if h.shape then 1024 else 512
  (List.range ((count - k) * size / 8)).map fun i => 0x10000 + n * (if h.shape then 4096 else 2048) + size * k + 8 * i

/-- The lane clusters that a hart keeps of those it owns. -/
def keptLanes (own : BitVec 4) (keep : Nat) : BitVec 4 := bits4 ((ownBits own).take keep)

/-- The receiving hart takes lane clusters whose bytes read as zero. -/
def giveLanes (s : State) (hid : Nat) (lanes : BitVec 4) : State :=
  let h := hartAt s hid
  let own := h.own ||| lanes
  setHart s hid { h with own := own, vregs := moveLanes h own (Vector.replicate 32 0) }

/-- Steps 2 to 5 of R263. -/
def cedeLanes (s : State) (hid : Nat) : State :=
  let h := hartAt s hid
  let r := h.reclaim
  let keep := r.keep.toNat
  match reclaimArea s hid with
  | none => setHart s hid { h with reclaim := { r with status := 3, after := none } }
  | some j =>
    let s := (List.range (regCount h)).foldl (fun s n =>
      (laneOffsets h keep (laneCount h.own) n).foldl (fun s o => areaWrite s j o (ctxDw s hid o)) s) s
    let kept := keptLanes h.own keep
    let s := setHart s hid { h with own := kept, reclaim := { r with status := 2, after := none } }
    let target := 4 * coreOf hid + r.target.toNat
    let s := if r.tv && resident s target then giveLanes s target (h.own &&& ~~~kept) else s
    wakeCore s (coreOf hid)

/-- A cession takes place once every E-word emitted before its SETVL has completed (R28, R263). -/
def tryCede (s : State) (hid : Nat) : State :=
  let h := hartAt s hid
  match h.reclaim.after with
  | none => s
  | some n => if h.queue.any fun e => decide (e.seq.toNat ≤ n.toNat) then s else cedeLanes s hid

/-- Lane clusters of a core that no hart owns and that are not retired. -/
def unownedLanes (s : State) (hid : Nat) : BitVec 4 :=
  let h := hartAt s hid
  ~~~(h.own ||| ownedOnCore s (coreOf hid) hid ||| (coreAt s (coreOf hid)).retired)

/-- The hart with the bytes of lane clusters number k and above of count as a save area holds them; none where a doubleword
cannot be read. -/
def areaRegs (s : State) (hid : Nat) (j : SaveJob) (k count : Nat) : Option Hart :=
  let h := hartAt s hid
  (List.range (regCount h)).foldl (fun r n =>
    (laneOffsets h k count n).foldl (fun r o =>
      match r, areaRead s j o with
      | some h, some v => some (putSlice h (o - 0x10000) v)
      | _, _ => none) r) (some h)

/-- The lane clusters that come back to a hart, n at most. DESIGN CHOICE: those above every one that it has kept come first, the
lowest of them before the others, and then those below (log 19). -/
def returning (own unowned : BitVec 4) (n : Nat) : BitVec 4 :=
  let free := ownBits unowned
  let above := free.filter fun i => (ownBits own).all (· < i)
  bits4 ((above ++ free.filter fun i => !above.contains i).take n)

/-- Lane clusters taken back, their bytes reloaded (R263): every register byte stands where it stood when they were ceded
(R28). -/
def takeLanes (s : State) (hid : Nat) : State :=
  let h := hartAt s hid
  let r := h.reclaim
  let count := laneCount h.own
  let own := h.own ||| returning h.own (unownedLanes s hid) (r.keep.toNat - count)
  match reclaimArea s hid with
  | none => setHart s hid { h with reclaim := { r with status := 3 } }
  | some j =>
    match areaRegs s hid j count (laneCount own) with
    | none => setHart s hid { h with reclaim := { r with status := 3 } }
    | some back => setHart s hid { h with own := own, vregs := back.vregs, reclaim := { r with status := 2 } }

/-- The pending request at a SETVL: the state with the request begun, the cap on lane clusters of the grant (R263 step
1), and whether the SETVL waits for lanes. -/
def reclaimAt (s : State) (hid : Nat) : State × Nat × Bool :=
  let h := hartAt s hid
  let r := h.reclaim
  let keep := r.keep.toNat
  let count := laneCount h.own
  if r.status ≠ 1 then (s, 4, false)
  else if r.after.isSome then (s, keep, false)
  else if keep = count then (setHart s hid { h with reclaim := { r with status := 2 } }, 4, false)
  else if (reclaimArea s hid).isNone then (setHart s hid { h with reclaim := { r with status := 3 } }, 4, false)
  else if keep < count then (setHart s hid { h with reclaim := { r with after := some h.emitseq } }, keep, false)
  else if unownedLanes s hid = 0 then (s, 4, true)
  else (takeLanes s hid, 4, false)

/-! ### SETVL, SETROWS, VSHAPE (R25 to R28, R112 to R114) -/

def vlBits : VlWidth → Nat
  | .e4 => 4 | .e8 => 8 | .e16 => 16 | .e32 => 32 | .e64 => 64

/-- Lane clusters that a balance pays for (R25). -/
def paidFor (bal : Int) (cost : Nat) : Nat := max 1 (bal / (cost : Int)).toNat

/-- The grant of R25 for a nonnegative balance. -/
def grantOf (avl cap perlc lcs keep paid : Nat) : Nat :=
  let g := min (min avl (perlc * lcs)) (paid * perlc)
  let g := min g (perlc * keep)
  if cap = 0 then g else min g cap

/-- VL and d written with a grant. -/
def grantVl (s : State) (d : Reg) (g : Nat) : State :=
  let s := setCur s { curHart s with vl := BitVec.ofNat 64 g }
  retire s d (BitVec.ofNat 64 g)

/-- SETVL. One that waits, for tokens or for lane clusters, has done nothing (R119). DESIGN CHOICE: a request for more lane
clusters than are unowned holds a SETVL of a scalar-only hart, or with AVL 0, as well (R263; R112 says granted at once; log 19). -/
def execSetvl (d a b : Reg) (w : VlWidth) (s : State) : Result :=
  let avl := rd (curHart s) a
  let cap := rd (curHart s) b
  let r := reclaimAt (endLoans s (coreOf s.cur) (slotOf s.cur)) s.cur
  let t := r.1
  let h := curHart t
  let lcs := laneCount h.own
  let cl := clusterOf s.cur
  let c := clusterAt s cl
  if r.2.2 then .next (waiting s)
  else if avl = 0 || lcs = 0 then .next (tryCede (grantVl t d 0) s.cur)
  else if c.bal < 0 then .next (waiting (setCluster s cl { c with waited := some s.pt }))
  else
    let cost := s.power.cost.toNat
    let perlc := perLc (vlBits w) h.shape
    let g := grantOf avl.toNat cap.toNat perlc lcs r.2.1 (paidFor c.bal cost)
    let t := endOverdrawn (debit t cl ((g + perlc - 1) / perlc * cost)) cl
    .next (tryCede (grantVl t d g) s.cur)

def execSetrows (d a : Reg) (i : BitVec 14) (s : State) : Result :=
  let n := rd (curHart s) a + sext14 i
  if 1 ≤ n.toNat && n.toNat ≤ 8 then .next (retire (setCur s { curHart s with rows := n.setWidth 4 }) d n)
  else .next (illegalG s)

/-- The change of shape of a hart by VSHAPE (R21, R114). -/
def changeShape (s : State) (hid : Nat) (shape : Bool) : State :=
  let h := hartAt s hid
  if h.shape = shape then s
  else if laneCount h.own = 0 then setHart s hid { h with shape := shape }
  else
    let s := reshape s hid shape
    setHart s hid { hartAt s hid with vstate := .present }

def execVshape (shape : Bool) (s : State) : Result :=
  closeAndWait s fun s => .next (advance (changeShape s s.cur shape))

/-! ### SLOTQ (R115) -/

/-- The slot that SLOTQ picks; the list is in ascending order of START, then of KIND bit. -/
def querySlot (s : State) (kinds : BitVec 4) (die : Nat) : Option Slot :=
  s.calendar.slots.find? fun x => kinds.getLsbD x.kind && x.dies.getLsbD die && decide (s.pt < x.start + x.dur)

/-- s[d] and s[d + 1] written (R115, R280). -/
def retirePair (s : State) (d : Reg) (v w : Word) : State := setCur s (nextPc (wr (wr (curHart s) d v) (d + 1) w) 4)

/-- Where the calendar lies (R319). -/
def calendarPa : Nat := 0xC00600080000

/-- SLOTQ, ordered as a control-page load of the calendar (R183). -/
def execSlotq (d : Reg) (k : BitVec 4) (s : State) : Result :=
  if pageBusy s s.cur calendarPa then .next (waiting s)
  else
    match querySlot s k (dieOf s.cur) with
    | none => .next (retirePair s d allOnes64 0)
    | some x => .next (retirePair s d (BitVec.ofNat 64 x.start) (BitVec.ofNat 64 x.dur))

/-! ### TRAP, HALT, YIELD (R116 to R118) -/

def execTrap (c : BitVec 20) (s : State) : Result := .next (gFault s 8 c.toNat 0)

def execHalt (s : State) : Result :=
  closeAndWait s fun s => .next (endHart (releaseStores (advance s) s.cur) s.cur true)

def execYield (s : State) : Result := .next (advance s)

end Sys2Proof.Machine
end

