-- ==== Sys2Proof/Machine/Emit.lean ====
section
/-! DEFINITION. The emit family, WAITV and RQPOP (R78, R197 to R204). -/

namespace Sys2Proof.Machine

/-- Loans of lane clusters that a hart owns end when one of its E-words is accepted (R210). -/
def recallLoans (s : State) (hid : Nat) : State :=
  let core := coreOf hid
  let c := coreAt s core
  if c.loans.isEmpty then s
  else setCore s core { c with loans := c.loans.filter fun l => !(hartAt s hid).own.getLsbD l.lc }

/-- The word of an EMIT checked, and accepted where there is room (R75, R198); a word of the head convoy enters the issue window
(R206). full says what a full queue does. -/
def emitWord (s : State) (word : Word) (full : State → State) (done : State → State) : Result :=
  let h := curHart s
  match emitCheck h (slotOf s.cur) (worldOf s s.cur) word with
  | .refuse cls code => .next (gFault s cls code 0)
  | .accept e c w =>
    if 64 ≤ h.queue.length then .next (full s)
    else .next (done (joinWindow (recallLoans (setCur s (acceptWord h e c w)) s.cur) s.cur))

/-- PC past an EMIT with its literal. -/
def pastLiteral (s : State) : State := setCur s (nextPc (curHart s) 12)

def execEmitl (lit : Word) (s : State) : Result := emitWord s lit waiting pastLiteral

def execEmitr (a : Reg) (s : State) : Result := emitWord s (rd (curHart s) a) waiting advance

/-- Low bit and width of the field of each bit of sel (R68, R78): d, a, b, M, k, x, imm14, fn. -/
def selField (i : Nat) : Nat × Nat :=
  match i with
  | 0 => (50, 6) | 1 => (44, 6) | 2 => (38, 6) | 3 => (32, 6) | 4 => (28, 4) | 5 => (14, 6) | 6 => (0, 14) | _ => (20, 7)

/-- Selected fields replaced, each by the next of the values (R78). -/
def replaceFields (lit : Word) (fields : List Nat) (vals : List Word) : Word :=
  match fields, vals with
  | i :: is, v :: vs => replaceFields (putField lit (selField i).1 (selField i).2 v.toNat) is vs
  | _, _ => lit

def emitxWord (h : Hart) (c a b : Reg) (sel : BitVec 8) (lit : Word) : Word :=
  replaceFields lit ((List.range 8).filter fun i => sel.getLsbD i) [rd h a, rd h b, rd h c]

def execEmitx (c a b : Reg) (sel : BitVec 8) (lit : Word) (s : State) : Result :=
  emitWord s (emitxWord (curHart s) c a b sel lit) waiting pastLiteral

def execEmitq (d a : Reg) (s : State) : Result :=
  emitWord s (rd (curHart s) a) (fun s => retire s d 0) (fun s => retire s d 1)

def execWaitv (s : State) : Result := closeAndWait s fun s => .next (advance s)

/-- RQPOP (R204). -/
def execRqpop (d : Reg) (s : State) : Result :=
  let h := curHart s
  match h.rq with
  | v :: rest => .next (retire (setCur s { h with rq := rest }) d v)
  | [] => if owed h.queue = 0 then .next (illegalG s) else .next (waiting s)

end Sys2Proof.Machine
end

