-- ==== Sys2Proof/Machine/HartOps.lean ====
section
/-! DEFINITION. FORK and JOIN (R213 to R215), strip farms (R278 to R281, R292 to R294) and BAR (R281 to R284). -/

namespace Sys2Proof.Machine

/-! ### FORK and JOIN -/

/-- The lowest-numbered free slot of a core (R213). -/
def freeSlot (s : State) (core : Nat) : Option Nat := ((List.range 4).map (4 * core + ·)).find? (slotFree s)

/-- Registers moved down by a number of bytes: what the child's lane clusters held (R213). -/
def upperRegs (h : Hart) (bytes : Nat) : Vector (BitVec 16384) 32 :=
  if h.shape then
    Vector.ofFn fun i => ((vreg h true (i.val / 2) >>> (8 * bytes + 16384 * (i.val % 2)))).setWidth 16384
  else Vector.ofFn fun i => (h.vregs[i] : BitVec 16384) >>> (8 * bytes)

/-- The child of a FORK in its slot: it belongs to no team (R281), and LASTAREA stands (R266). DESIGN CHOICE: its EPT is its parent's,
and SAVEPTR, RECLAIM, DIRTY and the trap record, which R213 does not name, stand as the slot held them (log 32). -/
def childHart (slot parent : Hart) (parentHid : Nat) (d : Reg) (kept : Nat) : Hart :=
  let own := bits4 ((ownBits parent.own).drop kept)
  wr { slot with
    ctl := .run, pc := parent.pc + 4, sregs := parent.sregs, rows := parent.rows, shape := parent.shape
    rct := parent.rct, ict := parent.ict, bypth := parent.bypth, trapsink := parent.trapsink, tags := parent.tags
    vl := 0, vstart := 0, rstate := 0, kprog := 0, vxsr := 0, emitseq := 0, masks := Vector.replicate 16 0
    trapCount := 0, windows := parent.windows, root := parent.root, ept := parent.ept, vi := parent.vi
    own := own, vregs := upperRegs parent (512 * kept * if parent.shape then 2 else 1)
    vstate := if own = 0 then .absent else .present
    queue := [], conv := none, rq := [], rqHeld := [], pending := [], newWindows := none, newRoot := none, images := []
    parent := some parentHid, awaitJoin := false, team := none, farmGen := 0
    barCount := Vector.replicate 7 0, barArrived := none, wc := [], wait := none
    stalled := false, genStopped := false, gcount := 0, qStopped := false, timer := 0, inWindow := false } d 0

def execFork (d : Reg) (s : State) : Result :=
  closeAndWait s fun s =>
    let h := curHart s
    let count := laneCount h.own
    match freeSlot s (coreOf s.cur) with
    | none => .next (retire s d allOnes64)
    | some n =>
      if h.vstate = .absent && decide (2 ≤ count) then .next (gFault s 7 0 0)
      else
        let s := drainWc s s.cur
        let kept := (count + 1) / 2
        let h := curHart s
        let s := setHart s n (childHart (hartAt s n) h s.cur d kept)
        let s := setCur s { h with own := keptLanes h.own kept, vl := 0 }
        .next (retire s d (BitVec.ofNat 64 n))

/-- s[a] names a child that this hart forked and has not joined (R215). -/
def childOf (s : State) (v : Word) : Option Nat :=
  if v.toNat < Config.hartSlots ∧ (hartAt s v.toNat).parent = some s.cur then some v.toNat else none

/-- The parent's registers with the child's bytes above its own (R215). -/
def joinedRegs (p c : Hart) : Vector (BitVec 16384) 32 :=
  let bits := 8 * 512 * laneCount p.own * if p.shape then 2 else 1
  if p.shape then
    Vector.ofFn fun i =>
      let v := mergeLow (vreg p true (i.val / 2)) (vreg c true (i.val / 2) <<< bits) bits
      (v >>> (16384 * (i.val % 2))).setWidth 16384
  else Vector.ofFn fun i => mergeLow p.vregs[i] (c.vregs[i] <<< bits) bits

def joinChild (s : State) (d : Reg) (n : Nat) : State :=
  let c := hartAt s n
  let p := curHart s
  let s := setCur s { p with own := p.own ||| c.own, vregs := joinedRegs p c, vxsr := p.vxsr ||| c.vxsr, vl := 0 }
  let s := setHart s n { c with parent := none, awaitJoin := false, own := 0 }
  wakeCore (retire s d 0) (coreOf s.cur)

def execJoin (d a : Reg) (s : State) : Result :=
  match childOf s (rd (curHart s) a) with
  | none => .next (retire s d allOnes64)
  | some n =>
    closeAndWait s fun s => if (hartAt s n).ctl = .idle then .next (joinChild s d n) else .next (waiting s)

/-! ### Farms (R278 to R280, R292 to R294) -/

/-- The team that a hart of a launch belongs to. -/
def teamOf (s : State) : Option Nat := (curHart s).team

def findGen (x : TeamSt) (n : Nat) : Option FarmGen := x.gens.find? fun g => g.num == n

def putGen (x : TeamSt) (g : FarmGen) : TeamSt :=
  { x with gens := x.gens.map fun y => if y.num = g.num then g else y }

/-- FARM: the hart's n-th names generation n; the first of a generation fixes its range (R278, R279). -/
def execFarm (a b : Reg) (s : State) : Result :=
  match teamOf s with
  | none => .next (illegalG s)
  | some t =>
    let h := curHart s
    let lo := rd h a
    let n := h.farmGen + 1
    let x := teamAt s t
    let s := match findGen x n with
      | some _ => s
      | none => setTeam s t { x with gens := x.gens ++ [fixGen n lo.toNat (cutCount lo (rd h b)) (teamDies x.members)] }
    .next (advance (setCur s { curHart s with farmGen := n }))

def shareLeft (x : Share) : Nat := x.stop - x.next

/-- The die that a thief takes from: the largest rest, ties to the lowest number (R294). -/
def victimOf (l : List Share) : Option Share :=
  l.foldl (fun b x => match b with
    | none => if shareLeft x = 0 then none else some x
    | some y => if shareLeft y < shareLeft x then some x else some y) none

/-- The share of a die after it has stolen, when its own is empty (R294). -/
def stealFor (g : FarmGen) (die : Nat) : FarmGen :=
  match g.shares.find? fun x => x.die == die with
  | none => g
  | some own =>
    if shareLeft own ≠ 0 then g
    else
      match victimOf g.shares with
      | none => g
      | some v =>
        let take := (shareLeft v + 1) / 2
        { g with shares := g.shares.map fun x =>
            if x.die = die then { x with next := v.stop - take, stop := v.stop }
            else if x.die = v.die then { x with stop := v.stop - take } else x }

/-- A strip taken from a die's share: base, count, and the generation after it; none when it is exhausted. -/
def takeStrip (g : FarmGen) (die req : Nat) : Option (Nat × Nat × FarmGen) :=
  let g := stealFor g die
  match g.shares.find? fun x => x.die == die with
  | none => none
  | some own =>
    let n := min req (shareLeft own)
    if n = 0 then none
    else some (own.next, n, { g with shares := g.shares.map fun x => if x.die = die then { x with next := own.next + n } else x })

/-- NEXTS (R280). -/
def execNexts (d a : Reg) (s : State) : Result :=
  match teamOf s with
  | none => .next (illegalG s)
  | some t =>
    let h := curHart s
    let req := max 1 (rd h a).toNat
    let x := teamAt s t
    match (findGen x h.farmGen).bind fun g => takeStrip g (dieOf s.cur) req with
    | none => .next (retirePair s d allOnes64 0)
    | some (base, n, g) => .next (retirePair (setTeam s t (putGen x g)) d (BitVec.ofNat 64 base) (BitVec.ofNat 64 n))

/-! ### BAR (R281 to R284) -/

/-- BAR arrives after its release, and passes when every participant has arrived. -/
def execBar (sc : Scope) (s : State) : Result :=
  match teamOf s with
  | none => .next (illegalG s)
  | some _ =>
    closeAndWait s fun s =>
      let s := releaseAt s sc
      let s := setCur s { curHart s with barArrived := some sc, stalled := true }
      .next (tryBar s s.cur)

end Sys2Proof.Machine
end

