-- ==== Sys2Proof/Machine/VArith.lean ====
section
/-! DEFINITION. What the vector words compute on one element (R125 to R135, R142 to R144): bit patterns in, bit pattern
and flags out. Reserved T3 codes are dealt with before (R49). -/

namespace Sys2Proof.Machine

/-! ### Integers (R126) -/

/-- The integer function of a VARITH word on elements x and y of a type, under a mode word. -/
def intArith (fn : Nat) (t : Ty) (m : Word) (x y : Nat) : Nat × Flags :=
  let w := tyWidth t
  let a := intOf t x
  let b := intOf t y
  let sat := modeSat m
  match fn with
  | 0 => fit t sat (a + b)
  | 1 => fit t sat (a - b)
  | 2 => fit t sat (shiftExact (modeRm m) (modeShift m) (a * b))
  | 3 => fit t sat (a * b / 2 ^ w)
  | 4 => divInt t sat a b
  | 5 => remInt t a b
  | 6 => (if a ≤ b then x else y, 0)
  | 7 => (if a ≤ b then y else x, 0)
  | 8 => fit t sat (a.natAbs : Int)
  | 9 => fit t sat (-a)
  | 10 => (x &&& y, 0)
  | 11 => (x ||| y, 0)
  | 12 => (x ^^^ y, 0)
  | 13 => (2 ^ w - 1 - x, 0)
  | 14 => fit t sat (a * 2 ^ (y % w))
  | _ => (wrapBits w (a / 2 ^ (y % w)), 0)

/-! ### Floating point (R127) -/

/-- The sign-only words: a NaN becomes the canonical one (R127). -/
def fSignOnly (f : Fmt) (ftz flip : Bool) (x : Nat) : FRes :=
  match unpack f ftz x with
  | .nan s => nanRes f s
  | .inf n => (fmtInf f (flip && !n), 0)
  | .num n _ _ => (flushBits f ftz x % fmtSign f + fmtZero f (flip && !n), 0)

/-- The FP function of a VARITH word. -/
def fpArith (fn : Nat) (t : Ty) (m : Word) (x y : Nat) : FRes :=
  let f := fmtOf t
  let rm := modeRm m
  let ftz := modeFtz m
  let a := unpack f ftz x
  let b := unpack f ftz y
  match fn with
  | 0 => fAdd f rm ftz a b
  | 1 => fSub f rm ftz a b
  | 2 => fMul f rm ftz a b
  | 4 => fDiv f rm ftz a b
  | 6 => fMinMax f false (flushBits f ftz x) (flushBits f ftz y)
  | 7 => fMinMax f true (flushBits f ftz x) (flushBits f ftz y)
  | 8 => fSignOnly f ftz false x
  | 9 => fSignOnly f ftz true x
  | 16 => fSqrt f rm ftz a
  | 17 => fExp2 f rm ftz a
  | 18 => fLog2 f rm ftz a
  | 19 => fRsqrt f rm ftz a
  | _ => fRecip f rm ftz a

/-! ### T3 (R128) -/

/-- The T3 function of a VARITH word, channel by channel. -/
def t3Arith (fn : Nat) (x y : Nat) : Nat :=
  match fn with
  | 0 => t3Map (fun a b => a + b) x y
  | 1 => t3Map (fun a b => a - b) x y
  | 2 => t3Map (fun a b => a * b) x y
  | _ => t3Map (fun a _ => -a) x y

/-- VARITH on one element (R125). -/
def varithElem (fn : Nat) (t : Ty) (m : Word) (x y : Nat) : Nat × Flags :=
  if t = .t3 then (t3Arith fn x y, 0) else if tyIsFp t then fpArith fn t m x y else intArith fn t m x y

/-! ### VMAC (R129) -/

def vmacElem (neg : Bool) (t : Ty) (m : Word) (x y z : Nat) : Nat × Flags :=
  if t = .t3 then
    let p := t3Map (fun a b => if neg then -(a * b) else a * b) x y
    (t3Map (fun a b => a + b) p z, 0)
  else if tyIsFp t then
    let f := fmtOf t
    let a := unpack f (modeFtz m) x
    fFma f (modeRm m) (modeFtz m) (if neg then fFlip a else a) (unpack f (modeFtz m) y) (unpack f (modeFtz m) z)
  else
    let p := intOf t x * intOf t y
    fit t (modeSat m) (shiftExact (modeRm m) (modeShift m) (if neg then -p else p) + intOf t z)

/-! ### VCMP (R130) -/

/-- The relation of a condition code on an ordering. -/
def ordHolds (cc : Nat) (o : Ordering) : Bool :=
  match cc with
  | 0 => o == .eq
  | 1 => o != .eq
  | 2 => o == .lt
  | 3 => o != .gt
  | 4 => o == .gt
  | 5 => o != .lt
  | _ => false

/-- FP comparison: a NaN gives 1 for ne and unord, else 0. -/
def fpHolds (cc : Nat) (f : Fmt) (ftz : Bool) (x y : Nat) : Bool × Flags :=
  let a := unpack f ftz x
  let b := unpack f ftz y
  if isNan a || isNan b then
    (cc == 1 || cc == 6, flagIf (isSnan a || isSnan b || (decide (2 ≤ cc) && decide (cc ≤ 5))) flagNV)
  else (ordHolds cc (fCompare a b), 0)

def vcmpElem (cc : Nat) (t : Ty) (m : Word) (x y : Nat) : Bool × Flags :=
  if t = .t3 then ((x % 2 ^ 25 == y % 2 ^ 25) == (cc == 0), 0)
  else if tyIsFp t then fpHolds cc (fmtOf t) (modeFtz m) x y
  else (ordHolds cc (compare (intOf t x) (intOf t y)), 0)

/-! ### VCVT (R45, R133 to R135) -/

/-- FP to the same FP type: the value as FTZ reads it, a NaN made canonical (R133). -/
def fpSame (f : Fmt) (ftz : Bool) (x : Nat) : FRes :=
  match unpack f ftz x with
  | .nan s => nanRes f s
  | .inf _ | .num .. => (flushBits f ftz x, 0)

/-- VCVT.CVT from a type to a type. -/
def convElem (t d : Ty) (m : Word) (x : Nat) : Nat × Flags :=
  if tyIsFp t then
    if tyIsFp d then
      if t = d then fpSame (fmtOf t) (modeFtz m) x
      else roundVal (fmtOf d) (modeRm m) (modeFtz m) (unpack (fmtOf t) (modeFtz m) x)
    else fToInt d (modeRm m) (unpack (fmtOf t) (modeFtz m) x)
  else if tyIsFp d then fFromInt (fmtOf d) (modeRm m) (modeFtz m) (intOf t x)
  else fit d (modeSat m) (shiftExact (modeRm m) (modeShift m) (intOf t x))

/-- VCVT.RES: residue formation of a clamped value (R134). -/
def resElem (t : Ty) (x : Nat) : Nat × Flags :=
  let c := t3Clamp (intOf t x)
  (t3Form c.1, c.2)

/-- An integer as an exact number. -/
def exactInt (x : Int) : FVal := .num (decide (x < 0)) x.natAbs 0

/-- VCVT.CRT of a T3 element that has passed its check, under a scale (R135). A zero x has sign plus. -/
def crtElem (d : Ty) (m : Word) (scale x : Nat) : Nat × Flags :=
  let p := exactMul (exactInt (t3Value x)) (unpack fmtSingle (modeFtz m) scale)
  if d = .fp32 then
    let r := roundVal fmtSingle (modeRm m) (modeFtz m) p.1
    (r.1, r.2 ||| p.2)
  else
    let r := fToInt .i32 (modeRm m) p.1
    (r.1, r.2 ||| p.2)

/-! ### VRED (R142 to R144) -/

/-- An element of a as a value of the running type: widening, always exact (R143). -/
def foldIn (t d : Ty) (m : Word) (x : Nat) : Nat × Flags :=
  if t = .t3 then (x, 0)
  else if tyIsFp t then
    if t = d then (flushBits (fmtOf t) (modeFtz m) x, 0)
    else roundVal (fmtOf d) .rne false (unpack (fmtOf t) (modeFtz m) x)
  else (wrapBits (tyWidth d) (intOf t x), 0)

/-- step of R143 on values of the running type. -/
def foldStep (fn : Nat) (d : Ty) (m : Word) (acc v : Nat) : Nat × Flags :=
  match fn with
  | 2 => varithElem 7 d m acc v
  | 3 => varithElem 6 d m acc v
  | 4 => (acc &&& v, 0)
  | 5 => (acc ||| v, 0)
  | 6 => (acc ^^^ v, 0)
  | _ => varithElem 0 d m acc v

/-- An entry of the return queue: signed integers sign-extended, everything else zero-extended (R123). -/
def pushValue (t : Ty) (x : Nat) : Word := if tyIsInt t then BitVec.ofInt 64 (intOf t x) else BitVec.ofNat 64 x

/-- A leaf of SUMU: as a fold takes it, a NaN made canonical (R42). -/
def leafIn (t d : Ty) (m : Word) (x : Nat) : Nat × Flags :=
  if tyIsFp t && t == d then fpSame (fmtOf t) (modeFtz m) x else foldIn t d m x

/-- One level of the tree of R62: pairs combined, an odd last one passed up; an empty leaf is none. -/
def treeLevel (f : Nat → Nat → Nat × Flags) (l : List (Option Nat)) : List (Option Nat) × Flags :=
  match l with
  | a :: b :: rest =>
    let r := treeLevel f rest
    match a, b with
    | some x, some y => (some (f x y).1 :: r.1, (f x y).2 ||| r.2)
    | some x, none => (some x :: r.1, r.2)
    | none, y => (y :: r.1, r.2)
  | l => (l, 0)

/-- The tree of R62; 14 levels do for 16,383 leaves. -/
def treeReduce (f : Nat → Nat → Nat × Flags) (l : List (Option Nat)) (fuel : Nat) : Option Nat × Flags :=
  match fuel with
  | 0 => (l.head?.join, 0)
  | n + 1 =>
    if l.length ≤ 1 then (l.head?.join, 0)
    else
      let r := treeLevel f l
      let q := treeReduce f r.1 n
      (q.1, r.2 ||| q.2)

end Sys2Proof.Machine
end

