-- ==== Sys2Proof/Machine/Sweep.lean ====
section
/-! DEFINITION. The sweep of an element-wise word (R18, R121, R124): the positions it visits, what it computes at each
(R125 to R161), and the effects that committing a position has (R164). -/

namespace Sys2Proof.Machine

/-! ### Effects of committing a position (R164) -/

inductive Effect where
  /-- Element i, of a width, of vector register n. -/
  | reg (n width i x : Nat)
  | mask (k i : Nat) (b : Bool)
  | lq (q r i width x : Nat)
  /-- The address from which the element of a load queue at a position was read (R194). -/
  | lqVa (q p : Nat) (va : Word)
  | fold (v : Word)
  /-- Translations that an access leaves cached. -/
  | cache (l : List (Xlat × Nat))
  | mem (l : List (Xlat × Nat)) (bs : List Byte)
  /-- What the caches hold of the host window is sent (R161, R181). -/
  | clean
  | ctl (pa : Nat) (v : Word)
  | buf (space a : Nat) (bs : List Byte)
  /-- The counter of the free values has reached n. -/
  | freeTo (n : Nat)
  /-- The image of a queue that the word has read, for its other elements (R201). -/
  | snap (x : Snapshot)
  /-- Element i of a CB tile, and its depth weight at its largest (R58). -/
  | tile (t i x : Nat)
  | depthMax (t : Nat)
deriving DecidableEq, Repr

/-- One committed position. -/
structure Act where
  pos : Nat
  effs : List Effect
  flags : Flags
deriving DecidableEq, Repr

/-- D that admits no triad accumulation (R58). -/
def depthLimit : Nat := 8388479

/-- Offset of element i of CB tile t (R151). -/
def cbElem (t i : Nat) : Nat := 16384 * t + 4 * i

def applyEffect (hid : Nat) (shape : Bool) (s : State) (x : Effect) : State :=
  match x with
  | .reg n width i v => setHart s hid (putElem (hartAt s hid) shape n width i v)
  | .mask k i b => setHart s hid (setMaskBit (hartAt s hid) k i b)
  | .lq q r i width v =>
    let h := hartAt s hid
    setHart s hid (if q = 0 then { h with lq0 := putBits h.lq0 (32768 * r + i * width) width v }
      else { h with lq1 := putBits h.lq1 (32768 * r + i * width) width v })
  | .lqVa q p va =>
    let h := hartAt s hid
    setHart s hid (if q = 0 then { h with lqVa0 := fmSet h.lqVa0 p va } else { h with lqVa1 := fmSet h.lqVa1 p va })
  | .fold _ => s
  | .cache l => cacheSpan (askSpan s l) l
  | .clean => { s with mem := cleanAll s.mem }
  | .mem l bs => writeSpan s hid l bs
  | .ctl pa v => ctlWrite s (.hart hid) pa v
  | .buf space a bs => setCore s (coreOf hid) (writeBuf (coreAt s (coreOf hid)) space a bs)
  | .freeTo n => { s with free := max s.free n }
  | .snap x => setHart s hid { hartAt s hid with images := x :: (hartAt s hid).images }
  | .tile t i v => setCore s (coreOf hid) (writeBuf (coreAt s (coreOf hid)) 3 (cbElem t i) (splitBytes 4 v))
  | .depthMax t =>
    let c := coreAt s (coreOf hid)
    setCore s (coreOf hid) (setTile c (96 + t) { tileAt c (96 + t) with d := depthLimit })

/-- A position committed. -/
def applyAct (hid : Nat) (shape : Bool) (s : State) (a : Act) : State := a.effs.foldl (applyEffect hid shape) s

/-- The running value after an act. -/
def actFold (a : Act) : Option Word := a.effs.findSome? fun
  | .fold v => some v
  | _ => none

/-- What a sweep has computed: acts in order, the first fault, or the position at which an access stalls and the key slot on which
it does (R362), and the shadow state in which every act has been made. -/
structure Swept where
  acts : List Act
  fault : Option (Nat × FaultRec)
  stall : Option (Nat × Nat)
  shadow : State
  acc : Word
deriving DecidableEq, Repr

/-- Positions computed in order on a shadow state, to the first fault or stall. -/
def sweep (hid : Nat) (shape : Bool) (elem : State → Word → Nat → Except FaultRec Act) (s : State) (acc : Word) :
    List Nat → Swept
  | [] => ⟨[], none, none, s, acc⟩
  | p :: rest =>
    match elem s acc p with
    | .error f => if f.stalls then ⟨[], none, some (p, f.code.toNat), s, acc⟩ else ⟨[], some (p, f), none, s, acc⟩
    | .ok a =>
      let r := sweep hid shape elem (applyAct hid shape s a) ((actFold a).getD acc) rest
      { r with acts := a :: r.acts }

/-! ### Typed buffers and I4 elements (R149, R151) -/

def spaceNum : Space → Nat
  | .global => 0 | .wb => 1 | .ab => 2 | .cb => 3

/-- Offset in a typed buffer (R151). -/
def bufOffset (space width : Nat) (ea : Word) : Nat :=
  let size := if space = 1 then 1048576 else if space = 2 then 524288 else 262144
  ea.toNat % size / (width / 8) * (width / 8)

/-- Bytes of an element as accessed (R149: an I4 element is in one byte). -/
def elemBytes (width : Nat) : Nat := if width = 4 then 1 else width / 8

/-- An element from its bytes: of a byte, the low nibble for even e. -/
def elemFrom (width i : Nat) (bs : List Byte) : Nat :=
  if width = 4 then joinBytes bs / 2 ^ (4 * (i % 2)) % 16 else joinBytes bs

/-- The byte with an I4 element put in (R159). -/
def nibbleIn (i x old : Nat) : Nat := if i % 2 = 0 then old / 16 * 16 + x % 16 else old % 16 + x % 16 * 16

/-! ### Loads (R154, R166) -/

/-- n bytes of a control page, byte by byte of its doublewords, as a word of a hart reads them (R166, R201). -/
def ctlBytes (s : State) (hid : Nat) (e : Entry) (pa n : Nat) : List Byte × State :=
  (List.range n).foldl (fun r k =>
    let d := ctlReadAs r.2 (.hart hid) (e.seq.toNat + 1) ((pa + k) / 8 * 8)
    (r.1 ++ [BitVec.ofNat 8 (bitsAt d.1 (8 * ((pa + k) % 8)) 8)], d.2)) ([], s)

/-- The bytes of a span, control pages included; none where a byte is poisoned. -/
def readAny (s : State) (hid : Nat) (e : Entry) (l : List (Xlat × Nat)) : Option (List Byte × State) :=
  match l with
  | [] => some ([], s)
  | (x, n) :: rest =>
    if x.place.kind = 3 then
      let r := ctlBytes s hid e x.place.pa n
      (readAny r.2 hid e rest).map fun q => (r.1 ++ q.1, q.2)
    else if poisoned s.mem x.place.pa n then none
    else (readAny s hid e rest).map fun q => (devBytes (askMem s.mem x.place n) (epochOf s x.place.key) x.place.pa n ++ q.1, q.2)

/-- What reading has left besides the bytes: free values taken, images of queues held. -/
def readEffects (s q : State) (hid : Nat) : List Effect :=
  .freeTo q.free :: ((hartAt q hid).images.filter fun x => !(hartAt s hid).images.contains x).map .snap

/-- Unordered elements fault on a control page (R165, R166). -/
def vstAccess (ordered : Bool) : Access := ⟨2, 1, false, !ordered, false, false, true⟩
/-- VAMO (R160, R165, R167): aligned; 4-byte elements fault on a control page, operations other than ADD and SWAP on
the host window. -/
def vamoAccess (n : Nat) (p : AmoOp) : Access := ⟨3, n, false, n == 4, !hostCarries p, false, true⟩

/-- Where a loaded element goes, and for a load queue where it has come from. -/
def loadInto (t : LdTarget) (w : EFields) (r i width x : Nat) (ea : Word) : List Effect :=
  match t with
  | .reg => [.reg (w.d.toNat + r) width i x]
  | .lq0 => [.lq 0 r i width x, .lqVa 0 (posKey r i) ea]
  | .lq1 => [.lq 1 r i width x, .lqVa 1 (posKey r i) ea]

/-- VLD at an active position; memory is read as mem0 gives it (R163). -/
def vldElem (mem0 : Memory) (s : State) (hid : Nat) (e : Entry) (w : EFields) (f : AddrForm) (sp : Space) (t : LdTarget)
    (ty : Ty) (p : Nat) : Except FaultRec Act :=
  let r := keyRow p
  let i := keyElem p
  let width := tyWidth ty
  let n := elemBytes width
  let ea := elemAddr (hartAt s hid) e w f width r i
  if sp = .global then
    match spanOf s hid vldAccess ea n with
    | .error x => .error (accFault e 1 ea (.xlat x))
    | .ok l =>
      match readAny { s with mem := mem0 } hid e l with
      | none => .error (accFault e 1 ea .poison)
      | some (bs, q) => .ok ⟨p, .cache l :: readEffects s q hid ++ loadInto t w r i width (elemFrom width i bs) ea, 0⟩
  else
    let a := bufOffset (spaceNum sp) (max width 8) ea
    let c := coreAt s (coreOf hid)
    if inFlight c (spaceNum sp) a n then
      .ok ⟨p, .freeTo (s.free + n) :: loadInto t w r i width (elemFrom width i (freshBytes s n).1) ea, 0⟩
    else .ok ⟨p, loadInto t w r i width (elemFrom width i (readBuf c (spaceNum sp) a n)) ea, 0⟩

/-! ### Stores (R156 to R159, R166) -/

/-- The effects of an element's bytes stored: memory, or an 8-byte aligned write of a control page; any other element
there is discarded. -/
def storeEffects (l : List (Xlat × Nat)) (bs : List Byte) : List Effect :=
  match l with
  | [(x, n)] =>
    if x.place.kind = 3 then (if n = 8 && x.place.pa % 8 == 0 then [.ctl x.place.pa (BitVec.ofNat 64 (joinBytes bs))] else [])
    else [.mem l bs]
  | l => if l.all fun x => x.1.place.kind ≠ 3 then [.mem l bs] else []

/-- VST at an active position. -/
def vstElem (s : State) (hid : Nat) (e : Entry) (w : EFields) (ordered : Bool) (f : AddrForm) (sp : Space) (ty : Ty)
    (p : Nat) : Except FaultRec Act :=
  let r := keyRow p
  let i := keyElem p
  let h := hartAt s hid
  let width := tyWidth ty
  let n := elemBytes width
  let x := srcElem h e w w.a ty r i
  let ea := elemAddr h e w f width r i
  if sp = .global then
    match spanOf s hid (vstAccess ordered) ea n with
    | .error y => .error (accFault e 2 ea (.xlat y))
    | .ok l =>
      if width = 4 then
        match readAny s hid e l with
        | none => .error (accFault e 2 ea .poison)
        | some (bs, _) => .ok ⟨p, .cache l :: storeEffects l (splitBytes 1 (nibbleIn i x (joinBytes bs))), 0⟩
      else .ok ⟨p, .cache l :: storeEffects l (splitBytes n x), 0⟩
  else
    let a := bufOffset (spaceNum sp) (max width 8) ea
    let old := joinBytes (readBuf (coreAt s (coreOf hid)) (spaceNum sp) a n)
    -- a store into CB is a write of its tile: D rises to its largest (R58)
    .ok ⟨p, .buf (spaceNum sp) a (splitBytes n (if width = 4 then nibbleIn i x old else x)) ::
      (if sp = .cb then [.depthMax (a / 16384)] else []), 0⟩

/-! ### Atomics (R160, R161) -/

/-- f of R103 on n bytes; min and max compare as signed (R160). -/
def vamoOp (p : AmoOp) (width old v : Nat) : Nat :=
  let a := (BitVec.ofNat width old).toInt
  let b := (BitVec.ofNat width v).toInt
  match p with
  | .add => (old + v) % 2 ^ width | .and => old &&& v | .or => old ||| v | .xor => old ^^^ v
  | .min => if a ≤ b then old else v | .max => if a ≤ b then v else old
  | .minu => min old v | .maxu => max old v | .swap => v

/-- VAMO at an active position. At system scope what the caches hold of earlier stores to the host window is sent first (R161). -/
def vamoElem (s : State) (hid : Nat) (e : Entry) (w : EFields) (op : AmoOp) (sc : Scope) (ty : Ty) (p : Nat) :
    Except FaultRec Act :=
  let r := keyRow p
  let i := keyElem p
  let h := hartAt s hid
  let width := tyWidth ty
  let n := width / 8
  let x := srcElem h e w w.a ty r i
  let ea := elemAddr h e w .indexed width r i
  match spanOf s hid (vamoAccess n op) ea n with
  | .error y => .error (accFault e 3 ea (.xlat y))
  | .ok l =>
    match readAny s hid e l with
    | none => .error (accFault e 3 ea .poison)
    | some (bs, q) =>
      let old := joinBytes bs
      .ok ⟨p, (if sc = .system then [.clean] else []) ++ (.cache l :: readEffects s q hid) ++ storeEffects l (splitBytes n (vamoOp op width old x)) ++
        [.reg (w.d.toNat + r) width i old], 0⟩

/-! ### Illegal combinations under ICT = 0 (R48) -/

/-- Elements of a width that the bytes of the hart's lanes hold. -/
def heldElem (h : Hart) (shape : Bool) (width i : Nat) : Bool := decide ((i + 1) * width ≤ 8 * ownedBytes h.own shape)

/-- Zero bytes at an active element of a destination, and at every position of a load queue (R154). DESIGN CHOICE: where the
destination's tag becomes NONE, which has no width (R34), no byte is written (log 64). -/
def icxAct (h : Hart) (g : Hart) (e : Entry) (c : EClass) (w : EFields) (p : Nat) : Act :=
  let r := keyRow p
  let i := keyElem p
  let width := match tyOf e.tagd with
    | some t => tyWidth t
    | none => 0
  let active := c == .vsel || activeAt g w i
  let lqWidth := match tyOf (modeTd e.mode) with
    | some t => tyWidth t
    | none => 0
  match c with
  | .vld _ _ .lq0 => ⟨p, [.lq 0 r i lqWidth 0], 0⟩
  | .vld _ _ .lq1 => ⟨p, [.lq 1 r i lqWidth 0], 0⟩
  | .vtype => ⟨p, [], 0⟩
  | c =>
    if !active then ⟨p, [], 0⟩
    else if writesVec c then ⟨p, if heldElem h e.shape width i then [.reg (w.d.toNat + r) width i 0] else [], 0⟩
    else if writesMask c then ⟨p, if i < 8 * maskBytes e.shape then [.mask (w.d.toNat - 32) i false] else [], 0⟩
    else ⟨p, [], 0⟩

/-! ### One position of an element-wise word -/

/-- LOC of R194: the register that holds the element, a load queue, or the captured register. -/
def locOf (code : Reg) (r : Nat) : Nat := if isVec code then code.toNat + r else code.toNat

/-- The address of an element that a load queue holds: that from which its VLD has read it (R190, R194). -/
def lqAddr (h : Hart) (code : Reg) (r i : Nat) : Word :=
  if code = 32 then fmGet h.lqVa0 0 (posKey r i) else if code = 33 then fmGet h.lqVa1 0 (posKey r i) else 0

/-- The check of R49 on a T3 input: a reserved code faults, or reads as zero residues with RCR. -/
def checkT3 (e : Entry) (t : Ty) (loc : Nat) (addr : Word) (x : Nat) : Except FaultRec (Nat × Flags) :=
  if t = .t3 && t3Reserved x then
    if e.rct then .error (eFaultRec e 17 loc addr 0) else .ok (0, flagRCR)
  else .ok (x, 0)

/-- A source element as an arithmetic word reads it. -/
def arithIn (h : Hart) (e : Entry) (w : EFields) (code : Reg) (t : Ty) (p : Nat) : Except FaultRec (Nat × Flags) :=
  let r := keyRow p
  let i := keyElem p
  let x := srcElem h e w code t r i
  if code = 35 then .ok (x, 0) else checkT3 e t (locOf code r) (lqAddr h code r i) x

/-- A result in destination row d + r. -/
def putAct (w : EFields) (t : Ty) (p : Nat) (x : Nat × Flags) : Act :=
  ⟨p, [.reg (w.d.toNat + keyRow p) (tyWidth t) (keyElem p) x.1], x.2⟩

def varithAt (h : Hart) (e : Entry) (w : EFields) (fn : Nat) (t : Ty) (p : Nat) : Except FaultRec Act := do
  let a ← arithIn h e w w.a t p
  let b ← if readsB (.varith fn) then arithIn h e w w.b t p else .ok (0, 0)
  let x := varithElem fn t e.mode a.1 b.1
  .ok (putAct w t p (x.1, x.2 ||| a.2 ||| b.2))

/-- VMAC (R129, R130). DESIGN CHOICE: of several reserved codes at one position the one that is reported, in LOC, is a's, else b's,
else d's (R49; log 59). -/
def vmacAt (h : Hart) (e : Entry) (w : EFields) (neg : Bool) (t : Ty) (p : Nat) : Except FaultRec Act := do
  let a ← arithIn h e w w.a t p
  let b ← arithIn h e w w.b t p
  let d ← arithIn h e w w.d t p
  let x := vmacElem neg t e.mode a.1 b.1 d.1
  .ok (putAct w t p (x.1, x.2 ||| a.2 ||| b.2 ||| d.2))

def vcmpAt (h : Hart) (e : Entry) (w : EFields) (cc : Nat) (t : Ty) (p : Nat) : Except FaultRec Act := do
  let a ← arithIn h e w w.a t p
  let b ← arithIn h e w w.b t p
  let x := vcmpElem cc t e.mode a.1 b.1
  .ok ⟨p, [.mask (w.d.toNat - 32) (keyElem p) x.1], x.2 ||| a.2 ||| b.2⟩

/-- VCVT (R133 to R135); CRT checks the reserved codes, then the check channel (R55). -/
def vcvtAt (h : Hart) (e : Entry) (w : EFields) (fn : Nat) (t d : Ty) (p : Nat) : Except FaultRec Act :=
  let x := srcElem h e w w.a t (keyRow p) (keyElem p)
  if fn = 0 then .ok (putAct w d p (convElem t d e.mode x))
  else if fn = 1 then .ok (putAct w d p (resElem t x))
  else
    match arithIn h e w w.a t p with
    | .error f => .error f
    | .ok a =>
      if t3CheckOk a.1 then
        let y := crtElem d e.mode (e.x0.toNat % 2 ^ 32) a.1
        .ok (putAct w d p (y.1, y.2 ||| a.2))
      else .error (eFaultRec e 18 (locOf w.a (keyRow p)) 0 0)

/-- The element-wise permutations (R140). -/
def vpermAt (h : Hart) (e : Entry) (w : EFields) (fn : Nat) (t : Ty) (p : Nat) : Act :=
  let r := keyRow p
  let vl := e.vl.toNat
  if fn = 6 then
    let j := w.imm.toNat
    putAct w t p (if j < vl then srcElem h e w w.a t r j else 0, 0)
  else if fn = 7 then putAct w t p (fit t (modeSat e.mode) (w.imm.toInt + r * vl + keyElem p))
  else putAct w t p (srcElem h e w w.a t r (keyElem p), 0)

/-- A step of a fold reduction (R143). -/
def vredAt (h : Hart) (e : Entry) (w : EFields) (fn : Nat) (t d : Ty) (acc : Word) (p : Nat) : Except FaultRec Act := do
  let a ← arithIn h e w w.a t p
  let v := foldIn t d e.mode a.1
  let x := foldStep fn d e.mode (acc.toNat % 2 ^ tyWidth d) v.1
  .ok ⟨p, [.fold (BitVec.ofNat 64 x.1)], x.2 ||| v.2 ||| a.2⟩

/-- What an element-wise word does at a position. g is the hart as it stood before the word wrote anything: the masks
are read there (R131). mem0 is the memory that loads read. -/
def elemAt (mem0 : Memory) (g : Hart) (hid : Nat) (e : Entry) (c : EClass) (w : EFields) (s : State) (acc : Word) (p : Nat) :
    Except FaultRec Act :=
  let h := hartAt s hid
  let i := keyElem p
  let t := (tyOf e.taga).getD .i32
  let d := (tyOf (dstType e.mode e.taga)).getD .i32
  if e.icx then .ok (icxAct h g e c w p)
  else if c = .vsel then
    .ok (putAct w t p (srcElem h e w (if activeAt g w i then w.a else w.b) t (keyRow p) i, 0))
  else if !activeAt g w i then
    match c with
    | .vld _ _ .lq0 => .ok ⟨p, [.lq 0 (keyRow p) i (tyWidth d) 0], 0⟩
    | .vld _ _ .lq1 => .ok ⟨p, [.lq 1 (keyRow p) i (tyWidth d) 0], 0⟩
    | _ => .ok ⟨p, [], 0⟩
  else
    match c with
    | .varith fn => varithAt h e w fn t p
    | .vmac neg => vmacAt h e w neg t p
    | .vcmp cc => vcmpAt h e w cc t p
    | .vcvt fn => vcvtAt h e w fn t d p
    | .vperm fn => .ok (vpermAt h e w fn d p)
    | .vred fn => vredAt h e w fn t d acc p
    | .vld f sp tg => vldElem mem0 s hid e w f sp tg d p
    | .vst o f sp => vstElem s hid e w o f sp t p
    | .vamo op sc => vamoElem s hid e w op sc t p
    | _ => .ok ⟨p, [], 0⟩

end Sys2Proof.Machine
end

