-- ==== Sys2Proof/Machine/Whole.lean ====
section
/-! DEFINITION. The words performed whole on registers and masks (R124): slides, GATHERV, COMPRESS, EXTRACT (R137 to
R141), SUMU (R62, R144), MASK words (R145), VTYPE (R146). -/

namespace Sys2Proof.Machine

/-- What a whole word has computed: its effects, the entries it pushes, its flags, and a fault at a position. -/
structure Whole where
  effs : List Effect
  push : List Word
  flags : Flags
  fault : Option (Nat × FaultRec)
deriving DecidableEq, Repr

def Whole.plain (effs : List Effect) : Whole := ⟨effs, [], 0, none⟩

/-- An effect at every active position of the sweep. -/
def atActive (h : Hart) (e : Entry) (w : EFields) (f : Nat → Nat → Effect) : List Effect :=
  (sweepKeys e.rows.toNat e.vl.toNat).filterMap fun p =>
    if activeAt h w (keyElem p) then some (f (keyRow p) (keyElem p)) else none

/-- The element of a that a slide moves to position i; none for the fill (R137). -/
def slideFrom (fn vl o i : Nat) : Option Nat :=
  match fn with
  | 0 => if o ≤ i then some (i - o) else none
  | 1 => if i + o < vl then some (i + o) else none
  | 2 => if 1 ≤ i then some (i - 1) else none
  | _ => if i + 1 < vl then some (i + 1) else none

/-- The fill of a slide: b's bits, cut to a's width, or zero-extended to it where b's type is narrower (DEDUCED: log 45). -/
def slideFill (h : Hart) (e : Entry) (w : EFields) (t : Ty) : Nat :=
  match tyOf e.tagb with
  | some u => srcElem h e w w.b u 0 0 % 2 ^ tyWidth t
  | none => 0

def slideWhole (h : Hart) (e : Entry) (w : EFields) (fn : Nat) (t : Ty) : Whole :=
  .plain (atActive h e w fun r i => .reg (w.d.toNat + r) (tyWidth t) i
    (match slideFrom fn e.vl.toNat e.x1.toNat i with
     | some j => srcElem h e w w.a t r j
     | none => slideFill h e w t))

/-- GATHERV (R138): an index at or above VL gives zero bytes. -/
def gatherWhole (h : Hart) (e : Entry) (w : EFields) (t u : Ty) : Whole :=
  .plain (atActive h e w fun r i =>
    let j := srcElem h e w w.b u r i
    .reg (w.d.toNat + r) (tyWidth t) i (if j < e.vl.toNat then srcElem h e w w.a t r j else 0))

/-- COMPRESS (R139): k and N select. -/
def compressWhole (h : Hart) (e : Entry) (w : EFields) (t : Ty) : Whole :=
  let sel := (List.range e.vl.toNat).filter (activeAt h w)
  .plain ((List.range e.rows.toNat).flatMap fun r =>
    (sel.zip (List.range sel.length)).map fun x => .reg (w.d.toNat + r) (tyWidth t) x.2 (srcElem h e w w.a t r x.1))

/-- EXTRACT (R141). -/
def extractWhole (h : Hart) (e : Entry) (w : EFields) (t : Ty) : Whole :=
  let j := w.imm.toNat
  ⟨[], (List.range e.rows.toNat).map fun r =>
    if j < e.vl.toNat && activeAt h w j then pushValue t (srcElem h e w w.a t r j) else 0, 0, none⟩

/-- The leaves of a row of SUMU, inactive ones empty; the first reserved code faults (R49). -/
def sumLeaves (h : Hart) (e : Entry) (w : EFields) (t d : Ty) (r : Nat) :
    List Nat → Except (Nat × FaultRec) (List (Option Nat) × Flags)
  | [] => .ok ([], 0)
  | i :: rest =>
    if activeAt h w i then
      match arithIn h e w w.a t (posKey r i) with
      | .error f => .error (posKey r i, f)
      | .ok a =>
        let v := leafIn t d e.mode a.1
        (sumLeaves h e w t d r rest).map fun q => (some v.1 :: q.1, v.2 ||| a.2 ||| q.2)
    else (sumLeaves h e w t d r rest).map fun q => (none :: q.1, q.2)

/-- The results of the rows of SUMU. -/
def sumRows (h : Hart) (e : Entry) (w : EFields) (t d : Ty) : List Nat → Except (Nat × FaultRec) (List (Option Nat) × Flags)
  | [] => .ok ([], 0)
  | r :: rest =>
    match sumLeaves h e w t d r (List.range e.vl.toNat) with
    | .error f => .error f
    | .ok l =>
      let v := treeReduce (foldStep 0 d e.mode) l.1 15
      (sumRows h e w t d rest).map fun q => (v.1 :: q.1, v.2 ||| l.2 ||| q.2)

/-- SUMU (R62, R144): an empty result is 0. -/
def sumuWhole (h : Hart) (e : Entry) (w : EFields) (t d : Ty) : Whole :=
  match sumRows h e w t d (List.range e.rows.toNat) with
  | .error f => ⟨[], [], 0, some f⟩
  | .ok l =>
    let v := treeReduce (foldStep 0 d e.mode) l.1 15
    ⟨[], [pushValue d (v.1.getD 0)], v.2 ||| l.2, none⟩

/-- The bit that a MASK word writes at a position (R145). -/
def maskValue (h : Hart) (w : EFields) (fn i : Nat) : Bool :=
  let a := maskBit h w.a.toNat i
  let b := maskBit h w.b.toNat i
  match fn with
  | 0 => a && b
  | 1 => a || b
  | 2 => a != b
  | 3 => a && !b
  | 4 => !a
  | _ => w.imm.getLsbD 0

/-- MASK words (R145): ROWS has no effect. DESIGN CHOICE: a VL above 4,096 in the narrow shape reaches the bits 4,096 and above of
the mask registers, which every mask register of the state has (R17; log 59). -/
def maskWhole (h : Hart) (e : Entry) (w : EFields) (fn : Nat) : Whole :=
  let act := (List.range e.vl.toNat).filter (activeAt h w)
  let hits := act.filter fun i => maskBit h w.a.toNat i
  if fn = 5 then ⟨[], [BitVec.ofNat 64 hits.length], 0, none⟩
  else if fn = 6 then ⟨[], [match hits with
    | [] => allOnes64
    | i :: _ => BitVec.ofNat 64 i], 0, none⟩
  else .plain (act.map fun i => .mask (w.d.toNat - 32) i (maskValue h w fn i))

/-- The entries that a whole word pushes when no position is active (R30). -/
def idlePush (c : EClass) (e : Entry) : List Word :=
  match c with
  | .vperm 9 => List.replicate e.rows.toNat 0
  | .vred _ => [0]
  | .mask 5 => [0]
  | .mask 6 => [allOnes64]
  | _ => []

/-- An illegal combination performed whole (R48): zero bytes at active positions, zeros pushed. -/
def icxWhole (h : Hart) (e : Entry) (c : EClass) (w : EFields) : Whole :=
  ⟨(sweepKeys e.rows.toNat e.vl.toNat).flatMap fun p => (icxAct h h e c w p).effs, (idlePush c e).map fun _ => 0, 0, none⟩

/-- The word performed whole on a hart's registers. -/
def wholeResult (h : Hart) (e : Entry) (c : EClass) (w : EFields) : Whole :=
  let t := (tyOf e.taga).getD .i32
  let d := (tyOf (dstType e.mode e.taga)).getD .i32
  if pastEnd e then ⟨[], idlePush c e, 0, none⟩
  else if e.icx then icxWhole h e c w
  else
    match c with
    | .vperm 4 => gatherWhole h e w t ((tyOf e.tagb).getD .i32)
    | .vperm 5 => compressWhole h e w t
    | .vperm 9 => extractWhole h e w t
    | .vperm fn => slideWhole h e w fn t
    | .vred _ => sumuWhole h e w t d
    | .mask fn => maskWhole h e w fn
    | _ => .plain []

end Sys2Proof.Machine
end

