-- ==== Sys2Proof/Machine/Matrix.lean ====
section
/-! DEFINITION. The matrix array (R218 to R230, R246): MOPA, MOPM and the MTILE words on the CB tiles of a core. -/

namespace Sys2Proof.Machine

/-- How a word of an engine has fared: it waits and nothing has changed, it has gone some way, it is complete with what
it pushes, or it faults, at a position if it has one. -/
inductive Ended where
  | waits
  | partly
  | complete (push : List Word)
  | fault (pos : Option Nat) (f : FaultRec)
deriving DecidableEq, Repr

structure EngineOut where
  state : State
  ended : Ended
deriving DecidableEq, Repr

/-- Entry i of a hart's queue changed. -/
def editEntry (s : State) (hid i : Nat) (f : Entry → Entry) : State := setHart s hid (updateEntry (hartAt s hid) i f)

/-- The timer restarts if entry i, which has got further, is the oldest word (R247). -/
def progressed (s : State) (hid i : Nat) (further : Bool) : State :=
  if further then setHart s hid (restartTimer (hartAt s hid) i) else s

/-! ### Tiles -/

/-- The 4,096 elements of CB tile t. -/
def tileList (c : CoreSt) (t : Nat) : List Nat := (List.range 4096).map fun n => bitsAt (c.cb[t]?.getD 0) (32 * n) 32

def packTile (l : List Nat) : BitVec 131072 := BitVec.ofNat 131072 (l.foldr (fun x n => x % 2 ^ 32 + 2 ^ 32 * n) 0)

def setTileData (c : CoreSt) (t : Nat) (l : List Nat) : CoreSt := { c with cb := c.cb.setIfInBounds t (packTile l) }

def cbTile (c : CoreSt) (t : Nat) : Tile := tileAt c (96 + t)
def tileReady (c : CoreSt) (t : Nat) : Bool := (cbTile c t).state == .ready

/-! ### K-steps (R56, R60, R221) -/

def pairUp (xs ys : List Nat) : List (Nat × Nat) := xs.flatMap fun x => ys.map fun y => (x, y)

/-- One k-step in triad mode: operands are residue containers. -/
def triadStep (tile xs ys : List Nat) : List Nat :=
  List.zipWith (fun z p => t3Map (fun a b => a + b) (t3Map (fun a b => a * b) p.1 p.2) z) tile (pairUp xs ys)

/-- One element of a k-step in BF16 mode: the exact product, added with one rounding (R60). -/
def brainAdd (ftz : Bool) (z x y : Nat) : FRes :=
  let p := exactMul (unpack fmtBrain ftz x) (unpack fmtBrain ftz y)
  let r := fAdd fmtSingle .rne ftz p.1 (unpack fmtSingle ftz z)
  (r.1, r.2 ||| p.2)

def brainStep (ftz : Bool) (tile xs ys : List Nat) : List Nat × Flags :=
  let l := List.zipWith (fun z p => brainAdd ftz z p.1 p.2) tile (pairUp xs ys)
  (l.map (·.1), l.foldl (fun f r => f ||| r.2) 0)

def matStep (triad ftz : Bool) (tile xs ys : List Nat) : List Nat × Flags :=
  if triad then (triadStep tile xs ys, 0) else brainStep ftz tile xs ys

/-- K-steps done so far: state (MOPM's reads leave translations), tile, number of the next k-step, flags, fault. -/
structure KRun where
  state : State
  tile : List Nat
  k : Nat
  flags : Flags
  fault : Option FaultRec
deriving DecidableEq, Repr

/-- The two operands of a k-step, or the fault of reading them. -/
abbrev Operands := State → Nat → Except FaultRec ((List Nat × List Nat) × State)

/-- n k-steps, one after another in increasing order (R225). -/
def runSteps (triad ftz : Bool) (ops : Operands) (x : KRun) (n : Nat) : KRun :=
  match n with
  | 0 => x
  | m + 1 =>
    match ops x.state x.k with
    | .error f => { x with fault := some f }
    | .ok (p, s) =>
      let r := matStep triad ftz x.tile p.1 p.2
      runSteps triad ftz ops ⟨s, r.1, x.k + 1, x.flags ||| r.2, none⟩ m

/-! ### Operands -/

/-- An operand element as the array takes it in: residues in triad mode, bits in BF16 mode. -/
def operandIn (t : Ty) (x : Nat) : Nat := if t = .bf16 then x else t3Form (intOf t x)

/-- MOPA's operands (R221): element kk · 64 + m of a row is column m of k-step kk. -/
def mopaOps (hid : Nat) (e : Entry) (w : EFields) (ta tb : Ty) : Operands := fun s k =>
  let h := hartAt s hid
  let q := e.vl.toNat / 64
  let col (code : Reg) (t : Ty) : List Nat :=
    (List.range 64).map fun m => operandIn t (srcElem h e w code t (k / q) (k % q * 64 + m))
  .ok ((col w.a ta, col w.b tb), s)

/-- Signed PITCH and ORIENT of a stride register (R223). -/
def pitchOf (x : Word) : Int := (BitVec.ofNat 48 (field x 0 48)).toInt
def elemIndex (stride : Word) (i k : Nat) : Int :=
  if bit stride 63 then (i : Int) * pitchOf stride + k else (k : Int) * pitchOf stride + i

/-- Address of an operand element (R224). -/
def operandAddr (x stride : Word) (t : Ty) (i k : Nat) : Word :=
  BitVec.ofInt 64 (aAddr x + elemIndex stride i k * tyWidth t / 8)

/-- An operand element of MOPM read from memory, WB or AB (R224). -/
def mopmElem (s : State) (hid : Nat) (e : Entry) (x stride : Word) (t : Ty) (i k : Nat) : Except FaultRec (Nat × State) :=
  let n := elemBytes (tyWidth t)
  let ea := operandAddr x stride t i k
  let pick (bs : List Byte) : Nat := operandIn t (elemFrom (tyWidth t) (elemIndex stride i k % 2).toNat bs)
  if aSpace x = 0 then
    match readVa s hid engineRead ea n with
    | .error f => .error (accFault e 1 ea f)
    | .ok (bs, s) => .ok (pick bs, s)
  else
    let a := bufOffset (aSpace x) (max (tyWidth t) 8) ea
    let c := coreAt s (coreOf hid)
    if inFlight c (aSpace x) a n then
      let r := freshBytes s n
      .ok (pick r.1, r.2)
    else .ok (pick (readBuf c (aSpace x) a n), s)

/-- Elements i, i + 1, … of one operand of a k-step. -/
def mopmElems (s : State) (hid : Nat) (e : Entry) (x stride : Word) (t : Ty) (k i n : Nat) : Except FaultRec (List Nat × State) :=
  match n with
  | 0 => .ok ([], s)
  | m + 1 =>
    match mopmElem s hid e x stride t i k with
    | .error f => .error f
    | .ok (v, s) => (mopmElems s hid e x stride t k (i + 1) m).map fun r => (v :: r.1, r.2)

/-- MOPM's operands (R224). -/
def mopmOps (hid : Nat) (e : Entry) (ta tb : Ty) : Operands := fun s k =>
  match mopmElems s hid e e.x0 e.x1 ta k 0 64 with
  | .error f => .error f
  | .ok (xs, s) => (mopmElems s hid e e.x2 e.x3 tb k 0 64).map fun r => ((xs, r.1), r.2)

/-! ### MOPA and MOPM (R220 to R225) -/

/-- The check of R222 and R57 at a start over the k-steps left: CODE of class 19. -/
def depthFault (c : CoreSt) (t : Nat) (triad : Bool) (weight left : Nat) : Option Nat :=
  let x := cbTile c t
  if (x.mode == .triad) != triad then some (t + 16)
  else if triad && decide (x.d + left * weight > depthLimit) then some t
  else none

/-- What k-steps leave in the tile table (R56, R221). -/
def countSteps (x : Tile) (triad : Bool) (weight steps : Nat) : Tile :=
  { x with
    k := BitVec.ofNat 32 (min (x.k.toNat + steps) 16777215)
    d := if triad then x.d + steps * weight else x.d
    type := if triad || steps = 0 then x.type else 11 }

/-- A MOPA or MOPM in the array: total k-steps, and how many of them may be performed now. It finds its tile READY and is checked
when it starts, and again when it starts after a stop (R57, R222, R225). -/
def runMop (s : State) (hid i : Nat) (e : Entry) (t : Nat) (ta tb : Ty) (ops : Operands) (total upTo : Nat) : EngineOut :=
  let c := coreAt s (coreOf hid)
  let triad := modeTd e.mode == 12
  let weight := (pairWeight ta tb).getD 0
  let k := e.kdone.toNat
  if !e.started && !tileReady c t then ⟨s, .waits⟩
  else
    match if e.started then none else depthFault c t triad weight (total - k) with
    | some code => ⟨s, .fault none (eFaultRec e 19 code 0 0)⟩
    | none =>
      let r := runSteps triad (modeFtz e.mode) ops ⟨s, tileList c t, k, 0, none⟩ (min total upTo - k)
      let c := coreAt r.state (coreOf hid)
      let c := setTile (setTileData c t r.tile) (96 + t) (countSteps (cbTile c t) triad weight (r.k - k))
      let s := editEntry (setCore r.state (coreOf hid) c) hid i fun e =>
        { e with kdone := BitVec.ofNat 64 r.k, flags := e.flags ||| r.flags, started := true }
      let s := progressed s hid i (decide (k < r.k))
      match r.fault with
      | some f => ⟨s, .fault none f⟩
      | none => ⟨s, if total ≤ r.k then .complete [] else .partly⟩

/-- K-steps of a MOPA whose positions all lie before a limit (R225). -/
def stepsBelow (vl rows limit : Nat) : Nat :=
  let q := vl / 64
  ((List.range (q * rows)).takeWhile fun k => decide (posKey (k / q) (k % q * 64 + 63) < limit)).length

def mopaRun (s : State) (hid i : Nat) (e : Entry) (w : EFields) (limit : Nat) : EngineOut :=
  let ta := (tyOf e.taga).getD .i8
  let tb := (tyOf e.tagb).getD .i8
  let vl := e.vl.toNat
  let rows := e.rows.toNat
  runMop s hid i e w.d.toNat ta tb (mopaOps hid e w ta tb) (vl / 64 * rows) (stepsBelow vl rows limit)

/-- MOPM: in a turn that is cut short, the k-steps below its limit (R225, R253). -/
def mopmRun (s : State) (hid i : Nat) (e : Entry) (w : EFields) (limit : Nat) : EngineOut :=
  let ta := (tyOf (modeTa e.mode)).getD .i8
  let tb := (tyOf (modeTb e.mode)).getD .i8
  runMop s hid i e w.d.toNat ta tb (mopmOps hid e ta tb) w.imm.toNat limit

/-! ### MZERO, MBF, MROW.R (R227, R229) -/

/-- Tile t of a hart's core changed, when it is READY. -/
def onReady (s : State) (hid t : Nat) (f : CoreSt → CoreSt) : EngineOut :=
  let c := coreAt s (coreOf hid)
  if tileReady c t then ⟨setCore s (coreOf hid) (f c), .complete []⟩ else ⟨s, .waits⟩

def mzeroRun (s : State) (hid : Nat) (w : EFields) : EngineOut :=
  let t := w.d.toNat
  onReady s hid t fun c => setTile { c with cb := c.cb.setIfInBounds t 0 } (96 + t)
    { cbTile c t with mode := .triad, type := 12, k := 0, d := 0 }

def mbfRun (s : State) (hid : Nat) (w : EFields) : EngineOut :=
  let t := w.d.toNat
  onReady s hid t fun c => setTile c (96 + t) { cbTile c t with mode := .bf16, type := 11, d := depthLimit }

def mrowRead (s : State) (hid : Nat) (e : Entry) (w : EFields) : EngineOut :=
  let c := coreAt s (coreOf hid)
  let t := w.imm.toNat % 16
  let row := w.imm.toNat / 16 % 64
  if pastEnd e then ⟨s, .complete []⟩
  else if !tileReady c t then ⟨s, .waits⟩
  else
    let effs := (sweepKeys e.rows.toNat e.vl.toNat).map fun p =>
      Effect.reg (w.d.toNat + keyRow p) 32 (keyElem p)
        (bitsAt (c.cb[t]?.getD 0) (32 * (64 * (row + keyRow p) + keyElem p)) 32)
    ⟨effs.foldl (applyEffect hid e.shape) s, .complete []⟩

/-! ### MCVT and MROW.W (R59, R228, R229) -/

/-- x of R59 from a source tile's element. -/
def mcvtIn (e : Entry) (src : Nat) (type : BitVec 4) (v : Nat) : Except FaultRec (FVal × Flags) :=
  if type = 12 then
    match checkT3 e .t3 (64 + src) 0 v with
    | .error f => .error f
    | .ok a => if t3CheckOk a.1 then .ok (exactInt (t3Value a.1), a.2) else .error (eFaultRec e 18 (64 + src) 0 0)
  else .ok (unpack fmtSingle (modeFtz e.mode) v, 0)

/-- The result of one element of MCVT (R59): s, y and z, always to nearest even. -/
def mcvtElem (m : Word) (acc : Bool) (x : FVal) (sa sb old : Nat) : FRes :=
  let ftz := modeFtz m
  let s := fMul fmtSingle .rne ftz (unpack fmtSingle ftz sa) (unpack fmtSingle ftz sb)
  let y := fMul fmtSingle .rne ftz x (unpack fmtSingle ftz s.1)
  if acc then
    let z := fAdd fmtSingle .rne ftz (unpack fmtSingle ftz old) (unpack fmtSingle ftz y.1)
    (z.1, s.2 ||| y.2 ||| z.2)
  else (y.1, s.2 ||| y.2)

def mcvtAt (hid : Nat) (e : Entry) (w : EFields) (s : State) (_acc : Word) (p : Nat) : Except FaultRec Act :=
  let h := hartAt s hid
  let c := coreAt s (coreOf hid)
  let src := w.imm.toNat % 16
  let t := w.d.toNat
  let cell (k : Nat) : Nat := bitsAt (c.cb[k]?.getD 0) (32 * p) 32
  match mcvtIn e src (cbTile c src).type (cell src) with
  | .error f => .error f
  | .ok x =>
    let r := mcvtElem e.mode (w.imm.getLsbD 4) x.1 (bitsAt (vreg h e.shape w.a.toNat) (32 * (p / 64)) 32)
      (bitsAt (vreg h e.shape w.b.toNat) (32 * (p % 64)) 32) (cell t)
    .ok ⟨p, [.depthMax t, .tile t p r.1], r.2 ||| x.2⟩

/-- MROW.W at a tile position (R49, R229): element p % 64 of row p / 64 of the tile. -/
def mrowAt (hid : Nat) (e : Entry) (w : EFields) (s : State) (_acc : Word) (p : Nat) : Except FaultRec Act :=
  let t := (tyOf e.taga).getD .fp32
  match arithIn (hartAt s hid) e w w.a t (posKey (p / 64 - w.imm.toNat % 64) (p % 64)) with
  | .error f => .error f
  | .ok a => .ok ⟨p, [.depthMax w.d.toNat, .tile w.d.toNat p a.1], a.2⟩

/-- Tile positions left of MROW.W (R30, R49; log 43). -/
def mrowKeys (e : Entry) (w : EFields) : List Nat :=
  ((List.range e.rows.toNat).flatMap fun r => (List.range e.vl.toNat).map fun i => 64 * (w.imm.toNat % 64 + r) + i).filter
    fun p => decide (resumeKey e ≤ p)

/-- Positions left of MCVT (R30). -/
def mcvtKeys (e : Entry) : List Nat := (List.range 4096).filter fun p => decide (resumeKey e ≤ p)

def orActs (l : List Act) : Flags := l.foldl (fun f a => f ||| a.flags) 0

/-- A tile-wise word swept up to a limit; TYPE is set when it completes. -/
def tileSweep (s : State) (hid i : Nat) (e : Entry) (w : EFields) (type : BitVec 4) (keys : List Nat) (limit : Nat)
    (elem : State → Word → Nat → Except FaultRec Act) : EngineOut :=
  let r := sweep hid e.shape elem s 0 (keys.filter fun p => decide (p < limit))
  let mark (p : Nat) : State := progressed (editEntry r.shadow hid i fun e =>
    { e with done := BitVec.ofNat 32 p, flags := e.flags ||| orActs r.acts }) hid i (!r.acts.isEmpty)
  match r.fault with
  | some (p, f) => ⟨mark p, .fault (some p) f⟩
  | none =>
    match keys.find? fun p => decide (limit ≤ p) with
    | some p => ⟨if r.acts.isEmpty then s else mark p, if r.acts.isEmpty then .waits else .partly⟩
    | none =>
      let s := mark (resumeKey e)
      let c := coreAt s (coreOf hid)
      ⟨setCore s (coreOf hid) (setTile c (96 + w.d.toNat) { cbTile c w.d.toNat with type := type }), .complete []⟩

def mcvtRun (s : State) (hid i : Nat) (e : Entry) (w : EFields) (limit : Nat) : EngineOut :=
  let c := coreAt s (coreOf hid)
  if tileReady c w.d.toNat && tileReady c (w.imm.toNat % 16) then
    tileSweep s hid i e w 11 (mcvtKeys e) limit (mcvtAt hid e w)
  else ⟨s, .waits⟩

def mrowWrite (s : State) (hid i : Nat) (e : Entry) (w : EFields) (limit : Nat) : EngineOut :=
  if tileReady (coreAt s (coreOf hid)) w.d.toNat then
    tileSweep s hid i e w e.taga (mrowKeys e w) limit (mrowAt hid e w)
  else ⟨s, .waits⟩

/-- An X word in the array (R226). An illegal combination performs nothing (R48), but MROW.R writes zero bytes where it still has
elements (R30). -/
def matrixRun (s : State) (hid i : Nat) (e : Entry) (c : EClass) (w : EFields) (limit : Nat) : EngineOut :=
  if e.icx then
    let effs := if c = .mrowR && !pastEnd e then (sweepKeys e.rows.toNat e.vl.toNat).flatMap fun p =>
        (icxAct (hartAt s hid) (hartAt s hid) e c w p).effs
      else []
    ⟨effs.foldl (applyEffect hid e.shape) s, .complete []⟩
  else
    match c with
    | .mopa => mopaRun s hid i e w limit
    | .mopm => mopmRun s hid i e w limit
    | .mzero => mzeroRun s hid w
    | .mbf => mbfRun s hid w
    | .mrowR => mrowRead s hid e w
    | .mrowW => mrowWrite s hid i e w limit
    | _ => mcvtRun s hid i e w limit

end Sys2Proof.Machine
end

