-- ==== Sys2Proof/Machine/Copy.lean ====
section
/-! DEFINITION. The copy engine (R232 to R239, R344, R360) and the tile-state words (R218, R240, R241). -/

namespace Sys2Proof.Machine

/-! ### Rows (R234) -/

/-- First byte of row n of a CPY's source and destination. -/
def cpySrcRow (e : Entry) (n : Nat) : Nat := aAddr e.x0 + n * cpySpitch e
def cpyDstRow (e : Entry) (n : Nat) : Nat := aAddr e.x1 + n * cpyDpitch e

/-- The tile-table entries that n bytes of a typed buffer touch; none for global memory. -/
def tilesOf (space a n : Nat) : List Nat :=
  if space = 0 then [] else (List.range ((a % 16384 + n + 16383) / 16384)).map fun k => tileOf space a + k

/-- Tiles that rows from n on read and write. -/
def srcTiles (e : Entry) (n : Nat) : List Nat :=
  (List.range (cpyRows e - n)).flatMap fun k => tilesOf (aSpace e.x0) (cpySrcRow e (n + k)) (cpyLen e)
def dstTiles (e : Entry) (n : Nat) : List Nat :=
  (List.range (cpyRows e - n)).flatMap fun k => tilesOf (aSpace e.x1) (cpyDstRow e (n + k)) (cpyLen e)

/-! ### Claims (R218, R219, R234) -/

/-- A CPY's claims in increasing entry order, as destination or as source. -/
def claimList (e : Entry) : List (Nat × Bool) :=
  let d := dstTiles e e.rowsDone
  let r := srcTiles e e.rowsDone
  (List.range 112).flatMap fun k => (if d.contains k then [(k, true)] else []) ++ (if r.contains k then [(k, false)] else [])

/-- Claims made in turn until one has to wait; the claims held after it. A tile that the command both writes (it is in
dst) and reads is claimed twice, so its second claim waits. -/
def claimTiles (dst : List Nat) (c : CoreSt) (held : List Nat) : List (Nat × Bool) → CoreSt × List Nat × Bool
  | [] => (c, held, true)
  | (k, asDst) :: rest =>
    if held.contains k && (asDst || !dst.contains k) then claimTiles dst c held rest
    else if (tileAt c k).state = (if asDst then TileState.empty else .ready) then
      claimTiles dst (setTileState c k (if asDst then .filling else .draining)) (k :: held) rest
    else (c, held, false)

/-- Copy commands of a core that its engine has taken up (R239). -/
def enginesBusy (s : State) (core : Nat) : Nat :=
  (List.range 4).foldl (fun n k =>
    n + ((hartAt s (4 * core + k)).queue.filter fun e => e.started && !e.complete && wordIs (· == .cpy) e).length) 0

/-- A CPY taken up by the engine, in the order in which the core's copy words entered the window (R208, R239) and at most
four at once, with as many of its claims as can be made; true when it holds them all. -/
def claimCopy (s : State) (hid i : Nat) (e : Entry) : State × Bool :=
  if !e.started && (decide (4 ≤ enginesBusy s (coreOf hid)) ||
      !firstOfCore s hid e fun x => !x.started && !x.icx && wordIs (· == .cpy) x) then (s, false)
  else
    let r := claimTiles (dstTiles e e.rowsDone) (coreAt s (coreOf hid)) e.claims (claimList e)
    (editEntry (setCore s (coreOf hid) r.1) hid i fun e => { e with started := true, claims := r.2.1 }, r.2.2)

/-! ### Blocked windows and no-split (R238, R344) -/

/-- The blocked window that is on or comes next. -/
def nextBlocked (s : State) (die : Nat) : Option Slot :=
  s.calendar.slots.find? fun x => blocksDie x die && decide (s.pt < slotEnd x)

/-- No chunk that reaches HBM issues now. -/
def hbmClosed (s : State) (die : Nat) : Bool :=
  (match s.calendar.current with
   | some x => blocksDie x die
   | none => false) ||
  (match nextBlocked s die with
   | some x => decide (x.start ≤ s.pt + 150)
   | none => false)

/-- Either operand is global (R344). -/
def cpyGlobal (e : Entry) : Bool := aSpace e.x0 == 0 || aSpace e.x1 == 0
def cpyNoSplit (w : EFields) : Bool := w.imm.getLsbD 5

/-- EST of R344. -/
def cpyEst (e : Entry) : Nat := 200 + ((cpyRows e - e.rowsDone) * cpyLen e + 63) / 64

/-- The test of R344 is passed now. -/
def splitTest (s : State) (die : Nat) (e : Entry) : Bool :=
  !cpyGlobal e ||
    (!(match s.calendar.current with
      | some x => blocksDie x die
      | none => false) &&
      (match nextBlocked s die with
       | some x => decide (s.pt + cpyEst e + 150 ≤ x.start)
       | none => true))

/-- Where a line of device memory is served from: the die of the L2 that holds it dirty, or of its frame, and whether that reaches HBM. -/
def servedFrom (s : State) (pa : Nat) : Nat × Bool :=
  match fmGet s.mem.dirty 0 (pa / 128) with
  | 0 => ((frameAt s (pa / 2 ^ 19)).1, true)
  | c + 1 => (c / 8, false)

/-- A slot stalls an access of a die that is served from a die (R343). -/
def slotStalls (x : Slot) (own die : Nat) (hbm : Bool) : Bool :=
  (x.kind == 0 && hbm) ||
    (x.kind == 2 && ((hbm && x.dies.getLsbD die) || (die != own && (x.dies.getLsbD own || x.dies.getLsbD die))))

/-- A chunk of a line cannot issue now: it would reach HBM in a blocked window or shortly before it (R238, R344), a slot stalls it
(R343), or it would reach a page that is being moved (R317). -/
def lineHeld (s : State) (own pa : Nat) : Bool :=
  let p := servedFrom s pa
  (hbmClosed s own && p.2) || s.calendar.current.any (slotStalls · own p.1 p.2) || (moving s (pa / 2 ^ 19) && p.2)

/-- A line of n bytes from a VA cannot issue now; the host window does not reach HBM (R238). -/
def spanHeld (s : State) (hid : Nat) (k : Access) (va n fuel : Nat) : Bool :=
  match fuel with
  | 0 => false
  | f + 1 =>
    let m := min n (2 ^ 19 - va % 2 ^ 19)
    (match translate s hid k (BitVec.ofNat 64 va) with
     | .error _ => false
     | .ok x => x.place.kind ≠ 2 && (List.range ((x.place.pa % 128 + m + 127) / 128)).any fun i =>
        lineHeld s (dieOf hid) (x.place.pa + 128 * i)) || (n > m && spanHeld s hid k (va + m) (n - m) f)

/-- The next row of a CPY cannot issue now. -/
def rowHeld (s : State) (hid : Nat) (e : Entry) : Bool :=
  let fuel := cpyLen e / 2 ^ 19 + 2
  (aSpace e.x0 == 0 && spanHeld s hid engineRead (cpySrcRow e e.rowsDone) (cpyLen e) fuel) ||
    (aSpace e.x1 == 0 && spanHeld s hid engineWrite (cpyDstRow e e.rowsDone) (cpyLen e) fuel)

/-- A no-split CPY that has failed the test is not judged again before a blocked window has ended (R344). -/
def mayJudge (s : State) (die : Nat) (e : Entry) : Bool :=
  match e.deferred with
  | none => true
  | some t => decide (t < fmGet s.calendar.blockEnd 0 die)

/-- A CPY may issue chunks: never into a blocked window where they reach HBM, and a no-split CPY once it has been judged
(R238, R344). -/
def mayIssue (s : State) (hid : Nat) (e : Entry) (w : EFields) : Bool :=
  if cpyNoSplit w && !e.judged then mayJudge s (dieOf hid) e && splitTest s (dieOf hid) e
  else !rowHeld s hid e

/-! ### Integrity tags (R236, R360) -/

def cpyVersion (e : Entry) : Nat := field e.x3 0 32

/-- PA of the tag of the tile at a PA; none outside [TAGLO, TAGHI]. -/
def tagPa (x : Flacon) (pa : Nat) : Option Nat :=
  if x.taglo.toNat ≤ pa ∧ pa ≤ x.taghi.toNat then some (x.tagbase.toNat + 8 * (pa / 16384 - x.taglo.toNat / 16384)) else none

/-- The tag of the 16 KiB tile at a PA, over its bytes as stored, ciphertext where they are keyed (R360), and as the caches hold
them. -/
def tileTag (s : State) (x : Flacon) (version pa : Nat) : Word :=
  Config.gmac x.tagKey (pa / 16384) version (devBytes s.mem 0 pa 16384)

/-- Aligned 16 KiB tiles that n bytes from a VA touch. -/
def tileVas (va n : Nat) : List Nat := (List.range ((va % 16384 + n + 16383) / 16384)).map fun k => (va / 16384 + k) * 16384

/-- The tiles of a source row pass their checks, or the row's fault: the engine reads each tile and its tag whole, so poison in them is
class 25 (R236, R272). -/
def checkTags (s : State) (hid : Nat) (e : Entry) (row : Word) : List Nat → Option FaultRec
  | [] => none
  | va :: rest =>
    match translate s hid engineRead (BitVec.ofNat 64 va) with
    | .error f => some (accFault e 1 row (.xlat f))
    | .ok x =>
      let fl := flaconAt s (worldOf s hid).toNat
      match tagPa fl x.place.pa with
      | none => some (eFaultRec e 21 0 (BitVec.ofNat 64 va) 0)
      | some t =>
        if poisoned s.mem x.place.pa 16384 || poisoned s.mem t 8 then some (accFault e 1 row .poison)
        else if BitVec.ofNat 64 (devMem s.mem 0 t 8) == tileTag s fl (cpyVersion e) x.place.pa then checkTags s hid e row rest
        else some (eFaultRec e 21 0 (BitVec.ofNat 64 va) 0)

/-- A destination tile holds poison, so no tag can be computed over it (R272). DEDUCED: the row that completes the tile reads it, and
takes class 25 (log 63). -/
def tilePoisoned (s : State) (hid va : Nat) : Bool :=
  match translate s hid engineWrite (BitVec.ofNat 64 va) with
  | .error _ => false
  | .ok x => poisoned s.mem x.place.pa 16384

/-- The tags of destination tiles written for the last time are stored. -/
def storeTileTags (s : State) (hid : Nat) (e : Entry) (tiles : List Nat) : State :=
  tiles.foldl (fun s va =>
    match translate s hid engineWrite (BitVec.ofNat 64 va) with
    | .error _ => s
    | .ok x =>
      let fl := flaconAt s (worldOf s hid).toNat
      match tagPa fl x.place.pa with
      | none => s
      | some t => hartStore s hid 0 t (splitBytes 8 (tileTag s fl (cpyVersion e) x.place.pa).toNat)) s

/-! ### One row (R234, R237) -/

/-- The scope of a CPY's AQ and RL is system (R235). -/
def cpySystem (w : EFields) : Bool := w.imm.toNat / 4 % 8 == 6

/-- RL at system scope. -/
def releasesAll (w : EFields) : Bool := releases .cpy w && cpySystem w


/-- The bytes of source row n. -/
def rowSource (s : State) (hid : Nat) (e : Entry) (n : Nat) : Except FaultRec (List Byte × State) :=
  let a := cpySrcRow e n
  if aSpace e.x0 ≠ 0 then .ok (readBuf (coreAt s (coreOf hid)) (aSpace e.x0) a (cpyLen e), s)
  else
    let va := BitVec.ofNat 64 a
    match (if cpyItag e then checkTags s hid e va (tileVas a (cpyLen e)) else none) with
    | some f => .error f
    | none =>
      match readVa s hid engineRead va (cpyLen e) with
      | .error f => .error (accFault e 1 va f)
      | .ok r => .ok r

/-- Where global source and destination overlap the destination's bytes are undefined (R234). -/
def overlapBytes (s : State) (e : Entry) (a : Nat) (bs : List Byte) : List Byte × State :=
  let lo := aAddr e.x0
  let hi := lo + (cpyRows e - 1) * cpySpitch e + cpyLen e
  if aSpace e.x0 ≠ 0 || hi ≤ a || a + bs.length ≤ lo then (bs, s)
  else
    ((bs.zip (List.range bs.length)).map fun x => if lo ≤ a + x.2 && a + x.2 < hi then Config.freeByte (s.free + x.2) else x.1,
      { s with free := s.free + bs.length })

def rowDest (s : State) (hid : Nat) (e : Entry) (n : Nat) (bs : List Byte) : Except FaultRec State :=
  let a := cpyDstRow e n
  if aSpace e.x1 ≠ 0 then
    .ok (setCore s (coreOf hid) (writeBuf (coreAt s (coreOf hid)) (aSpace e.x1) a bs))
  else
    let va := BitVec.ofNat 64 a
    let r := overlapBytes s e a bs
    match writeVa r.2 hid engineWrite va r.1 with
    | .error f => .error (accFault e 2 va f)
    | .ok s =>
      if cpyItag e then
        let later := (List.range (cpyRows e - (n + 1))).flatMap fun k => tileVas (cpyDstRow e (n + 1 + k)) (cpyLen e)
        let tiles := (tileVas a (cpyLen e)).filter fun t => !later.contains t
        if tiles.any (tilePoisoned s hid) then .error (accFault e 2 va .poison) else .ok (storeTileTags s hid e tiles)
      else .ok s

/-- Tiles whose last row has completed change state (R218). -/
def releaseRow (s : State) (hid i : Nat) (e : Entry) : State :=
  let n := e.rowsDone
  let c := coreAt s (coreOf hid)
  let d := (dstTiles e n).filter fun k => !(dstTiles e (n + 1)).contains k
  let r := (srcTiles e n).filter fun k => !(srcTiles e (n + 1)).contains k
  let c := d.foldl (fun c k => setTileState c k .ready) c
  let c := r.foldl (fun c k => setTileState c k (if cpyKeep e then .ready else .empty)) c
  editEntry (setCore s (coreOf hid) c) hid i fun e =>
    { e with rowsDone := n + 1, claims := e.claims.filter fun k => !(d.contains k || r.contains k) }

/-- The next row of a CPY that holds its claims. With RL at system scope it completes when what the caches hold of the host window
has been sent (R235). -/
def copyRow (s : State) (hid i : Nat) (e : Entry) (w : EFields) : EngineOut :=
  match rowSource s hid e e.rowsDone with
  | .error f => ⟨s, .fault none f⟩
  | .ok (bs, q) =>
    match rowDest q hid e e.rowsDone bs with
    | .error f => ⟨s, .fault none f⟩
    | .ok q =>
      let q := progressed (releaseRow q hid i e) hid i true
      if cpyRows e ≤ e.rowsDone + 1 then ⟨if releasesAll w then { q with mem := cleanAll q.mem } else q, .complete []⟩
      else ⟨q, .partly⟩

/-- Rows in increasing order, at most fuel of them, while the command may issue. -/
def copyRows (s : State) (hid i : Nat) (w : EFields) (fuel : Nat) : EngineOut :=
  match fuel with
  | 0 => ⟨s, .partly⟩
  | n + 1 =>
    match (hartAt s hid).queue[i]? with
    | none => ⟨s, .waits⟩
    | some e =>
      if !mayIssue s hid e w then ⟨s, .partly⟩
      else
        let r := copyRow s hid i e w
        match r.ended with
        | .partly => copyRows r.state hid i w n
        | .waits | .complete _ | .fault .. => r

/-- With AQ, the hart's earlier stores that wait perform first, at system scope those to the host window too (R235, R399). -/
def acquire (s : State) (hid : Nat) (c : EClass) (w : EFields) : State :=
  if !acquires c w then s else if c == .cpy && cpySystem w then releaseStores s hid else drainWc s hid

/-- A CPY: its claims, its start, its rows (R234, R239, R344). go says that the words before it let it access memory; max is
the number of rows it may complete. -/
def cpyRun (s : State) (hid i : Nat) (e : Entry) (w : EFields) (rows : Nat) (go : Bool) : EngineOut :=
  if e.icx then (if go then ⟨s, .complete []⟩ else ⟨s, .waits⟩)
  else
    let r := claimCopy s hid i e
    if !(r.2 && go) then ⟨r.1, .waits⟩
    else
      let s := acquire r.1 hid .cpy w
      match (hartAt s hid).queue[i]? with
      | none => ⟨s, .waits⟩
      | some e =>
        if mayIssue s hid e w then copyRows (editEntry s hid i fun e => { e with judged := true, deferred := none }) hid i w rows
        else if e.judged || !cpyNoSplit w || !mayJudge s (dieOf hid) e then ⟨s, .waits⟩
        else ⟨editEntry s hid i fun e => { e with deferred := some s.pt }, .waits⟩

/-! ### TILE words (R218, R240, R241) -/

def tileStateCode : TileState → Nat
  | .empty => 0 | .filling => 1 | .ready => 2 | .draining => 3

/-- The entry that TQUERY pushes (R241). -/
def queryWord (c : CoreSt) (k : Nat) : Word :=
  let x := tileAt c k
  if k < 96 then BitVec.ofNat 64 (tileStateCode x.state)
  else BitVec.ofNat 64 (tileStateCode x.state + (if x.mode = .bf16 then 4 else 0) + (if x.type = 11 then 8 else 0) +
    x.k.toNat % 2 ^ 24 * 2 ^ 8 + x.d % 2 ^ 24 * 2 ^ 32)

/-- A TILE word: fn 0 TREADY, 1 TEMPTY, 2 TWAIT, 3 TQUERY. As an illegal combination it changes no tile, and TQUERY
pushes 0 (R48, R413). -/
def tileRun (s : State) (hid : Nat) (icx : Bool) (w : EFields) (fn : Nat) : EngineOut :=
  if icx then ⟨s, .complete (if fn = 3 then [0] else [])⟩
  else
    let k := w.imm.toNat % 128
    let c := coreAt s (coreOf hid)
    let st := (tileAt c k).state
    let free := st == .empty || st == .ready
    if fn = 0 then
      if free then ⟨setCore s (coreOf hid) (setTileState c k .ready), .complete []⟩ else ⟨s, .waits⟩
    else if fn = 1 then
      if free then ⟨setCore s (coreOf hid) (setTileState c k .empty), .complete []⟩ else ⟨s, .waits⟩
    else if fn = 2 then (if st == .ready then ⟨s, .complete []⟩ else ⟨s, .waits⟩)
    else ⟨s, .complete [queryWord c k]⟩

end Sys2Proof.Machine
end

