-- ==== Sys2Proof/Machine/Coll.lean ====
section
/-! DEFINITION. COLL words (R393 to R397, R399): the checks at their start, their claims, and the reading of the source.
What a collective does from there on is in Fabric.lean. -/

namespace Sys2Proof.Machine

/-- Bytes read at a VA by an Accord engine, over as many pages as they cover. -/
def readLong (s : State) (hid : Nat) (va n fuel : Nat) : Except (Word × AccFail) (List Byte × State) :=
  match fuel with
  | 0 => .ok ([], s)
  | k + 1 =>
    let m := min n (2 ^ 19 - va % 2 ^ 19)
    match readVa s hid accordRead (BitVec.ofNat 64 va) m with
    | .error f => .error (BitVec.ofNat 64 va, f)
    | .ok (bs, s) =>
      if n ≤ m then .ok (bs, s)
      else (readLong s hid (va + m) (n - m) k).map fun r => (bs ++ r.1, r.2)

/-- The collective of a COLL word that starts at a rank (R393 to R396). -/
def collOf (hid : Nat) (e : Entry) (w : EFields) (kind : Nat) (x : Group) : CollSt where
  hub := hubOf hid
  group := collGroup e
  num := x.collno
  hid := hid
  seq := e.seq
  kind := kind
  op := collOp e
  fo := w.imm.getLsbD 2
  type := modeTa e.mode
  rm := modeRmCode e.mode
  sat := modeSat e.mode
  ftz := modeFtz e.mode
  count := collCount e
  size := x.size.toNat
  rank := x.rank.toNat
  opened := false
  source := []
  absorbed := []
  unacked := []
  waiting := []
  written := 0
  flags := 0
  rerouted := false

/-- Bytes of the destination at a rank (R395). -/
def destBytes (c : CollSt) : Nat := destCount c * tyWidth (collTy c) / 8

/-- The word ends at once (R396): its entry is not valid or not of its core, or it does not fit in AB. -/
def collBad (hid : Nat) (e : Entry) (x : Group) (c : CollSt) : Bool :=
  !groupValid x || x.core.toNat != coreOf hid ||
    (aSpace e.x1 == 2 && decide (aAddr e.x1 + destBytes c > 524288))

/-- AB tiles of the destination (R397). -/
def collTiles (e : Entry) (c : CollSt) : List (Nat × Bool) := (tilesOf (aSpace e.x1) (aAddr e.x1) (destBytes c)).map fun k => (k, true)

/-- The collectives in flight at an engine (R397). -/
def hubColls (s : State) (hub : Nat) : Nat := (s.colls.filter fun c => c.hub == hub).length

/-- A COLL that names an entry and has not started: COLLs of a core that name one entry start in window order (R208, R396). -/
def waitsForGroup (g : Nat) (e : Entry) : Bool :=
  !e.started && !e.icx && collGroup e == g && wordIs (fun c => match c with
    | .coll _ => true
    | _ => false) e

/-- A COLL stays in the queue untouched once a stop of its hart has begun (R402). DEDUCED: but a full queue goes on for as long as
the generator has not stopped, so that a blocked EMIT gets its room (R253; log 23). -/
def collStays (h : Hart) : Bool :=
  (h.ctl == .stopDrain || h.ctl == .stopFreeze) && (h.genStopped || decide (h.queue.length < 64))

/-- A collective of a group entry can start: the entry is free and the engine has one of its 16 places left (R396, R397). -/
def collRoom (s : State) (hub g : Nat) : Bool := !(groupAt s hub g).busy && decide (hubColls s hub < 16)

/-- A COLL that has not started and could start now. -/
def collReadyNow (s : State) (hid : Nat) (e : Entry) : EClass → Bool
  | .coll _ => !e.started && !collStays (hartAt s hid) && collRoom s (hubOf hid) (collGroup e)
  | _ => false

/-- A path that is up: a next rank on this module, or an active link in operation (R400). -/
def pathUp (s : State) (x : Group) : Bool :=
  match nextLink x with
  | none => true
  | some l => (linkAt s l).state == 2

/-- What a started word does before it sends: it claims the tiles of an AB destination (R397), reads its source once AQ is met
(R399), and sends what it owes (R395, R398). A fault abandons it, and so does an entry whose links are down (R401; log 23). While a
key of its source or destination is being revoked it waits (R362). -/
def openWord (s : State) (hid i : Nat) (e : Entry) (w : EFields) (c : CollSt) : EngineOut :=
  let s := if pathUp s (groupAt s c.hub c.group) then s else reroute s c.hub c.group
  if (findColl s c.hub c.group).isNone then ⟨pumpEngine s c.hub, .partly⟩
  else
    let r := claimTiles ((collTiles e c).map (·.1)) (coreAt s (coreOf hid)) e.claims (collTiles e c)
    let s := editEntry (setCore s (coreOf hid) r.1) hid i fun e => { e with claims := r.2.1 }
    if !r.2.2 then ⟨pumpEngine s c.hub, .waits⟩
    else
      let n := sourceCount c.kind c.size c.count
      let width := tyWidth (collTy c)
      let bytes := n * width / 8
      match readLong (acquire s hid (.coll c.kind) w) hid (aAddr e.x0) bytes (bytes / 2 ^ 19 + 2) with
      | .error (va, f) =>
        let x := accFault e 1 va f
        if x.stalls then ⟨noteStall s hid x.code.toNat, .waits⟩ else ⟨pumpEngine (abandonColl s c (some x) true true) c.hub, .partly⟩
      | .ok (bs, q) =>
        let c := { c with opened := true, source := unpackElems width bs n }
        match openColl (putColl q c) c (groupAt s c.hub c.group).tag with
        | .error f =>
          if f.stalls then ⟨noteStall s hid f.code.toNat, .waits⟩ else ⟨pumpEngine (abandonColl (putColl q c) c (some f) true true) c.hub, .partly⟩
        | .ok q => ⟨pumpEngine (completeColl q c.hub c.group) c.hub, .partly⟩

/-- The word starts (R396): its entry is read, and found wrong it ends at once; else the entry is busy from here on. -/
def startWord (s : State) (hid i : Nat) (e : Entry) (w : EFields) (kind : Nat) : EngineOut :=
  let x := groupAt s (hubOf hid) (collGroup e)
  let c := collOf hid e w kind x
  if collBad hid e x c then ⟨s, .fault none (eFaultRec e 24 1 0 0)⟩
  else
    let s := setGroup (editEntry s hid i fun e => { e with started := true }) c.hub c.group { x with busy := true }
    openWord { s with colls := s.colls ++ [c] } hid i e w c

/-- A COLL word: it starts when it can, opens when it holds its tiles, and then its engine's segments are looked at. It completes
in completeColl. -/
def collRun (s : State) (hid i : Nat) (e : Entry) (w : EFields) (kind : Nat) : EngineOut :=
  let hub := hubOf hid
  if e.icx then ⟨countColl s hid 0, .complete []⟩
  else if e.started then
    match findColl s hub (collGroup e) with
    | some c => if c.opened then ⟨pumpEngine s hub, .partly⟩ else openWord s hid i e w c
    | none => ⟨pumpEngine s hub, .partly⟩
  else if collReadyNow s hid e (.coll kind) && firstOfCore s hid e (waitsForGroup (collGroup e)) then startWord s hid i e w kind
  else ⟨s, .waits⟩

end Sys2Proof.Machine
end

