-- ==== Sys2Proof/Machine/Convoy.lean ====
section
/-! DEFINITION. The turn of a convoy (R81, R164, R165, R200, R206, R207, R225): which words may run, what they compute,
what commits, and the fault that is delivered. A turn is atomic (log 11). -/

namespace Sys2Proof.Machine

/-! ### Planning a round -/

/-- Whether a word can run in a round: it can; it waits for something outside the lanes, and the words that R164 couples
with it wait too; or it waits until an element-wise word of its convoy has completed, which therefore does not wait for
it (log 11). -/
inductive Hold where
  | free | waits | after
deriving DecidableEq, Repr

def Hold.or (x y : Hold) : Hold :=
  match x, y with
  | .after, _ | _, .after => .after
  | .waits, _ | _, .waits => .waits
  | .free, .free => .free

/-- A reason to wait, where a condition gives it. -/
def Hold.when (b : Bool) (h : Hold) : Hold := if b then h else .free

/-- What a word of the convoy does in a round. own: the position before which what it reads has been computed; dep: it is a
dependent of a VAMO (R164). -/
inductive Plan where
  | past
  | held (h : Hold)
  | swept (r : Swept) (own : Nat) (dep : Bool)
  | whole (r : Whole)
  | mopa
  | engine
deriving DecidableEq, Repr

/-- What the words before have left. -/
structure Planning where
  shadow : State
  /-- Uses of words that wait for something outside the lanes, and of those that wait for an element-wise word. -/
  hard : Uses
  after : Uses
  /-- Element-wise words that had not completed before the round. -/
  live : List Writer
  /-- Registers written by a VAMO or a dependent of it (R164). -/
  dep : List Nat
  /-- A TWAIT or TQUERY has not completed (R240). -/
  stop : Hold
  /-- A CPY or COLL with RL has not completed (R235). -/
  release : Hold
  /-- A word that pushes has not completed: pushes come in emit order (R123). -/
  pushes : Hold
  /-- A VAMO has not completed, and later memory words are held back (R161). -/
  vamo : Hold
  /-- A word that accesses memory has not run: a VAMO waits for it (R161). -/
  memory : Hold
  /-- Vector memory words that had not completed before the round (R183). -/
  mems : List (Entry × EClass × EFields)
deriving DecidableEq, Repr

def Planning.start (s : State) : Planning := ⟨s, .none, .none, [], [], .free, .free, .free, .free, .free, []⟩

/-- A fault that the assay lane finds (R244): the word, by its sequence number, and the position. -/
structure Assay where
  seq : Word
  pos : Nat
  fault : FaultRec
deriving DecidableEq, Repr

/-- Fixed things of a round: memory as loads read it; whether later memory words wait for a VAMO; strict: not everything commits, so
nothing but a committed element may be read elsewhere than at its own position, and nothing overwritten that may be read again; and
what the assay lane finds in it. -/
structure RoundCfg where
  mem0 : Memory
  hid : Nat
  hold : Bool
  strict : Bool
  assay : Option Assay
deriving DecidableEq, Repr

/-- What the assay lane finds in a word. -/
def RoundCfg.found (g : RoundCfg) (e : Entry) : Option Assay := g.assay.filter fun a => a.seq == e.seq

/-- One hart's accesses to a control page perform in program order (R183): a word waits until an earlier word that
accesses the same page has completed. -/
def pageHold (g : RoundCfg) (p : Planning) (e : Entry) (c : EClass) (w : EFields) : Bool :=
  !p.mems.isEmpty && (globalForm c).isSome &&
    (let mine := ctlPagesOf p.shadow g.hid (e, c, w)
     !mine.isEmpty && p.mems.any fun y => overlap mine (ctlPagesOf p.shadow g.hid y))

/-- A word that has to wait in a round in which not everything commits: it reads ahead of an earlier element-wise word, or
overwrites what that word has still to read (R81, R207); or it is a VAMO, and an earlier word would read memory again (R161). -/
def holdsStrict (p : Planning) (c : EClass) (w : EFields) (rows : Nat) : Bool :=
  p.live.any fun y => readsAhead c w rows y || readsBehind y c w rows || (isVamo c && accessesMemory y.cls)

/-- Why a word cannot run in this round. A fold runs with the words that R164 couples it with, and its push waits (R123). -/
def holdOf (g : RoundCfg) (p : Planning) (e : Entry) (c : EClass) (w : EFields) (u : Uses) : Hold :=
  let rows := e.rows.toNat
  let h := p.stop.or ((Hold.when (clashes u p.after) .after).or (Hold.when (clashes u p.hard) .waits))
  let h := if rqPushes c rows = 0 || isFold c then h else h.or p.pushes
  let h := if accessesMemory c then h.or (p.release.or p.vamo) else h
  let h := if isVamo c then h.or p.memory else h
  if elementWise c then
    (h.or (Hold.when (g.strict && holdsStrict p c w rows) .waits)).or (Hold.when (pageHold g p e c w) .after)
  else if engineWord c then (if c = .mopa then h else h.or (Hold.when (waitsForLive c w rows p.live) .after))
  else
    let clashing := p.live.filter fun y => clashes u y.uses
    let pushing := p.live.any fun y => rqPushes c rows != 0 && rqPushes y.cls y.rows != 0
    let late := clashing.any fun y =>
      overlap u.writes (y.uses.reads ++ y.uses.writes) || (overlap u.reads y.uses.writes && y.reach != noLimit)
    (h.or (Hold.when (pushing || late || overlap u.reads p.dep) .after)).or (Hold.when (g.strict && !clashing.isEmpty) .waits)

/-- A vector memory word noted for R183. -/
def noteMem (l : List (Entry × EClass × EFields)) (e : Entry) (c : EClass) (w : EFields) : List (Entry × EClass × EFields) :=
  if (globalForm c).isSome then l ++ [(e, c, w)] else l

/-- A word that does not run in this round: later words find what it uses. -/
def holdBack (p : Planning) (e : Entry) (c : EClass) (w : EFields) (u : Uses) (h : Hold) : Planning :=
  let rows := e.rows.toNat
  { p with
    hard := if h = .after then p.hard else addUses p.hard u
    after := if h = .after then addUses p.after u else p.after
    stop := p.stop.or (Hold.when (holdsLater c) h)
    release := p.release.or (Hold.when (releases c w) h)
    pushes := p.pushes.or (Hold.when (rqPushes c rows != 0) h)
    vamo := p.vamo.or (Hold.when (isVamo c) h)
    memory := p.memory.or (Hold.when (accessesMemory c) h)
    mems := noteMem p.mems e c w }

/-- The positions at which a word is computed in a round. -/
def computeKeys (e : Entry) (c : EClass) (own : Nat) : List Nat := (keysToRead e c).filter fun k => decide (k < own)

/-- The sweep of an element-wise word in a round, on the shadow state; it goes no further than an element group in which the assay
lane has found it wrong (R244). -/
def planSweep (g : RoundCfg) (p : Planning) (e : Entry) (c : EClass) (w : EFields) (own : Nat) : Swept :=
  let start := hartAt p.shadow g.hid
  let run (limit : Nat) : Swept :=
    sweep g.hid e.shape (elemAt g.mem0 start g.hid e c w) p.shadow (foldValue e) (computeKeys e c limit)
  match g.found e with
  | none => run own
  | some a =>
    let r := run (min own a.pos)
    if r.fault.isNone && r.stall.isNone && decide (a.pos < own) then { r with fault := some (a.pos, a.fault) } else r

/-- An element-wise word that runs. -/
def planLanes (g : RoundCfg) (p : Planning) (e : Entry) (c : EClass) (w : EFields) (u : Uses) : Plan × Planning :=
  let rows := e.rows.toNat
  let known := (p.live.map (readLimit c w rows)).foldl min noLimit
  let r := planSweep g p e c w known
  let own := min known ((r.stall.map (·.1)).getD noLimit)
  let dep := isVamo c || overlap u.reads p.dep
  let reach := match r.fault with
    | some x => x.1
    | none => own
  (.swept r own (dep && !isVamo c), { p with
    shadow := r.shadow
    live := p.live ++ [⟨c, w, rows, reach⟩]
    dep := if dep then p.dep ++ u.writes else p.dep
    pushes := p.pushes.or (Hold.when (rqPushes c rows != 0) .after)
    vamo := p.vamo.or (Hold.when (isVamo c && g.hold) .after)
    mems := noteMem p.mems e c w })

/-- A word performed whole that runs, on the registers as the words before it leave them. -/
def planWhole (g : RoundCfg) (p : Planning) (e : Entry) (c : EClass) (w : EFields) (u : Uses) : Plan × Planning :=
  let r := match g.found e with
    | some a => ⟨[], [], 0, some (a.pos, a.fault)⟩
    | none => wholeResult (hartAt p.shadow g.hid) e c w
  if r.fault.isSome then (.whole r, holdBack p e c w u .after)
  else (.whole r, { p with shadow := r.effs.foldl (applyEffect g.hid e.shape) p.shadow })

def planWord (g : RoundCfg) (p : Planning) (e : Entry) : Plan × Planning :=
  if e.complete then (.past, p)
  else
    match queuedClass e.word with
    | none => if p.stop = .free then (.whole (Whole.plain []), p) else (.held p.stop, p)
    | some (c, w) =>
      let rows := e.rows.toNat
      let u := usesOf c w rows
      match holdOf g p e c w u with
      | .free =>
        if c = .mopa then (.mopa, holdBack p e c w u (if p.live.any fun y => clashes u y.uses then .after else .waits))
        else if engineWord c then (.engine, holdBack p e c w u .waits)
        else if elementWise c then planLanes g p e c w u
        else planWhole g p e c w u
      | h => (if engineWord c && c != .mopa then .engine else .held h, holdBack p e c w u h)

def planAll (g : RoundCfg) (p : Planning) : List Entry → List Plan × Planning
  | [] => ([], p)
  | e :: rest =>
    let r := planWord g p e
    let q := planAll g r.2 rest
    (r.1 :: q.1, q.2)

/-! ### What may commit (R164) -/

/-- A word of a round: its place, its entry, its plan. -/
structure Item where
  idx : Nat
  e : Entry
  plan : Plan
deriving DecidableEq, Repr

def itemsOf (conv : List Entry) (plans : List Plan) : List Item :=
  (List.range conv.length).zip (conv.zip plans) |>.map fun x => ⟨x.1, x.2.1, x.2.2⟩

/-- The fault that a word has met, with its position. -/
def Plan.fault : Plan → Option (Nat × FaultRec)
  | .swept r _ _ => r.fault
  | .whole r => r.fault
  | _ => none

/-- The position from which a word keeps the others back: its fault, where an access of it stalls, or where it resumes while it
waits. -/
def Item.reach (x : Item) : Option Nat :=
  match x.plan with
  | .held .waits => if wordIs elementWise x.e && !(keysLeft x.e).isEmpty then some (resumeKey x.e) else none
  | .swept r _ _ => (r.fault.map (·.1)).orElse fun _ => r.stall.map (·.1)
  | p => p.fault.map (·.1)

def Plan.dependent : Plan → Bool
  | .swept _ _ dep => dep
  | _ => false

/-- The position below which the word at a place may commit (R164): no word waits for a dependent that is not itself one,
and none that was there before a late word waits for it below that word's c. -/
def boundOf (l : List Item) (limit i : Nat) (dep : Bool) : Nat :=
  l.foldl (fun b x => match x.reach with
    | none => b
    | some p => if x.plan.dependent && !dep then b else min b (if i < x.idx then max x.e.late.toNat p else p)) limit

/-- The fault of a round: at the lowest position, of the earliest word (R164). -/
def firstFault (l : List Item) : Option (Nat × FaultRec) :=
  l.foldl (fun b x => match b, x.plan.fault with
    | some y, some z => if z.1 < y.1 then some z else some y
    | none, z => z
    | y, none => y) none

/-- The item's word commits position by position, or waits to do so. -/
def Item.coupled (x : Item) : Bool :=
  match x.plan with
  | .swept .. => true
  | .held .waits => wordIs elementWise x.e
  | _ => false

/-- A fault can be delivered: every word that R164 couples has committed, or commits now, every position before it. -/
def deliverable (l : List Item) (limit p : Nat) : Bool :=
  decide (p ≤ limit) && l.all fun x => !x.coupled || (keysLeft x.e).isEmpty || decide (p ≤ boundOf l limit x.idx x.plan.dependent)

/-- Nothing holds the words of a round back but a fault that is delivered with it. -/
def settled (l : List Item) (limit : Nat) : Bool :=
  match firstFault l with
  | some x => deliverable l limit x.1
  | none => l.all fun x => match x.plan with
    | .swept r _ _ => r.stall.isNone && (keysLeft x.e).all fun p => decide (p < limit)
    | .held .waits => !wordIs elementWise x.e || (keysLeft x.e).isEmpty
    | _ => true

/-! ### Committing (R164, R200) -/

/-- The bytes by PA that effects have stored. -/
def storedRanges (l : List Act) : List (Nat × Nat) :=
  l.flatMap fun a => a.effs.flatMap fun
    | .mem l _ => l.map fun x => (x.1.place.pa, x.2)
    | _ => []

/-- Sectors that the elements of one store cover whole are poisoned no more (R272). -/
def unpoison (m : Memory) (l : List (Nat × Nat)) : Memory :=
  { m with poison := m.poison.filter fun sec =>
      !((List.range 32).all fun b => l.any fun x => decide (x.1 ≤ sec * 32 + b ∧ sec * 32 + b < x.1 + x.2)) }

/-- The entry that a fold reduction pushes (R123, R143). -/
def foldPush (e : Entry) (c : EClass) (acc : Word) : List Word :=
  if isFold c then
    if e.icx then [0]
    else match tyOf (dstType e.mode e.taga) with
      | some t => [pushValue t (acc.toNat % 2 ^ tyWidth t)]
      | none => [0]
  else []

/-- The word at a place may push its entries: what earlier words push stands in the return queue, and there is room for them
(R123). -/
def pushReady (h : Hart) (i n : Nat) : Bool :=
  n == 0 || (owed (h.queue.take i) == 0 && decide (h.rq.length + n ≤ 16))

/-- The entries that the word at a place pushes. -/
def pushesOf (e : Entry) : Nat := owed [{ e with complete := false }]

/-- DONE of a word that has committed everything below a limit. -/
def reachedTo (e : Entry) (limit : Nat) (done : Pos) : Pos :=
  if (keysLeft e).isEmpty then done
  else BitVec.ofNat 32 (max (resumeKey e) (normKey e.vl.toNat (min limit (posKey e.rows.toNat 0))))

/-- A sweep committed below a limit; the word completes when no position is left and what it pushes has its turn and room. -/
def commitSweep (s : State) (hid i : Nat) (e : Entry) (c : EClass) (r : Swept) (limit : Nat) : State :=
  let acts := r.acts.takeWhile fun a => decide (a.pos < limit)
  let acc := acts.foldl (fun v a => (actFold a).getD v) (foldValue e)
  let s := acts.foldl (applyAct hid e.shape) s
  let s := { s with mem := unpoison s.mem (storedRanges acts) }
  let flags := e.flags ||| orActs acts
  if ((keysLeft e).all fun p => decide (p < limit)) && pushReady (hartAt s hid) i (pushesOf e) then
    let s := editEntry s hid i fun x => { x with flags := flags, fold := acc }
    setHart s hid (completeAt (hartAt s hid) i (flagIf e.icx flagICX) (foldPush e c acc))
  else
    progressed (editEntry s hid i fun x => { x with
      flags := flags
      fold := acc
      done := reachedTo e limit x.done }) hid i (!acts.isEmpty)

/-- A VLD that fills a load queue: what it has read stands in the queue, and it commits where its consumer has (R164). -/
def commitFill (s : State) (hid i : Nat) (e : Entry) (r : Swept) (own limit : Nat) : State :=
  let s := r.acts.foldl (applyAct hid e.shape) s
  let filled := match r.fault with
    | some x => x.1
    | none => min own (posKey e.rows.toNat 0)
  progressed (editEntry s hid i fun x => { x with
    flags := e.flags ||| orActs r.acts
    filled := BitVec.ofNat 32 (max e.filled.toNat filled)
    done := reachedTo e limit x.done }) hid i (decide (resumeKey e < (reachedTo e limit e.done).toNat))

/-- A whole word completed; with too few free entries of the return queue it holds its place (R123). -/
def commitWhole (s : State) (hid i : Nat) (e : Entry) (r : Whole) : State :=
  if r.fault.isSome || !pushReady (hartAt s hid) i r.push.length then s
  else
    let s := r.effs.foldl (applyEffect hid e.shape) s
    setHart s hid (completeAt (hartAt s hid) i (r.flags ||| flagIf e.icx flagICX) r.push)

/-- The first word after a place that reads the load queue that the word there fills. -/
def consumerOf (l : List Item) (i : Nat) (c : EClass) : Option Item :=
  l.find? fun x => decide (i < x.idx) && (match queuedClass x.e.word with
    | some (d, w) => overlap (lqReads d w) (lqWrites c)
    | none => false)

/-- How far the consumer of a load queue commits: with the other words where it is no element-wise word that runs. DESIGN CHOICE: at a
fault the queue of a consumer performed whole that has not run keeps its bytes below VSTART, and its VLD's DONE moves on (log 12). -/
def consumedTo (l : List Item) (limit i : Nat) (c : EClass) : Nat :=
  match consumerOf l i c with
  | none => 0
  | some x => match x.plan with
    | .swept _ own dep => min own (boundOf l limit x.idx dep)
    | .past => noLimit
    | .held _ => if wordIs elementWise x.e then 0 else boundOf l limit i false
    | .whole _ | .mopa | .engine => boundOf l limit i false

def commitItem (l : List Item) (limit hid : Nat) (s : State) (x : Item) : State :=
  match x.plan with
  | .swept r own dep =>
    let s := match r.stall with
      | some p => noteStall s hid p.2
      | none => s
    match queuedClass x.e.word with
    | some (c, _) =>
      let b := boundOf l limit x.idx dep
      if fillsQueue c then commitFill s hid x.idx x.e r own (min b (consumedTo l limit x.idx c))
      else commitSweep s hid x.idx x.e c r (min own b)
    | none => s
  | .whole r => commitWhole s hid x.idx x.e r
  | .past | .held _ | .mopa | .engine => s

/-- The convoy of an entry takes no further word. -/
def convoyClosed (h : Hart) : Bool := h.conv.isNone || decide ((headConvoy h.queue).length < h.queue.length)

/-- A VLD whose load queue is filled completes once its consumer has, or when its closed convoy holds none. -/
def settleQueue (l : List Item) (hid : Nat) (s : State) (x : Item) : State :=
  match queuedClass x.e.word, (hartAt s hid).queue[x.idx]? with
  | some (c, _), some e =>
    if !fillsQueue c || e.complete then s
    else
      let full := (keysLeft e).isEmpty || decide (posKey e.rows.toNat 0 ≤ e.filled.toNat)
      let consumed := match consumerOf l x.idx c with
        | some y => match (hartAt s hid).queue[y.idx]? with
          | some z => z.complete
          | none => true
        | none => convoyClosed (hartAt s hid)
      if full && consumed then setHart s hid (completeAt (hartAt s hid) x.idx (flagIf e.icx flagICX) []) else s
  | _, _ => s

/-! ### The array's words of a convoy (R221, R225, R226) -/

/-- An X word may be in the array: no X word of another hart entered the window before it (R226). -/
def arrayFree (s : State) (hid : Nat) (e : Entry) : Bool := firstOfCore s hid e (wordIs fun c => (claimsOf c).x == 1)

/-- Positions of its sources below which a MOPA finds them committed, as far as R164 lets the convoy commit. -/
def mopaLimit (s : State) (hid : Nat) (l : List Item) (limit : Nat) (x : Item) (w : EFields) : Nat :=
  (l.takeWhile fun y => y.idx != x.idx).foldl (fun b y =>
    match y.plan, queuedClass y.e.word with
    | .swept _ own dep, some (c, v) =>
      let done := ((hartAt s hid).queue[y.idx]?.map (·.complete)).getD true
      let reach := if done then noLimit else min own (boundOf l limit y.idx dep)
      min b (readLimit .mopa w x.e.rows.toNat ⟨c, v, y.e.rows.toNat, reach⟩)
    | _, _ => b) (boundOf l limit x.idx true)

/-- What the MOPA of a round has done: its state, its fault, and whether it waits with k-steps still to perform. -/
structure MopaOut where
  state : State
  fault : Option FaultRec
  owes : Bool
deriving DecidableEq, Repr

/-- The k-steps of a MOPA that the round's commits allow (R225): with a fault of the lanes exactly those before it. -/
def mopaItem (l : List Item) (limit hid : Nat) (s : State) (x : Item) : MopaOut :=
  match x.plan, queuedClass x.e.word, (hartAt s hid).queue[x.idx]? with
  | .mopa, some (_, w), some e =>
    let upTo := mopaLimit s hid l limit x w
    let owes := !e.icx && decide (e.kdone.toNat < stepsBelow e.vl.toNat e.rows.toNat upTo)
    if !arrayFree s hid e then ⟨s, none, owes⟩
    else
      let r := if e.icx then ⟨s, .complete []⟩ else mopaRun s hid x.idx e w upTo
      match r.ended with
      | .complete push =>
        ⟨setHart r.state hid (completeAt (hartAt r.state hid) x.idx (flagIf e.icx flagICX) push), none, false⟩
      | .partly => ⟨r.state, none, false⟩
      | .waits => ⟨s, none, owes⟩
      | .fault _ f => ⟨s, some f, false⟩
  | _, _, _ => ⟨s, none, false⟩

/-- A round: its state, the fault that is delivered, and whether words wait for a VAMO. -/
structure RoundOut where
  state : State
  fault : Option (Option Nat × FaultRec)
  held : Bool
deriving DecidableEq, Repr

/-- The plan of a round. Words that read ahead of what commits run only where everything commits, or a fault explains why
not: otherwise an element could be read twice with two values (R154, R207). -/
def planRound (s : State) (hid limit : Nat) (hold : Bool) (assay : Option Assay) : List Item × Planning :=
  let conv := headConvoy (hartAt s hid).queue
  let r := planAll ⟨s.mem, hid, hold, false, assay⟩ (Planning.start s) conv
  let l := itemsOf conv r.1
  if settled l limit then (l, r.2)
  else
    let r := planAll ⟨s.mem, hid, hold, true, assay⟩ (Planning.start s) conv
    (itemsOf conv r.1, r.2)

/-- The MOPA of a round. -/
def mopaAll (l : List Item) (limit hid : Nat) (s : State) : MopaOut :=
  match l.find? fun x => x.plan == .mopa with
  | some x => mopaItem l limit hid s x
  | none => ⟨s, none, false⟩

/-- One round. A fault of the lanes is delivered once the MOPA of the convoy has performed the k-steps before it (R225). -/
def round (s : State) (hid limit : Nat) (hold : Bool) (assay : Option Assay) : RoundOut :=
  let r := planRound s hid limit hold assay
  let l := r.1
  let s := l.foldl (commitItem l limit hid) s
  let m := mopaAll l limit hid s
  let s := l.foldl (settleQueue l hid) m.state
  let f := match firstFault l with
    | some x => if deliverable l limit x.1 && !m.owes then some (some x.1, x.2) else none
    | none => m.fault.map fun f => (none, f)
  ⟨s, f, r.2.vamo == .after && l.any fun x => x.plan == .held .after⟩

/-! ### The engines' words -/

/-- Earlier words of the convoy that have not completed. -/
def openBefore (conv : List Entry) (i : Nat) : List (EClass × EFields × Nat) :=
  ((conv.take i).filter fun e => !e.complete).filterMap fun e =>
    (queuedClass e.word).map fun p => (p.1, p.2, e.rows.toNat)

/-- An engine word may run: hazards, the ordering rules of R161, R203, R235, R240. -/
def mayRun (conv : List Entry) (i : Nat) (c : EClass) (w : EFields) (rows : Nat) : Bool :=
  runsAfter (openBefore conv i) c w rows

/-- A word has issued to its unit, though it may have to wait there: no TWAIT or TQUERY before it is open (R240). -/
def mayPass (conv : List Entry) (i : Nat) : Bool := (openBefore conv i).all fun x => !holdsLater x.1

/-- VFENCE (R162): the hart's stores that wait perform, at system scope; everything else has performed (log 3). -/
def vfenceRun (s : State) (hid : Nat) : EngineOut := ⟨releaseStores s hid, .complete []⟩

/-- A word in the window, of a hart of a core, that its convoy lets run now and that answers p. -/
def readyInWindow (s : State) (core : Nat) (p : Nat → Entry → EClass → EFields → Bool) (x : Nat × Word) : Bool :=
  let hid := 4 * core + x.1
  let conv := headConvoy (hartAt s hid).queue
  issuing (hartAt s hid) && (List.range conv.length).any fun i =>
    match conv[i]? with
    | none => false
    | some e => match queuedClass e.word with
      | none => false
      | some (c, w) =>
        !e.complete && !e.icx && e.seq == x.2 && p hid e c w && mayPass conv i && mayRun conv i c w e.rows.toNat

/-- No word of another hart that answers p, entered the window before and can run now: C-class words pass to their unit in
the order in which they entered the window, and one that has to wait in its unit lets others by (R208, R240). -/
def passesFirst (s : State) (hid : Nat) (e : Entry) (p : Nat → Entry → EClass → EFields → Bool) : Bool :=
  ((coreAt s (coreOf hid)).window.takeWhile (· != (slotOf hid, e.seq))).all fun x =>
    x.1 == slotOf hid || !readyInWindow s (coreOf hid) p x

/-- A TILE word on a tile that its state lets run (R218). -/
def tileReadyNow (s : State) (core k : Nat) (c : EClass) (w : EFields) : Bool :=
  match c with
  | .tile fn => w.imm.toNat % 128 == k && (match (tileAt (coreAt s core) k).state with
    | .empty => fn != 2
    | .ready => true
    | .filling | .draining => fn == 3)
  | _ => false

def engineRun (s : State) (hid i : Nat) (e : Entry) (c : EClass) (w : EFields) (limit : Nat) (go : Bool) : EngineOut :=
  match c with
  | .cpy => cpyRun s hid i e w 4096 go
  | c =>
    if !go then ⟨s, .waits⟩
    else match c with
      | .tile fn =>
        let first := passesFirst s hid e fun _ _ => tileReadyNow s (coreOf hid) (w.imm.toNat % 128)
        if first then tileRun s hid e.icx w fn else ⟨s, .waits⟩
      | .coll k =>
        let first := e.started || passesFirst s hid e fun hid e c _ => collReadyNow s hid e c
        if first then collRun s hid i e w k else ⟨s, .waits⟩
      | .vfence => vfenceRun s hid
      | c => if arrayFree s hid e then matrixRun s hid i e c w limit else ⟨s, .waits⟩

/-- The outcome of an engine word entered in the queue; one whose access stalls waits (R362), and so does one whose entries have no
room in the return queue (R123). -/
def settleEngine (hid i : Nat) (e : Entry) (r : EngineOut) : State × Option (Option Nat × FaultRec) :=
  match r.ended with
  | .waits | .partly => (r.state, none)
  | .complete push =>
    if pushReady (hartAt r.state hid) i push.length then
      (setHart r.state hid (completeAt (hartAt r.state hid) i (flagIf e.icx flagICX) push), none)
    else (r.state, none)
  | .fault p f => if f.stalls then (noteStall r.state hid f.code.toNat, none) else (r.state, some (p, f))

/-- One engine word of the head convoy. -/
def engineAtIndex (s : State) (hid limit i : Nat) : State × Option (Option Nat × FaultRec) :=
  let conv := headConvoy (hartAt s hid).queue
  match conv[i]? with
  | none => (s, none)
  | some e =>
    match queuedClass e.word with
    | none => (s, none)
    | some (c, w) =>
      if !e.complete && engineWord c && c != .mopa && mayPass conv i then
        settleEngine hid i e (engineRun s hid i e c w limit (mayRun conv i c w e.rows.toNat))
      else (s, none)

/-- The engine words in turn, to the first fault. -/
def engineEach (hid limit : Nat) (s : State) : List Nat → State × Option (Option Nat × FaultRec)
  | [] => (s, none)
  | i :: rest =>
    let r := engineAtIndex s hid limit i
    match r.2 with
    | some x => (r.1, some x)
    | none => if issuing (hartAt r.1 hid) then engineEach hid limit r.1 rest else (r.1, none)

/-- Indices of a convoy's words, X words first: a COLL that completes frees entries. -/
def engineOrder (conv : List Entry) : List Nat :=
  let isX (i : Nat) : Bool := match conv[i]? with
    | some e => wordIs (fun c => (claimsOf c).x == 1) e
    | none => false
  let l := List.range conv.length
  l.filter isX ++ l.filter fun i => !isX i

/-! ### The turn -/

/-- The fault of a round delivered. Words that wait for a VAMO complete the positions before it; one of them may fault earlier
(R164). -/
def deliverRound (hid : Nat) (r : RoundOut) (p : Nat) (f : FaultRec) : State :=
  let q := if r.held then round r.state hid p false none else ⟨r.state, none, false⟩
  match q.fault with
  | some y => deliver q.state hid (some (y.1.getD p)) y.2
  | none => deliver q.state hid (some p) f

/-- Rounds until nothing more can be done, or a trap. -/
def turnLoop (hid limit fuel : Nat) (s : State) : State :=
  match fuel with
  | 0 => s
  | n + 1 =>
    if !issuing (hartAt s hid) then s
    else
      let r := round s hid limit true none
      match r.fault with
      | some (some p, f) => deliverRound hid r p f
      | some (none, f) => deliver r.state hid none f
      | none =>
        let g := engineEach hid limit r.state (engineOrder (headConvoy (hartAt r.state hid).queue))
        match g.2 with
        | some x => deliver g.1 hid x.1 x.2
        | none => if (hartAt g.1 hid).queue = (hartAt s hid).queue then g.1 else turnLoop hid limit n g.1

/-- The end of a turn: completed words leave the queue, and a cession that waited for the queue takes place. -/
def endTurn (s : State) (hid : Nat) : State := tryCede (retireWords s hid) hid

/-- THE TURN OF A HART'S QUEUE: its head convoy, committing only positions below a limit. -/
def lanesTurn (s : State) (hid limit : Nat) : State :=
  if issuing (hartAt s hid) then endTurn (turnLoop hid limit 20 (enterWindow s hid)) hid else s

/-- An E-word is what the head of the queue holds. -/
def leads (s : State) (i : Instr) : Bool :=
  match (curHart s).queue with
  | [] => false
  | e :: _ => match decodeE e.word with
    | .ok j => j == i
    | .error _ => false

/-- The meaning of an E-word at the head of the current hart's queue: the turn of the convoy that it leads. -/
def performWord (i : Instr) (s : State) : Result :=
  if leads s i then .next (lanesTurn s s.cur (s.laneLimit.getD noLimit)) else .next s

end Sys2Proof.Machine
end

