-- ==== Sys2Proof/Machine/EWords.lean ====
section
/-! DEFINITION. The meanings of the E-words. An E-word acts when its hart's lanes or engines reach it (R206): its
meaning is the turn of the convoy that it leads at the head of the current hart's queue (log 22). What it does there is
in elemAt, wholeResult, matrixRun, cpyRun, tileRun, collRun and vfenceRun. -/

namespace Sys2Proof.Machine

/-! ### VARITH (R125 to R128) -/

def execVadd (w : EFields) (s : State) : Result := performWord (.vadd w) s
def execVsub (w : EFields) (s : State) : Result := performWord (.vsub w) s
def execVmul (w : EFields) (s : State) : Result := performWord (.vmul w) s
def execVmulh (w : EFields) (s : State) : Result := performWord (.vmulh w) s
def execVdiv (w : EFields) (s : State) : Result := performWord (.vdiv w) s
def execVrem (w : EFields) (s : State) : Result := performWord (.vrem w) s
def execVmin (w : EFields) (s : State) : Result := performWord (.vmin w) s
def execVmax (w : EFields) (s : State) : Result := performWord (.vmax w) s
def execVabs (w : EFields) (s : State) : Result := performWord (.vabs w) s
def execVneg (w : EFields) (s : State) : Result := performWord (.vneg w) s
def execVand (w : EFields) (s : State) : Result := performWord (.vand w) s
def execVor (w : EFields) (s : State) : Result := performWord (.vor w) s
def execVxor (w : EFields) (s : State) : Result := performWord (.vxor w) s
def execVnot (w : EFields) (s : State) : Result := performWord (.vnot w) s
def execVshl (w : EFields) (s : State) : Result := performWord (.vshl w) s
def execVshr (w : EFields) (s : State) : Result := performWord (.vshr w) s
def execVsqrt (w : EFields) (s : State) : Result := performWord (.vsqrt w) s
def execVexp2 (w : EFields) (s : State) : Result := performWord (.vexp2 w) s
def execVlog2 (w : EFields) (s : State) : Result := performWord (.vlog2 w) s
def execVrsq (w : EFields) (s : State) : Result := performWord (.vrsq w) s
def execVrcp (w : EFields) (s : State) : Result := performWord (.vrcp w) s

/-! ### VMAC (R129) -/

def execVmac (w : EFields) (s : State) : Result := performWord (.vmac w) s
def execVnmac (w : EFields) (s : State) : Result := performWord (.vnmac w) s

/-! ### VCMP (R130, R131) -/

def execVcmpEq (w : EFields) (s : State) : Result := performWord (.vcmpEq w) s
def execVcmpNe (w : EFields) (s : State) : Result := performWord (.vcmpNe w) s
def execVcmpLt (w : EFields) (s : State) : Result := performWord (.vcmpLt w) s
def execVcmpLe (w : EFields) (s : State) : Result := performWord (.vcmpLe w) s
def execVcmpGt (w : EFields) (s : State) : Result := performWord (.vcmpGt w) s
def execVcmpGe (w : EFields) (s : State) : Result := performWord (.vcmpGe w) s
def execVcmpUnord (w : EFields) (s : State) : Result := performWord (.vcmpUnord w) s

/-! ### VSEL, VCVT (R132 to R135) -/

def execVsel (w : EFields) (s : State) : Result := performWord (.vsel w) s
def execVcvtCvt (w : EFields) (s : State) : Result := performWord (.vcvtCvt w) s
def execVcvtRes (w : EFields) (s : State) : Result := performWord (.vcvtRes w) s
def execVcvtCrt (w : EFields) (s : State) : Result := performWord (.vcvtCrt w) s

/-! ### VPERM (R136 to R141) -/

def execSlideup (w : EFields) (s : State) : Result := performWord (.slideup w) s
def execSlidedn (w : EFields) (s : State) : Result := performWord (.slidedn w) s
def execSlide1up (w : EFields) (s : State) : Result := performWord (.slide1up w) s
def execSlide1dn (w : EFields) (s : State) : Result := performWord (.slide1dn w) s
def execGatherv (w : EFields) (s : State) : Result := performWord (.gatherv w) s
def execCompress (w : EFields) (s : State) : Result := performWord (.compress w) s
def execBcast (w : EFields) (s : State) : Result := performWord (.bcast w) s
def execIndex (w : EFields) (s : State) : Result := performWord (.index w) s
def execVmv (w : EFields) (s : State) : Result := performWord (.vmv w) s
def execExtract (w : EFields) (s : State) : Result := performWord (.extract w) s

/-! ### VRED (R142 to R144) -/

def execVredSum (w : EFields) (s : State) : Result := performWord (.vredSum w) s
def execVredSumu (w : EFields) (s : State) : Result := performWord (.vredSumu w) s
def execVredMax (w : EFields) (s : State) : Result := performWord (.vredMax w) s
def execVredMin (w : EFields) (s : State) : Result := performWord (.vredMin w) s
def execVredAnd (w : EFields) (s : State) : Result := performWord (.vredAnd w) s
def execVredOr (w : EFields) (s : State) : Result := performWord (.vredOr w) s
def execVredXor (w : EFields) (s : State) : Result := performWord (.vredXor w) s

/-! ### MASK, VTYPE (R145, R146) -/

def execMand (w : EFields) (s : State) : Result := performWord (.mand w) s
def execMor (w : EFields) (s : State) : Result := performWord (.mor w) s
def execMxor (w : EFields) (s : State) : Result := performWord (.mxor w) s
def execMandn (w : EFields) (s : State) : Result := performWord (.mandn w) s
def execMnot (w : EFields) (s : State) : Result := performWord (.mnot w) s
def execMpopc (w : EFields) (s : State) : Result := performWord (.mpopc w) s
def execMfirst (w : EFields) (s : State) : Result := performWord (.mfirst w) s
def execMset (w : EFields) (s : State) : Result := performWord (.mset w) s
def execVtype (w : EFields) (s : State) : Result := performWord (.vtype w) s

/-! ### Vector memory (R147 to R166) -/

def execVld (w : EFields) (f : AddrForm) (sp : Space) (t : LdTarget) (s : State) : Result := performWord (.vld w f sp t) s
def execVst (w : EFields) (ordered : Bool) (f : AddrForm) (sp : Space) (s : State) : Result := performWord (.vst w ordered f sp) s
def execVamo (w : EFields) (p : AmoOp) (sc : Scope) (s : State) : Result := performWord (.vamo w p sc) s
def execVfence (w : EFields) (s : State) : Result := performWord (.vfence w) s

/-! ### Matrix words (R220 to R230) -/

def execMopa (w : EFields) (s : State) : Result := performWord (.mopa w) s
def execMopm (w : EFields) (s : State) : Result := performWord (.mopm w) s
def execMzero (w : EFields) (s : State) : Result := performWord (.mzero w) s
def execMcvt (w : EFields) (s : State) : Result := performWord (.mcvt w) s
def execMrowR (w : EFields) (s : State) : Result := performWord (.mrowR w) s
def execMrowW (w : EFields) (s : State) : Result := performWord (.mrowW w) s
def execMbf (w : EFields) (s : State) : Result := performWord (.mbf w) s

/-! ### Copy, tile and collective words (R232 to R241, R393 to R399) -/

def execCpy (w : EFields) (s : State) : Result := performWord (.cpy w) s
def execTready (w : EFields) (s : State) : Result := performWord (.tready w) s
def execTempty (w : EFields) (s : State) : Result := performWord (.tempty w) s
def execTwait (w : EFields) (s : State) : Result := performWord (.twait w) s
def execTquery (w : EFields) (s : State) : Result := performWord (.tquery w) s
def execCollReduceScatter (w : EFields) (s : State) : Result := performWord (.collReduceScatter w) s
def execCollAllGather (w : EFields) (s : State) : Result := performWord (.collAllGather w) s
def execCollAllReduce (w : EFields) (s : State) : Result := performWord (.collAllReduce w) s
def execCollKvRotation (w : EFields) (s : State) : Result := performWord (.collKvRotation w) s

end Sys2Proof.Machine
end

