-- ==== Sys2Proof/Machine/CoreEvents.lean ====
section
/-! DEFINITION. Events inside a core: the issue window (R206), lane clusters lent and gated (R210 to R212), steps of the
copy engine (R234, R237, R344) and the element-progress timeout (R247). -/

namespace Sys2Proof.Machine

/-! ### The issue window and the lane clusters -/

/-- CONVOY_ENTER: the head convoy of a hart whose queue is issuing enters the window (R206). -/
def execConvoyEnter (hid : Nat) (s : State) : Result := .next (joinWindow s hid)

/-- LANE_CLUSTER_GATE (R212): no word in the window uses the cluster, its own hart's or a borrower's. Clusters above a grant
hold no element of any word and gate too. -/
def execLaneClusterGate (core lc : Nat) (s : State) : Result :=
  let c := coreAt s core
  let busy := (c.loans.any fun l => l.lc == lc) || (List.range 4).any fun k =>
    let h := hartAt s (4 * core + k)
    issuing h && (busyClusters h).getLsbD lc
  .next (if busy || 4 ≤ lc then s else setCore s core { c with gated := c.gated ||| (1#4 <<< lc) })

/-- LANE_CLUSTER_WAKE (R212). -/
def execLaneClusterWake (core lc : Nat) (s : State) : Result :=
  let c := coreAt s core
  .next (setCore s core { c with gated := c.gated &&& ~~~(1#4 <<< lc) })

/-- A convoy holds an element-wise word of resource A. -/
def lendable (e : Entry) : Bool := !e.complete && wordIs (fun c => elementWise c && (claimsOf c).a == 1) e

/-- A word in the window uses a lane cluster. -/
def usesCluster (s : State) (core lc : Nat) : Bool :=
  (List.range 4).any fun k => issuing (hartAt s (4 * core + k)) && (busyClusters (hartAt s (4 * core + k))).getLsbD lc

/-- The hart of a core that holds a lane cluster. -/
def laneHolder (s : State) (core lc : Nat) : Option Nat :=
  ((List.range 4).map (4 * core + ·)).find? fun k => resident s k && (hartAt s k).own.getLsbD lc

/-- LANE_LOAN_START (R210): the owner's queue is empty, the borrower has element-wise A words, and the balance is at least
one grant cost. -/
def execLaneLoanStart (core lc borrower : Nat) (s : State) : Result :=
  let c := coreAt s core
  let ok := match laneHolder s core lc with
    | none => false
    | some owner =>
      let b := hartAt s (4 * core + borrower)
      decide (borrower < 4) && owner != 4 * core + borrower && (hartAt s owner).queue.isEmpty && issuing b &&
        (headConvoy b.queue).any lendable && !usesCluster s core lc && !(c.loans.any fun l => l.lc == lc) &&
        decide ((s.power.cost.toNat : Int) ≤ (clusterAt s (core / 4)).bal)
  .next (if ok then setCore s core { c with loans := c.loans ++ [⟨lc, borrower, s.pt⟩] } else s)

/-! ### Steps of the copy engine -/

/-- The CPY of a hart's head convoy that has issued to the engine: its index, entry and fields, and whether the words
before it let it access memory. -/
def headCopy (s : State) (hid : Nat) : Option (Nat × Entry × EFields × Bool) :=
  let h := hartAt s hid
  let conv := headConvoy h.queue
  if !issuing h then none
  else
    match conv.findIdx? fun e => !e.complete && !e.icx && wordIs (· == .cpy) e with
    | none => none
    | some i => match conv[i]? with
      | none => none
      | some e => match queuedClass e.word with
        | some (c, w) => if mayPass conv i then some (i, e, w, mayRun conv i c w e.rows.toNat) else none
        | none => none

/-- TILE_CLAIM (R218, R234): the copy engine makes the claims that it can. -/
def execTileClaim (hid : Nat) (s : State) : Result :=
  match headCopy (joinWindow s hid) hid with
  | some (i, e, _) => .next (claimCopy (joinWindow s hid) hid i e).1
  | none => .next s

/-- A CPY holds all its claims. -/
def holdsClaims (s : State) (hid : Nat) (e : Entry) : Bool :=
  e.started && (claimTiles (dstTiles e e.rowsDone) (coreAt s (coreOf hid)) e.claims (claimList e)).2.2

/-- NOSPLIT_JUDGE (R344): a no-split CPY that holds its claims and may issue its first chunk is judged; found too long, it waits until
a blocked window has ended. -/
def execNosplitJudge (hid : Nat) (s : State) : Result :=
  match headCopy s hid with
  | some (i, e, w, go) =>
    .next (if go && cpyNoSplit w && !e.judged && holdsClaims s hid e && mayJudge s (dieOf hid) e then
      (if splitTest s (dieOf hid) e then editEntry s hid i fun e => { e with judged := true, deferred := none }
      else editEntry s hid i fun e => { e with deferred := some s.pt }) else s)
  | none => .next s

/-- CPY_ROW_COMPLETE (R234, R237): one row. -/
def execCpyRowComplete (hid : Nat) (s : State) : Result :=
  let s := joinWindow s hid
  match headCopy s hid with
  | some (i, e, w, go) =>
    let r := settleEngine hid i e (cpyRun s hid i e w 1 go)
    match r.2 with
    | some f => .next (deliver r.1 hid f.1 f.2)
    | none => .next (endTurn r.1 hid)
  | none => .next s

/-! ### Cluster-local faults: the assay lanes (R243 to R246) and translation structures (R277, R286) -/

/-- The words that the assay lane checks on a pipe: 0 and 1 the A pipes, 2 the P pipe, 3 address generation (R243, R376). -/
def pipeChecked (pipe : Nat) (c : EClass) : Bool :=
  if pipe = 3 then (match c with
    | .vld .. | .vst .. | .vamo .. => true
    | _ => false)
  else if pipe = 2 then (claimsOf c).p == 1
  else decide (pipe < 2) && (claimsOf c).a == 1

/-- A word of a hart has element groups in a lane cluster: the hart's own, or one lent to it (R211). -/
def usesLanes (s : State) (hid lc : Nat) (e : Entry) : Bool :=
  (clustersOf (hartAt s hid) e).getLsbD lc ||
    (lendable e && (coreAt s (coreOf hid)).loans.any fun l => l.lc == lc && l.slot == slotOf hid)

/-- The oldest word in the window that a lane cluster computes and its assay lane may check, with its hart: of the lanes that
lane admits (R243), on a pipe. -/
def underAssay (s : State) (core lc : Nat) (lane : Nat → Bool) (pipe : EClass → Bool) : Option (Nat × Entry) :=
  ((List.range 4).map (4 * core + ·)).findSome? fun hid =>
    let h := hartAt s hid
    if issuing h then
      ((headConvoy h.queue).find? fun e =>
        !e.complete && lane (e.seq.toNat % 4) && wordIs pipe e && usesLanes s hid lc e).map fun e => (hid, e)
    else none

/-- The first active position, not yet committed, of an element group of a row that a lane of a cluster computes (R22, R244). A
lent cluster computes groups of the borrower that the spec does not name. DESIGN CHOICE: the group of a word with elements of
several widths is that of the widest (log 61). -/
def groupStart (h : Hart) (e : Entry) (c : EClass) (w : EFields) (lc lane row group : Nat) : Option Nat :=
  let per := 256 / widestOf e
  let here := match (ownBits h.own).findIdx? (· == lc) with
    | some j => group / (if e.shape then 8 else 4) == 4 * j + lane
    | none => true
  if here then
    (((List.range per).map fun k => group * per + k).find? fun i =>
      (c == .vsel || activeAt h w i) && (keysLeft e).contains (posKey row i)).map (posKey row)
  else none

/-- An uncorrectable assay disagreement (R244): class 22 at the group's first active position, where the word reaches it; counted
for its lane, and, once it is raised, for the lane cluster (R286). -/
def assayFault (s : State) (cl core lc lane pipe row group : Nat) : State :=
  match underAssay s core lc (· == lane) (pipeChecked pipe) with
  | none => s
  | some (hid, e) =>
    match (queuedClass e.word).bind fun x => groupStart (hartAt s hid) e x.1 x.2 lc lane row group with
    | none => s
    | some p =>
      let r := round (enterWindow s hid) hid noLimit true (some ⟨e.seq, p, eFaultRec e 22 (4 * lc + lane) 0 0⟩)
      match r.fault with
      | some (some q, f) =>
        if f.cls = 22 then
          let s := hallCount (hallCount (deliverRound hid r q f) core (16 * lc + 4 * lane + pipe)) core (68 + lc)
          localRecord s cl 6 1 core (4 * lc + lane) 0
        else s
      | _ => s

/-- The MOPA or MOPM of a core that adds into a tile in BF16 mode: the array checks it (R246). -/
def arrayWord (s : State) (core : Nat) : Option (Nat × Entry) :=
  ((List.range 4).map (4 * core + ·)).findSome? fun hid =>
    let h := hartAt s hid
    if issuing h then
      ((headConvoy h.queue).find? fun e => !e.complete && !e.icx && e.started && wordIs matrixStep e && (match queuedClass e.word with
        | some (_, w) => (cbTile (coreAt s core) w.d.toNat).mode == .bf16
        | none => false)).map fun e => (hid, e)
    else none

/-- An uncorrectable disagreement in the array (R246): class 22 with CODE[4] = 1, the k-step not performed. -/
def arrayFault (s : State) (cl core sub : Nat) : State :=
  match arrayWord s core with
  | none => s
  | some (hid, e) =>
    let s := deliver s hid none (eFaultRec e 22 16 0 0)
    localRecord (hallCount (hallCount s core (72 + sub)) core 88) cl 6 1 core 0 0

/-- A fault lies in a cluster, and names a sub-array that there is. -/
def faultOf (cl : Nat) (f : LocalFault) : Bool :=
  match f with
  | .assayCorrected core .. | .assayLaneWrong core _ | .assayUncorrectable core .. => core / 4 == cl
  | .arrayCorrected core sub | .arrayUncorrectable core sub => core / 4 == cl && decide (sub < 16)
  | .translationStructure => true

/-- LOCAL_FAULT_RECORD (R244, R246, R277, R286): a disagreement counts for a word that is under check. -/
def execLocalFaultRecord (cl : Nat) (f : LocalFault) (s : State) : Result :=
  if !faultOf cl f then .next s
  else match f with
  | .assayCorrected core lc lane pipe =>
    .next (if (underAssay s core lc (· == lane) (pipeChecked pipe)).isSome then
      localRecord (hallCount s core (16 * lc + 4 * lane + pipe)) cl 5 0 core (4 * lc + lane) 0 else s)
  | .assayLaneWrong core lc =>
    .next (if (underAssay s core lc (fun _ => true) fun c => (List.range 4).any (pipeChecked · c)).isSome then
      localRecord (hallCount s core (64 + lc)) cl 5 0 core (4 * lc) 0 else s)
  | .assayUncorrectable core lc lane pipe row group => .next (assayFault s cl core lc lane pipe row group)
  | .arrayCorrected core sub =>
    .next (if (arrayWord s core).isSome then localRecord (hallCount s core (72 + sub)) cl 5 0 core sub 0 else s)
  | .arrayUncorrectable core sub => .next (arrayFault s cl core sub)
  | .translationStructure => .next (structureError s cl)

/-! ### Element-progress timeout (R247, R248) -/

/-- Who holds a tile: 4 the copy engine, 5 the Accord engine, 0 nobody. -/
def holderUnit (s : State) (core k : Nat) : Nat :=
  let held (p : EClass → Bool) : Bool := (List.range 4).any fun i =>
    (hartAt s (4 * core + i)).queue.any fun e => e.claims.contains k && wordIs p e
  if held (· == .cpy) then 4 else if held (fun c => match c with
    | .coll _ => true
    | _ => false) then 5 else 0

/-- Pipe of a vector memory word: L0, L1 or S (R80). A load into a register takes the pipe that no other load takes. -/
def pipeOf (conv : List Entry) (i : Nat) (c : EClass) : Nat :=
  match c with
  | .vld _ _ .lq1 => 2
  | .vld _ _ .lq0 => 1
  | .vld _ _ .reg =>
    let uses (j : Nat) (e : Entry) : Bool := match queuedClass e.word with
      | some (.vld _ _ .lq0, _) => true
      | some (.vld _ _ .reg, _) => decide (j < i)
      | _ => false
    if (conv.zip (List.range conv.length)).any fun x => x.2 != i && uses x.2 x.1 then 2 else 1
  | _ => 3

/-- The bank of an access to a VA (R189, R269); bank where the translation itself is what is awaited. -/
def bankAt (s : State) (hid : Nat) (k : Access) (va : Word) (bank : BitVec 4) : Nat :=
  match translate s hid k va with
  | .ok x => bankOf x.place.pa
  | .error _ => bank.toNat

/-- PORT (R189). -/
def portWord (hbm : Bool) (bank lane unit : Nat) : Word :=
  BitVec.ofNat 64 ((if hbm then 4096 else 0) + bank % 16 * 256 + lane % 16 * 16 + unit)

/-- Hart lane of an element (R22). -/
def laneOf (shape : Bool) (width i : Nat) : Nat := i * width / 256 / (if shape then 8 else 4)

/-- An element access that a word of the convoy has still to make: the word's index in the convoy, the word, and the position. -/
structure Stalled where
  index : Nat
  entry : Entry
  cls : EClass
  fields : EFields
  form : AddrForm
  pos : Nat
deriving DecidableEq, Repr

/-- The addressing form of a vector memory word, in whatever space. -/
def elementForm : EClass → Option AddrForm
  | .vld f _ _ => some f
  | .vst _ f _ => some f
  | .vamo .. => some .indexed
  | _ => none

/-- The access that a vector memory word makes next: at the first active position of those left. -/
def nextAccess (h : Hart) (i : Nat) (e : Entry) : Option Stalled :=
  (queuedClass e.word).bind fun x => (elementForm x.1).bind fun f =>
    if e.complete || e.icx then none
    else ((keysToRead e x.1).find? fun p => activeAt h x.2 (keyElem p)).map fun p => ⟨i, e, x.1, x.2, f, p⟩

/-- The element that holds the words of a convoy from number i on: words move from position to position together (R164), so it is the
lowest that an access is left at, and at one position that of the earliest word. An access to a typed buffer, which meets nothing that
could hold it (R151), is that element only where no other is left (DEDUCED: log 63). -/
def stalledElement (h : Hart) (conv : List Entry) (i : Nat) : Option Stalled :=
  let l := (conv.zipIdx.drop i).filterMap fun x => nextAccess h x.2 x.1
  let far := l.filter fun x => (globalForm x.cls).isSome
  (if far.isEmpty then l else far).foldl (fun b x => match b with
    | none => some x
    | some y => if x.pos < y.pos then some x else some y) none

/-- ADDRESS and PORT of class 20 for a word of a convoy that waits for an element access, its own or that of a later word
which holds it (R165, R247). -/
def elementWait (s : State) (hid : Nat) (conv : List Entry) (i : Nat) (bank : BitVec 4) (hbm : Bool) : Word × Word :=
  match stalledElement (hartAt s hid) conv i with
  | none => (0, 0)
  | some x =>
    let width := tyWidth ((tyOf (dstType x.entry.mode x.entry.taga)).getD .i32)
    let ea := elemAddr (hartAt s hid) x.entry x.fields x.form width (keyRow x.pos) (keyElem x.pos)
    (ea, portWord hbm (bankAt s hid (pageAccess x.cls) ea bank) (laneOf x.entry.shape width (keyElem x.pos)) (pipeOf conv x.index x.cls))

/-- Tiles whose state a word waits for. -/
def awaitedTiles (c : EClass) (w : EFields) : List Nat :=
  match c with
  | .tile fn => if fn = 3 then [] else [w.imm.toNat % 128]
  | .mcvt => [96 + w.d.toNat, 96 + w.imm.toNat % 16]
  | .mrowR => [96 + w.imm.toNat % 16]
  | .mopa | .mopm | .mzero | .mrowW | .mbf => [96 + w.d.toNat]
  | _ => []

/-- ADDRESS and PORT for a word that waits on a tile state: the unit that holds the first tile that is not in the state wanted. -/
def tileWaitFor (s : State) (hid : Nat) (want : TileState) (l : List Nat) : Option (Word × Word) :=
  let core := coreOf hid
  (l.find? fun k => (tileAt (coreAt s core) k).state != want).map fun k => (0, portWord false 0 0 (holderUnit s core k))

def tileWait (s : State) (hid : Nat) (l : List Nat) : Word × Word := (tileWaitFor s hid .ready l).getD (0, 0)

/-- The tile that a COLL which sends nothing yet waits to claim (R397). -/
def collWait (s : State) (hid : Nat) (e : Entry) (w : EFields) (kind : Nat) : Option (Word × Word) :=
  let c := (findColl s (hubOf hid) (collGroup e)).filter fun c => c.hid == hid && c.seq == e.seq
  let tiles := collTiles e (collOf hid e w kind (groupAt s (hubOf hid) (collGroup e)))
  if !e.started || c.any (·.opened) then none else tileWaitFor s hid .empty ((tiles.map (·.1)).filter fun k => !e.claims.contains k)

/-- The operand that a MOPM k-step awaits: which of those in global memory it is the spec does not say (a free value; log 7). -/
def mopmWait (s : State) (hid : Nat) (e : Entry) (bank : BitVec 4) (hbm : Bool) : Word × Word :=
  let n := (Config.freeWord s.free).toNat % 128
  let k := e.kdone.toNat
  let isA := aSpace e.x0 == 0 && (aSpace e.x2 != 0 || decide (n < 64))
  let va := if isA then operandAddr e.x0 e.x1 ((tyOf (modeTa e.mode)).getD .i8) (n % 64) k
    else operandAddr e.x2 e.x3 ((tyOf (modeTb e.mode)).getD .i8) (n % 64) k
  (va, portWord hbm (bankAt s hid engineRead va bank) 0 (if isA then 1 else 2))

/-- What the oldest word waits for (R247). DESIGN CHOICE: of a CPY row the chunk is its first, of its source where that is global
(log 63). -/
def awaited (s : State) (hid i : Nat) (conv : List Entry) (e : Entry) (c : EClass) (w : EFields) (bank : BitVec 4) (hbm : Bool) :
    Word × Word :=
  match c with
  | .mopm =>
    if !arrayFree s hid e || !tileReady (coreAt s (coreOf hid)) w.d.toNat then tileWait s hid (awaitedTiles c w)
    else mopmWait s hid e bank hbm
  | .cpy =>
    if holdsClaims s hid e && (e.judged || !cpyNoSplit w) then
      let a := if aSpace e.x0 == 0 then cpySrcRow e e.rowsDone else cpyDstRow e e.rowsDone
      (BitVec.ofNat 64 a, portWord hbm (bankAt s hid engineRead (BitVec.ofNat 64 a) bank) 0 4)
    else (0, 4)
  | .coll kind => (collWait s hid e w kind).getD (0, 5)
  | c =>
    if elementWise c then (if (keysLeft e).isEmpty then (0, 0) else elementWait s hid conv i bank hbm)
    else tileWait s hid (awaitedTiles c w)

/-- Class 20 for a word: a collective that has started is abandoned (R401); one that has not leaves its number (log 23). -/
def timedOut (s : State) (hid : Nat) (e : Entry) (f : FaultRec) : State :=
  match s.colls.find? fun c => e.started && c.hid == hid && c.seq == e.seq with
  | some c => abandonColl s c (some f) true true
  | none => deliver s hid none f

/-- ELEMENT_PROGRESS_TIMEOUT: the count has reached 2^EXP, and the oldest word takes class 20. bank and hbm tell of the access
that it awaits. -/
def execElementProgressTimeout (hid : Nat) (bank : BitVec 4) (hbm : Bool) (s : State) : Result :=
  let h := hartAt s hid
  let conv := headConvoy h.queue
  if issuing h && decide (2 ^ h.ept.toNat ≤ h.timer) then
    match conv.findIdx? fun e => !e.complete with
    | none => .next s
    | some i => match conv[i]?.bind fun e => (queuedClass e.word).map fun p => (e, p.1, p.2) with
      | none => .next s
      | some (e, c, w) =>
        let a := awaited s hid i conv e c w bank hbm
        .next (timedOut { s with free := s.free + 1 } hid e (eFaultRec e 20 0 a.1 a.2))
  else .next s

end Sys2Proof.Machine
end

