-- ==== Sys2Proof/Machine/Dispatch.lean ====
section
/-! DEFINITION. The dispatch: one arm per constructor of Instr, each one direct call of its meaning. -/

namespace Sys2Proof.Machine

def exec (i : Instr) (s : State) : Host.Outcome State Fault Refusal :=
  match i with
  | .add d a b => Sys2Proof.Machine.execAdd d a b s
  | .sub d a b => Sys2Proof.Machine.execSub d a b s
  | .and d a b => Sys2Proof.Machine.execAnd d a b s
  | .or d a b => Sys2Proof.Machine.execOr d a b s
  | .xor d a b => Sys2Proof.Machine.execXor d a b s
  | .shl d a b => Sys2Proof.Machine.execShl d a b s
  | .shr d a b => Sys2Proof.Machine.execShr d a b s
  | .sar d a b => Sys2Proof.Machine.execSar d a b s
  | .mul d a b => Sys2Proof.Machine.execMul d a b s
  | .mulh d a b => Sys2Proof.Machine.execMulh d a b s
  | .mulhu d a b => Sys2Proof.Machine.execMulhu d a b s
  | .div d a b => Sys2Proof.Machine.execDiv d a b s
  | .divu d a b => Sys2Proof.Machine.execDivu d a b s
  | .rem d a b => Sys2Proof.Machine.execRem d a b s
  | .remu d a b => Sys2Proof.Machine.execRemu d a b s
  | .min d a b => Sys2Proof.Machine.execMin d a b s
  | .max d a b => Sys2Proof.Machine.execMax d a b s
  | .minu d a b => Sys2Proof.Machine.execMinu d a b s
  | .maxu d a b => Sys2Proof.Machine.execMaxu d a b s
  | .slt d a b => Sys2Proof.Machine.execSlt d a b s
  | .sltu d a b => Sys2Proof.Machine.execSltu d a b s
  | .seq d a b => Sys2Proof.Machine.execSeq d a b s
  | .clz d a => Sys2Proof.Machine.execClz d a s
  | .popc d a => Sys2Proof.Machine.execPopc d a s
  | .addi d a imm => Sys2Proof.Machine.execAddi d a imm s
  | .andi d a imm => Sys2Proof.Machine.execAndi d a imm s
  | .ori d a imm => Sys2Proof.Machine.execOri d a imm s
  | .xori d a imm => Sys2Proof.Machine.execXori d a imm s
  | .slti d a imm => Sys2Proof.Machine.execSlti d a imm s
  | .sltiu d a imm => Sys2Proof.Machine.execSltiu d a imm s
  | .shli d a n => Sys2Proof.Machine.execShli d a n s
  | .shri d a n => Sys2Proof.Machine.execShri d a n s
  | .sari d a n => Sys2Proof.Machine.execSari d a n s
  | .lui d imm => Sys2Proof.Machine.execLui d imm s
  | .lil d lit => Sys2Proof.Machine.execLil d lit s
  | .auipc d imm => Sys2Proof.Machine.execAuipc d imm s
  | .ins d a p w => Sys2Proof.Machine.execIns d a p w s
  | .ext d a p w => Sys2Proof.Machine.execExt d a p w s
  | .fadd d a b r => Sys2Proof.Machine.execFadd d a b r s
  | .fsub d a b r => Sys2Proof.Machine.execFsub d a b r s
  | .fmul d a b r => Sys2Proof.Machine.execFmul d a b r s
  | .fdiv d a b r => Sys2Proof.Machine.execFdiv d a b r s
  | .fmin d a b r => Sys2Proof.Machine.execFmin d a b r s
  | .fmax d a b r => Sys2Proof.Machine.execFmax d a b r s
  | .fsqrt d a r => Sys2Proof.Machine.execFsqrt d a r s
  | .fcvtW d a r => Sys2Proof.Machine.execFcvtW d a r s
  | .fcvtS d a r => Sys2Proof.Machine.execFcvtS d a r s
  | .feq d a b => Sys2Proof.Machine.execFeq d a b s
  | .flt d a b => Sys2Proof.Machine.execFlt d a b s
  | .fle d a b => Sys2Proof.Machine.execFle d a b s
  | .fma d a b c => Sys2Proof.Machine.execFma d a b c s
  | .beq a b o => Sys2Proof.Machine.execBeq a b o s
  | .bne a b o => Sys2Proof.Machine.execBne a b o s
  | .blt a b o => Sys2Proof.Machine.execBlt a b o s
  | .bge a b o => Sys2Proof.Machine.execBge a b o s
  | .bltu a b o => Sys2Proof.Machine.execBltu a b o s
  | .bgeu a b o => Sys2Proof.Machine.execBgeu a b o s
  | .jal d imm => Sys2Proof.Machine.execJal d imm s
  | .jalr d a imm => Sys2Proof.Machine.execJalr d a imm s
  | .ld d a z o x f => Sys2Proof.Machine.execLd d a z o x f s
  | .st d a z o f => Sys2Proof.Machine.execSt d a z o f s
  | .amo d a b p sc r => Sys2Proof.Machine.execAmo d a b p sc r s
  | .cas d a b sc r => Sys2Proof.Machine.execCas d a b sc r s
  | .fence sc k => Sys2Proof.Machine.execFence sc k s
  | .tfence => Sys2Proof.Machine.execTfence s
  | .wait d a b c => Sys2Proof.Machine.execWait d a b c s
  | .gets d imm => Sys2Proof.Machine.execGets d imm s
  | .sets a imm => Sys2Proof.Machine.execSets a imm s
  | .setvl d a b w => Sys2Proof.Machine.execSetvl d a b w s
  | .setrows d a imm => Sys2Proof.Machine.execSetrows d a imm s
  | .vshape sc => Sys2Proof.Machine.execVshape sc s
  | .emitl lit => Sys2Proof.Machine.execEmitl lit s
  | .emitr a => Sys2Proof.Machine.execEmitr a s
  | .emitx c a b sel lit => Sys2Proof.Machine.execEmitx c a b sel lit s
  | .emitq d a => Sys2Proof.Machine.execEmitq d a s
  | .waitv => Sys2Proof.Machine.execWaitv s
  | .rqpop d => Sys2Proof.Machine.execRqpop d s
  | .fork d => Sys2Proof.Machine.execFork d s
  | .join d a => Sys2Proof.Machine.execJoin d a s
  | .farm a b => Sys2Proof.Machine.execFarm a b s
  | .nexts d a => Sys2Proof.Machine.execNexts d a s
  | .bar sc => Sys2Proof.Machine.execBar sc s
  | .slotq d k => Sys2Proof.Machine.execSlotq d k s
  | .trap c => Sys2Proof.Machine.execTrap c s
  | .halt => Sys2Proof.Machine.execHalt s
  | .yield => Sys2Proof.Machine.execYield s
  | .vadd w => Sys2Proof.Machine.execVadd w s
  | .vsub w => Sys2Proof.Machine.execVsub w s
  | .vmul w => Sys2Proof.Machine.execVmul w s
  | .vmulh w => Sys2Proof.Machine.execVmulh w s
  | .vdiv w => Sys2Proof.Machine.execVdiv w s
  | .vrem w => Sys2Proof.Machine.execVrem w s
  | .vmin w => Sys2Proof.Machine.execVmin w s
  | .vmax w => Sys2Proof.Machine.execVmax w s
  | .vabs w => Sys2Proof.Machine.execVabs w s
  | .vneg w => Sys2Proof.Machine.execVneg w s
  | .vand w => Sys2Proof.Machine.execVand w s
  | .vor w => Sys2Proof.Machine.execVor w s
  | .vxor w => Sys2Proof.Machine.execVxor w s
  | .vnot w => Sys2Proof.Machine.execVnot w s
  | .vshl w => Sys2Proof.Machine.execVshl w s
  | .vshr w => Sys2Proof.Machine.execVshr w s
  | .vsqrt w => Sys2Proof.Machine.execVsqrt w s
  | .vexp2 w => Sys2Proof.Machine.execVexp2 w s
  | .vlog2 w => Sys2Proof.Machine.execVlog2 w s
  | .vrsq w => Sys2Proof.Machine.execVrsq w s
  | .vrcp w => Sys2Proof.Machine.execVrcp w s
  | .vmac w => Sys2Proof.Machine.execVmac w s
  | .vnmac w => Sys2Proof.Machine.execVnmac w s
  | .vcmpEq w => Sys2Proof.Machine.execVcmpEq w s
  | .vcmpNe w => Sys2Proof.Machine.execVcmpNe w s
  | .vcmpLt w => Sys2Proof.Machine.execVcmpLt w s
  | .vcmpLe w => Sys2Proof.Machine.execVcmpLe w s
  | .vcmpGt w => Sys2Proof.Machine.execVcmpGt w s
  | .vcmpGe w => Sys2Proof.Machine.execVcmpGe w s
  | .vcmpUnord w => Sys2Proof.Machine.execVcmpUnord w s
  | .vsel w => Sys2Proof.Machine.execVsel w s
  | .vcvtCvt w => Sys2Proof.Machine.execVcvtCvt w s
  | .vcvtRes w => Sys2Proof.Machine.execVcvtRes w s
  | .vcvtCrt w => Sys2Proof.Machine.execVcvtCrt w s
  | .slideup w => Sys2Proof.Machine.execSlideup w s
  | .slidedn w => Sys2Proof.Machine.execSlidedn w s
  | .slide1up w => Sys2Proof.Machine.execSlide1up w s
  | .slide1dn w => Sys2Proof.Machine.execSlide1dn w s
  | .gatherv w => Sys2Proof.Machine.execGatherv w s
  | .compress w => Sys2Proof.Machine.execCompress w s
  | .bcast w => Sys2Proof.Machine.execBcast w s
  | .index w => Sys2Proof.Machine.execIndex w s
  | .vmv w => Sys2Proof.Machine.execVmv w s
  | .extract w => Sys2Proof.Machine.execExtract w s
  | .vredSum w => Sys2Proof.Machine.execVredSum w s
  | .vredSumu w => Sys2Proof.Machine.execVredSumu w s
  | .vredMax w => Sys2Proof.Machine.execVredMax w s
  | .vredMin w => Sys2Proof.Machine.execVredMin w s
  | .vredAnd w => Sys2Proof.Machine.execVredAnd w s
  | .vredOr w => Sys2Proof.Machine.execVredOr w s
  | .vredXor w => Sys2Proof.Machine.execVredXor w s
  | .mand w => Sys2Proof.Machine.execMand w s
  | .mor w => Sys2Proof.Machine.execMor w s
  | .mxor w => Sys2Proof.Machine.execMxor w s
  | .mandn w => Sys2Proof.Machine.execMandn w s
  | .mnot w => Sys2Proof.Machine.execMnot w s
  | .mpopc w => Sys2Proof.Machine.execMpopc w s
  | .mfirst w => Sys2Proof.Machine.execMfirst w s
  | .mset w => Sys2Proof.Machine.execMset w s
  | .vtype w => Sys2Proof.Machine.execVtype w s
  | .vld w f sc t => Sys2Proof.Machine.execVld w f sc t s
  | .vst w ordered f sc => Sys2Proof.Machine.execVst w ordered f sc s
  | .vamo w p sc => Sys2Proof.Machine.execVamo w p sc s
  | .vfence w => Sys2Proof.Machine.execVfence w s
  | .mopa w => Sys2Proof.Machine.execMopa w s
  | .mopm w => Sys2Proof.Machine.execMopm w s
  | .mzero w => Sys2Proof.Machine.execMzero w s
  | .mcvt w => Sys2Proof.Machine.execMcvt w s
  | .mrowR w => Sys2Proof.Machine.execMrowR w s
  | .mrowW w => Sys2Proof.Machine.execMrowW w s
  | .mbf w => Sys2Proof.Machine.execMbf w s
  | .cpy w => Sys2Proof.Machine.execCpy w s
  | .tready w => Sys2Proof.Machine.execTready w s
  | .tempty w => Sys2Proof.Machine.execTempty w s
  | .twait w => Sys2Proof.Machine.execTwait w s
  | .tquery w => Sys2Proof.Machine.execTquery w s
  | .collReduceScatter w => Sys2Proof.Machine.execCollReduceScatter w s
  | .collAllGather w => Sys2Proof.Machine.execCollAllGather w s
  | .collAllReduce w => Sys2Proof.Machine.execCollAllReduce w s
  | .collKvRotation w => Sys2Proof.Machine.execCollKvRotation w s
  | .convoyEnter hid => Sys2Proof.Machine.execConvoyEnter hid s
  | .elementProgressTimeout hid bank hbm => Sys2Proof.Machine.execElementProgressTimeout hid bank hbm s
  | .laneClusterGate core lc => Sys2Proof.Machine.execLaneClusterGate core lc s
  | .laneClusterWake core lc => Sys2Proof.Machine.execLaneClusterWake core lc s
  | .laneLoanStart core lc borrower => Sys2Proof.Machine.execLaneLoanStart core lc borrower s
  | .tileClaim hid => Sys2Proof.Machine.execTileClaim hid s
  | .cpyRowComplete hid => Sys2Proof.Machine.execCpyRowComplete hid s
  | .nosplitJudge hid => Sys2Proof.Machine.execNosplitJudge hid s
  | .ctrlRun ag hid => Sys2Proof.Machine.execCtrlRun ag hid s
  | .ctrlStopDrain ag hid => Sys2Proof.Machine.execCtrlStopDrain ag hid s
  | .ctrlStopFreeze ag hid => Sys2Proof.Machine.execCtrlStopFreeze ag hid s
  | .ctrlIdle ag hid => Sys2Proof.Machine.execCtrlIdle ag hid s
  | .stopDrainComplete hid => Sys2Proof.Machine.execStopDrainComplete hid s
  | .stopFreezeComplete hid => Sys2Proof.Machine.execStopFreezeComplete hid s
  | .stopDrainCountExpiry hid => Sys2Proof.Machine.execStopDrainCountExpiry hid s
  | .queueImageWrite ag hid n off v => Sys2Proof.Machine.execQueueImageWrite ag hid n off v s
  | .shapeWrite ag hid v => Sys2Proof.Machine.execShapeWrite ag hid v s
  | .save hid => Sys2Proof.Machine.execSave hid s
  | .saveAll hid => Sys2Proof.Machine.execSaveAll hid s
  | .restoreScalar hid => Sys2Proof.Machine.execRestoreScalar hid s
  | .restoreVector hid => Sys2Proof.Machine.execRestoreVector hid s
  | .restoreAll hid => Sys2Proof.Machine.execRestoreAll hid s
  | .savecmdComplete hid => Sys2Proof.Machine.execSavecmdComplete hid s
  | .reclaimRequest ag hid v => Sys2Proof.Machine.execReclaimRequest ag hid v s
  | .frameWindowWrite ag hid off v => Sys2Proof.Machine.execFrameWindowWrite ag hid off v s
  | .controlRegisterWrite ag pa v => Sys2Proof.Machine.execControlRegisterWrite ag pa v s
  | .tshoot ag vi => Sys2Proof.Machine.execTshoot ag vi s
  | .rangeRegisterWrite ag vi n dw v => Sys2Proof.Machine.execRangeRegisterWrite ag vi n dw v s
  | .queueCtlWrite ag vi q v => Sys2Proof.Machine.execQueueCtlWrite ag vi q v s
  | .tailWrite ag vi q v => Sys2Proof.Machine.execTailWrite ag vi q v s
  | .templateWrite ag vi q w limit v => Sys2Proof.Machine.execTemplateWrite ag vi q w limit v s
  | .priocapWrite ag vi q v => Sys2Proof.Machine.execPriocapWrite ag vi q v s
  | .slotScan vi q => Sys2Proof.Machine.execSlotScan vi q s
  | .scanReread vi q => Sys2Proof.Machine.execScanReread vi q s
  | .packetDispatch start => Sys2Proof.Machine.execPacketDispatch start s
  | .dependenceCheck vi q slot => Sys2Proof.Machine.execDependenceCheck vi q slot s
  | .stateWordRecheck vi q slot => Sys2Proof.Machine.execStateWordRecheck vi q slot s
  | .launchCommand team cluster => Sys2Proof.Machine.execLaunchCommand team cluster s
  | .packetComplete team => Sys2Proof.Machine.execPacketComplete team s
  | .leafReport cluster => Sys2Proof.Machine.execLeafReport cluster s
  | .localFaultRecord cluster f => Sys2Proof.Machine.execLocalFaultRecord cluster f s
  | .heartbeatTimeout w => Sys2Proof.Machine.execHeartbeatTimeout w s
  | .crucibleHang core => Sys2Proof.Machine.execCrucibleHang core s
  | .barrierComplete hid => Sys2Proof.Machine.execBarrierComplete hid s
  | .waitWake hid => Sys2Proof.Machine.execWaitWake hid s
  | .waitTimeout hid => Sys2Proof.Machine.execWaitTimeout hid s
  | .writeCombineDrain hid => Sys2Proof.Machine.execWriteCombineDrain hid s
  | .annealSlotStart => Sys2Proof.Machine.execAnnealSlotStart s
  | .annealSlotEnd late => Sys2Proof.Machine.execAnnealSlotEnd late s
  | .calendarPublish add => Sys2Proof.Machine.execCalendarPublish add s
  | .tokenRefill => Sys2Proof.Machine.execTokenRefill s
  | .ingotTrade link m => Sys2Proof.Machine.execIngotTrade link m s
  | .clkdieSelect ag v => Sys2Proof.Machine.execClkdieSelect ag v s
  | .create f => Sys2Proof.Machine.execCreate f s
  | .measure f => Sys2Proof.Machine.execMeasure f s
  | .finalize f => Sys2Proof.Machine.execFinalize f s
  | .destroy f => Sys2Proof.Machine.execDestroy f s
  | .assign f => Sys2Proof.Machine.execAssign f s
  | .release f => Sys2Proof.Machine.execRelease f s
  | .generate k => Sys2Proof.Machine.execGenerate k s
  | .revoke k => Sys2Proof.Machine.execRevoke k s
  | .debugUnlock => Sys2Proof.Machine.execDebugUnlock s
  | .lifeCycle => Sys2Proof.Machine.execLifeCycle s
  | .attest => Sys2Proof.Machine.execAttest s
  | .rungQueue target => Sys2Proof.Machine.execRungQueue target s
  | .rungEngine target => Sys2Proof.Machine.execRungEngine target s
  | .rungPartition vi => Sys2Proof.Machine.execRungPartition vi s
  | .rungDie die => Sys2Proof.Machine.execRungDie die s
  | .rungFunctionLevel fn => Sys2Proof.Machine.execRungFunctionLevel fn s
  | .rungWholeDevice => Sys2Proof.Machine.execRungWholeDevice s
  | .perst => Sys2Proof.Machine.execPerst s
  | .functionLevelReset fn => Sys2Proof.Machine.execFunctionLevelReset fn s
  | .hallmarkFlush => Sys2Proof.Machine.execHallmarkFlush s
  | .l2Error cluster pa k => Sys2Proof.Machine.execL2Error cluster pa k s
  | .hbmError die pa double => Sys2Proof.Machine.execHbmError die pa double s
  | .pageMigration page die frame => Sys2Proof.Machine.execPageMigration page die frame s
  | .hostMemoryWrite vi via bytes => Sys2Proof.Machine.execHostMemoryWrite vi via bytes s
  | .flitData link h seg => Sys2Proof.Machine.execFlitData link h seg s
  | .flitAck link h ack => Sys2Proof.Machine.execFlitAck link h ack s
  | .flitNak link h seq => Sys2Proof.Machine.execFlitNak link h seq s
  | .flitKeyMarker link h slot => Sys2Proof.Machine.execFlitKeyMarker link h slot s
  | .flitControl link h m => Sys2Proof.Machine.execFlitControl link h m s
  | .flitIdle link h => Sys2Proof.Machine.execFlitIdle link h s
  | .keyRetireCount link => Sys2Proof.Machine.execKeyRetireCount link s
  | .linkSilenceTimeout link => Sys2Proof.Machine.execLinkSilenceTimeout link s
  | .abortSegment hub seg => Sys2Proof.Machine.execAbortSegment hub seg s
  | .groupEntryWrite ag hub g dw v => Sys2Proof.Machine.execGroupEntryWrite ag hub g dw v s
  | .lossOfLock link => Sys2Proof.Machine.execLossOfLock link s
  | .translationDropped x => Sys2Proof.Machine.execTranslationDropped x s
  | .hostWindowWaitRead hid => Sys2Proof.Machine.execHostWindowWaitRead hid s
  | .loanDebit core lc => Sys2Proof.Machine.execLoanDebit core lc s
  | .rackCoordinatorGrant n => Sys2Proof.Machine.execRackCoordinatorGrant n s
  | .throttling die clk => Sys2Proof.Machine.execThrottling die clk s
  | .leafControllerRestart cluster ok => Sys2Proof.Machine.execLeafControllerRestart cluster ok s
  | .commandLinkAcknowledge cluster down => Sys2Proof.Machine.execCommandLinkAcknowledge cluster down s
  | .lossOfPower => Sys2Proof.Machine.execLossOfPower s

end Sys2Proof.Machine
end

