-- ==== Sys2Proof/Machine/Turns.lean ====
section
/-! DEFINITION. Whose turn it is (log 2): fetching a G-word (R12, R65, R84), the generator of a hart and its stop points
(R252, R253), its queue, the device's own work, and the passing of time. -/

namespace Sys2Proof.Machine

/-! ### Fetch (R65, R84) -/

/-- One word of an instruction from a VA, or the state after the trap that the fetch takes, or in which it waits (R190, R272,
R362). -/
def fetchWord (s : State) (va : Word) : Except State (BitVec 32 × State) :=
  match translate s s.cur fetchAccess va with
  | .error f => .error (gXfail s 0 va f)
  | .ok x =>
    let s := cacheXlat s x
    if poisoned s.mem x.place.pa 4 then .error (gFault s 9 0 va)
    else .ok (BitVec.ofNat 32 (devMem s.mem (epochOf s x.place.key) x.place.pa 4), s)

/-- What the fetch at PC delivers: the G-word, its literal (0 where it has none), and the state after it. -/
structure Fetched where
  word : BitVec 32
  lit : Word
  after : State
deriving DecidableEq, Repr

/-- The G-word at PC, with the literal in the two words that follow it where it has one (R65). DESIGN CHOICE: of an ill-formed word
with a literal that cannot be fetched the fetch fault comes before class 1 (R64, R84; log 59). -/
def fetch (s : State) : Except State Fetched :=
  let pc := (curHart s).pc
  match fetchWord s pc with
  | .error t => .error t
  | .ok (w, s) =>
    if hasLiteral w then
      match fetchWord s (pc + 4) with
      | .error t => .error t
      | .ok (lo, s) =>
        match fetchWord s (pc + 8) with
        | .error t => .error t
        | .ok (hi, s) => .ok ⟨w, hi ++ lo, s⟩
    else .ok ⟨w, 0, s⟩

/-! ### Stop points (R252, R253) -/

/-- The E-word that an EMIT would hand over. -/
def emittedWord (h : Hart) : Instr → Option Word
  | .emitl lit => some lit
  | .emitr a => some (rd h a)
  | .emitx c a b sel lit => some (emitxWord h c a b sel lit)
  | .emitq _ a => some (rd h a)
  | _ => none

/-- A G-word that closes the convoy (R79), or a WAIT. -/
def closesConvoy (s : State) : Instr → Bool
  | .waitv | .tfence | .vshape _ | .halt | .fork _ | .bar _ | .wait .. => true
  | .fence _ k => k.getLsbD 2
  | .sets _ i => decide (2 ≤ i.toNat ∧ i.toNat ≤ 4)
  | .join _ a => (childOf s (rd (curHart s) a)).isSome
  | _ => false

/-- A G-word that waits if it is executed now (R196): for tokens, lanes, a value of the return queue, room in the emit queue, its
own accesses, or a key slot (R362). -/
def waitsNow (s : State) (i : Instr) : Bool :=
  match exec i s with
  | .next t => (curHart t).stalled
  | _ => false

/-- A G-word that marks a convoy boundary (R252). -/
def marksBoundary (s : State) (i : Instr) : Bool :=
  i == .yield || closesConvoy s i || waitsNow s i || (match emittedWord (curHart s) i with
    | some w => w.getLsbD 57
    | none => false)

/-- The generator stops before the G-word at PC, which has not executed (R119); a barrier arrival is withdrawn (R284). -/
def stopGenerator (s : State) : State :=
  setCur s { curHart s with genStopped := true, stalled := false, gStall := none, wait := none, barArrived := none }

/-- A G-word executed under STOP-DRAIN is counted (R252). -/
def countWord (s : State) : State :=
  let h := curHart s
  if h.ctl = .stopDrain && !h.stalled then setCur s { h with gcount := h.gcount + 1 } else s

/-- A G-word of a core has retired: it is not hung (R372). One that waits, or that took a fault (R186), has not. -/
def noteRetired (s : State) : State :=
  let core := coreOf s.cur
  if (curHart s).stalled || (curHart s).ctl == .trapped then s
  else
    let s := if (coreAt s core).quiet = 0 then s else setCore s core { coreAt s core with quiet := 0 }
    if (fmFind s.hung core).isNone then s else { s with hung := fmErase s.hung core }

/-- The generator stops at this G-word boundary whatever the word is. -/
def stopsHere (h : Hart) : Bool :=
  canClose h && (h.ctl == .stopFreeze || (h.ctl == .stopDrain && decide (4096 ≤ h.gcount)))

/-- The decoded G-word carried out, or the stop before it. -/
def runWord (s : State) (i : Instr) : Result :=
  let h := curHart s
  if h.ctl = .stopDrain && canClose h && marksBoundary s i then .next (stopGenerator s)
  else
    match exec i s with
    | .next t => .next (noteRetired (countWord t))
    | .fault f => .fault f
    | .refused r => .refused r

/-- THE TURN OF A GENERATOR: one G-word of a hart. A word that does not decode is illegal (R64). late: a plain store to memory
that it executes waits in the store path (R172). -/
def generatorTurn (hid : Nat) (late : Bool) (s : State) : Result :=
  let s := { s with cur := hid, storeLate := late }
  let h := hartAt s hid
  if !running h || h.genStopped then .next s
  else if stopsHere h then .next (stopGenerator s)
  else
    match fetch s with
    | .error t => .next t
    | .ok f =>
      match decodeG f.word f.lit with
      | .error _ => .next (illegalG f.after)
      | .ok i => runWord f.after i

/-! ### The queue -/

/-- The turn of a queue: the meaning of the E-word at its head, committing only positions below a
limit. A word of an edited image that does not decode takes its turn all the same (R413). -/
def queueTurn (hid : Nat) (upTo : Option Nat) (s : State) : Result :=
  let s := { s with cur := hid, laneLimit := upTo }
  match (hartAt s hid).queue with
  | [] => .next s
  | e :: _ =>
    match decodeE e.word with
    | .ok i => exec i s
    | .error _ => .next (lanesTurn s hid (upTo.getD noLimit))

/-! ### The device's own work -/

/-- A stop of a hart that can complete, or a save command that it has been given. -/
def hartEvent (s : State) (hid : Nat) (h : Hart) : Option Instr :=
  if drained h then some (.stopDrainComplete hid)
  else if h.ctl = .stopFreeze && h.genStopped && (startedColl h).isNone then some (.stopFreezeComplete hid)
  else
    match h.saveJob with
    | none => none
    | some j =>
      if j.outcome.isSome then some (.savecmdComplete hid)
      else if areaMoving s j then none
      else match j.cmd with
        | .save => some (.save hid)
        | .saveAll => some (.saveAll hid)
        | .restoreScalar => some (.restoreScalar hid)
        | .restoreVector => some (.restoreVector hid)
        | .restoreAll => some (.restoreAll hid)

/-- The rung that RSTCMD has commanded (R370). -/
def rungEvent (r : ResetPage) : Option Instr :=
  let t := r.target.toNat
  if r.status ≠ 1 then none
  else match r.rung with
    | 1 => some (.rungQueue t)
    | 2 => some (.rungEngine t)
    | 3 => some (.rungPartition t)
    | 4 => some (.rungDie t)
    | 5 => some (.rungFunctionLevel t)
    | 6 => some .rungWholeDevice
    | _ => none

/-- The command of a flacon page (R355). -/
def flaconEvent (f : Nat) (x : Flacon) : Option Instr :=
  if x.result = 2 then
    match x.cmd.toNat with
    | 1 => some (.create f)
    | 2 => some (.measure f)
    | 3 => some (.finalize f)
    | 4 => some (.destroy f)
    | _ => none
  else if x.coreResult = 1 then
    match x.coreOp.toNat with
    | 1 => some (.assign f)
    | 2 => some (.release f)
    | _ => none
  else none

/-- The command of a key slot (R357). -/
def keyEvent (k : Nat) (x : KeySlot) : Option Instr :=
  if x.result = 2 then
    match x.cmd.toNat with
    | 1 => some (.generate k)
    | 2 => some (.revoke k)
    | _ => none
  else none

/-- The command of the security page (R363). -/
def securityEvent (x : SecCtl) : Option Instr :=
  if x.result = 1 then
    match x.cmd.toNat with
    | 1 => some .debugUnlock
    | 2 => some .lifeCycle
    | 3 => some .attest
    | _ => none
  else none

/-- The first of the device's units that has something to do. -/
def deviceEvent (s : State) : Option Instr :=
  ((s.harts.findSome? fun x => hartEvent s x.1 x.2).orElse fun _ =>
    (rungEvent s.resetPage).orElse fun _ =>
    (s.flacons.findSome? fun x => flaconEvent x.1 x.2).orElse fun _ =>
    (s.keys.findSome? fun x => keyEvent x.1 x.2).orElse fun _ => securityEvent s.sec)

/-- What happens while the agenda is empty: a posted store, boot, the device's own work, what firmware has begun, then the focused
hart's generator and queue. Nothing runs where boot has refused an image (R366). -/
def idleTurn (s : State) : Result :=
  if !s.posted.isEmpty then .next (performPosted s)
  else if !s.booted then .next (bootStep s)
  else if s.resetPage.ready ≠ 1 then .next s
  else
    match deviceEvent s with
    | some i => exec i s
    | none =>
      let h := hartAt s s.focus
      if s.calendar.rewrite.isSome then .next (endRewrite s)
      else if s.migration.isSome then .next (endMigration s)
      else if running h && !h.stalled && !h.genStopped then generatorTurn s.focus false s
      else if issuing h then queueTurn s.focus none s
      else .next s

/-- What reaches the machine from outside, or firmware and caches do of themselves (log 58). -/
def outsideTurn (o : Outside) (s : State) : State :=
  match o with
  | .cacheLine ln => { s with mem := fillLine s.mem ln }
  | .evictLine ln => { s with mem := dropLine s.mem ln }
  | .hostCas vi via old new => hostCas s vi via old new
  | .barWrite vi bar off bs => barWrite s vi bar off bs
  | .barRead vi bar off n => (barRead s vi bar off n).2
  | .idleFlit l => sendIdle s l
  | .fillKey l sends slot => fillKey s l sends slot
  | .route dst l => { s with routes := fmSet s.routes dst l }
  | .takeover => takeOver s
  | .measured w => { s with power := { s.power with measured := w } }
  | .fatalError => fatalError s

/-- Nothing of the device's time passes before it has booted (R366, R342). -/
def bootFirst (s : State) : State := if s.booted then s else bootStep s

/-- Events that are a passing of time. -/
def passesTime : Instr → Bool
  | .tokenRefill | .loanDebit .. => true
  | _ => false

/-- One item of the agenda. -/
def takeTurn (t : Turn) (s : State) : Result :=
  match t with
  | .generator hid late => generatorTurn hid late s
  | .queue hid upTo => queueTurn hid upTo s
  | .event i => exec i (if passesTime i then bootFirst s else s)
  | .elapse n => .next (elapse (bootFirst s) n)
  | .outside o => .next (outsideTurn o s)

/-! ### A program placed from outside (log 21) -/

/-- Bits of a number as bytes, the lowest address first. -/
def bytesOf (n w : Nat) : List Byte := splitBytes n w

/-- Where placed code may lie: the first 512 KiB page, a multiple of 4. -/
def placedPc (pc : Word) : Word := if pc.toNat % 4 = 0 && decide (pc.toNat + 12 ≤ 2 ^ 19) then pc else 0

/-- The focused hart made to run under VI 0, with one 32 GiB identity page for every access, its table at PA 0x80000. -/
def placedHart (h : Hart) : Hart :=
  { h with
    ctl := .run, vi := 0, root := 0x80001, windows := Vector.replicate 8 ⟨0, 0x1F⟩
    stalled := false, genStopped := false, wait := none, qStopped := false }

/-- A G-word with its literal stored at the focused hart's PC, and its generator next. -/
def placeCode (s : State) (w : Nat) : State :=
  let h := placedHart (hartAt s s.focus)
  let pc := placedPc h.pc
  let m := writeMem { s.mem with poison := [], lines := [] } 0 0x80000 8 0x1F
  { setHart s s.focus { h with pc := pc } with
    mem := writeBytes m 0 pc.toNat (bytesOf 12 w)
    tlb := []
    agenda := [.generator s.focus false] }

/-- The entry of an E-word as an EMIT makes it (R76), with the illegal-combination mark of R74. -/
def placedEntry (h : Hart) (slot : Nat) (flid : BitVec 8) (word : Word) (c : EClass) (w : EFields) : Entry :=
  let t := formTypes h [] c w (rd h w.m) h.rows.toNat
  let e := makeEntry h slot h.pc word c w t
  let bad := illegalCombo c w e (laneCount h.own) flid || !t.rowsAgree || !t.typed
  { e with icx := bad, tagd := dstTag c e.mode e.taga bad }

/-- An E-word alone in the focused hart's queue, where the lanes fetch it, with at least one lane cluster; its queue is
next. -/
def placeWord (s : State) (word : Word) : State :=
  let h := placedHart (hartAt s s.focus)
  let h := { h with
    own := if h.own = 0 then 1 else h.own, vstate := if h.own = 0 then .present else h.vstate
    queue := [], conv := none }
  match classOfWord word with
  | none => setHart s s.focus h
  | some (c, w) =>
    let e := placedEntry h (slotOf s.focus) (worldOf s s.focus) word c w
    { setHart s s.focus (acceptWord h e c w) with agenda := [.queue s.focus none] }

end Sys2Proof.Machine
end

