-- ==== Sys2Proof/Machine/Step.lean ====
section
/-! DEFINITION. One step of the machine, and a program placed where the step fetches. -/

namespace Sys2Proof.Machine

/-- One step: the next item of the agenda, or what an idle agenda stands for (log 2). -/
def step (s : State) : Host.Outcome State Fault Refusal :=
  match s.agenda with
  | [] => idleTurn s
  | t :: rest => takeTurn t { s with agenda := rest }

/-- The state with an instruction where its next step fetches it: a G-word in memory at the focused hart's PC, an E-word
at the head of its queue (log 21). -/
def State.withFetchWord (s : State) (nbits w : Nat) : State :=
  if nbits = 64 then placeWord s (BitVec.ofNat 64 w) else placeCode s w

end Sys2Proof.Machine
end

