-- ==== Sys2Proof/Laws/PerInstr.lean ====
section
/-! SUPPORT. The family Decoding: for each constructor, a well-formed instruction is what its own encoding decodes to. -/

set_option linter.unusedSimpArgs false

namespace Sys2Proof.Laws

/-! ### Fields of a word put together from its parts -/

theorem extract_low {n m : Nat} (x : BitVec n) (y : BitVec m) (lo w : Nat) (h : lo + w ≤ m) :
    (x ++ y).extractLsb' lo w = y.extractLsb' lo w := by
  apply BitVec.eq_of_getLsbD_eq
  intro i hi
  simp only [BitVec.getLsbD_extractLsb', BitVec.getLsbD_append, hi, decide_true, Bool.true_and, show lo + i < m by omega, if_true]
theorem extract_high {n m : Nat} (x : BitVec n) (y : BitVec m) (lo w : Nat) (h : m ≤ lo) :
    (x ++ y).extractLsb' lo w = x.extractLsb' (lo - m) w := by
  apply BitVec.eq_of_getLsbD_eq
  intro i hi
  simp only [BitVec.getLsbD_extractLsb', BitVec.getLsbD_append, hi, decide_true, Bool.true_and, show ¬ lo + i < m by omega]
  rw [show lo + i - m = lo - m + i by omega]
  rfl
theorem extract_two {n m k : Nat} (x : BitVec n) (y : BitVec m) (z : BitVec k) (lo w : Nat) (h : lo + w ≤ m + k) :
    (x ++ y ++ z).extractLsb' lo w = (y ++ z).extractLsb' lo w := by
  apply BitVec.eq_of_getLsbD_eq
  intro i hi
  simp only [BitVec.getLsbD_extractLsb', BitVec.getLsbD_append, hi, decide_true, Bool.true_and]
  by_cases h1 : lo + i < k
  · simp [h1]
  · simp [h1, show lo + i - k < m by omega]
theorem extract_three {n m k l : Nat} (x : BitVec n) (y : BitVec m) (z : BitVec k) (u : BitVec l)
    (lo w : Nat) (h : lo + w ≤ m + k + l) :
    (x ++ y ++ z ++ u).extractLsb' lo w = (y ++ z ++ u).extractLsb' lo w := by
  apply BitVec.eq_of_getLsbD_eq
  intro i hi
  simp only [BitVec.getLsbD_extractLsb', BitVec.getLsbD_append, hi, decide_true, Bool.true_and]
  by_cases h1 : lo + i < l
  · simp [h1]
  · by_cases h2 : lo + i - l < k
    · simp [h1, h2]
    · simp [h1, h2, show lo + i - l - k < m by omega]
theorem extract_all {n : Nat} (x : BitVec n) : x.extractLsb' 0 n = x := by simp
theorem checked_ok {i : Instr} (h : i.wf = true) : checked (.ok i) = .ok i := if_pos h
theorem encR_26 (op : BitVec 6) (d a b : Reg) (f : BitVec 8) : fld (encR op d a b f) 26 6 = op := by
  simp (disch := decide) only [fld, encR, extract_low, extract_high, extract_two, extract_all, Nat.reduceSub]
  try rfl
theorem encR_20 (op : BitVec 6) (d a b : Reg) (f : BitVec 8) : fld (encR op d a b f) 20 6 = d := by
  simp (disch := decide) only [fld, encR, extract_low, extract_high, extract_two, extract_all, Nat.reduceSub]
  try rfl
theorem encR_14 (op : BitVec 6) (d a b : Reg) (f : BitVec 8) : fld (encR op d a b f) 14 6 = a := by
  simp (disch := decide) only [fld, encR, extract_low, extract_high, extract_two, extract_all, Nat.reduceSub]
  try rfl
theorem encR_8 (op : BitVec 6) (d a b : Reg) (f : BitVec 8) : fld (encR op d a b f) 8 6 = b := by
  simp (disch := decide) only [fld, encR, extract_low, extract_high, extract_two, extract_all, Nat.reduceSub]
  try rfl
theorem encR_0 (op : BitVec 6) (d a b : Reg) (f : BitVec 8) : fld (encR op d a b f) 0 8 = f := by
  simp (disch := decide) only [fld, encR, extract_low, extract_high, extract_two, extract_all, Nat.reduceSub]
  try rfl
theorem encI_26 (op : BitVec 6) (d a : Reg) (i : BitVec 14) : fld (encI op d a i) 26 6 = op := by
  simp (disch := decide) only [fld, encI, extract_low, extract_high, extract_two, extract_all, Nat.reduceSub]
  try rfl
theorem encI_20 (op : BitVec 6) (d a : Reg) (i : BitVec 14) : fld (encI op d a i) 20 6 = d := by
  simp (disch := decide) only [fld, encI, extract_low, extract_high, extract_two, extract_all, Nat.reduceSub]
  try rfl
theorem encI_14 (op : BitVec 6) (d a : Reg) (i : BitVec 14) : fld (encI op d a i) 14 6 = a := by
  simp (disch := decide) only [fld, encI, extract_low, extract_high, extract_two, extract_all, Nat.reduceSub]
  try rfl
theorem encI_0 (op : BitVec 6) (d a : Reg) (i : BitVec 14) : fld (encI op d a i) 0 14 = i := by
  simp (disch := decide) only [fld, encI, extract_low, extract_high, extract_two, extract_all, Nat.reduceSub]
  try rfl
theorem encU_26 (op : BitVec 6) (d : Reg) (i : BitVec 20) : fld (encU op d i) 26 6 = op := by
  simp (disch := decide) only [fld, encU, extract_low, extract_high, extract_two, extract_all, Nat.reduceSub]
  try rfl
theorem encU_20 (op : BitVec 6) (d : Reg) (i : BitVec 20) : fld (encU op d i) 20 6 = d := by
  simp (disch := decide) only [fld, encU, extract_low, extract_high, extract_two, extract_all, Nat.reduceSub]
  try rfl
theorem encU_0 (op : BitVec 6) (d : Reg) (i : BitVec 20) : fld (encU op d i) 0 20 = i := by
  simp (disch := decide) only [fld, encU, extract_low, extract_high, extract_two, extract_all, Nat.reduceSub]
  try rfl
theorem encM_26 (op : BitVec 6) (d a : Reg) (z o : BitVec 2) (x : BitVec 1) (f : BitVec 9) : fld (encM op d a z o x f) 26 6 = op := by
  simp (disch := decide) only [fld, encM, extract_low, extract_high, extract_two, extract_all, Nat.reduceSub]
  try rfl
theorem encM_20 (op : BitVec 6) (d a : Reg) (z o : BitVec 2) (x : BitVec 1) (f : BitVec 9) : fld (encM op d a z o x f) 20 6 = d := by
  simp (disch := decide) only [fld, encM, extract_low, extract_high, extract_two, extract_all, Nat.reduceSub]
  try rfl
theorem encM_14 (op : BitVec 6) (d a : Reg) (z o : BitVec 2) (x : BitVec 1) (f : BitVec 9) : fld (encM op d a z o x f) 14 6 = a := by
  simp (disch := decide) only [fld, encM, extract_low, extract_high, extract_two, extract_all, Nat.reduceSub]
  try rfl
theorem encM_12 (op : BitVec 6) (d a : Reg) (z o : BitVec 2) (x : BitVec 1) (f : BitVec 9) : fld (encM op d a z o x f) 12 2 = z := by
  simp (disch := decide) only [fld, encM, extract_low, extract_high, extract_two, extract_all, Nat.reduceSub]
  try rfl
theorem encM_10 (op : BitVec 6) (d a : Reg) (z o : BitVec 2) (x : BitVec 1) (f : BitVec 9) : fld (encM op d a z o x f) 10 2 = o := by
  simp (disch := decide) only [fld, encM, extract_low, extract_high, extract_two, extract_all, Nat.reduceSub]
  try rfl
theorem encM_9 (op : BitVec 6) (d a : Reg) (z o : BitVec 2) (x : BitVec 1) (f : BitVec 9) : fld (encM op d a z o x f) 9 1 = x := by
  simp (disch := decide) only [fld, encM, extract_low, extract_high, extract_two, extract_all, Nat.reduceSub]
  try rfl
theorem encM_0 (op : BitVec 6) (d a : Reg) (z o : BitVec 2) (x : BitVec 1) (f : BitVec 9) : fld (encM op d a z o x f) 0 9 = f := by
  simp (disch := decide) only [fld, encM, extract_low, extract_high, extract_two, extract_all, Nat.reduceSub]
  try rfl
theorem encA_26 (op : BitVec 6) (d a b : Reg) (p : BitVec 4) (s : BitVec 3) (r : BitVec 1) : fld (encA op d a b p s r) 26 6 = op := by
  simp (disch := decide) only [fld, encA, extract_low, extract_high, extract_two, extract_all, Nat.reduceSub]
  try rfl
theorem encA_20 (op : BitVec 6) (d a b : Reg) (p : BitVec 4) (s : BitVec 3) (r : BitVec 1) : fld (encA op d a b p s r) 20 6 = d := by
  simp (disch := decide) only [fld, encA, extract_low, extract_high, extract_two, extract_all, Nat.reduceSub]
  try rfl
theorem encA_14 (op : BitVec 6) (d a b : Reg) (p : BitVec 4) (s : BitVec 3) (r : BitVec 1) : fld (encA op d a b p s r) 14 6 = a := by
  simp (disch := decide) only [fld, encA, extract_low, extract_high, extract_two, extract_all, Nat.reduceSub]
  try rfl
theorem encA_8 (op : BitVec 6) (d a b : Reg) (p : BitVec 4) (s : BitVec 3) (r : BitVec 1) : fld (encA op d a b p s r) 8 6 = b := by
  simp (disch := decide) only [fld, encA, extract_low, extract_high, extract_two, extract_all, Nat.reduceSub]
  try rfl
theorem encA_4 (op : BitVec 6) (d a b : Reg) (p : BitVec 4) (s : BitVec 3) (r : BitVec 1) : fld (encA op d a b p s r) 4 4 = p := by
  simp (disch := decide) only [fld, encA, extract_low, extract_high, extract_two, extract_all, Nat.reduceSub]
  try rfl
theorem encA_1 (op : BitVec 6) (d a b : Reg) (p : BitVec 4) (s : BitVec 3) (r : BitVec 1) : fld (encA op d a b p s r) 1 3 = s := by
  simp (disch := decide) only [fld, encA, extract_low, extract_high, extract_two, extract_all, Nat.reduceSub]
  try rfl
theorem encA_0 (op : BitVec 6) (d a b : Reg) (p : BitVec 4) (s : BitVec 3) (r : BitVec 1) : fld (encA op d a b p s r) 0 1 = r := by
  simp (disch := decide) only [fld, encA, extract_low, extract_high, extract_two, extract_all, Nat.reduceSub]
  try rfl
theorem encC_26 (op : BitVec 6) (d a b c : Reg) : fld (encC op d a b c) 26 6 = op := by
  simp (disch := decide) only [fld, encC, extract_low, extract_high, extract_two, extract_all, Nat.reduceSub]
  try rfl
theorem encC_20 (op : BitVec 6) (d a b c : Reg) : fld (encC op d a b c) 20 6 = d := by
  simp (disch := decide) only [fld, encC, extract_low, extract_high, extract_two, extract_all, Nat.reduceSub]
  try rfl
theorem encC_14 (op : BitVec 6) (d a b c : Reg) : fld (encC op d a b c) 14 6 = a := by
  simp (disch := decide) only [fld, encC, extract_low, extract_high, extract_two, extract_all, Nat.reduceSub]
  try rfl
theorem encC_8 (op : BitVec 6) (d a b c : Reg) : fld (encC op d a b c) 8 6 = b := by
  simp (disch := decide) only [fld, encC, extract_low, extract_high, extract_two, extract_all, Nat.reduceSub]
  try rfl
theorem encC_2 (op : BitVec 6) (d a b c : Reg) : fld (encC op d a b c) 2 6 = c := by
  simp (disch := decide) only [fld, encC, extract_low, extract_high, extract_two, extract_all, Nat.reduceSub]
  try rfl
theorem encC_0 (op : BitVec 6) (d a b c : Reg) : fld (encC op d a b c) 0 2 = 0 := by
  simp (disch := decide) only [fld, encC, extract_low, extract_high, extract_two, extract_all, Nat.reduceSub]
  try rfl
theorem encF_26 (d a b : Reg) (r : BitVec 3) (f : BitVec 5) : fld (encF d a b r f) 26 6 = 0x0E := by
  simp (disch := decide) only [fld, encF, extract_low, extract_high, extract_two, extract_all, Nat.reduceSub]
  try rfl
theorem encF_20 (d a b : Reg) (r : BitVec 3) (f : BitVec 5) : fld (encF d a b r f) 20 6 = d := by
  simp (disch := decide) only [fld, encF, extract_low, extract_high, extract_two, extract_all, Nat.reduceSub]
  try rfl
theorem encF_14 (d a b : Reg) (r : BitVec 3) (f : BitVec 5) : fld (encF d a b r f) 14 6 = a := by
  simp (disch := decide) only [fld, encF, extract_low, extract_high, extract_two, extract_all, Nat.reduceSub]
  try rfl
theorem encF_8 (d a b : Reg) (r : BitVec 3) (f : BitVec 5) : fld (encF d a b r f) 8 6 = b := by
  simp (disch := decide) only [fld, encF, extract_low, extract_high, extract_two, extract_all, Nat.reduceSub]
  try rfl
theorem encF_5 (d a b : Reg) (r : BitVec 3) (f : BitVec 5) : fld (encF d a b r f) 5 3 = r := by
  simp (disch := decide) only [fld, encF, extract_low, extract_high, extract_two, extract_all, Nat.reduceSub]
  try rfl
theorem encF_0 (d a b : Reg) (r : BitVec 3) (f : BitVec 5) : fld (encF d a b r f) 0 5 = f := by
  simp (disch := decide) only [fld, encF, extract_low, extract_high, extract_two, extract_all, Nat.reduceSub]
  try rfl
theorem encN_26 (op : BitVec 6) : fld (encN op) 26 6 = op := by
  simp (disch := decide) only [fld, encN, extract_low, extract_high, extract_two, extract_all, Nat.reduceSub]
  try rfl
theorem encN_0 (op : BitVec 6) : fld (encN op) 0 26 = 0 := by
  simp (disch := decide) only [fld, encN, extract_low, extract_high, extract_two, extract_all, Nat.reduceSub]
  try rfl
theorem encR_tail (op : BitVec 6) (d a : Reg) : fld (encR op d a 0 0) 0 14 = 0 := by
  simp (disch := decide) only [fld, encR, extract_low, extract_high, extract_two, extract_all, Nat.reduceSub]
  try rfl
theorem encR_tail20 (op : BitVec 6) (d : Reg) : fld (encR op d 0 0 0) 0 20 = 0 := by
  simp (disch := decide) only [fld, encR, extract_three]; rfl
theorem encI_6 (op : BitVec 6) (d a : Reg) (t : BitVec 2) (n : Reg) : fld (encI op d a (t ++ 0#6 ++ n)) 6 6 = 0 := by
  simp (disch := decide) only [fld, encI, extract_low, extract_high, extract_all, Nat.reduceSub]
  try rfl
theorem encI_12 (op : BitVec 6) (d a : Reg) (t : BitVec 2) (n : Reg) : fld (encI op d a (t ++ 0#6 ++ n)) 12 2 = t := by
  simp (disch := decide) only [fld, encI, extract_low, extract_high, extract_all, Nat.reduceSub]
  try rfl
theorem encI_0_6 (op : BitVec 6) (d a : Reg) (t : BitVec 2) (n : Reg) : fld (encI op d a (t ++ 0#6 ++ n)) 0 6 = n := by
  simp (disch := decide) only [fld, encI, extract_low, extract_high, extract_all, Nat.reduceSub]
  try rfl
theorem encI_4 (op : BitVec 6) (d a : Reg) (k : BitVec 4) : fld (encI op d a (0#10 ++ k)) 4 10 = 0 := by
  simp (disch := decide) only [fld, encI, extract_low, extract_high, extract_all, Nat.reduceSub]
  try rfl
theorem encI_0_4 (op : BitVec 6) (d a : Reg) (k : BitVec 4) : fld (encI op d a (0#10 ++ k)) 0 4 = k := by
  simp (disch := decide) only [fld, encI, extract_low, extract_high, extract_all, Nat.reduceSub]
  try rfl
theorem encR_3 (op : BitVec 6) (d a b : Reg) (k : BitVec 3) : fld (encR op d a b (0#5 ++ k)) 3 5 = 0 := by
  simp (disch := decide) only [fld, encR, extract_low, extract_high, extract_all, Nat.reduceSub]
  try rfl
theorem encR_0_3 (op : BitVec 6) (d a b : Reg) (k : BitVec 3) : fld (encR op d a b (0#5 ++ k)) 0 3 = k := by
  simp (disch := decide) only [fld, encR, extract_low, extract_high, extract_all, Nat.reduceSub]
  try rfl
theorem encI_5 (op : BitVec 6) (d a : Reg) (k : BitVec 3) (f : BitVec 5) : fld (encI op d a (0#6 ++ k ++ f)) 5 3 = k := by
  simp (disch := decide) only [fld, encI, extract_low, extract_high, extract_all, Nat.reduceSub]
  try rfl
theorem encI_0_5 (op : BitVec 6) (d a : Reg) (k : BitVec 3) (f : BitVec 5) : fld (encI op d a (0#6 ++ k ++ f)) 0 5 = f := by
  simp (disch := decide) only [fld, encI, extract_low, extract_high, extract_all, Nat.reduceSub]
  try rfl
theorem encI_8 (op : BitVec 6) (k : BitVec 3) (f : BitVec 5) : fld (encI op 0 0 (0#6 ++ k ++ f)) 8 18 = 0 := by
  apply BitVec.eq_of_getLsbD_eq
  intro i hi
  simp only [fld, encI, BitVec.getLsbD_extractLsb', BitVec.getLsbD_append]
  simp [hi, show ¬ 8 + i < 5 by omega, show ¬ 8 + i - 5 < 3 by omega, show 8 + i < 26 by omega, show 8 + i - 14 - 6 < 6 by omega]
theorem code_rm (r : RM) : RM.ofCode r.code.toNat = some r := by cases r <;> rfl
theorem code_scope (r : Scope) : Scope.ofCode r.code.toNat = some r := by cases r <;> rfl
theorem code_amo (r : AmoOp) : AmoOp.ofCode r.code.toNat = some r := by cases r <;> rfl
theorem code_order (r : Order) : Order.ofCode r.code.toNat = some r := by cases r <;> rfl
theorem code_size (r : Size) : Size.ofCode r.code = r := by cases r <;> rfl
theorem code_vl (r : VlWidth) : VlWidth.ofCode r.code.toNat = some r := by cases r <;> rfl
theorem bit_one (b : Bool) : (Sys2Proof.bit b == 1) = b := by cases b <;> rfl
theorem getLsbD_low {n m : Nat} (x : BitVec n) (y : BitVec m) (i : Nat) (h : i < m) : (x ++ y).getLsbD i = y.getLsbD i := by
  simp [BitVec.getLsbD_append, h]
theorem getLsbD_high {n m : Nat} (x : BitVec n) (y : BitVec m) (i : Nat) (h : m ≤ i) : (x ++ y).getLsbD i = x.getLsbD (i - m) := by
  simp [BitVec.getLsbD_append, show ¬ i < m by omega]
theorem getLsbD_bit (b : Bool) : (Sys2Proof.bit b).getLsbD 0 = b := by cases b <;> rfl
theorem encE_op (op : BitVec 6) (o : Bool) (f : BitVec 7) (w : EFields) : (encE op o f w).extractLsb' 58 6 = op := by
  simp (disch := decide) only [encE, extract_high, extract_all, Nat.reduceSub]
theorem encE_fn (op : BitVec 6) (o : Bool) (f : BitVec 7) (w : EFields) : (encE op o f w).extractLsb' 20 7 = f := by
  simp (disch := decide) only [encE, extract_high, extract_low, extract_all, Nat.reduceSub]
theorem encE_o (op : BitVec 6) (o : Bool) (f : BitVec 7) (w : EFields) : (encE op o f w).getLsbD 56 = o := by
  simp (disch := decide) only [encE, getLsbD_high, getLsbD_low, getLsbD_bit, Nat.reduceSub]
theorem encE_fields (op : BitVec 6) (o : Bool) (f : BitVec 7) (w : EFields) : EFields.ofWord (encE op o f w) = w := by
  simp (disch := decide) only [EFields.ofWord, encE, extract_high, extract_low, extract_all, getLsbD_high, getLsbD_low, getLsbD_bit, Nat.reduceSub]
theorem decodeE_encE (op : BitVec 6) (o : Bool) (f : BitVec 7) (w : EFields) :
    decodeE (encE op o f w) = checked (if op.toNat = 0x11 then decodeVst w o f else zeroThen (!o) (decodeClass w op.toNat f)) := by
  simp only [decodeE, encE_op, encE_fn, encE_o, encE_fields]
theorem code_form (r : AddrForm) : AddrForm.ofCode r.code.toNat = some r := by cases r <;> rfl
theorem code_space (r : Space) : Space.ofCode r.code = r := by cases r <;> rfl
theorem code_target (r : LdTarget) : LdTarget.ofCode r.code.toNat = some r := by cases r <;> rfl

/-! ### The family -/

/-- A well-formed instruction is what its own encoding decodes to, with every operand. -/
def Decoding.Statement (i : Instr) : Prop := i.wf = true →
  (∀ w l, encodeG i = some (w, l) → decodeG w (l.getD 0) = .ok i) ∧ (∀ e, encodeE i = some e → decodeE e = .ok i)

theorem decoding_ofG {i : Instr} {w : BitVec 32} {l : Option Word} (h : encodeG i = some (w, l)) (h2 : encodeE i = none)
    (hf : i.wf = true → decodeFields w (l.getD 0) = .ok i) : Decoding.Statement i := fun hw =>
  ⟨fun w' l' e => by cases h.symm.trans e; rw [decodeG, hf hw]; exact checked_ok hw, fun e he => by simp [h2] at he⟩
theorem decoding_ofE {i : Instr} {op : BitVec 6} {o : Bool} {f : BitVec 7} {w : EFields} (h : encodeE i = some (encE op o f w)) (h2 : encodeG i = none)
    (hf : (if op.toNat = 0x11 then decodeVst w o f else zeroThen (!o) (decodeClass w op.toNat f)) = .ok i) : Decoding.Statement i := fun hw =>
  ⟨fun w' l' e => by simp [h2] at e, fun e he => by cases h.symm.trans he; rw [decodeE_encE, hf]; exact checked_ok hw⟩
theorem decoding_ofEvent {i : Instr} (h : encodeG i = none) (h2 : encodeE i = none) : Decoding.Statement i := fun _ =>
  ⟨fun w' l' e => by simp [h] at e, fun e he => by simp [h2] at he⟩
theorem Decoding.add (d a b : Reg) : Decoding.Statement (.add d a b) := decoding_ofG rfl rfl fun _ => by
    unfold decodeFields
    rw [encR_26, show (0x01 : BitVec 6).toNat = 1 from rfl]
    simp only [decodeAlu]
    rw [encR_0, show (0 : BitVec 8).toNat = 0 from rfl]
    simp only [encR_20, encR_14, encR_8, encR_0,
      code_rm, code_scope, code_amo, code_order, code_size, code_vl, bit_one]
    try rfl
theorem Decoding.sub (d a b : Reg) : Decoding.Statement (.sub d a b) := decoding_ofG rfl rfl fun _ => by
    unfold decodeFields
    rw [encR_26, show (0x01 : BitVec 6).toNat = 1 from rfl]
    simp only [decodeAlu]
    rw [encR_0, show (1 : BitVec 8).toNat = 1 from rfl]
    simp only [encR_20, encR_14, encR_8, encR_0,
      code_rm, code_scope, code_amo, code_order, code_size, code_vl, bit_one]
    try rfl
theorem Decoding.and (d a b : Reg) : Decoding.Statement (.and d a b) := decoding_ofG rfl rfl fun _ => by
    unfold decodeFields
    rw [encR_26, show (0x01 : BitVec 6).toNat = 1 from rfl]
    simp only [decodeAlu]
    rw [encR_0, show (2 : BitVec 8).toNat = 2 from rfl]
    simp only [encR_20, encR_14, encR_8, encR_0,
      code_rm, code_scope, code_amo, code_order, code_size, code_vl, bit_one]
    try rfl
theorem Decoding.or (d a b : Reg) : Decoding.Statement (.or d a b) := decoding_ofG rfl rfl fun _ => by
    unfold decodeFields
    rw [encR_26, show (0x01 : BitVec 6).toNat = 1 from rfl]
    simp only [decodeAlu]
    rw [encR_0, show (3 : BitVec 8).toNat = 3 from rfl]
    simp only [encR_20, encR_14, encR_8, encR_0,
      code_rm, code_scope, code_amo, code_order, code_size, code_vl, bit_one]
    try rfl
theorem Decoding.xor (d a b : Reg) : Decoding.Statement (.xor d a b) := decoding_ofG rfl rfl fun _ => by
    unfold decodeFields
    rw [encR_26, show (0x01 : BitVec 6).toNat = 1 from rfl]
    simp only [decodeAlu]
    rw [encR_0, show (4 : BitVec 8).toNat = 4 from rfl]
    simp only [encR_20, encR_14, encR_8, encR_0,
      code_rm, code_scope, code_amo, code_order, code_size, code_vl, bit_one]
    try rfl
theorem Decoding.shl (d a b : Reg) : Decoding.Statement (.shl d a b) := decoding_ofG rfl rfl fun _ => by
    unfold decodeFields
    rw [encR_26, show (0x01 : BitVec 6).toNat = 1 from rfl]
    simp only [decodeAlu]
    rw [encR_0, show (5 : BitVec 8).toNat = 5 from rfl]
    simp only [encR_20, encR_14, encR_8, encR_0,
      code_rm, code_scope, code_amo, code_order, code_size, code_vl, bit_one]
    try rfl
theorem Decoding.shr (d a b : Reg) : Decoding.Statement (.shr d a b) := decoding_ofG rfl rfl fun _ => by
    unfold decodeFields
    rw [encR_26, show (0x01 : BitVec 6).toNat = 1 from rfl]
    simp only [decodeAlu]
    rw [encR_0, show (6 : BitVec 8).toNat = 6 from rfl]
    simp only [encR_20, encR_14, encR_8, encR_0,
      code_rm, code_scope, code_amo, code_order, code_size, code_vl, bit_one]
    try rfl
theorem Decoding.sar (d a b : Reg) : Decoding.Statement (.sar d a b) := decoding_ofG rfl rfl fun _ => by
    unfold decodeFields
    rw [encR_26, show (0x01 : BitVec 6).toNat = 1 from rfl]
    simp only [decodeAlu]
    rw [encR_0, show (7 : BitVec 8).toNat = 7 from rfl]
    simp only [encR_20, encR_14, encR_8, encR_0,
      code_rm, code_scope, code_amo, code_order, code_size, code_vl, bit_one]
    try rfl
theorem Decoding.mul (d a b : Reg) : Decoding.Statement (.mul d a b) := decoding_ofG rfl rfl fun _ => by
    unfold decodeFields
    rw [encR_26, show (0x01 : BitVec 6).toNat = 1 from rfl]
    simp only [decodeAlu]
    rw [encR_0, show (8 : BitVec 8).toNat = 8 from rfl]
    simp only [encR_20, encR_14, encR_8, encR_0,
      code_rm, code_scope, code_amo, code_order, code_size, code_vl, bit_one]
    try rfl
theorem Decoding.mulh (d a b : Reg) : Decoding.Statement (.mulh d a b) := decoding_ofG rfl rfl fun _ => by
    unfold decodeFields
    rw [encR_26, show (0x01 : BitVec 6).toNat = 1 from rfl]
    simp only [decodeAlu]
    rw [encR_0, show (9 : BitVec 8).toNat = 9 from rfl]
    simp only [encR_20, encR_14, encR_8, encR_0,
      code_rm, code_scope, code_amo, code_order, code_size, code_vl, bit_one]
    try rfl
theorem Decoding.mulhu (d a b : Reg) : Decoding.Statement (.mulhu d a b) := decoding_ofG rfl rfl fun _ => by
    unfold decodeFields
    rw [encR_26, show (0x01 : BitVec 6).toNat = 1 from rfl]
    simp only [decodeAlu]
    rw [encR_0, show (10 : BitVec 8).toNat = 10 from rfl]
    simp only [encR_20, encR_14, encR_8, encR_0,
      code_rm, code_scope, code_amo, code_order, code_size, code_vl, bit_one]
    try rfl
theorem Decoding.div (d a b : Reg) : Decoding.Statement (.div d a b) := decoding_ofG rfl rfl fun _ => by
    unfold decodeFields
    rw [encR_26, show (0x01 : BitVec 6).toNat = 1 from rfl]
    simp only [decodeAlu]
    rw [encR_0, show (11 : BitVec 8).toNat = 11 from rfl]
    simp only [encR_20, encR_14, encR_8, encR_0,
      code_rm, code_scope, code_amo, code_order, code_size, code_vl, bit_one]
    try rfl
theorem Decoding.divu (d a b : Reg) : Decoding.Statement (.divu d a b) := decoding_ofG rfl rfl fun _ => by
    unfold decodeFields
    rw [encR_26, show (0x01 : BitVec 6).toNat = 1 from rfl]
    simp only [decodeAlu]
    rw [encR_0, show (12 : BitVec 8).toNat = 12 from rfl]
    simp only [encR_20, encR_14, encR_8, encR_0,
      code_rm, code_scope, code_amo, code_order, code_size, code_vl, bit_one]
    try rfl
theorem Decoding.rem (d a b : Reg) : Decoding.Statement (.rem d a b) := decoding_ofG rfl rfl fun _ => by
    unfold decodeFields
    rw [encR_26, show (0x01 : BitVec 6).toNat = 1 from rfl]
    simp only [decodeAlu]
    rw [encR_0, show (13 : BitVec 8).toNat = 13 from rfl]
    simp only [encR_20, encR_14, encR_8, encR_0,
      code_rm, code_scope, code_amo, code_order, code_size, code_vl, bit_one]
    try rfl
theorem Decoding.remu (d a b : Reg) : Decoding.Statement (.remu d a b) := decoding_ofG rfl rfl fun _ => by
    unfold decodeFields
    rw [encR_26, show (0x01 : BitVec 6).toNat = 1 from rfl]
    simp only [decodeAlu]
    rw [encR_0, show (14 : BitVec 8).toNat = 14 from rfl]
    simp only [encR_20, encR_14, encR_8, encR_0,
      code_rm, code_scope, code_amo, code_order, code_size, code_vl, bit_one]
    try rfl
theorem Decoding.min (d a b : Reg) : Decoding.Statement (.min d a b) := decoding_ofG rfl rfl fun _ => by
    unfold decodeFields
    rw [encR_26, show (0x01 : BitVec 6).toNat = 1 from rfl]
    simp only [decodeAlu]
    rw [encR_0, show (15 : BitVec 8).toNat = 15 from rfl]
    simp only [encR_20, encR_14, encR_8, encR_0,
      code_rm, code_scope, code_amo, code_order, code_size, code_vl, bit_one]
    try rfl
theorem Decoding.max (d a b : Reg) : Decoding.Statement (.max d a b) := decoding_ofG rfl rfl fun _ => by
    unfold decodeFields
    rw [encR_26, show (0x01 : BitVec 6).toNat = 1 from rfl]
    simp only [decodeAlu]
    rw [encR_0, show (16 : BitVec 8).toNat = 16 from rfl]
    simp only [encR_20, encR_14, encR_8, encR_0,
      code_rm, code_scope, code_amo, code_order, code_size, code_vl, bit_one]
    try rfl
theorem Decoding.minu (d a b : Reg) : Decoding.Statement (.minu d a b) := decoding_ofG rfl rfl fun _ => by
    unfold decodeFields
    rw [encR_26, show (0x01 : BitVec 6).toNat = 1 from rfl]
    simp only [decodeAlu]
    rw [encR_0, show (17 : BitVec 8).toNat = 17 from rfl]
    simp only [encR_20, encR_14, encR_8, encR_0,
      code_rm, code_scope, code_amo, code_order, code_size, code_vl, bit_one]
    try rfl
theorem Decoding.maxu (d a b : Reg) : Decoding.Statement (.maxu d a b) := decoding_ofG rfl rfl fun _ => by
    unfold decodeFields
    rw [encR_26, show (0x01 : BitVec 6).toNat = 1 from rfl]
    simp only [decodeAlu]
    rw [encR_0, show (18 : BitVec 8).toNat = 18 from rfl]
    simp only [encR_20, encR_14, encR_8, encR_0,
      code_rm, code_scope, code_amo, code_order, code_size, code_vl, bit_one]
    try rfl
theorem Decoding.slt (d a b : Reg) : Decoding.Statement (.slt d a b) := decoding_ofG rfl rfl fun _ => by
    unfold decodeFields
    rw [encR_26, show (0x01 : BitVec 6).toNat = 1 from rfl]
    simp only [decodeAlu]
    rw [encR_0, show (19 : BitVec 8).toNat = 19 from rfl]
    simp only [encR_20, encR_14, encR_8, encR_0,
      code_rm, code_scope, code_amo, code_order, code_size, code_vl, bit_one]
    try rfl
theorem Decoding.sltu (d a b : Reg) : Decoding.Statement (.sltu d a b) := decoding_ofG rfl rfl fun _ => by
    unfold decodeFields
    rw [encR_26, show (0x01 : BitVec 6).toNat = 1 from rfl]
    simp only [decodeAlu]
    rw [encR_0, show (20 : BitVec 8).toNat = 20 from rfl]
    simp only [encR_20, encR_14, encR_8, encR_0,
      code_rm, code_scope, code_amo, code_order, code_size, code_vl, bit_one]
    try rfl
theorem Decoding.seq (d a b : Reg) : Decoding.Statement (.seq d a b) := decoding_ofG rfl rfl fun _ => by
    unfold decodeFields
    rw [encR_26, show (0x01 : BitVec 6).toNat = 1 from rfl]
    simp only [decodeAlu]
    rw [encR_0, show (21 : BitVec 8).toNat = 21 from rfl]
    simp only [encR_20, encR_14, encR_8, encR_0,
      code_rm, code_scope, code_amo, code_order, code_size, code_vl, bit_one]
    try rfl
theorem Decoding.clz (d a : Reg) : Decoding.Statement (.clz d a) := decoding_ofG rfl rfl fun _ => by
    unfold decodeFields
    rw [encR_26, show (0x01 : BitVec 6).toNat = 1 from rfl]
    simp only [decodeAlu]
    rw [encR_0, show (22 : BitVec 8).toNat = 22 from rfl]
    simp only [encR_20, encR_14, encR_8, encR_0,
      code_rm, code_scope, code_amo, code_order, code_size, code_vl, bit_one]
    try rfl
theorem Decoding.popc (d a : Reg) : Decoding.Statement (.popc d a) := decoding_ofG rfl rfl fun _ => by
    unfold decodeFields
    rw [encR_26, show (0x01 : BitVec 6).toNat = 1 from rfl]
    simp only [decodeAlu]
    rw [encR_0, show (23 : BitVec 8).toNat = 23 from rfl]
    simp only [encR_20, encR_14, encR_8, encR_0,
      code_rm, code_scope, code_amo, code_order, code_size, code_vl, bit_one]
    try rfl
theorem Decoding.addi (d a : Reg) (i : BitVec 14) :
    Decoding.Statement (.addi d a i) := decoding_ofG rfl rfl fun _ => by
    unfold decodeFields
    rw [encI_26, show (0x02 : BitVec 6).toNat = 2 from rfl]
    simp only [encI_20, encI_14, encI_0, code_rm, code_scope, code_amo, code_order, code_size, code_vl, bit_one]
    try rfl
theorem Decoding.andi (d a : Reg) (i : BitVec 14) :
    Decoding.Statement (.andi d a i) := decoding_ofG rfl rfl fun _ => by
    unfold decodeFields
    rw [encI_26, show (0x03 : BitVec 6).toNat = 3 from rfl]
    simp only [encI_20, encI_14, encI_0, code_rm, code_scope, code_amo, code_order, code_size, code_vl, bit_one]
    try rfl
theorem Decoding.ori (d a : Reg) (i : BitVec 14) : Decoding.Statement (.ori d a i) := decoding_ofG rfl rfl fun _ => by
    unfold decodeFields
    rw [encI_26, show (0x04 : BitVec 6).toNat = 4 from rfl]
    simp only [encI_20, encI_14, encI_0, code_rm, code_scope, code_amo, code_order, code_size, code_vl, bit_one]
    try rfl
theorem Decoding.xori (d a : Reg) (i : BitVec 14) :
    Decoding.Statement (.xori d a i) := decoding_ofG rfl rfl fun _ => by
    unfold decodeFields
    rw [encI_26, show (0x05 : BitVec 6).toNat = 5 from rfl]
    simp only [encI_20, encI_14, encI_0, code_rm, code_scope, code_amo, code_order, code_size, code_vl, bit_one]
    try rfl
theorem Decoding.slti (d a : Reg) (i : BitVec 14) :
    Decoding.Statement (.slti d a i) := decoding_ofG rfl rfl fun _ => by
    unfold decodeFields
    rw [encI_26, show (0x06 : BitVec 6).toNat = 6 from rfl]
    simp only [encI_20, encI_14, encI_0, code_rm, code_scope, code_amo, code_order, code_size, code_vl, bit_one]
    try rfl
theorem Decoding.sltiu (d a : Reg) (i : BitVec 14) :
    Decoding.Statement (.sltiu d a i) := decoding_ofG rfl rfl fun _ => by
    unfold decodeFields
    rw [encI_26, show (0x07 : BitVec 6).toNat = 7 from rfl]
    simp only [encI_20, encI_14, encI_0, code_rm, code_scope, code_amo, code_order, code_size, code_vl, bit_one]
    try rfl
theorem Decoding.shli (d a n : Reg) : Decoding.Statement (.shli d a n) := decoding_ofG rfl rfl fun _ => by
    unfold decodeFields
    rw [encI_26, show (0x08 : BitVec 6).toNat = 8 from rfl]
    simp only [encI_20, encI_14, encI_6, encI_12, encI_0_6,
      code_rm, code_scope, code_amo, code_order, code_size, code_vl, bit_one]
    try rfl
theorem Decoding.shri (d a n : Reg) : Decoding.Statement (.shri d a n) := decoding_ofG rfl rfl fun _ => by
    unfold decodeFields
    rw [encI_26, show (0x08 : BitVec 6).toNat = 8 from rfl]
    simp only [encI_20, encI_14, encI_6, encI_12, encI_0_6,
      code_rm, code_scope, code_amo, code_order, code_size, code_vl, bit_one]
    try rfl
theorem Decoding.sari (d a n : Reg) : Decoding.Statement (.sari d a n) := decoding_ofG rfl rfl fun _ => by
    unfold decodeFields
    rw [encI_26, show (0x08 : BitVec 6).toNat = 8 from rfl]
    simp only [encI_20, encI_14, encI_6, encI_12, encI_0_6,
      code_rm, code_scope, code_amo, code_order, code_size, code_vl, bit_one]
    try rfl
theorem Decoding.lui (d : Reg) (i : BitVec 20) : Decoding.Statement (.lui d i) := decoding_ofG rfl rfl fun _ => by
    unfold decodeFields
    rw [encU_26, show (0x09 : BitVec 6).toNat = 9 from rfl]
    simp only [encU_20, encU_0, code_rm, code_scope, code_amo, code_order, code_size, code_vl, bit_one]
    try rfl
theorem Decoding.lil (d : Reg) (lit : Word) : Decoding.Statement (.lil d lit) := decoding_ofG rfl rfl fun _ => by
    unfold decodeFields
    rw [encU_26, show (0x0A : BitVec 6).toNat = 10 from rfl]
    simp only [encU_20, encU_0, code_rm, code_scope, code_amo, code_order, code_size, code_vl, bit_one]
    try rfl
theorem Decoding.auipc (d : Reg) (i : BitVec 20) : Decoding.Statement (.auipc d i) := decoding_ofG rfl rfl fun _ => by
    unfold decodeFields
    rw [encU_26, show (0x0B : BitVec 6).toNat = 11 from rfl]
    simp only [encU_20, encU_0, code_rm, code_scope, code_amo, code_order, code_size, code_vl, bit_one]
    try rfl
theorem Decoding.ins (d a p w : Reg) : Decoding.Statement (.ins d a p w) := decoding_ofG rfl rfl fun _ => by
    unfold decodeFields
    rw [encC_26, show (0x0C : BitVec 6).toNat = 12 from rfl]
    simp only [encC_20, encC_14, encC_8, encC_2, encC_0,
      code_rm, code_scope, code_amo, code_order, code_size, code_vl, bit_one]
    try rfl
theorem Decoding.ext (d a p w : Reg) : Decoding.Statement (.ext d a p w) := decoding_ofG rfl rfl fun _ => by
    unfold decodeFields
    rw [encC_26, show (0x0D : BitVec 6).toNat = 13 from rfl]
    simp only [encC_20, encC_14, encC_8, encC_2, encC_0,
      code_rm, code_scope, code_amo, code_order, code_size, code_vl, bit_one]
    try rfl
theorem Decoding.fadd (d a b : Reg) (r : RM) : Decoding.Statement (.fadd d a b r) := decoding_ofG rfl rfl fun _ => by
    unfold decodeFields
    rw [encF_26, show (0x0E : BitVec 6).toNat = 14 from rfl]
    simp only [decodeFp]
    rw [encF_0, show (0 : BitVec 5).toNat = 0 from rfl]
    simp only [encF_20, encF_14, encF_8, encF_5,
      code_rm, code_scope, code_amo, code_order, code_size, code_vl, bit_one]
    try rfl
theorem Decoding.fsub (d a b : Reg) (r : RM) : Decoding.Statement (.fsub d a b r) := decoding_ofG rfl rfl fun _ => by
    unfold decodeFields
    rw [encF_26, show (0x0E : BitVec 6).toNat = 14 from rfl]
    simp only [decodeFp]
    rw [encF_0, show (1 : BitVec 5).toNat = 1 from rfl]
    simp only [encF_20, encF_14, encF_8, encF_5,
      code_rm, code_scope, code_amo, code_order, code_size, code_vl, bit_one]
    try rfl
theorem Decoding.fmul (d a b : Reg) (r : RM) : Decoding.Statement (.fmul d a b r) := decoding_ofG rfl rfl fun _ => by
    unfold decodeFields
    rw [encF_26, show (0x0E : BitVec 6).toNat = 14 from rfl]
    simp only [decodeFp]
    rw [encF_0, show (2 : BitVec 5).toNat = 2 from rfl]
    simp only [encF_20, encF_14, encF_8, encF_5,
      code_rm, code_scope, code_amo, code_order, code_size, code_vl, bit_one]
    try rfl
theorem Decoding.fdiv (d a b : Reg) (r : RM) : Decoding.Statement (.fdiv d a b r) := decoding_ofG rfl rfl fun _ => by
    unfold decodeFields
    rw [encF_26, show (0x0E : BitVec 6).toNat = 14 from rfl]
    simp only [decodeFp]
    rw [encF_0, show (3 : BitVec 5).toNat = 3 from rfl]
    simp only [encF_20, encF_14, encF_8, encF_5,
      code_rm, code_scope, code_amo, code_order, code_size, code_vl, bit_one]
    try rfl
theorem Decoding.fmin (d a b : Reg) (r : RM) : Decoding.Statement (.fmin d a b r) := decoding_ofG rfl rfl fun _ => by
    unfold decodeFields
    rw [encF_26, show (0x0E : BitVec 6).toNat = 14 from rfl]
    simp only [decodeFp]
    rw [encF_0, show (4 : BitVec 5).toNat = 4 from rfl]
    simp only [encF_20, encF_14, encF_8, encF_5,
      code_rm, code_scope, code_amo, code_order, code_size, code_vl, bit_one]
    try rfl
theorem Decoding.fmax (d a b : Reg) (r : RM) : Decoding.Statement (.fmax d a b r) := decoding_ofG rfl rfl fun _ => by
    unfold decodeFields
    rw [encF_26, show (0x0E : BitVec 6).toNat = 14 from rfl]
    simp only [decodeFp]
    rw [encF_0, show (5 : BitVec 5).toNat = 5 from rfl]
    simp only [encF_20, encF_14, encF_8, encF_5,
      code_rm, code_scope, code_amo, code_order, code_size, code_vl, bit_one]
    try rfl
theorem Decoding.fsqrt (d a : Reg) (r : RM) : Decoding.Statement (.fsqrt d a r) := decoding_ofG rfl rfl fun _ => by
    unfold decodeFields
    rw [encF_26, show (0x0E : BitVec 6).toNat = 14 from rfl]
    simp only [decodeFp]
    rw [encF_0, show (6 : BitVec 5).toNat = 6 from rfl]
    simp only [encF_20, encF_14, encF_8, encF_5,
      code_rm, code_scope, code_amo, code_order, code_size, code_vl, bit_one]
    try rfl
theorem Decoding.fcvtW (d a : Reg) (r : RM) : Decoding.Statement (.fcvtW d a r) := decoding_ofG rfl rfl fun _ => by
    unfold decodeFields
    rw [encF_26, show (0x0E : BitVec 6).toNat = 14 from rfl]
    simp only [decodeFp]
    rw [encF_0, show (7 : BitVec 5).toNat = 7 from rfl]
    simp only [encF_20, encF_14, encF_8, encF_5,
      code_rm, code_scope, code_amo, code_order, code_size, code_vl, bit_one]
    try rfl
theorem Decoding.fcvtS (d a : Reg) (r : RM) : Decoding.Statement (.fcvtS d a r) := decoding_ofG rfl rfl fun _ => by
    unfold decodeFields
    rw [encF_26, show (0x0E : BitVec 6).toNat = 14 from rfl]
    simp only [decodeFp]
    rw [encF_0, show (8 : BitVec 5).toNat = 8 from rfl]
    simp only [encF_20, encF_14, encF_8, encF_5,
      code_rm, code_scope, code_amo, code_order, code_size, code_vl, bit_one]
    try rfl
theorem Decoding.feq (d a b : Reg) : Decoding.Statement (.feq d a b) := decoding_ofG rfl rfl fun _ => by
    unfold decodeFields
    rw [encF_26, show (0x0E : BitVec 6).toNat = 14 from rfl]
    simp only [decodeFp]
    rw [encF_0, show (9 : BitVec 5).toNat = 9 from rfl]
    simp only [encF_20, encF_14, encF_8, encF_5,
      code_rm, code_scope, code_amo, code_order, code_size, code_vl, bit_one]
    try rfl
theorem Decoding.flt (d a b : Reg) : Decoding.Statement (.flt d a b) := decoding_ofG rfl rfl fun _ => by
    unfold decodeFields
    rw [encF_26, show (0x0E : BitVec 6).toNat = 14 from rfl]
    simp only [decodeFp]
    rw [encF_0, show (10 : BitVec 5).toNat = 10 from rfl]
    simp only [encF_20, encF_14, encF_8, encF_5,
      code_rm, code_scope, code_amo, code_order, code_size, code_vl, bit_one]
    try rfl
theorem Decoding.fle (d a b : Reg) : Decoding.Statement (.fle d a b) := decoding_ofG rfl rfl fun _ => by
    unfold decodeFields
    rw [encF_26, show (0x0E : BitVec 6).toNat = 14 from rfl]
    simp only [decodeFp]
    rw [encF_0, show (11 : BitVec 5).toNat = 11 from rfl]
    simp only [encF_20, encF_14, encF_8, encF_5,
      code_rm, code_scope, code_amo, code_order, code_size, code_vl, bit_one]
    try rfl
theorem Decoding.fma (d a b c : Reg) : Decoding.Statement (.fma d a b c) := decoding_ofG rfl rfl fun _ => by
    unfold decodeFields
    rw [encC_26, show (0x0F : BitVec 6).toNat = 15 from rfl]
    simp only [encC_20, encC_14, encC_8, encC_2, encC_0,
      code_rm, code_scope, code_amo, code_order, code_size, code_vl, bit_one]
    try rfl
theorem Decoding.beq (a b : Reg) (o : BitVec 14) : Decoding.Statement (.beq a b o) := decoding_ofG rfl rfl fun _ => by
    unfold decodeFields
    rw [encI_26, show (0x10 : BitVec 6).toNat = 16 from rfl]
    simp only [encI_20, encI_14, encI_0, code_rm, code_scope, code_amo, code_order, code_size, code_vl, bit_one]
    try rfl
theorem Decoding.bne (a b : Reg) (o : BitVec 14) : Decoding.Statement (.bne a b o) := decoding_ofG rfl rfl fun _ => by
    unfold decodeFields
    rw [encI_26, show (0x11 : BitVec 6).toNat = 17 from rfl]
    simp only [encI_20, encI_14, encI_0, code_rm, code_scope, code_amo, code_order, code_size, code_vl, bit_one]
    try rfl
theorem Decoding.blt (a b : Reg) (o : BitVec 14) : Decoding.Statement (.blt a b o) := decoding_ofG rfl rfl fun _ => by
    unfold decodeFields
    rw [encI_26, show (0x12 : BitVec 6).toNat = 18 from rfl]
    simp only [encI_20, encI_14, encI_0, code_rm, code_scope, code_amo, code_order, code_size, code_vl, bit_one]
    try rfl
theorem Decoding.bge (a b : Reg) (o : BitVec 14) : Decoding.Statement (.bge a b o) := decoding_ofG rfl rfl fun _ => by
    unfold decodeFields
    rw [encI_26, show (0x13 : BitVec 6).toNat = 19 from rfl]
    simp only [encI_20, encI_14, encI_0, code_rm, code_scope, code_amo, code_order, code_size, code_vl, bit_one]
    try rfl
theorem Decoding.bltu (a b : Reg) (o : BitVec 14) :
    Decoding.Statement (.bltu a b o) := decoding_ofG rfl rfl fun _ => by
    unfold decodeFields
    rw [encI_26, show (0x14 : BitVec 6).toNat = 20 from rfl]
    simp only [encI_20, encI_14, encI_0, code_rm, code_scope, code_amo, code_order, code_size, code_vl, bit_one]
    try rfl
theorem Decoding.bgeu (a b : Reg) (o : BitVec 14) :
    Decoding.Statement (.bgeu a b o) := decoding_ofG rfl rfl fun _ => by
    unfold decodeFields
    rw [encI_26, show (0x15 : BitVec 6).toNat = 21 from rfl]
    simp only [encI_20, encI_14, encI_0, code_rm, code_scope, code_amo, code_order, code_size, code_vl, bit_one]
    try rfl
theorem Decoding.jal (d : Reg) (i : BitVec 20) : Decoding.Statement (.jal d i) := decoding_ofG rfl rfl fun _ => by
    unfold decodeFields
    rw [encU_26, show (0x16 : BitVec 6).toNat = 22 from rfl]
    simp only [encU_20, encU_0, code_rm, code_scope, code_amo, code_order, code_size, code_vl, bit_one]
    try rfl
theorem Decoding.jalr (d a : Reg) (i : BitVec 14) :
    Decoding.Statement (.jalr d a i) := decoding_ofG rfl rfl fun _ => by
    unfold decodeFields
    rw [encI_26, show (0x17 : BitVec 6).toNat = 23 from rfl]
    simp only [encI_20, encI_14, encI_0, code_rm, code_scope, code_amo, code_order, code_size, code_vl, bit_one]
    try rfl
theorem Decoding.ld (d a : Reg) (z : Size) (o : Order) (x : Bool) (f : BitVec 9) :
    Decoding.Statement (.ld d a z o x f) := decoding_ofG rfl rfl fun _ => by
    unfold decodeFields
    rw [encM_26, show (0x18 : BitVec 6).toNat = 24 from rfl]
    simp only [encM_20, encM_14, encM_12, encM_10, encM_9, encM_0,
      code_rm, code_scope, code_amo, code_order, code_size, code_vl, bit_one]
    try rfl
theorem Decoding.st (d a : Reg) (z : Size) (o : Order) (f : BitVec 9) :
    Decoding.Statement (.st d a z o f) := decoding_ofG rfl rfl fun _ => by
    unfold decodeFields
    rw [encM_26, show (0x19 : BitVec 6).toNat = 25 from rfl]
    simp only [encM_20, encM_14, encM_12, encM_10, encM_9, encM_0,
      code_rm, code_scope, code_amo, code_order, code_size, code_vl, bit_one]
    try rfl
theorem Decoding.amo (d a b : Reg) (p : AmoOp) (s : Scope) (r : Bool) :
    Decoding.Statement (.amo d a b p s r) := decoding_ofG rfl rfl fun _ => by
    unfold decodeFields
    rw [encA_26, show (0x1A : BitVec 6).toNat = 26 from rfl]
    simp only [encA_20, encA_14, encA_8, encA_4, encA_1, encA_0,
      code_rm, code_scope, code_amo, code_order, code_size, code_vl, bit_one]
    try rfl
theorem Decoding.cas (d a b : Reg) (s : Scope) (r : Bool) :
    Decoding.Statement (.cas d a b s r) := decoding_ofG rfl rfl fun _ => by
    unfold decodeFields
    rw [encA_26, show (0x1B : BitVec 6).toNat = 27 from rfl]
    simp only [encA_20, encA_14, encA_8, encA_4, encA_1, encA_0,
      code_rm, code_scope, code_amo, code_order, code_size, code_vl, bit_one]
    try rfl
theorem Decoding.fence (s : Scope) (k : BitVec 5) :
    Decoding.Statement (.fence s k) := decoding_ofG rfl rfl fun _ => by
    unfold decodeFields
    rw [encI_26, show (0x1C : BitVec 6).toNat = 28 from rfl]
    simp only [encI_5, encI_0_5, encI_8, code_rm, code_scope, code_amo, code_order, code_size, code_vl, bit_one]
    try rfl
theorem Decoding.tfence : Decoding.Statement .tfence := decoding_ofG rfl rfl fun _ => by
    unfold decodeFields
    rw [encN_26, show (0x1D : BitVec 6).toNat = 29 from rfl]
    simp only [encN_0, code_rm, code_scope, code_amo, code_order, code_size, code_vl, bit_one]
    try rfl
theorem Decoding.wait (d a b c : Reg) : Decoding.Statement (.wait d a b c) := decoding_ofG rfl rfl fun _ => by
    unfold decodeFields
    rw [encC_26, show (0x1E : BitVec 6).toNat = 30 from rfl]
    simp only [encC_20, encC_14, encC_8, encC_2, encC_0,
      code_rm, code_scope, code_amo, code_order, code_size, code_vl, bit_one]
    try rfl
theorem Decoding.gets (d : Reg) (i : BitVec 14) : Decoding.Statement (.gets d i) := decoding_ofG rfl rfl fun _ => by
    unfold decodeFields
    rw [encI_26, show (0x1F : BitVec 6).toNat = 31 from rfl]
    simp only [encI_20, encI_14, encI_0, code_rm, code_scope, code_amo, code_order, code_size, code_vl, bit_one]
    try rfl
theorem Decoding.sets (a : Reg) (i : BitVec 14) : Decoding.Statement (.sets a i) := decoding_ofG rfl rfl fun _ => by
    unfold decodeFields
    rw [encI_26, show (0x20 : BitVec 6).toNat = 32 from rfl]
    simp only [encI_20, encI_14, encI_0, code_rm, code_scope, code_amo, code_order, code_size, code_vl, bit_one]
    try rfl
theorem Decoding.setvl (d a b : Reg) (w : VlWidth) :
    Decoding.Statement (.setvl d a b w) := decoding_ofG rfl rfl fun _ => by
    unfold decodeFields
    rw [encR_26, show (0x21 : BitVec 6).toNat = 33 from rfl]
    simp only [encR_20, encR_14, encR_8, encR_3, encR_0_3,
      code_rm, code_scope, code_amo, code_order, code_size, code_vl, bit_one]
    try rfl
theorem Decoding.setrows (d a : Reg) (i : BitVec 14) :
    Decoding.Statement (.setrows d a i) := decoding_ofG rfl rfl fun _ => by
    unfold decodeFields
    rw [encI_26, show (0x22 : BitVec 6).toNat = 34 from rfl]
    simp only [encI_20, encI_14, encI_0, code_rm, code_scope, code_amo, code_order, code_size, code_vl, bit_one]
    try rfl
theorem Decoding.vshape (s : Bool) : Decoding.Statement (.vshape s) := decoding_ofG rfl rfl fun _ => by
    cases s <;> rfl
theorem Decoding.emitl (lit : Word) : Decoding.Statement (.emitl lit) := decoding_ofG rfl rfl fun _ => by
    unfold decodeFields
    rw [encN_26, show (0x24 : BitVec 6).toNat = 36 from rfl]
    simp only [encN_0, code_rm, code_scope, code_amo, code_order, code_size, code_vl, bit_one]
    try rfl
theorem Decoding.emitr (a : Reg) : Decoding.Statement (.emitr a) := decoding_ofG rfl rfl fun _ => by
    unfold decodeFields
    rw [encR_26, show (0x25 : BitVec 6).toNat = 37 from rfl]
    simp only [encR_20, encR_14, encR_8, encR_0, encR_tail,
      code_rm, code_scope, code_amo, code_order, code_size, code_vl, bit_one]
    try rfl
theorem Decoding.emitx (c a b : Reg) (sel : BitVec 8) (lit : Word) :
    Decoding.Statement (.emitx c a b sel lit) := decoding_ofG rfl rfl fun _ => by
    unfold decodeFields
    rw [encR_26, show (0x26 : BitVec 6).toNat = 38 from rfl]
    simp only [encR_20, encR_14, encR_8, encR_0,
      code_rm, code_scope, code_amo, code_order, code_size, code_vl, bit_one]
    try rfl
theorem Decoding.emitq (d a : Reg) : Decoding.Statement (.emitq d a) := decoding_ofG rfl rfl fun _ => by
    unfold decodeFields
    rw [encR_26, show (0x27 : BitVec 6).toNat = 39 from rfl]
    simp only [encR_20, encR_14, encR_8, encR_0, encR_tail,
      code_rm, code_scope, code_amo, code_order, code_size, code_vl, bit_one]
    try rfl
theorem Decoding.waitv : Decoding.Statement .waitv := decoding_ofG rfl rfl fun _ => by
    unfold decodeFields
    rw [encN_26, show (0x28 : BitVec 6).toNat = 40 from rfl]
    simp only [encN_0, code_rm, code_scope, code_amo, code_order, code_size, code_vl, bit_one]
    try rfl
theorem Decoding.rqpop (d : Reg) : Decoding.Statement (.rqpop d) := decoding_ofG rfl rfl fun _ => by
    unfold decodeFields
    rw [encR_26, show (0x29 : BitVec 6).toNat = 41 from rfl]
    simp only [encR_20, encR_tail20, code_rm, code_scope, code_amo, code_order, code_size, code_vl, bit_one]
    try rfl
theorem Decoding.fork (d : Reg) : Decoding.Statement (.fork d) := decoding_ofG rfl rfl fun _ => by
    unfold decodeFields
    rw [encR_26, show (0x2A : BitVec 6).toNat = 42 from rfl]
    simp only [encR_20, encR_tail20, code_rm, code_scope, code_amo, code_order, code_size, code_vl, bit_one]
    try rfl
theorem Decoding.join (d a : Reg) : Decoding.Statement (.join d a) := decoding_ofG rfl rfl fun _ => by
    unfold decodeFields
    rw [encR_26, show (0x2B : BitVec 6).toNat = 43 from rfl]
    simp only [encR_20, encR_14, encR_8, encR_0, encR_tail,
      code_rm, code_scope, code_amo, code_order, code_size, code_vl, bit_one]
    try rfl
theorem Decoding.farm (a b : Reg) : Decoding.Statement (.farm a b) := decoding_ofG rfl rfl fun _ => by
    unfold decodeFields
    rw [encR_26, show (0x2C : BitVec 6).toNat = 44 from rfl]
    simp only [encR_20, encR_14, encR_8, encR_0,
      code_rm, code_scope, code_amo, code_order, code_size, code_vl, bit_one]
    try rfl
theorem Decoding.nexts (d a : Reg) : Decoding.Statement (.nexts d a) := decoding_ofG rfl rfl fun _ => by
    unfold decodeFields
    rw [encR_26, show (0x2D : BitVec 6).toNat = 45 from rfl]
    simp only [encR_20, encR_14, encR_8, encR_0, encR_tail,
      code_rm, code_scope, code_amo, code_order, code_size, code_vl, bit_one]
    try rfl
theorem Decoding.bar (s : Scope) : Decoding.Statement (.bar s) := decoding_ofG rfl rfl fun _ => by
    cases s <;> rfl
theorem Decoding.slotq (d : Reg) (k : BitVec 4) : Decoding.Statement (.slotq d k) := decoding_ofG rfl rfl fun _ => by
    unfold decodeFields
    rw [encI_26, show (0x2F : BitVec 6).toNat = 47 from rfl]
    simp only [encI_20, encI_14, encI_4, encI_0_4,
      code_rm, code_scope, code_amo, code_order, code_size, code_vl, bit_one]
    try rfl
theorem Decoding.trap (c : BitVec 20) : Decoding.Statement (.trap c) := decoding_ofG rfl rfl fun _ => by
    unfold decodeFields
    rw [encU_26, show (0x30 : BitVec 6).toNat = 48 from rfl]
    simp only [encU_20, encU_0, code_rm, code_scope, code_amo, code_order, code_size, code_vl, bit_one]
    try rfl
theorem Decoding.halt : Decoding.Statement .halt := decoding_ofG rfl rfl fun _ => by
    unfold decodeFields
    rw [encN_26, show (0x31 : BitVec 6).toNat = 49 from rfl]
    simp only [encN_0, code_rm, code_scope, code_amo, code_order, code_size, code_vl, bit_one]
    try rfl
theorem Decoding.yield : Decoding.Statement .yield := decoding_ofG rfl rfl fun _ => by
    unfold decodeFields
    rw [encN_26, show (0x32 : BitVec 6).toNat = 50 from rfl]
    simp only [encN_0, code_rm, code_scope, code_amo, code_order, code_size, code_vl, bit_one]
    try rfl
theorem Decoding.vadd (w : EFields) : Decoding.Statement (.vadd w) := decoding_ofE rfl rfl (by rfl)
theorem Decoding.vsub (w : EFields) : Decoding.Statement (.vsub w) := decoding_ofE rfl rfl (by rfl)
theorem Decoding.vmul (w : EFields) : Decoding.Statement (.vmul w) := decoding_ofE rfl rfl (by rfl)
theorem Decoding.vmulh (w : EFields) : Decoding.Statement (.vmulh w) := decoding_ofE rfl rfl (by rfl)
theorem Decoding.vdiv (w : EFields) : Decoding.Statement (.vdiv w) := decoding_ofE rfl rfl (by rfl)
theorem Decoding.vrem (w : EFields) : Decoding.Statement (.vrem w) := decoding_ofE rfl rfl (by rfl)
theorem Decoding.vmin (w : EFields) : Decoding.Statement (.vmin w) := decoding_ofE rfl rfl (by rfl)
theorem Decoding.vmax (w : EFields) : Decoding.Statement (.vmax w) := decoding_ofE rfl rfl (by rfl)
theorem Decoding.vabs (w : EFields) : Decoding.Statement (.vabs w) := decoding_ofE rfl rfl (by rfl)
theorem Decoding.vneg (w : EFields) : Decoding.Statement (.vneg w) := decoding_ofE rfl rfl (by rfl)
theorem Decoding.vand (w : EFields) : Decoding.Statement (.vand w) := decoding_ofE rfl rfl (by rfl)
theorem Decoding.vor (w : EFields) : Decoding.Statement (.vor w) := decoding_ofE rfl rfl (by rfl)
theorem Decoding.vxor (w : EFields) : Decoding.Statement (.vxor w) := decoding_ofE rfl rfl (by rfl)
theorem Decoding.vnot (w : EFields) : Decoding.Statement (.vnot w) := decoding_ofE rfl rfl (by rfl)
theorem Decoding.vshl (w : EFields) : Decoding.Statement (.vshl w) := decoding_ofE rfl rfl (by rfl)
theorem Decoding.vshr (w : EFields) : Decoding.Statement (.vshr w) := decoding_ofE rfl rfl (by rfl)
theorem Decoding.vsqrt (w : EFields) : Decoding.Statement (.vsqrt w) := decoding_ofE rfl rfl (by rfl)
theorem Decoding.vexp2 (w : EFields) : Decoding.Statement (.vexp2 w) := decoding_ofE rfl rfl (by rfl)
theorem Decoding.vlog2 (w : EFields) : Decoding.Statement (.vlog2 w) := decoding_ofE rfl rfl (by rfl)
theorem Decoding.vrsq (w : EFields) : Decoding.Statement (.vrsq w) := decoding_ofE rfl rfl (by rfl)
theorem Decoding.vrcp (w : EFields) : Decoding.Statement (.vrcp w) := decoding_ofE rfl rfl (by rfl)
theorem Decoding.vmac (w : EFields) : Decoding.Statement (.vmac w) := decoding_ofE rfl rfl (by rfl)
theorem Decoding.vnmac (w : EFields) : Decoding.Statement (.vnmac w) := decoding_ofE rfl rfl (by rfl)
theorem Decoding.vcmpEq (w : EFields) : Decoding.Statement (.vcmpEq w) := decoding_ofE rfl rfl (by rfl)
theorem Decoding.vcmpNe (w : EFields) : Decoding.Statement (.vcmpNe w) := decoding_ofE rfl rfl (by rfl)
theorem Decoding.vcmpLt (w : EFields) : Decoding.Statement (.vcmpLt w) := decoding_ofE rfl rfl (by rfl)
theorem Decoding.vcmpLe (w : EFields) : Decoding.Statement (.vcmpLe w) := decoding_ofE rfl rfl (by rfl)
theorem Decoding.vcmpGt (w : EFields) : Decoding.Statement (.vcmpGt w) := decoding_ofE rfl rfl (by rfl)
theorem Decoding.vcmpGe (w : EFields) : Decoding.Statement (.vcmpGe w) := decoding_ofE rfl rfl (by rfl)
theorem Decoding.vcmpUnord (w : EFields) : Decoding.Statement (.vcmpUnord w) := decoding_ofE rfl rfl (by rfl)
theorem Decoding.vsel (w : EFields) : Decoding.Statement (.vsel w) := decoding_ofE rfl rfl (by rfl)
theorem Decoding.vcvtCvt (w : EFields) : Decoding.Statement (.vcvtCvt w) := decoding_ofE rfl rfl (by rfl)
theorem Decoding.vcvtRes (w : EFields) : Decoding.Statement (.vcvtRes w) := decoding_ofE rfl rfl (by rfl)
theorem Decoding.vcvtCrt (w : EFields) : Decoding.Statement (.vcvtCrt w) := decoding_ofE rfl rfl (by rfl)
theorem Decoding.slideup (w : EFields) : Decoding.Statement (.slideup w) := decoding_ofE rfl rfl (by rfl)
theorem Decoding.slidedn (w : EFields) : Decoding.Statement (.slidedn w) := decoding_ofE rfl rfl (by rfl)
theorem Decoding.slide1up (w : EFields) : Decoding.Statement (.slide1up w) := decoding_ofE rfl rfl (by rfl)
theorem Decoding.slide1dn (w : EFields) : Decoding.Statement (.slide1dn w) := decoding_ofE rfl rfl (by rfl)
theorem Decoding.gatherv (w : EFields) : Decoding.Statement (.gatherv w) := decoding_ofE rfl rfl (by rfl)
theorem Decoding.compress (w : EFields) : Decoding.Statement (.compress w) := decoding_ofE rfl rfl (by rfl)
theorem Decoding.bcast (w : EFields) : Decoding.Statement (.bcast w) := decoding_ofE rfl rfl (by rfl)
theorem Decoding.index (w : EFields) : Decoding.Statement (.index w) := decoding_ofE rfl rfl (by rfl)
theorem Decoding.vmv (w : EFields) : Decoding.Statement (.vmv w) := decoding_ofE rfl rfl (by rfl)
theorem Decoding.extract (w : EFields) : Decoding.Statement (.extract w) := decoding_ofE rfl rfl (by rfl)
theorem Decoding.vredSum (w : EFields) : Decoding.Statement (.vredSum w) := decoding_ofE rfl rfl (by rfl)
theorem Decoding.vredSumu (w : EFields) : Decoding.Statement (.vredSumu w) := decoding_ofE rfl rfl (by rfl)
theorem Decoding.vredMax (w : EFields) : Decoding.Statement (.vredMax w) := decoding_ofE rfl rfl (by rfl)
theorem Decoding.vredMin (w : EFields) : Decoding.Statement (.vredMin w) := decoding_ofE rfl rfl (by rfl)
theorem Decoding.vredAnd (w : EFields) : Decoding.Statement (.vredAnd w) := decoding_ofE rfl rfl (by rfl)
theorem Decoding.vredOr (w : EFields) : Decoding.Statement (.vredOr w) := decoding_ofE rfl rfl (by rfl)
theorem Decoding.vredXor (w : EFields) : Decoding.Statement (.vredXor w) := decoding_ofE rfl rfl (by rfl)
theorem Decoding.mand (w : EFields) : Decoding.Statement (.mand w) := decoding_ofE rfl rfl (by rfl)
theorem Decoding.mor (w : EFields) : Decoding.Statement (.mor w) := decoding_ofE rfl rfl (by rfl)
theorem Decoding.mxor (w : EFields) : Decoding.Statement (.mxor w) := decoding_ofE rfl rfl (by rfl)
theorem Decoding.mandn (w : EFields) : Decoding.Statement (.mandn w) := decoding_ofE rfl rfl (by rfl)
theorem Decoding.mnot (w : EFields) : Decoding.Statement (.mnot w) := decoding_ofE rfl rfl (by rfl)
theorem Decoding.mpopc (w : EFields) : Decoding.Statement (.mpopc w) := decoding_ofE rfl rfl (by rfl)
theorem Decoding.mfirst (w : EFields) : Decoding.Statement (.mfirst w) := decoding_ofE rfl rfl (by rfl)
theorem Decoding.mset (w : EFields) : Decoding.Statement (.mset w) := decoding_ofE rfl rfl (by rfl)
theorem Decoding.vtype (w : EFields) : Decoding.Statement (.vtype w) := decoding_ofE rfl rfl (by rfl)
theorem Decoding.vld (w : EFields) (f : AddrForm) (s : Space) (t : LdTarget) :
    Decoding.Statement (.vld w f s t) := decoding_ofE rfl rfl (by cases s <;> cases f <;> cases t <;> rfl)
theorem Decoding.vst (w : EFields) (ordered : Bool) (f : AddrForm) (s : Space) :
    Decoding.Statement (.vst w ordered f s) := decoding_ofE rfl rfl (by cases s <;> cases f <;> rfl)
theorem Decoding.vamo (w : EFields) (p : AmoOp) (s : Scope) :
    Decoding.Statement (.vamo w p s) := decoding_ofE rfl rfl (by cases s <;> cases p <;> rfl)
theorem Decoding.vfence (w : EFields) : Decoding.Statement (.vfence w) := decoding_ofE rfl rfl (by rfl)
theorem Decoding.mopa (w : EFields) : Decoding.Statement (.mopa w) := decoding_ofE rfl rfl (by rfl)
theorem Decoding.mopm (w : EFields) : Decoding.Statement (.mopm w) := decoding_ofE rfl rfl (by rfl)
theorem Decoding.mzero (w : EFields) : Decoding.Statement (.mzero w) := decoding_ofE rfl rfl (by rfl)
theorem Decoding.mcvt (w : EFields) : Decoding.Statement (.mcvt w) := decoding_ofE rfl rfl (by rfl)
theorem Decoding.mrowR (w : EFields) : Decoding.Statement (.mrowR w) := decoding_ofE rfl rfl (by rfl)
theorem Decoding.mrowW (w : EFields) : Decoding.Statement (.mrowW w) := decoding_ofE rfl rfl (by rfl)
theorem Decoding.mbf (w : EFields) : Decoding.Statement (.mbf w) := decoding_ofE rfl rfl (by rfl)
theorem Decoding.cpy (w : EFields) : Decoding.Statement (.cpy w) := decoding_ofE rfl rfl (by rfl)
theorem Decoding.tready (w : EFields) : Decoding.Statement (.tready w) := decoding_ofE rfl rfl (by rfl)
theorem Decoding.tempty (w : EFields) : Decoding.Statement (.tempty w) := decoding_ofE rfl rfl (by rfl)
theorem Decoding.twait (w : EFields) : Decoding.Statement (.twait w) := decoding_ofE rfl rfl (by rfl)
theorem Decoding.tquery (w : EFields) : Decoding.Statement (.tquery w) := decoding_ofE rfl rfl (by rfl)
theorem Decoding.collReduceScatter (w : EFields) :
    Decoding.Statement (.collReduceScatter w) := decoding_ofE rfl rfl (by rfl)
theorem Decoding.collAllGather (w : EFields) : Decoding.Statement (.collAllGather w) := decoding_ofE rfl rfl (by rfl)
theorem Decoding.collAllReduce (w : EFields) : Decoding.Statement (.collAllReduce w) := decoding_ofE rfl rfl (by rfl)
theorem Decoding.collKvRotation (w : EFields) :
    Decoding.Statement (.collKvRotation w) := decoding_ofE rfl rfl (by rfl)
theorem Decoding.convoyEnter (hid : Nat) : Decoding.Statement (.convoyEnter hid) := decoding_ofEvent rfl rfl
theorem Decoding.elementProgressTimeout (hid : Nat) (bank : BitVec 4) (hbm : Bool) :
    Decoding.Statement (.elementProgressTimeout hid bank hbm) := decoding_ofEvent rfl rfl
theorem Decoding.laneClusterGate (core lc : Nat) :
    Decoding.Statement (.laneClusterGate core lc) := decoding_ofEvent rfl rfl
theorem Decoding.laneClusterWake (core lc : Nat) :
    Decoding.Statement (.laneClusterWake core lc) := decoding_ofEvent rfl rfl
theorem Decoding.laneLoanStart (core lc borrower : Nat) :
    Decoding.Statement (.laneLoanStart core lc borrower) := decoding_ofEvent rfl rfl
theorem Decoding.tileClaim (hid : Nat) : Decoding.Statement (.tileClaim hid) := decoding_ofEvent rfl rfl
theorem Decoding.cpyRowComplete (hid : Nat) : Decoding.Statement (.cpyRowComplete hid) := decoding_ofEvent rfl rfl
theorem Decoding.nosplitJudge (hid : Nat) : Decoding.Statement (.nosplitJudge hid) := decoding_ofEvent rfl rfl
theorem Decoding.ctrlRun (ag : Agent) (hid : Nat) : Decoding.Statement (.ctrlRun ag hid) := decoding_ofEvent rfl rfl
theorem Decoding.ctrlStopDrain (ag : Agent) (hid : Nat) :
    Decoding.Statement (.ctrlStopDrain ag hid) := decoding_ofEvent rfl rfl
theorem Decoding.ctrlStopFreeze (ag : Agent) (hid : Nat) :
    Decoding.Statement (.ctrlStopFreeze ag hid) := decoding_ofEvent rfl rfl
theorem Decoding.ctrlIdle (ag : Agent) (hid : Nat) : Decoding.Statement (.ctrlIdle ag hid) := decoding_ofEvent rfl rfl
theorem Decoding.stopDrainComplete (hid : Nat) :
    Decoding.Statement (.stopDrainComplete hid) := decoding_ofEvent rfl rfl
theorem Decoding.stopFreezeComplete (hid : Nat) :
    Decoding.Statement (.stopFreezeComplete hid) := decoding_ofEvent rfl rfl
theorem Decoding.stopDrainCountExpiry (hid : Nat) :
    Decoding.Statement (.stopDrainCountExpiry hid) := decoding_ofEvent rfl rfl
theorem Decoding.queueImageWrite (ag : Agent) (hid n off : Nat) (v : Word) :
    Decoding.Statement (.queueImageWrite ag hid n off v) := decoding_ofEvent rfl rfl
theorem Decoding.shapeWrite (ag : Agent) (hid : Nat) (v : Word) :
    Decoding.Statement (.shapeWrite ag hid v) := decoding_ofEvent rfl rfl
theorem Decoding.save (hid : Nat) : Decoding.Statement (.save hid) := decoding_ofEvent rfl rfl
theorem Decoding.saveAll (hid : Nat) : Decoding.Statement (.saveAll hid) := decoding_ofEvent rfl rfl
theorem Decoding.restoreScalar (hid : Nat) : Decoding.Statement (.restoreScalar hid) := decoding_ofEvent rfl rfl
theorem Decoding.restoreVector (hid : Nat) : Decoding.Statement (.restoreVector hid) := decoding_ofEvent rfl rfl
theorem Decoding.restoreAll (hid : Nat) : Decoding.Statement (.restoreAll hid) := decoding_ofEvent rfl rfl
theorem Decoding.savecmdComplete (hid : Nat) : Decoding.Statement (.savecmdComplete hid) := decoding_ofEvent rfl rfl
theorem Decoding.reclaimRequest (ag : Agent) (hid : Nat) (v : Word) :
    Decoding.Statement (.reclaimRequest ag hid v) := decoding_ofEvent rfl rfl
theorem Decoding.frameWindowWrite (ag : Agent) (hid off : Nat) (v : Word) :
    Decoding.Statement (.frameWindowWrite ag hid off v) := decoding_ofEvent rfl rfl
theorem Decoding.controlRegisterWrite (ag : Agent) (pa : Nat) (v : Word) :
    Decoding.Statement (.controlRegisterWrite ag pa v) := decoding_ofEvent rfl rfl
theorem Decoding.tshoot (ag : Agent) (vi : Nat) : Decoding.Statement (.tshoot ag vi) := decoding_ofEvent rfl rfl
theorem Decoding.rangeRegisterWrite (ag : Agent) (vi n dw : Nat) (v : Word) :
    Decoding.Statement (.rangeRegisterWrite ag vi n dw v) := decoding_ofEvent rfl rfl
theorem Decoding.queueCtlWrite (ag : Agent) (vi q : Nat) (v : Word) :
    Decoding.Statement (.queueCtlWrite ag vi q v) := decoding_ofEvent rfl rfl
theorem Decoding.tailWrite (ag : Agent) (vi q : Nat) (v : Word) :
    Decoding.Statement (.tailWrite ag vi q v) := decoding_ofEvent rfl rfl
theorem Decoding.templateWrite (ag : Agent) (vi q w : Nat) (limit : Bool) (v : Word) :
    Decoding.Statement (.templateWrite ag vi q w limit v) := decoding_ofEvent rfl rfl
theorem Decoding.priocapWrite (ag : Agent) (vi q : Nat) (v : Word) :
    Decoding.Statement (.priocapWrite ag vi q v) := decoding_ofEvent rfl rfl
theorem Decoding.slotScan (vi q : Nat) : Decoding.Statement (.slotScan vi q) := decoding_ofEvent rfl rfl
theorem Decoding.scanReread (vi q : Nat) : Decoding.Statement (.scanReread vi q) := decoding_ofEvent rfl rfl
theorem Decoding.packetDispatch (start : Nat) : Decoding.Statement (.packetDispatch start) := decoding_ofEvent rfl rfl
theorem Decoding.dependenceCheck (vi q slot : Nat) :
    Decoding.Statement (.dependenceCheck vi q slot) := decoding_ofEvent rfl rfl
theorem Decoding.stateWordRecheck (vi q slot : Nat) :
    Decoding.Statement (.stateWordRecheck vi q slot) := decoding_ofEvent rfl rfl
theorem Decoding.launchCommand (team cluster : Nat) :
    Decoding.Statement (.launchCommand team cluster) := decoding_ofEvent rfl rfl
theorem Decoding.packetComplete (team : Nat) : Decoding.Statement (.packetComplete team) := decoding_ofEvent rfl rfl
theorem Decoding.leafReport (cluster : Nat) : Decoding.Statement (.leafReport cluster) := decoding_ofEvent rfl rfl
theorem Decoding.localFaultRecord (cluster : Nat) (f : LocalFault) :
    Decoding.Statement (.localFaultRecord cluster f) := decoding_ofEvent rfl rfl
theorem Decoding.heartbeatTimeout (w : Watched) : Decoding.Statement (.heartbeatTimeout w) := decoding_ofEvent rfl rfl
theorem Decoding.crucibleHang (core : Nat) : Decoding.Statement (.crucibleHang core) := decoding_ofEvent rfl rfl
theorem Decoding.barrierComplete (hid : Nat) : Decoding.Statement (.barrierComplete hid) := decoding_ofEvent rfl rfl
theorem Decoding.waitWake (hid : Nat) : Decoding.Statement (.waitWake hid) := decoding_ofEvent rfl rfl
theorem Decoding.waitTimeout (hid : Nat) : Decoding.Statement (.waitTimeout hid) := decoding_ofEvent rfl rfl
theorem Decoding.writeCombineDrain (hid : Nat) :
    Decoding.Statement (.writeCombineDrain hid) := decoding_ofEvent rfl rfl
theorem Decoding.annealSlotStart : Decoding.Statement .annealSlotStart := decoding_ofEvent rfl rfl
theorem Decoding.annealSlotEnd (late : Nat) : Decoding.Statement (.annealSlotEnd late) := decoding_ofEvent rfl rfl
theorem Decoding.calendarPublish (add : List Slot) :
    Decoding.Statement (.calendarPublish add) := decoding_ofEvent rfl rfl
theorem Decoding.tokenRefill : Decoding.Statement .tokenRefill := decoding_ofEvent rfl rfl
theorem Decoding.ingotTrade (link : Nat) (m : CtlMsg) :
    Decoding.Statement (.ingotTrade link m) := decoding_ofEvent rfl rfl
theorem Decoding.clkdieSelect (ag : Agent) (v : Word) :
    Decoding.Statement (.clkdieSelect ag v) := decoding_ofEvent rfl rfl
theorem Decoding.create (f : Nat) : Decoding.Statement (.create f) := decoding_ofEvent rfl rfl
theorem Decoding.measure (f : Nat) : Decoding.Statement (.measure f) := decoding_ofEvent rfl rfl
theorem Decoding.finalize (f : Nat) : Decoding.Statement (.finalize f) := decoding_ofEvent rfl rfl
theorem Decoding.destroy (f : Nat) : Decoding.Statement (.destroy f) := decoding_ofEvent rfl rfl
theorem Decoding.assign (f : Nat) : Decoding.Statement (.assign f) := decoding_ofEvent rfl rfl
theorem Decoding.release (f : Nat) : Decoding.Statement (.release f) := decoding_ofEvent rfl rfl
theorem Decoding.generate (k : Nat) : Decoding.Statement (.generate k) := decoding_ofEvent rfl rfl
theorem Decoding.revoke (k : Nat) : Decoding.Statement (.revoke k) := decoding_ofEvent rfl rfl
theorem Decoding.debugUnlock : Decoding.Statement .debugUnlock := decoding_ofEvent rfl rfl
theorem Decoding.lifeCycle : Decoding.Statement .lifeCycle := decoding_ofEvent rfl rfl
theorem Decoding.attest : Decoding.Statement .attest := decoding_ofEvent rfl rfl
theorem Decoding.rungQueue (target : Nat) : Decoding.Statement (.rungQueue target) := decoding_ofEvent rfl rfl
theorem Decoding.rungEngine (target : Nat) : Decoding.Statement (.rungEngine target) := decoding_ofEvent rfl rfl
theorem Decoding.rungPartition (vi : Nat) : Decoding.Statement (.rungPartition vi) := decoding_ofEvent rfl rfl
theorem Decoding.rungDie (die : Nat) : Decoding.Statement (.rungDie die) := decoding_ofEvent rfl rfl
theorem Decoding.rungFunctionLevel (fn : Nat) : Decoding.Statement (.rungFunctionLevel fn) := decoding_ofEvent rfl rfl
theorem Decoding.rungWholeDevice : Decoding.Statement .rungWholeDevice := decoding_ofEvent rfl rfl
theorem Decoding.perst : Decoding.Statement .perst := decoding_ofEvent rfl rfl
theorem Decoding.functionLevelReset (fn : Nat) :
    Decoding.Statement (.functionLevelReset fn) := decoding_ofEvent rfl rfl
theorem Decoding.hallmarkFlush : Decoding.Statement .hallmarkFlush := decoding_ofEvent rfl rfl
theorem Decoding.l2Error (cluster pa : Nat) (k : EccKind) :
    Decoding.Statement (.l2Error cluster pa k) := decoding_ofEvent rfl rfl
theorem Decoding.hbmError (die pa : Nat) (double : Bool) :
    Decoding.Statement (.hbmError die pa double) := decoding_ofEvent rfl rfl
theorem Decoding.pageMigration (page die frame : Nat) :
    Decoding.Statement (.pageMigration page die frame) := decoding_ofEvent rfl rfl
theorem Decoding.hostMemoryWrite (vi via : Nat) (bytes : List Byte) :
    Decoding.Statement (.hostMemoryWrite vi via bytes) := decoding_ofEvent rfl rfl
theorem Decoding.flitData (link : Nat) (h : FlitHdr) (seg : Segment) :
    Decoding.Statement (.flitData link h seg) := decoding_ofEvent rfl rfl
theorem Decoding.flitAck (link : Nat) (h : FlitHdr) (ack : AckOf) :
    Decoding.Statement (.flitAck link h ack) := decoding_ofEvent rfl rfl
theorem Decoding.flitNak (link : Nat) (h : FlitHdr) (seq : Nat) :
    Decoding.Statement (.flitNak link h seq) := decoding_ofEvent rfl rfl
theorem Decoding.flitKeyMarker (link : Nat) (h : FlitHdr) (slot : Bool) :
    Decoding.Statement (.flitKeyMarker link h slot) := decoding_ofEvent rfl rfl
theorem Decoding.flitControl (link : Nat) (h : FlitHdr) (m : CtlMsg) :
    Decoding.Statement (.flitControl link h m) := decoding_ofEvent rfl rfl
theorem Decoding.flitIdle (link : Nat) (h : FlitHdr) :
    Decoding.Statement (.flitIdle link h) := decoding_ofEvent rfl rfl
theorem Decoding.keyRetireCount (link : Nat) : Decoding.Statement (.keyRetireCount link) := decoding_ofEvent rfl rfl
theorem Decoding.linkSilenceTimeout (link : Nat) :
    Decoding.Statement (.linkSilenceTimeout link) := decoding_ofEvent rfl rfl
theorem Decoding.abortSegment (hub : Nat) (seg : Segment) :
    Decoding.Statement (.abortSegment hub seg) := decoding_ofEvent rfl rfl
theorem Decoding.groupEntryWrite (ag : Agent) (hub g dw : Nat) (v : Word) :
    Decoding.Statement (.groupEntryWrite ag hub g dw v) := decoding_ofEvent rfl rfl
theorem Decoding.lossOfLock (link : Nat) : Decoding.Statement (.lossOfLock link) := decoding_ofEvent rfl rfl
theorem Decoding.translationDropped (x : XlatChange) : Decoding.Statement (.translationDropped x) := decoding_ofEvent rfl rfl
theorem Decoding.hostWindowWaitRead (hid : Nat) :
    Decoding.Statement (.hostWindowWaitRead hid) := decoding_ofEvent rfl rfl
theorem Decoding.loanDebit (core lc : Nat) : Decoding.Statement (.loanDebit core lc) := decoding_ofEvent rfl rfl
theorem Decoding.rackCoordinatorGrant (n : Nat) :
    Decoding.Statement (.rackCoordinatorGrant n) := decoding_ofEvent rfl rfl
theorem Decoding.throttling (die clk : Nat) : Decoding.Statement (.throttling die clk) := decoding_ofEvent rfl rfl
theorem Decoding.leafControllerRestart (cluster : Nat) (ok : Bool) :
    Decoding.Statement (.leafControllerRestart cluster ok) := decoding_ofEvent rfl rfl
theorem Decoding.commandLinkAcknowledge (cluster : Nat) (down : Bool) :
    Decoding.Statement (.commandLinkAcknowledge cluster down) := decoding_ofEvent rfl rfl
theorem Decoding.lossOfPower : Decoding.Statement .lossOfPower := decoding_ofEvent rfl rfl

end Sys2Proof.Laws
end

