-- ==== Sys2Proof/Safety.lean ====
section
/-! DEFINITION. What counts as a safe run: the machine keeps its invariants, a hart raises no trap, and a step always
has a next state. -/

namespace Sys2Proof.Safety

open Sys2Proof.Machine

/-- Memory is in its canonical form: equal memories are equal data. -/
def MemoryCanonical (s : State) : Prop := s.mem.wf = true

/-- The hard-wired register s0 reads zero in every hart (R13). -/
def ZeroRegister (s : State) : Prop := ∀ hid, rd (hartAt s hid) 0 = 0

/-- A hart has taken no trap that its handler has not answered (R191). -/
def NotTrapped (s : State) (hid : Nat) : Prop := (hartAt s hid).ctl ≠ .trapped

/-- The step answers a next state: neither a fault of the model nor a refusal. -/
def Progresses (s : State) : Prop := ∃ t, step s = .next t

/-- A hart's address space is closed to another: no valid window of the first contains the page (R302). -/
def NoWindow (s : State) (hid page : Nat) : Prop :=
  ∀ w ∈ (hartAt s hid).windows.toList, windowAllows w page 0 = false

/-! ### What statements say of a step -/

/-- Of the whole machine, only the scalar registers and the PC of the current hart may differ. -/
def OnlyScalars (s t : State) : Prop :=
  t = setCur s { curHart s with sregs := (curHart t).sregs, pc := (curHart t).pc, stalled := false }

/-- The current hart's register d holds v, every other register what it held; s0 takes no value (R13). -/
def WritesReg (s t : State) (d : Reg) (v : Word) : Prop :=
  ∀ r, rd (curHart t) r = if r = d ∧ d ≠ 0 then v else rd (curHart s) r

/-- Every scalar register of the current hart holds what it held. -/
def KeepsRegs (s t : State) : Prop := ∀ r, rd (curHart t) r = rd (curHart s) r

/-- Every byte of memory reads as before, for a reader under any key epoch, through the caches of the device or past them. -/
def SameBytes (s t : State) : Prop :=
  ∀ epoch a, viewByte t.mem epoch a = viewByte s.mem epoch a ∧ devByte t.mem epoch a = devByte s.mem epoch a

/-- The current hart's PC is n bytes on. -/
def NextPc (s t : State) (n : Nat) : Prop := (curHart t).pc = (curHart s).pc + BitVec.ofNat 64 n

/-- A G-word that computes one register and changes nothing else. -/
def Computes (i : Instr) (d : Reg) (v : State → Word) : Prop :=
  ∀ s, ∃ t, exec i s = .next t ∧ OnlyScalars s t ∧ NextPc s t 4 ∧ WritesReg s t d (v s) ∧ SameBytes s t

/-- The register a of the current hart. -/
def reg (s : State) (a : Reg) : Word := rd (curHart s) a

/-- Hart hid has taken a G-level trap of a class and code with an address (R189, R191): its record, its control word, its
count, its PC and registers, and every other hart as it was. -/
def TakesTrap (s t : State) (hid cls code : Nat) (addr : Word) : Prop :=
  (hartAt t hid).ctl = .trapped ∧
  field (hartAt t hid).trapRec.cause 20 8 = cls ∧ field (hartAt t hid).trapRec.cause 0 20 = code ∧
  (hartAt t hid).trapRec.cause.getLsbD 28 = false ∧
  (hartAt t hid).trapRec.gpc = (hartAt s hid).pc ∧ (hartAt t hid).trapRec.addr = addr ∧
  (hartAt t hid).trapCount = (hartAt s hid).trapCount + 1 ∧
  (hartAt t hid).trapRec.sinkSeq = (hartAt s hid).trapCount + 1 ∧
  (hartAt t hid).pc = (hartAt s hid).pc ∧ (∀ r, rd (hartAt t hid) r = rd (hartAt s hid) r) ∧
  ∀ k, k ≠ hid → hartAt t k = hartAt s k

/-- The current hart's G-word waits: it has not executed, PC stays at it, and no register is written (R119). -/
def WaitsAt (s t : State) : Prop :=
  (curHart t).stalled = true ∧ (curHart t).pc = (curHart s).pc ∧ KeepsRegs s t

/-! ### What statements say of an E-word -/

/-- The E-word i, of class c and fields w, is the only entry e of the current hart's queue, the queue issues (R206), no cession waits
for it (R263), and the turn commits every position that it can. -/
def Alone (s : State) (i : Instr) (c : EClass) (w : EFields) (e : Entry) : Prop :=
  (curHart s).queue = [e] ∧ decodeE e.word = .ok i ∧ eClass i = some (c, w) ∧ issuing (curHart s) = true ∧
  e.complete = false ∧ s.laneLimit = none ∧ (curHart s).reclaim.after = none

/-- The return queue of the current hart has room for what a word of class c in entry e pushes (R123). -/
def RoomFor (s : State) (c : EClass) (e : Entry) : Prop :=
  rqPushes c e.rows.toNat = 0 ∨ (curHart s).rq.length + rqPushes c e.rows.toNat ≤ 16

/-- An E-word e of the current hart, whose other effects b has, completes (R30, R31, R123, R200): it leaves the queue, its flags reach
VXSR, its entries the return queue, the progress registers (but not those of a fault still to be resumed from, log 12) and the timer read 0,
and the queue image that it read is held no longer (R201). -/
def Completes (b t : State) (e : Entry) (flags : Flags) (push : List Word) : Prop :=
  let h := curHart b
  t = setCur b { h with
    queue := [], inWindow := false, vxsr := h.vxsr ||| flags, rq := h.rq ++ push
    vstart := if h.qStopped then h.vstart else 0
    rstate := if h.qStopped then h.rstate else 0
    kprog := if h.qStopped then h.kprog else 0
    images := h.images.filter fun x => x.reader != e.seq.toNat + 1
    timer := 0, stalled := false }

/-- An E-word that has read and written only vector and mask registers of its hart completes; nothing else of the machine changes but
that its convoy has been in the issue window (R206, R212). -/
def CompletesInLanes (s t : State) (e : Entry) (flags : Flags) (push : List Word) : Prop :=
  Completes (setCur (enterWindow s s.cur) { curHart s with vregs := (curHart t).vregs, masks := (curHart t).masks }) t e flags push

/-- The E-word stays in the queue, and has read and written nothing. -/
def StaysQueued (s t : State) (e : Entry) : Prop :=
  let h := curHart s
  let g := curHart t
  g.queue = [e] ∧ t.mem = s.mem ∧ g.vregs = h.vregs ∧ g.masks = h.masks ∧ g.rq = h.rq ∧ g.vxsr = h.vxsr ∧
  g.sregs = h.sregs ∧ g.pc = h.pc ∧ g.ctl = h.ctl

/-- Element k of a width of vector register n. -/
def elem (h : Hart) (shape : Bool) (n width k : Nat) : Nat := bitsAt (vreg h shape n) (k * width) width

/-! ### What statements say of events -/

/-- One record has been written to the error log, counted in SUMMARY, and told to the host (R373, R375). -/
def Records (s t : State) (kind sev site die clu core unit : Nat) (detail : Word) : Prop :=
  t.errlog.written = s.errlog.written + 1 ∧
  fmGet t.errlog.recs ⟨0, 0, 0, 0⟩ (s.errlog.written % 1024) =
    ⟨s.errlog.written, s.pt, errClass kind sev site die clu core unit, detail⟩ ∧
  t.errlog.sev0 = (if sev = 0 then min (s.errlog.sev0 + 1) (2 ^ 32 - 1) else s.errlog.sev0) ∧
  t.errlog.sev1 = (if sev = 1 then min (s.errlog.sev1 + 1) (2 ^ 16 - 1) else s.errlog.sev1) ∧
  t.errlog.fatal = (s.errlog.fatal || sev == 2) ∧
  t.msix = s.msix ++ (if sev = 1 then [(0, 0)] else []) ∧ t.aer = s.aer ++ (if sev = 2 then [⟨0, true⟩] else [])

/-- Fewer than 1,000 records of the rate-limited kinds have been written for a cluster in this second (R374). -/
def Unlimited (s : State) (cl : Nat) : Prop :=
  (fmGet s.errlog.limited (0, 0) cl).1 = s.pt / 1000000000 → (fmGet s.errlog.limited (0, 0) cl).2 < 1000

/-- Only the error log and its messages to the host have changed. -/
def OnlyLogged (s t : State) : Prop := t = { s with errlog := t.errlog, msix := t.msix, aer := t.aer }

/-! ### What statements say of links -/

/-- A link that sends at once what it is given: it is up and does not stall, nothing waits, the retry buffer has room for two flits,
and neither key is near its last value (R384, R385). -/
def FreeLink (s : State) (l : Nat) : Prop :=
  let k := linkAt s l
  k.state = 2 ∧ retraining s l = false ∧ k.backlog = [] ∧ k.markerDue = false ∧ k.retry.length + 2 ≤ retryRoom ∧
    ∀ b, k.count b + 2 * retryRoom < retireCount

/-- A flit has left over a link: it has taken the next SEQ, the next count of the key in use, and a place in the retry buffer
(R382, R383, R385). -/
def sentFlit (s : State) (l : Nat) (b : FlitBody) : State :=
  let k := linkAt s l
  let n := k.count k.tks
  let x : Link := { k with sendSeq := (k.sendSeq + 1) % 2 ^ 48, retry := k.retry ++ [⟨k.sendSeq, k.tks, b⟩] }
  { setLink s l (x.setCount k.tks (n + 1)) with
    outbox := s.outbox ++ [⟨l, k.sendSeq, k.tks, n, b⟩] }

end Sys2Proof.Safety
end

