-- ==== Sys2Proof/Certificates/Slice0/Obligations.lean ====
section
/-! DEFINITION. The statements for the provers. -/

open Sys2Proof Sys2Proof.Machine Sys2Proof.Safety

/-! ### Encoding -/

/-- Words written out from the encoding tables decode to the instructions they stand for (R63, R66 to R68, R72, and the words
listed after R119). -/
def Obligations.SampleWordsDecode : Prop :=
  decodeG 0x24900040#32 0 = .ok (.lui 9 0x40) ∧
  decodeG 0x20926020#32 0 = .ok (.sari 9 9 32) ∧
  decodeG 0x3461480C#32 0 = .ok (.ext 6 5 8 3) ∧
  decodeG 0x38718027#32 0 = .ok (.fcvtW 7 6 .rtz) ∧
  decodeG 0x3C41461C#32 0 = .ok (.fma 4 5 6 7) ∧
  decodeG 0x5C0FC000#32 0 = .ok (.jalr 0 63 0) ∧
  decodeG 0x60D53400#32 0 = .ok (.ld 13 20 .d .sync false 0) ∧
  decodeG 0x64F57801#32 0 = .ok (.st 15 21 .d .nt 1) ∧
  decodeG 0x68928878#32 0 = .ok (.amo 9 10 8 .maxu .package false) ∧
  decodeG 0x6C528605#32 0 = .ok (.cas 5 10 6 .cluster true) ∧
  decodeG 0x70000087#32 0 = .ok (.fence .package 7) ∧
  decodeG 0x7895165C#32 0 = .ok (.wait 9 20 22 23) ∧
  decodeG 0x84510003#32 0 = .ok (.setvl 5 4 0 .e32) ∧
  decodeG 0xC8000000#32 0 = .ok .yield

/-- Decoding undoes encoding for every well-formed G-word: its bytes, with the literal where it has one, at the head of any bytes
decode to it, and leave the bytes after it (R12, R63, R65). -/
def Obligations.GWordsRoundTrip : Prop :=
  ∀ (i : Instr) (rest : List Byte), i.wf = true → (encodeG i).isSome = true →
    decodeBytes ((encode i).flatMap bytes32 ++ rest) = .ok (i, rest)

/-- Decoding undoes encoding for every well-formed E-word, with every operand (R68, R72). -/
def Obligations.EWordsRoundTrip : Prop :=
  ∀ (i : Instr) (e : Word), i.wf = true → encodeE i = some e → decodeE e = .ok i

/-- A word has at most one meaning: whatever decodes is well-formed and is the word of what it decodes to, so no bit of a word
goes unread (R64, R73, R74). -/
def Obligations.DecodingReadsEveryBit : Prop :=
  (∀ (w : BitVec 32) (lit : Word) (i : Instr), decodeG w lit = .ok i →
    i.wf = true ∧ ∃ l, encodeG i = some (w, l) ∧ (l = none ∧ hasLiteral w = false ∨ l = some lit ∧ hasLiteral w = true)) ∧
  (∀ (e : Word) (i : Instr), decodeE e = .ok i → i.wf = true ∧ encodeE i = some e)

/-- The majors that R66 and R72 do not assign decode to nothing, whatever the other bits. -/
def Obligations.UnassignedOpcodesAreRefused : Prop :=
  (∀ (w : BitVec 32) (lit : Word), (fld w 26 6 = 0 ∨ 0x33 ≤ (fld w 26 6).toNat) → decodeG w lit = .error .unassignedMajor) ∧
  (∀ e : Word, let op := (e.extractLsb' 58 6).toNat
    (op = 0 ∨ op = 3 ∨ (0x0B ≤ op ∧ op ≤ 0x0F) ∨ (0x14 ≤ op ∧ op ≤ 0x17) ∨ op = 0x1B ∨ 0x1F ≤ op) →
      ∃ x, decodeE e = .error x)

/-! ### A step -/

/-- A step runs the decoded instruction: when it is a hart's turn and the bytes at its PC fetch and decode to i, the step is exec of
i at the state after the fetch, but that a hart under STOP-DRAIN counts the words it executes, and stops before one that marks a
convoy boundary where its convoy can close, or when it has counted 4,096 (R252), and that a core in which a G-word has retired is
not hung (R372); a queue's turn is exec of the word at its head, an event exec of the event, which, where it is a passing of time, the
boot comes before (R366). -/
def Obligations.StepRunsTheDecodedWord : Prop :=
  (∀ (s : State) (rest : List Turn) (hid : Nat) (late : Bool) (f : Fetched) (i : Instr),
    s.agenda = .generator hid late :: rest → (hartAt s hid).genStopped = false →
    fetch { s with agenda := rest, cur := hid, storeLate := late } = .ok f → decodeG f.word f.lit = .ok i →
    let runs : Host.Outcome State Fault Refusal := match exec i f.after with
      | .next t => .next (noteRetired (countWord t))
      | .fault x => .fault x
      | .refused x => .refused x
    ((hartAt s hid).ctl = .run → step s = runs) ∧
    ((hartAt s hid).ctl = .stopDrain → (hartAt s hid).gcount < 4096 → canClose (hartAt s hid) = false ∨ marksBoundary f.after i = false →
      step s = runs) ∧
    ((hartAt s hid).ctl = .stopDrain → canClose (hartAt s hid) = true → (hartAt s hid).gcount < 4096 → marksBoundary f.after i = true →
      step s = .next (stopGenerator f.after)) ∧
    ((hartAt s hid).ctl = .stopDrain → canClose (hartAt s hid) = true → 4096 ≤ (hartAt s hid).gcount →
      step s = .next (stopGenerator { s with agenda := rest, cur := hid, storeLate := late }))) ∧
  (∀ t : State, ((curHart t).ctl ≠ .stopDrain → countWord t = t) ∧
    ((curHart t).ctl = .stopDrain → (curHart t).stalled = false →
      countWord t = setCur t { curHart t with gcount := (curHart t).gcount + 1 })) ∧
  (∀ t : State, ((curHart t).stalled = true ∨ (curHart t).ctl = .trapped → noteRetired t = t) ∧
    noteRetired t = { t with cores := (noteRetired t).cores, hung := (noteRetired t).hung } ∧
    (∀ k, k ≠ t.cur / 4 → coreAt (noteRetired t) k = coreAt t k) ∧
    ((curHart t).stalled = false → (curHart t).ctl ≠ .trapped → coreAt (noteRetired t) (t.cur / 4) = { coreAt t (t.cur / 4) with quiet := 0 })) ∧
  (∀ (s : State) (rest : List Turn) (hid : Nat) (upTo : Option Nat) (e : Entry) (q : List Entry) (i : Instr),
    s.agenda = .queue hid upTo :: rest → (hartAt s hid).queue = e :: q → decodeE e.word = .ok i →
    step s = exec i { s with agenda := rest, cur := hid, laneLimit := upTo }) ∧
  (∀ (s : State) (rest : List Turn) (i : Instr), s.agenda = .event i :: rest →
    let passes := i = .tokenRefill ∨ ∃ core lc, i = .loanDebit core lc
    (s.booted = true ∨ ¬ passes → step s = exec i { s with agenda := rest }) ∧
    (s.booted = false → passes → step s = exec i (bootStep { s with agenda := rest })))

/-- A fetch reads the little-endian word at PC, and the 64-bit literal in the next two words where the word carries one; it changes
nothing but the cached translations (R63, R65, R84). -/
def Obligations.FetchReadsTheWordAtPc : Prop :=
  ∀ (s : State) (x : Xlat), translate s s.cur fetchAccess (curHart s).pc = .ok x →
    poisoned s.mem x.place.pa 4 = false →
    let w := BitVec.ofNat 32 (joinBytes (devBytes s.mem (epochOf s x.place.key) x.place.pa 4))
    (hasLiteral w = false → ∃ f, fetch s = .ok f ∧ f.word = w) ∧
    (∀ f, fetch s = .ok f → f.word = w ∧ f.after.harts = s.harts ∧ f.after.mem = s.mem ∧ f.after.cur = s.cur ∧
      (hasLiteral w = true → ∀ y z, translate (cacheXlat s x) s.cur fetchAccess ((curHart s).pc + 4) = .ok y →
        translate (cacheXlat (cacheXlat s x) y) s.cur fetchAccess ((curHart s).pc + 8) = .ok z →
        f.lit.extractLsb' 0 32 = BitVec.ofNat 32 (joinBytes (devBytes s.mem (epochOf s y.place.key) y.place.pa 4)) ∧
        f.lit.extractLsb' 32 32 = BitVec.ofNat 32 (joinBytes (devBytes s.mem (epochOf s z.place.key) z.place.pa 4))))

/-- A word that breaks the encoding rules raises the illegal-instruction fault, class 1, precise at that word, with no effect on any
register or on memory (R64); a fetch that does not translate takes class 3, whose code holds the reason, one under a key that is absent
class 10, and one of poisoned bytes class 9 (R190, R272, R301, R358); while the key is being revoked it waits (R362). -/
def Obligations.WordsThatCannotRunTrap : Prop :=
  (∀ (s : State) (rest : List Turn) (hid : Nat) (late : Bool) (f : Fetched) (x : DecodeError),
    s.agenda = .generator hid late :: rest → (hartAt s hid).ctl = .run → (hartAt s hid).genStopped = false →
    fetch { s with agenda := rest, cur := hid, storeLate := late } = .ok f → decodeG f.word f.lit = .error x →
    ∃ t, step s = .next t ∧ TakesTrap s t hid 1 0 0 ∧ ((hartAt s hid).trapsink = 0 → SameBytes s t)) ∧
  (∀ (s : State) (rest : List Turn) (hid : Nat) (late : Bool),
    s.agenda = .generator hid late :: rest → (hartAt s hid).ctl = .run → (hartAt s hid).genStopped = false →
    (∀ r, translate s hid fetchAccess (hartAt s hid).pc = .error (.reason r) → r < 16 →
      ∃ t, step s = .next t ∧ TakesTrap s t hid 3 r (hartAt s hid).pc) ∧
    (∀ k other, translate s hid fetchAccess (hartAt s hid).pc = .error (.keyAbsent k other) →
      ∃ t, step s = .next t ∧ TakesTrap s t hid 10 (k.toNat + if other then 256 else 0) (hartAt s hid).pc) ∧
    (∀ k, translate s hid fetchAccess (hartAt s hid).pc = .error (.stalls k) →
      ∃ t, step s = .next t ∧ hartAt t hid = { hartAt s hid with stalled := true, gStall := some k } ∧ (∀ k, k ≠ hid → hartAt t k = hartAt s k) ∧
        t.mem = s.mem) ∧
    (∀ x, translate s hid fetchAccess (hartAt s hid).pc = .ok x →
      poisoned s.mem x.place.pa 4 = true →
      ∃ t, step s = .next t ∧ TakesTrap s t hid 9 0 (hartAt s hid).pc))


/-! ### Integer arithmetic (R82, R87 to R91) -/

/-- The results of ALU-R (R13, R39, R87). Each sets PC to PC + 4, writes d (nothing for s0), reads its sources before it writes, and
changes nothing else: no flag, no memory. CLZ and POPC give the number of leading zero bits and of one bits, each 0 to 64, and a word
of theirs with b nonzero is illegal. -/
def Obligations.AluResults : Prop :=
  (∀ d a b : Reg,
    Computes (.add d a b) d (fun s => reg s a + reg s b) ∧
    Computes (.sub d a b) d (fun s => reg s a - reg s b) ∧
    Computes (.and d a b) d (fun s => reg s a &&& reg s b) ∧
    Computes (.or d a b) d (fun s => reg s a ||| reg s b) ∧
    Computes (.xor d a b) d (fun s => reg s a ^^^ reg s b) ∧
    Computes (.shl d a b) d (fun s => reg s a <<< ((reg s b).extractLsb' 0 6).toNat) ∧
    Computes (.shr d a b) d (fun s => reg s a >>> ((reg s b).extractLsb' 0 6).toNat) ∧
    Computes (.sar d a b) d (fun s => (reg s a).sshiftRight ((reg s b).extractLsb' 0 6).toNat) ∧
    Computes (.mul d a b) d (fun s => (reg s a).setWidth 128 * (reg s b).setWidth 128 |>.extractLsb' 0 64) ∧
    Computes (.mulh d a b) d (fun s => (reg s a).signExtend 128 * (reg s b).signExtend 128 |>.extractLsb' 64 64) ∧
    Computes (.mulhu d a b) d (fun s => (reg s a).setWidth 128 * (reg s b).setWidth 128 |>.extractLsb' 64 64) ∧
    Computes (.div d a b) d (fun s => if reg s b = 0 then BitVec.allOnes 64 else (reg s a).sdiv (reg s b)) ∧
    Computes (.divu d a b) d (fun s => if reg s b = 0 then BitVec.allOnes 64 else reg s a / reg s b) ∧
    Computes (.rem d a b) d (fun s => if reg s b = 0 then reg s a else (reg s a).srem (reg s b)) ∧
    Computes (.remu d a b) d (fun s => if reg s b = 0 then reg s a else reg s a % reg s b) ∧
    Computes (.min d a b) d (fun s => if (reg s b).slt (reg s a) then reg s b else reg s a) ∧
    Computes (.max d a b) d (fun s => if (reg s a).slt (reg s b) then reg s b else reg s a) ∧
    Computes (.minu d a b) d (fun s => if reg s b < reg s a then reg s b else reg s a) ∧
    Computes (.maxu d a b) d (fun s => if reg s a < reg s b then reg s b else reg s a) ∧
    Computes (.slt d a b) d (fun s => if (reg s a).slt (reg s b) then 1 else 0) ∧
    Computes (.sltu d a b) d (fun s => if reg s a < reg s b then 1 else 0) ∧
    Computes (.seq d a b) d (fun s => if reg s a = reg s b then 1 else 0)) ∧
  (∃ clz popc : Word → Nat,
    (∀ x, clz x ≤ 64 ∧ (∀ j, j < clz x → x.getLsbD (63 - j) = false) ∧ (clz x < 64 → x.getLsbD (63 - clz x) = true)) ∧
    (∀ x, popc x = ((List.range 64).filter fun j => x.getLsbD j).length) ∧
    ∀ d a : Reg,
      Computes (.clz d a) d (fun s => BitVec.ofNat 64 (clz (reg s a))) ∧
      Computes (.popc d a) d (fun s => BitVec.ofNat 64 (popc (reg s a)))) ∧
  (∀ (w : BitVec 32) (lit : Word), fld w 26 6 = 1 → (fld w 0 8 = 0x16 ∨ fld w 0 8 = 0x17) → fld w 8 6 ≠ 0 → ∃ x, decodeG w lit = .error x)

/-- INS and EXT, bit by bit (R91): INS writes s[a][width−1:0] into s[d][pos+width−1:pos] and keeps the other bits of s[d]; EXT extracts
that field zero-extended; a word with pos + width above 64, or with [1:0] nonzero, is illegal. w is width − 1. -/
def Obligations.BitWords : Prop :=
  (∀ d a p w : Reg, p.toNat + w.toNat ≤ 63 →
    (∃ v : State → Word, Computes (.ins d a p w) d v ∧ ∀ s j, j < 64 →
      (v s).getLsbD j = if p.toNat ≤ j ∧ j ≤ p.toNat + w.toNat then (reg s a).getLsbD (j - p.toNat) else (reg s d).getLsbD j) ∧
    (∃ v : State → Word, Computes (.ext d a p w) d v ∧ ∀ s j, j < 64 →
      (v s).getLsbD j = if j ≤ w.toNat then (reg s a).getLsbD (p.toNat + j) else false)) ∧
  (∀ (w : BitVec 32) (lit : Word), (fld w 26 6 = 0x0C ∨ fld w 26 6 = 0x0D) →
    (64 ≤ (fld w 8 6).toNat + (fld w 2 6).toNat ∨ fld w 0 2 ≠ 0) → ∃ x, decodeG w lit = .error x)

/-- The immediate forms, the shifts by an amount, and LUI and AUIPC (R88 to R90); LIL goes on after its literal (R12, R82).
A shift of kind 3 or with imm[11:6] nonzero, and a LIL with imm20 nonzero, are illegal. -/
def Obligations.ImmediateResults : Prop :=
  (∀ (d a : Reg) (i : BitVec 14),
    Computes (.addi d a i) d (fun s => reg s a + i.signExtend 64) ∧
    Computes (.andi d a i) d (fun s => reg s a &&& i.signExtend 64) ∧
    Computes (.ori d a i) d (fun s => reg s a ||| i.signExtend 64) ∧
    Computes (.xori d a i) d (fun s => reg s a ^^^ i.signExtend 64) ∧
    Computes (.slti d a i) d (fun s => if (reg s a).slt (i.signExtend 64) then 1 else 0) ∧
    Computes (.sltiu d a i) d (fun s => if reg s a < i.signExtend 64 then 1 else 0)) ∧
  (∀ d a n : Reg,
    Computes (.shli d a n) d (fun s => reg s a <<< n.toNat) ∧
    Computes (.shri d a n) d (fun s => reg s a >>> n.toNat) ∧
    Computes (.sari d a n) d (fun s => (reg s a).sshiftRight n.toNat)) ∧
  (∀ (d : Reg) (i : BitVec 20),
    Computes (.lui d i) d (fun _ => (i ++ 0#14).signExtend 64) ∧
    Computes (.auipc d i) d (fun s => (curHart s).pc + (i ++ 0#14).signExtend 64)) ∧
  (∀ (d : Reg) (lit : Word) (s : State), ∃ t, exec (.lil d lit) s = .next t ∧
    OnlyScalars s t ∧ NextPc s t 12 ∧ WritesReg s t d lit ∧ SameBytes s t) ∧
  (∀ (w : BitVec 32) (lit : Word), (fld w 26 6 = 8 ∧ (fld w 12 2 = 3 ∨ fld w 6 6 ≠ 0)) ∨ (fld w 26 6 = 0x0A ∧ fld w 0 20 ≠ 0) →
    ∃ x, decodeG w lit = .error x)


/-! ### Scalar floating point (R13, R92 to R94) -/

/-- A scalar FP word: d gets the result in bits [31:0] and zero above, the flags are ORed into VXSR, and nothing else changes. -/
def Obligations.ScalarFloatResults : Prop :=
  ∃ run : Instr → State → FRes,
    (∀ s (d a b : Reg) (r : RM), let x := single (reg s a); let y := single (reg s b)
      run (.fadd d a b r) s = fAdd fmtSingle r false x y ∧
      run (.fsub d a b r) s = fAdd fmtSingle r false x (fFlip y) ∧
      run (.fmul d a b r) s = fMul fmtSingle r false x y ∧
      run (.fdiv d a b r) s = fDiv fmtSingle r false x y ∧
      run (.fsqrt d a r) s = fSqrt fmtSingle r false x ∧
      run (.fcvtW d a r) s = fToInt .i32 r x ∧
      run (.fcvtS d a r) s = fFromInt fmtSingle r false ((reg s a).setWidth 32).toInt ∧
      run (.fmin d a b r) s = fMinMax fmtSingle false (low32 (reg s a)) (low32 (reg s b)) ∧
      run (.fmax d a b r) s = fMinMax fmtSingle true (low32 (reg s a)) (low32 (reg s b)) ∧
      (isNan x = false ∧ isNan y = false →
        run (.feq d a b) s = (if fCompare x y = .eq then 1 else 0, 0) ∧
        run (.flt d a b) s = (if fCompare x y = .lt then 1 else 0, 0) ∧
        run (.fle d a b) s = (if fCompare x y = .gt then 0 else 1, 0)) ∧
      (isNan x = true ∨ isNan y = true →
        run (.feq d a b) s = (0, flagIf (isSnan x || isSnan y) flagNV) ∧ (run (.flt d a b) s) = (0, flagNV) ∧ (run (.fle d a b) s) = (0, flagNV))) ∧
    (∀ s (d a b c : Reg), run (.fma d a b c) s = fFma fmtSingle .rne false (single (reg s a)) (single (reg s b)) (single (reg s c))) ∧
    ∀ (i : Instr) (d : Reg), (∃ a b c r,
        i = .fadd d a b r ∨ i = .fsub d a b r ∨ i = .fmul d a b r ∨ i = .fdiv d a b r ∨ i = .fmin d a b r ∨ i = .fmax d a b r ∨
        i = .fsqrt d a r ∨ i = .fcvtW d a r ∨ i = .fcvtS d a r ∨ i = .feq d a b ∨ i = .flt d a b ∨ i = .fle d a b ∨
        i = .fma d a b c) →
      ∀ s, ∃ t, exec i s = .next t ∧
        t = setCur s { curHart s with
          sregs := (curHart t).sregs, pc := (curHart s).pc + 4, vxsr := (curHart s).vxsr ||| (run i s).2, stalled := false } ∧
        WritesReg s t d (BitVec.ofNat 64 (run i s).1) ∧ SameBytes s t

/-- Rounding to FP32 (R40, R44): an exact value m · 2^e of at most 24 bits in range is itself under every rounding mode, without a
flag; and addition and multiplication do not depend on the order of their operands. -/
def Obligations.FloatRoundingExactAndCommutative : Prop :=
  (∀ (r : RM) (neg : Bool) (m : Nat) (e : Int), 2 ^ 23 ≤ m → m < 2 ^ 24 → -149 ≤ e → e ≤ 104 →
    roundTo fmtSingle r false neg m e false = (m - 2 ^ 23 + (e + 150).toNat * 2 ^ 23 + (if neg then 2 ^ 31 else 0), 0)) ∧
  (∀ (f : Fmt) (r : RM) (z : Bool) (x y : FVal), fAdd f r z x y = fAdd f r z y x ∧ fMul f r z x y = fMul f r z y x)

/-! ### Branches and jumps (R95, R96) -/

/-- The conditional branches (R95): taken, they continue at their own address + 4 · sext(offset), else at PC + 4; they write no
register and change nothing else. JAL and JALR (R96): the link is the address of the word + 4, JALR's target comes from the old
s[a], and a target off a multiple of 4 traps with class 2 and that target as ADDRESS, d not written. -/
def Obligations.BranchesAndJumps : Prop :=
  (∀ (a b : Reg) (o : BitVec 14) (s : State),
    let goes (i : Instr) (taken : Prop) : Prop := ∃ t, exec i s = .next t ∧ OnlyScalars s t ∧ KeepsRegs s t ∧ SameBytes s t ∧
      (taken → (curHart t).pc = (curHart s).pc + 4 * o.signExtend 64) ∧ (¬ taken → NextPc s t 4)
    goes (.beq a b o) (reg s a = reg s b) ∧
    goes (.bne a b o) (reg s a ≠ reg s b) ∧
    goes (.blt a b o) ((reg s a).toInt < (reg s b).toInt) ∧
    goes (.bge a b o) ((reg s b).toInt ≤ (reg s a).toInt) ∧
    goes (.bltu a b o) ((reg s a).toNat < (reg s b).toNat) ∧
    goes (.bgeu a b o) ((reg s b).toNat ≤ (reg s a).toNat)) ∧
  ((∀ (d : Reg) (i : BitVec 20) (s : State), ∃ t, exec (.jal d i) s = .next t ∧ OnlyScalars s t ∧ SameBytes s t ∧
    WritesReg s t d ((curHart s).pc + 4) ∧ (curHart t).pc = (curHart s).pc + 4 * i.signExtend 64) ∧
  (∀ (d a : Reg) (i : BitVec 14) (s : State), let target := reg s a + 4 * i.signExtend 64
    (target.extractLsb' 0 2 = 0 → ∃ t, exec (.jalr d a i) s = .next t ∧ OnlyScalars s t ∧ SameBytes s t ∧
      WritesReg s t d ((curHart s).pc + 4) ∧ (curHart t).pc = target) ∧
    (target.extractLsb' 0 2 ≠ 0 → ∃ t, exec (.jalr d a i) s = .next t ∧ TakesTrap s t s.cur 2 1 target)))

/-! ### Memory words (R98 to R110) -/

/-- LD (R98 to R101): from memory the little-endian value of the bytes as the device's caches or memory hold them, extended as the word
says, once the hart's own waiting stores to them have performed; from a control page the bytes of its doubleword, of any size, once the
hart's queued accesses to that page have performed, till when it waits (R183); a poisoned byte takes class 9. -/
def Obligations.LoadResults : Prop :=
  ∀ (s : State) (d a : Reg) (z : Size) (o : Order) (x : Bool) (f : BitVec 9) (y : Xlat),
    let n := sizeBytes z
    let ea := reg s a + f.signExtend 64 * BitVec.ofNat 64 n
    let ext (v : BitVec (8 * n)) : Word := if x then v.signExtend 64 else v.setWidth 64
    let u := drainOverlap (cacheXlat s y) s.cur y.place.pa n
    translate s s.cur (loadAccess n) ea = .ok y →
    (y.place.kind ≠ 3 → poisoned u.mem y.place.pa n = false →
      ∃ t, exec (.ld d a z o x f) s = .next t ∧ OnlyScalars u t ∧ NextPc s t 4 ∧ SameBytes u t ∧
        WritesReg s t d (ext (BitVec.ofNat _ (joinBytes (devBytes u.mem (epochOf s y.place.key) y.place.pa n))))) ∧
    (y.place.kind ≠ 3 → poisoned u.mem y.place.pa n = true →
      ∃ t, exec (.ld d a z o x f) s = .next t ∧ TakesTrap s t s.cur 9 0 ea) ∧
    (y.place.kind = 3 → pageBusy s s.cur y.place.pa = false →
      ∃ t, exec (.ld d a z o x f) s = .next t ∧ NextPc s t 4 ∧ t.mem = s.mem ∧
        WritesReg s t d (ext (((ctlRead (cacheXlat s y) (.hart s.cur) (y.place.pa / 8 * 8)).1 >>>
          (8 * (y.place.pa % 8))).setWidth (8 * n)))) ∧
    (y.place.kind = 3 → pageBusy s s.cur y.place.pa = true →
      ∃ t, exec (.ld d a z o x f) s = .next t ∧ WaitsAt s t ∧ t.mem = s.mem)

/-- ST (R98 to R101, R172): it writes the low bytes of s[d] at ea and no other byte: a reader under its key epoch sees every other byte
stand, and beyond the 16-byte blocks it touches every byte stands for every reader. A release first makes the waiting stores perform; a
non-temporal store waits in write combining, and a plain one in the store path where the turn says so; a control page takes 8 bytes and
discards less, once the hart's queued accesses to it have performed (R183). That a non-temporal store to memory always waits is the
model's choice (log 4, DEDUCED: R99 lets it wait). -/
def Obligations.StoreResults : Prop :=
  ∀ (s : State) (d a : Reg) (z : Size) (o : Order) (f : BitVec 9) (y : Xlat),
    let n := sizeBytes z
    let ea := reg s a + f.signExtend 64 * BitVec.ofNat 64 n
    let ep := epochOf s y.place.key
    let pa := y.place.pa
    let late := o = .nt ∨ o = .plain ∧ s.storeLate = true
    let u1 := if o = .sync then releaseStores (cacheXlat s y) s.cur else cacheXlat s y
    let u := drainOverlap u1 s.cur pa n
    s.mem.wf = true → translate s s.cur (storeAccess n) ea = .ok y →
    (y.place.kind ≠ 3 → ¬ late → ∃ t, exec (.st d a z o f) s = .next t ∧
      t = setCur { u with mem := t.mem, tlb := t.tlb } { curHart u with pc := (curHart s).pc + 4, stalled := false } ∧ KeepsRegs s t ∧
      (∀ k, devByte t.mem ep k = if pa ≤ k ∧ k < pa + n then (reg s d).extractLsb' (8 * (k - pa)) 8 else devByte u.mem ep k) ∧
      (∀ e k, k / 16 < pa / 16 ∨ (pa + n - 1) / 16 < k / 16 → devByte t.mem e k = devByte u.mem e k)) ∧
    (y.place.kind ≠ 3 → late → ∃ t, exec (.st d a z o f) s = .next t ∧
      t = setCur (cacheXlat s y) { curHart s with
        pc := (curHart s).pc + 4, stalled := false, wc := (curHart s).wc ++ [⟨o == .nt, pa, ep, n, reg s d, s.pt⟩] } ∧ SameBytes s t) ∧
    (y.place.kind = 3 → pageBusy s s.cur pa = false → n ≠ 8 → ∃ t, exec (.st d a z o f) s = .next t ∧
      t = setCur u1 { curHart u1 with pc := (curHart s).pc + 4, stalled := false } ∧ t.mem = u1.mem) ∧
    (y.place.kind = 3 → pageBusy s s.cur pa = false → n = 8 → pa % 8 = 0 →
      ∃ t c, exec (.controlRegisterWrite (.hart s.cur) pa (reg s d)) u1 = .next c ∧
        exec (.st d a z o f) s = .next t ∧ t = setCur c { curHart c with pc := (curHart c).pc + 4, stalled := false }) ∧
    (y.place.kind = 3 → pageBusy s s.cur pa = true → ∃ t, exec (.st d a z o f) s = .next t ∧ WaitsAt s t ∧ t.mem = s.mem)

/-- AMO and CAS (R103 to R106): d gets the old doubleword; AMO writes f(old, s[b]), CAS writes s[b] only when the old value equals
s[d]; every byte outside the doubleword stands. A line of the host window that the device holds goes back to the host first. Poisoned
bytes take class 9 (R272). On a control page the write is one of 8 bytes with the page's write effect, which a CAS that fails has not,
once the hart's queued accesses to that page have performed, till when it waits (R106, R183). -/
def Obligations.AtomicResults : Prop :=
  ∀ (s : State) (d a b : Reg) (sc : Scope) (r : Bool) (y : Xlat) (noHost : Bool),
    let ep := epochOf s y.place.key
    let pa := y.place.pa
    let released := if r then releaseAt (cacheXlat s y) sc else cacheXlat s y
    let u := drainOverlap (askHost released y.place) s.cur pa 8
    let page := ctlRead released (.hart s.cur) pa
    let old : Word := if y.place.kind = 3 then page.1 else BitVec.ofNat 64 (joinBytes (devBytes u.mem ep pa 8))
    let v := reg s b
    let atomic (p : Instr → Option Word → Prop) : Prop :=
      (noHost = false →
        p (.amo d a b .add sc r) (some (old + v)) ∧ p (.amo d a b .swap sc r) (some v) ∧
        p (.cas d a b sc r) (if old = reg s d then some v else none)) ∧
      (noHost = true →
        p (.amo d a b .and sc r) (some (old &&& v)) ∧ p (.amo d a b .or sc r) (some (old ||| v)) ∧
        p (.amo d a b .xor sc r) (some (old ^^^ v)) ∧
        p (.amo d a b .min sc r) (some (if v.slt old then v else old)) ∧
        p (.amo d a b .max sc r) (some (if old.slt v then v else old)) ∧
        p (.amo d a b .minu sc r) (some (if v < old then v else old)) ∧
        p (.amo d a b .maxu sc r) (some (if old < v then v else old)))
    s.mem.wf = true → translate s s.cur (amoAccess noHost) (reg s a) = .ok y →
    (y.place.kind ≠ 3 → poisoned u.mem pa 8 = false → atomic fun i new => ∃ t, exec i s = .next t ∧
      t = setCur { u with mem := t.mem, tlb := t.tlb } { curHart u with
        sregs := (curHart t).sregs, pc := (curHart s).pc + 4, stalled := false } ∧ WritesReg s t d old ∧
      ∀ k, devByte t.mem ep k =
        if pa ≤ k ∧ k < pa + 8 then (new.getD old).extractLsb' (8 * (k - pa)) 8 else devByte u.mem ep k) ∧
    (y.place.kind ≠ 3 → poisoned u.mem pa 8 = true → atomic fun i _ => ∃ t, exec i s = .next t ∧
      TakesTrap s t s.cur 9 0 (reg s a)) ∧
    (y.place.kind = 3 → pageBusy s s.cur pa = true → atomic fun i _ => ∃ t, exec i s = .next t ∧ WaitsAt s t ∧ t.mem = s.mem) ∧
    (y.place.kind = 3 → pageBusy s s.cur pa = false → pa % 8 = 0 → atomic fun i new => ∃ t c, exec i s = .next t ∧
      (new = none → c = page.2) ∧ (∀ x, new = some x → exec (.controlRegisterWrite (.hart s.cur) pa x) page.2 = .next c) ∧
      t = setCur c { curHart c with sregs := (curHart t).sregs, pc := (curHart c).pc + 4, stalled := false } ∧ WritesReg c t d old)

/-- An access of a G-word that fails reads and writes nothing and traps with its address (R98, R103, R109, R190, R301): class 2
misaligned, class 3 with its reason and the kind of access, class 10 for a key that is absent; while the key is being revoked it
waits (R362). -/
def Obligations.AccessFaults : Prop :=
  ∀ (s : State) (i : Instr) (acc : Access) (code : Nat) (va : Word) (e : XFail),
    (∃ d a z o x f, i = .ld d a z o x f ∧ acc = loadAccess (sizeBytes z) ∧ code = 1 ∧
      va = reg s a + f.signExtend 64 * BitVec.ofNat 64 (sizeBytes z)) ∨
    (∃ d a z o f, i = .st d a z o f ∧ acc = storeAccess (sizeBytes z) ∧ code = 2 ∧
      va = reg s a + f.signExtend 64 * BitVec.ofNat 64 (sizeBytes z)) ∨
    (∃ d a b p sc r, i = .amo d a b p sc r ∧ acc = amoAccess (!hostCarries p) ∧ code = 3 ∧ va = reg s a) ∨
    (∃ d a b sc r, i = .cas d a b sc r ∧ acc = amoAccess false ∧ code = 3 ∧ va = reg s a) ∨
    (∃ d a b c, i = .wait d a b c ∧ acc = loadAccess 8 ∧ code = 1 ∧ (curHart s).wait = none ∧ va = reg s a) →
    translate s s.cur acc va = .error e →
    (e = .misaligned → ∃ t, exec i s = .next t ∧ TakesTrap s t s.cur 2 0 va) ∧
    (∀ r, e = .reason r → r < 16 → ∃ t, exec i s = .next t ∧ TakesTrap s t s.cur 3 (r + 16 * code) va) ∧
    (∀ k other, e = .keyAbsent k other →
      ∃ t, exec i s = .next t ∧ TakesTrap s t s.cur 10 (k.toNat + if other then 256 else 0) va) ∧
    (∀ k, e = .stalls k → ∃ t, exec i s = .next t ∧ WaitsAt s t ∧ t.mem = s.mem)

/-- The order in which an access is checked (R85, R98, R300 to R302): first bits [63:51], then alignment, then translation, then the
entry's permission, then the frame windows; and an access that is let through met each of them, and the checks of its place: no control page
or host window where it may not go there (R106, R315), and a key that is present and its world's (R358). -/
def Obligations.TranslationChecks : Prop :=
  ∀ (s : State) (hid : Nat) (k : Access) (va : Word),
    ((va >>> 51) ≠ 0 → translate s hid k va = .error (.reason 3)) ∧
    ((va >>> 51) = 0 → va.toNat % k.align ≠ 0 → k.gword = true → translate s hid k va = .error .misaligned) ∧
    (∀ y, translate s hid k va = .ok y →
      (va >>> 51) = 0 ∧ va.toNat % k.align = 0 ∧
      (y.place.kind = 3 → k.noCtl = false) ∧ (y.place.kind = 2 → k.noHost = false) ∧
      keyCheck s (stalledOn (hartAt s hid) k) (if k.outer then 0 else worldOf s hid) y.place.key = none ∧
      ∃ e, stageOne s (clusterOf hid) (hartAt s hid).vi (hartAt s hid).root va.toNat (unitOf k va.toNat) = some e ∧
        let page := e.pageAt (va.toNat / 2 ^ 19)
        Nat.land e.perm.toNat k.needs = k.needs ∧
        (∃ w ∈ (hartAt s hid).windows.toList, windowAllows w page k.needs = true) ∧
        stageTwo s (hartAt s hid).vi (page * 2 ^ 19 + va.toNat % 2 ^ 19) = some y.place)

/-- FENCE, TFENCE, WAITV and VSHAPE (R79, R107, R108, R114, R202): a FENCE without V completes at once, one of kind IO when no
control-page access of the queue is left; the others close the convoy and, with the queue empty, complete; while words are queued
they wait and have written nothing; with an unconsumed load queue in the open convoy they take class 6. W makes the hart's waiting stores perform, W or V at system scope sends what the caches hold of the host
window (R181), IO lets go of queue images (R201); TFENCE removes the translations derived from what this hart has stored to (R304).
WRITE_COMBINE_DRAIN (R172) performs a hart's waiting stores, oldest first. -/
def Obligations.FencesWaitForTheQueue : Prop :=
  (∀ (s : State),
    let h := curHart s
    let drained (w : Bool) : State := if w then drainWc s s.cur else s
    let done (i : Instr) (w sends closes : Bool) (more : State → Prop) : Prop := ∃ t, exec i s = .next t ∧ NextPc s t 4 ∧
      KeepsRegs s t ∧ t.mem = (if sends then cleanAll (drained w).mem else (drained w).mem) ∧
      (curHart t).wc = (if w then [] else h.wc) ∧ (curHart t).conv = (if closes then none else h.conv) ∧ more t
    let images (t : State) (k : BitVec 5) : Prop :=
      (curHart t).images = (if k.getLsbD 3 then h.images.filter fun x => x.reader != 0 else h.images)
    (∀ sc k, k.getLsbD 2 = false → k.getLsbD 3 = true → ctlBusy s s.cur = true →
      ∃ t, exec (.fence sc k) s = .next t ∧ WaitsAt s t ∧ t.mem = s.mem) ∧
    (∀ sc k, k.getLsbD 2 = false → k.getLsbD 3 = false ∨ ctlBusy s s.cur = false → done (.fence sc k) (k.getLsbD 1) (k.getLsbD 1 && sc == .system) false fun t =>
      t.tlb = (drained (k.getLsbD 1)).tlb ∧ images t k) ∧
    (canClose h = true → h.queue = [] →
      (∀ sc k, k.getLsbD 2 = true → done (.fence sc k) (k.getLsbD 1) (sc == .system) true fun t =>
        t.tlb = (drained (k.getLsbD 1)).tlb ∧ images t k) ∧
      done .waitv false false true (fun t => t.tlb = s.tlb) ∧
      done .tfence true false true (fun t => t.tlb = (drained true).tlb.filter fun x => !x.storedBy.contains s.cur) ∧
      (∀ sh, sh = h.shape ∨ laneCount h.own = 0 →
        done (.vshape sh) false false true fun t => (curHart t).shape = sh ∧ (curHart t).tags = h.tags ∧ (curHart t).masks = h.masks) ∧
      (∀ sh, sh ≠ h.shape → laneCount h.own ≠ 0 →
        done (.vshape sh) false false true fun t => (curHart t).shape = sh ∧ (∀ k, k < 32 → (curHart t).tags[k]? = some 0) ∧
          (∀ k, k < 16 → (curHart t).masks[k]? = some 0) ∧ (curHart t).vstate = .present ∧ (curHart t).vstart = 0)) ∧
    (∀ i, i = .waitv ∨ i = .tfence ∨ i = .halt ∨ (∃ sh, i = .vshape sh) ∨ (∃ sc k, k.getLsbD 2 = true ∧ i = .fence sc k) ∨
        (∃ d, i = .fork d) →
      (canClose h = true → h.queue ≠ [] → ∃ t, exec i s = .next t ∧ WaitsAt s t ∧ (curHart t).conv = none ∧ t.mem = s.mem) ∧
      (canClose h = false → ∃ t, exec i s = .next t ∧ TakesTrap s t s.cur 6 0 0))) ∧
  (∀ (s : State) (hid : Nat), let h := hartAt s hid
    ∃ t, exec (.writeCombineDrain hid) s = .next t ∧ hartAt t hid = { h with wc := [] } ∧
      (∀ k, k ≠ hid → hartAt t k = hartAt s k) ∧ t = { s with mem := t.mem, harts := t.harts, tlb := t.tlb } ∧
      (h.wc = [] → t.mem = s.mem) ∧
      ∀ earlier w, s.mem.wf = true → h.wc = earlier ++ [w] → devMem t.mem w.epoch w.pa w.width = w.value.toNat % 256 ^ w.width)

/-- WAIT (R109, R110), which asks the host's memory itself for a word of the host window: a read that sees another value ends it with
0, a limit that has passed with 1, and otherwise it sleeps with the address, the expected value and the limit that it read once; so it
does while the hart's queued accesses to the control page have to perform first (R183); poisoned bytes take class 9 (R272). A change
seen, the limit passing, and the repeated reads of the host window make a sleeping hart read again, and do nothing else. -/
def Obligations.WaitOutcomes : Prop :=
  (∀ (s : State) (d a b c : Reg) (w : WaitRec) (y : Xlat),
    w = (match (curHart s).wait with
      | some w => w
      | none => ⟨reg s a, reg s b, reg s c, s.pt⟩) →
    let asked := askFor s w.va
    let u := drainOverlap (cacheXlat asked y) s.cur y.place.pa 8
    let page := ctlRead (cacheXlat asked y) (.hart s.cur) y.place.pa
    let reads (v : Word) (u : State) : Prop :=
      (v ≠ w.expected → ∃ t, exec (.wait d a b c) s = .next t ∧ NextPc s t 4 ∧ WritesReg s t d 0 ∧ SameBytes u t ∧
        (curHart t).wait = none) ∧
      (v = w.expected → w.limit ≠ 0 → w.since + w.limit.toNat ≤ s.pt →
        ∃ t, exec (.wait d a b c) s = .next t ∧ NextPc s t 4 ∧ WritesReg s t d 1 ∧ SameBytes u t ∧ (curHart t).wait = none) ∧
      (v = w.expected → (w.limit = 0 ∨ s.pt < w.since + w.limit.toNat) →
        ∃ t, exec (.wait d a b c) s = .next t ∧ WaitsAt s t ∧ SameBytes u t ∧ (curHart t).wait = some w)
    translate asked s.cur (loadAccess 8) w.va = .ok y →
    (y.place.kind ≠ 3 → poisoned u.mem y.place.pa 8 = false →
      reads (BitVec.ofNat 64 (joinBytes (devBytes u.mem (epochOf s y.place.key) y.place.pa 8))) u) ∧
    (y.place.kind ≠ 3 → poisoned u.mem y.place.pa 8 = true →
      ∃ t, exec (.wait d a b c) s = .next t ∧ TakesTrap s t s.cur 9 0 w.va ∧ (curHart t).wait = none) ∧
    (y.place.kind = 3 → pageBusy s s.cur y.place.pa = false → y.place.pa % 8 = 0 → reads page.1 page.2) ∧
    (y.place.kind = 3 → pageBusy s s.cur y.place.pa = true →
      ∃ t, exec (.wait d a b c) s = .next t ∧ WaitsAt s t ∧ t.mem = s.mem ∧ (curHart t).wait = some w)) ∧
  (∀ (s : State) (hid : Nat), let h := hartAt s hid
    let woken (i : Instr) : Prop := ∃ t, exec i s = .next t ∧ hartAt t hid = { h with stalled := false } ∧
      (∀ k, k ≠ hid → hartAt t k = hartAt s k) ∧ t = { s with harts := t.harts }
    (h.wait = none → ∀ i, i = .waitWake hid ∨ i = .waitTimeout hid ∨ i = .hostWindowWaitRead hid → exec i s = .next s) ∧
    (∀ w, h.wait = some w → woken (.waitWake hid) ∧
      (w.limit ≠ 0 → w.since + w.limit.toNat ≤ s.pt → woken (.waitTimeout hid)) ∧
      (w.limit = 0 ∨ s.pt < w.since + w.limit.toNat → exec (.waitTimeout hid) s = .next s) ∧
      (∀ y, translate s hid (loadAccess 8) w.va = .ok y → y.place.kind = 2 → woken (.hostWindowWaitRead hid))))

/-! ### Special registers, vector length, the calendar, traps (R25 to R33, R111 to R118, R189, R191) -/

/-- GETS (R29 to R33, R111): registers 0 to 12 read; 13 and above are illegal. -/
def Obligations.SpecialRegistersRead : Prop :=
  ∀ (s : State) (d : Reg) (i : BitVec 14),
    let h := curHart s
    let gives (v : Word) : Prop := ∃ t, exec (.gets d i) s = .next t ∧ OnlyScalars s t ∧ NextPc s t 4 ∧ WritesReg s t d v ∧
      SameBytes s t
    (i = 0 → gives h.vl) ∧ (i = 1 → gives (h.rows.setWidth 64)) ∧ (i = 2 → gives (h.vstart.setWidth 64)) ∧
    (i = 3 → gives h.rstate) ∧ (i = 4 → gives h.kprog) ∧ (i = 5 → gives (h.vxsr.setWidth 64)) ∧
    (i = 6 → gives (((BitVec.ofBool h.ict ++ BitVec.ofBool h.rct ++ (coreAt s (s.cur / 4)).flid : BitVec 10)).setWidth 64)) ∧
    (i = 7 → gives (BitVec.ofNat 64 s.cur)) ∧
    (i = 8 → gives (BitVec.ofNat 64 (16 * ((List.range 4).filter fun k => h.own.getLsbD k).length + h.own.toNat))) ∧
    (i = 9 → gives h.emitseq) ∧ (i = 10 → gives (BitVec.ofNat 64 s.pt)) ∧ (i = 11 → gives h.bypth) ∧
    (i = 12 → gives h.trapsink) ∧
    (13 ≤ i.toNat → ∃ t, exec (.gets d i) s = .next t ∧ TakesTrap s t s.cur 1 0 0)

/-- SETS (R29 to R32, R111): each register takes its bits and nothing else changes; ROWS refuses what is not 1 to 8, the read-only
registers refuse everything; the progress registers wait for the queue to empty. SETROWS writes ROWS and d (R113). -/
def Obligations.SpecialRegistersWritten : Prop :=
  ∀ (s : State) (a : Reg) (i : BitVec 14),
    let h := curHart s
    let v := reg s a
    let becomes (g : Hart) : Prop := exec (.sets a i) s = .next (setCur s { g with pc := h.pc + 4, stalled := false })
    let traps : Prop := ∃ t, exec (.sets a i) s = .next t ∧ TakesTrap s t s.cur 1 0 0
    (i = 1 → 1 ≤ v.toNat → v.toNat ≤ 8 → becomes { h with rows := v.setWidth 4 }) ∧
    (i = 1 → (v = 0 ∨ 8 < v.toNat) → traps) ∧
    (i = 5 → becomes { h with vxsr := v.setWidth 8 }) ∧
    (i = 6 → becomes { h with rct := v.getLsbD 8, ict := v.getLsbD 9 }) ∧
    (i = 11 → becomes { h with bypth := v }) ∧
    (i = 12 → becomes { h with trapsink := v >>> 3 <<< 3 }) ∧
    (canClose h = true → h.queue = [] →
      (i = 2 → ∃ t, exec (.sets a i) s = .next t ∧
        t = setCur s { h with conv := none, vstart := v.setWidth 32, pc := h.pc + 4, stalled := false }) ∧
      (i = 3 → ∃ t, exec (.sets a i) s = .next t ∧
        t = setCur s { h with conv := none, rstate := v, pc := h.pc + 4, stalled := false }) ∧
      (i = 4 → ∃ t, exec (.sets a i) s = .next t ∧
        t = setCur s { h with conv := none, kprog := v, pc := h.pc + 4, stalled := false })) ∧
    ((i = 2 ∨ i = 3 ∨ i = 4) → canClose h = true → h.queue ≠ [] → ∃ t, exec (.sets a i) s = .next t ∧ WaitsAt s t) ∧
    ((i = 0 ∨ 7 ≤ i.toNat ∧ i.toNat ≤ 10 ∨ 13 ≤ i.toNat) → traps) ∧
    (∀ d : Reg, let n := v + i.signExtend 64
      (1 ≤ n.toNat → n.toNat ≤ 8 → ∃ t, exec (.setrows d a i) s = .next t ∧ WritesReg s t d n ∧ NextPc s t 4 ∧
        t = setCur s { h with rows := n.setWidth 4, sregs := (curHart t).sregs, pc := h.pc + 4, stalled := false }) ∧
      ((n = 0 ∨ 8 < n.toNat) → ∃ t, exec (.setrows d a i) s = .next t ∧ TakesTrap s t s.cur 1 0 0 ∧ (curHart t).rows = h.rows))

/-- SETVL (R25 to R27, R112), with no request to cede or return lanes pending: the grant, the charge and the wait. -/
def Obligations.VectorLengthGrant : Prop :=
  ∀ (s : State) (d a b : Reg) (w : VlWidth),
    let h := curHart s
    let avl := (reg s a).toNat
    let cap := (reg s b).toNat
    let cl := s.cur / 16
    let lc := ((List.range 4).filter fun k => h.own.getLsbD k).length
    let bits := match w with
      | .e4 => 4
      | .e8 => 8
      | .e16 => 16
      | .e32 => 32
      | .e64 => 64
    let perLc := 4096 / bits * (if h.shape then 2 else 1)
    let balance := (clusterAt s cl).bal
    let cost := s.power.cost.toNat
    let p := max 1 (balance / (cost : Int)).toNat
    let g0 := min (min avl (perLc * lc)) (p * perLc)
    let g := if cap = 0 then g0 else min g0 cap
    h.reclaim.status ≠ 1 → h.reclaim.after = none →
    ((avl = 0 ∨ lc = 0) → ∃ t, exec (.setvl d a b w) s = .next t ∧ NextPc s t 4 ∧ WritesReg s t d 0 ∧ (curHart t).vl = 0 ∧
      (clusterAt t cl).bal = balance ∧ SameBytes s t) ∧
    (avl ≠ 0 → lc ≠ 0 → 1 ≤ cost → 0 ≤ balance → ∃ t, exec (.setvl d a b w) s = .next t ∧ NextPc s t 4 ∧
      WritesReg s t d (BitVec.ofNat 64 g) ∧ (curHart t).vl = BitVec.ofNat 64 g ∧ SameBytes s t ∧
      (clusterAt t cl).bal = balance - ((g + perLc - 1) / perLc * cost : Nat) ∧
      (curHart t).queue = h.queue ∧ (curHart t).conv = h.conv) ∧
    (avl ≠ 0 → lc ≠ 0 → balance < 0 → ∃ t, exec (.setvl d a b w) s = .next t ∧ WaitsAt s t ∧ (curHart t).vl = h.vl ∧
      (clusterAt t cl).bal = balance)

/-- TRAP (R116, R190): class 8 with imm20 as code, precise at the TRAP; an accepted EMIT stays queued. YIELD (R118) only advances PC.
HALT (R117, R214, R254): with the queue empty the hart ends: its page reads IDLE, unread return-queue entries go, and its lanes are
returned, or held for the parent of a FORK child; its registers stand. -/
def Obligations.TrapYieldAndHalt : Prop :=
  ((∀ (s : State) (c : BitVec 20), ∃ t, exec (.trap c) s = .next t ∧ TakesTrap s t s.cur 8 c.toNat 0 ∧
    (curHart t).queue = (curHart s).queue ∧ (curHart t).qStopped = (curHart s).qStopped) ∧
  (∀ s : State, ∃ t, exec .yield s = .next t ∧ OnlyScalars s t ∧ NextPc s t 4 ∧ KeepsRegs s t ∧ SameBytes s t)) ∧
  (∀ (s : State), let h := curHart s
    canClose h = true → h.queue = [] → ∃ t, exec .halt s = .next t ∧ (curHart t).ctl = .idle ∧ (curHart t).queue = [] ∧
      (curHart t).rq = [] ∧ (curHart t).team = none ∧ KeepsRegs s t ∧ NextPc s t 4 ∧ (curHart t).wc = [] ∧
      (h.parent = none → (curHart t).own = 0 ∧ (curHart t).awaitJoin = false) ∧
      (h.parent ≠ none → (curHart t).own = h.own ∧ (curHart t).vregs = h.vregs ∧ (curHart t).awaitJoin = true))

/-- Taking a trap (R189, R191): the record, the count, the control word TRAPPED; nothing else of the hart but the wait that is over and, at
E level, the queue that stops; no other hart; and of memory only the 8 bytes of the trap sink. -/
def Obligations.TrapEntry : Prop :=
  ∀ (s : State) (hid : Nat) (f : FaultRec), s.mem.wf = true →
    let h := hartAt s hid
    let t := deliverTrap s hid f
    let g := hartAt t hid
    g.ctl = .trapped ∧ g.trapCount = h.trapCount + 1 ∧ g.trapRec.sinkSeq = h.trapCount + 1 ∧
    g.trapRec.gpc = h.pc ∧ g.trapRec.vstart = h.vstart.setWidth 64 ∧ g.trapRec.addr = f.addr ∧ g.trapRec.port = f.port ∧
    g.trapRec.thread = f.thread.setWidth 64 ∧ g.trapRec.emitPc = f.emitPc ∧ g.trapRec.seq = f.seq ∧
    g.trapRec.cause.extractLsb' 0 20 = f.code ∧ g.trapRec.cause.extractLsb' 20 8 = f.cls ∧
    g.trapRec.cause.getLsbD 28 = f.elevel ∧ g.trapRec.cause.extractLsb' 30 34 = 0 ∧
    g = { h with ctl := .trapped, trapRec := g.trapRec, trapCount := g.trapCount, qStopped := f.elevel || h.qStopped,
                 stalled := false, gStall := none, wait := none, barArrived := none, genStopped := false, gcount := 0 } ∧
    (∀ k, k ≠ hid → hartAt t k = hartAt s k) ∧
    (h.trapsink = 0 → t.mem = s.mem ∧ g.trapRec.cause.getLsbD 29 = false) ∧
    (h.trapsink ≠ 0 → ∀ x, translate s hid sinkAccess h.trapsink = .error x → t.mem = s.mem ∧ g.trapRec.cause.getLsbD 29 = true) ∧
    (h.trapsink ≠ 0 → ∀ y, translate s hid sinkAccess h.trapsink = .ok y → y.place.key = 0 → y.place.kind ≠ 3 →
      g.trapRec.cause.getLsbD 29 = false ∧ ∀ a, devByte t.mem 0 a =
        if y.place.pa ≤ a ∧ a < y.place.pa + 8 then (h.trapCount + 1).extractLsb' (8 * (a - y.place.pa)) 8 else devByte s.mem 0 a)


/-! ### The emit family and the return queue (R75, R76, R78, R197 to R204) -/

/-- An EMIT (R75, R76, R198) is checked in this order, and the first failure is reported: an encoding, or registers that the shape or
the register file does not hold (R17, R19, R74), take class 4; a vector word without vector state class 7; a load queue that the
convoy does not fill class 6 (R47); an illegal combination class 5 under ICT = 1 (R24, R35, R44, R46 to R48); the convoy rules (R80, R230)
class 6; more return-queue entries than 16 class 4 (R203). A refused word changes nothing. An accepted one becomes one entry with what
R76 captures, its types as R47 forms them, and marked where it is an illegal combination; EMITSEQ moves on, the tags of the destination
rows are set (R15, R48), and EMITQ gives 1; a full queue makes EMIT wait and EMITQ give 0. EMITX (R78): the bits of sel, from the lowest,
replace d, a, b, M, k, x, imm14 and fn by the values of s[a], s[b], s[c] in turn; every other bit of the literal stands. -/
def Obligations.EmitAcceptsOneWord : Prop :=
  (∀ (s : State) (i : Instr) (word : Word) (len : Nat),
    (i = .emitl word ∧ len = 12) ∨ (∃ a, i = .emitr a ∧ word = reg s a ∧ len = 4) ∨
      (∃ c a b sel lit, i = .emitx c a b sel lit ∧ word = emitxWord (curHart s) c a b sel lit ∧ len = 12) ∨
      (∃ d a, i = .emitq d a ∧ word = reg s a ∧ len = 4) →
    let h := curHart s
    let rows := h.rows.toNat
    let lcs := laneCount h.own
    let refused (cls code : Nat) : Prop := ∃ t, exec i s = .next t ∧ TakesTrap s t s.cur cls code 0 ∧
      (curHart t).queue = h.queue ∧ (curHart t).tags = h.tags ∧ (curHart t).emitseq = h.emitseq
    (classOfWord word = none → refused 4 0) ∧
    ∀ c w, classOfWord word = some (c, w) →
      let m := reg s w.m
      let conv := if w.c then [] else h.conv.getD []
      let types := formTypes h conv c w m rows
      let entry := makeEntry h (s.cur % 4) h.pc word c w types
      let named : Prop := ∀ n ∈ vecReads c w rows ++ vecWrites c w rows, n ≤ if h.shape then 15 else 31
      let pitch : Prop := (∃ f sp t, c = .vld f sp t) ∨ (∃ o f sp, c = .vst o f sp) ∨ (∃ p sc, c = .vamo p sc) →
        rows ≤ 1 ∨ w.x.toNat ≤ 61
      let absent : Prop := touchesVector c = true ∧ (h.vstate = .absent ∨ lcs = 0)
      let bad := illegalCombo c w entry lcs (coreAt s (s.cur / 4)).flid || !types.rowsAgree || !types.typed ||
        !dstRowsAgree h c w || !lqMatches h entry c w
      let joins : Prop := (w.c = true → canClose h = true) ∧ (c = .vfence → w.c = true) ∧
        convoyOk (conv.filterMap convoyWord ++ [⟨c, w, rows⟩]) = true
      let room : Prop := h.rq.length + owed h.queue + rqPushes c rows ≤ 16
      (¬ named ∨ ¬ pitch → refused 4 0) ∧
      (named → pitch → absent → refused 7 (if lcs = 0 then 1 else 0)) ∧
      (∀ q ∈ lqReads c w, lqFiller conv q = none → types.lqFilled = false) ∧
      (noMode c = false → m >>> 32 ≠ 0 ∨ m.extractLsb' 17 7 ≠ 0 ∨ 12 < modeTd m ∨ 12 < modeTa m ∨ 12 < modeTb m ∨
        4 < modeRmCode m ∨ modeShift m < -63 ∨ 63 < modeShift m → bad = true) ∧
      (readsA c = true → modeTa m ≠ 0 → modeTa m ≠ types.ta → bad = true) ∧
      (readsB c = true → modeTb m ≠ 0 → modeTb m ≠ types.tb → bad = true) ∧
      (12 < types.ta ∨ 12 < types.tb → bad = true) ∧
      (elementWise c = true → readsA c = true → types.ta = 0 → bad = true) ∧
      (elementWise c = true → readsA c = true → ∀ t, tyOf types.ta = some t →
        4096 / tyWidth t * (if h.shape then 2 else 1) * lcs < entry.vl.toNat → bad = true) ∧
      (named → pitch → ¬ absent →
        (types.lqFilled = false → refused 6 0) ∧
        (types.lqFilled = true → bad = true → h.ict = true → refused 5 0) ∧
        (types.lqFilled = true → bad = false ∨ h.ict = false →
          (¬ joins → refused 6 0) ∧
          (joins → ¬ room → refused 4 0) ∧
          (joins → room → h.queue.length < 64 → ∃ t e', exec i s = .next t ∧ NextPc s t len ∧ SameBytes s t ∧
            (curHart t).queue = h.queue ++ [e'] ∧ (curHart t).emitseq = h.emitseq + 1 ∧
            e'.word = word ∧ e'.seq = h.emitseq + 1 ∧ e'.emitPc = h.pc ∧ e'.thread = BitVec.ofNat 2 (s.cur % 4) ∧
            e'.mode = m ∧ e'.x0 = rdN h w.x.toNat ∧ e'.x1 = rdN h (w.x.toNat + 1) ∧ e'.x2 = rdN h (w.x.toNat + 2) ∧
            e'.x3 = rdN h (w.x.toNat + 3) ∧ e'.rows = h.rows ∧ e'.shape = h.shape ∧ e'.rct = h.rct ∧
            (h.vl.toNat < 16384 → e'.vl.toNat = h.vl.toNat) ∧ e'.conv = (w.c || h.conv.isNone) ∧ e'.icx = bad ∧
            (1 ≤ rows →
              (readsA c = true → w.a.toNat < 32 → h.tags[w.a.toNat]? = some e'.taga) ∧
              (readsB c = true → w.b.toNat < 32 → h.tags[w.b.toNat]? = some e'.tagb) ∧
              (readsA c = true → w.a = 32 ∨ w.a = 33 → ∀ f, lqFiller conv (w.a.toNat - 32) = some f → e'.taga = modeTd f.mode) ∧
              (readsB c = true → w.b = 32 ∨ w.b = 33 → ∀ f, lqFiller conv (w.b.toNat - 32) = some f → e'.tagb = modeTd f.mode) ∧
              (readsA c = true → readsB c = true → w.b = 34 ∨ w.b = 35 →
                e'.tagb = if modeTb m ≠ 0 then modeTb m else e'.taga) ∧
              (readsA c = true → w.a = 34 ∨ w.a = 35 → e'.taga =
                if modeTa m ≠ 0 then modeTa m
                else if readsB c = true ∧ w.b ≠ 34 ∧ w.b ≠ 35 then e'.tagb else modeTd m)) ∧
            (writesVec c = true → e'.tagd =
              if bad then
                (if modeTd m ≠ 0 ∧ modeTd m ≤ 12 then modeTd m else if readsA c = true ∧ e'.taga ≤ 12 then e'.taga else 0)
              else if modeTd m ≠ 0 then modeTd m else e'.taga) ∧
            (∀ n, n < 32 → (curHart t).tags[n]? = if n ∈ vecWrites c w rows then some e'.tagd else h.tags[n]?) ∧
            (∀ d a, i = .emitq d a → WritesReg s t d 1) ∧ ((∀ d a, i ≠ .emitq d a) → KeepsRegs s t)) ∧
          (joins → room → 64 ≤ h.queue.length →
            (∀ d a, i = .emitq d a → ∃ t, exec i s = .next t ∧ OnlyScalars s t ∧ NextPc s t 4 ∧ WritesReg s t d 0) ∧
            ((∀ d a, i ≠ .emitq d a) → ∃ t, exec i s = .next t ∧ WaitsAt s t ∧ (curHart t).queue = h.queue))))) ∧
  (∀ l : List ConvoyWord, convoyOk l = true ↔
    let claimed (f : Claims → Nat) : Nat := (l.map fun x => f (claimsOf x.cls)).sum
    l.length ≤ 8 ∧ claimed Claims.a ≤ 2 ∧ claimed Claims.p ≤ 1 ∧ claimed Claims.s ≤ 1 ∧ claimed Claims.x ≤ 1 ∧
    claimed Claims.c ≤ 1 ∧ claimed Claims.loads ≤ 2 ∧ claimed Claims.lq0 ≤ 1 ∧ claimed Claims.lq1 ≤ 1 ∧
    (l.Pairwise fun x y => (∀ n ∈ vecWrites x.cls x.w x.rows, n ∉ vecWrites y.cls y.w y.rows) ∧
      (∀ n ∈ maskWrites x.cls x.w, n ∉ maskWrites y.cls y.w) ∧
      ¬ (writesTile x.cls = true ∧ writesTile y.cls = true ∧ x.w.d = y.w.d)) ∧
    (2 ≤ l.length → ∀ x ∈ l, x.cls ≠ .vfence) ∧
    (∀ before x after, l = before ++ x :: after → ∀ q ∈ lqReads x.cls x.w,
      (∃ y ∈ before, q ∈ lqWrites y.cls) ∧ ∀ y ∈ before, q ∉ lqReads y.cls y.w) ∧
    ¬ ((∃ x ∈ l, tileWise x.cls = true) ∧ ∃ y ∈ l, elementWise y.cls = true)) ∧
  (∀ (h : Hart) (c a b : Reg) (sel : BitVec 8) (lit : Word) (k : Nat), k < 64 →
    let fields := [(0, 50, 6), (1, 44, 6), (2, 38, 6), (3, 32, 6), (4, 28, 4), (5, 14, 6), (6, 0, 14), (7, 20, 7)]
    let vals := [rd h a, rd h b, rd h c]
    (∀ j lo n, (j, lo, n) ∈ fields → lo ≤ k → k < lo + n → (emitxWord h c a b sel lit).getLsbD k =
      match vals[((List.range j).filter fun x => sel.getLsbD x).length]? with
      | some v => if sel.getLsbD j then v.getLsbD (k - lo) else lit.getLsbD k
      | none => lit.getLsbD k) ∧
    ((∀ j lo n, (j, lo, n) ∈ fields → k < lo ∨ lo + n ≤ k) → (emitxWord h c a b sel lit).getLsbD k = lit.getLsbD k))


/-- RQPOP (R204): it removes the oldest entry and writes it to d (s0 included in removing); with nothing there it waits while entries are
owed, and takes class 1 when nothing is. HALT discards what is not removed (R117). -/
def Obligations.ReturnQueuePop : Prop :=
  ∀ (s : State) (d : Reg), let h := curHart s
    (∀ v rest, h.rq = v :: rest → ∃ t, exec (.rqpop d) s = .next t ∧ NextPc s t 4 ∧ WritesReg s t d v ∧
      t = setCur s { h with rq := rest, sregs := (curHart t).sregs, pc := h.pc + 4, stalled := false }) ∧
    (h.rq = [] → 0 < owed h.queue → ∃ t, exec (.rqpop d) s = .next t ∧ WaitsAt s t) ∧
    (h.rq = [] → owed h.queue = 0 → ∃ t, exec (.rqpop d) s = .next t ∧ TakesTrap s t s.cur 1 0 0) ∧
    (canClose h = true → h.queue = [] → ∃ t, exec .halt s = .next t ∧ (curHart t).rq = [])

/-! ### Harts, farms and barriers (R213 to R215, R278 to R284) -/

/-- FORK (R213): the child in the lowest free slot of the core takes the highest-numbered half of the lane clusters, rounded down, with
their bytes, and the parent's scalar state but d; the parent keeps the rest and gets the child's HID; both have VL 0. -/
def Obligations.ForkMakesAChild : Prop :=
  ∀ (s : State) (d : Reg), let h := curHart s
    let core := s.cur / 4
    let clusters := (List.range 4).filter fun k => h.own.getLsbD k
    let kept := (clusters.length + 1) / 2
    canClose h = true → h.queue = [] → h.ctl ≠ .idle →
    ((∀ k, k < 4 → slotFree s (4 * core + k) = false) →
      ∃ t, exec (.fork d) s = .next t ∧ WritesReg s t d (BitVec.allOnes 64) ∧ NextPc s t 4) ∧
    (∀ k, k < 4 → slotFree s (4 * core + k) = true → (∀ j, j < k → slotFree s (4 * core + j) = false) →
      (h.vstate = .absent → clusters.length < 2) →
      ∃ t, exec (.fork d) s = .next t ∧ WritesReg s t d (BitVec.ofNat 64 (4 * core + k)) ∧ NextPc s t 4 ∧
        (curHart t).vl = 0 ∧ (∀ j, (curHart t).own.getLsbD j = decide (j ∈ clusters.take kept)) ∧
        (let g := hartAt t (4 * core + k);
          g.ctl = .run ∧ g.pc = h.pc + 4 ∧ (∀ r, rd g r = if r = d then 0 else reg s r) ∧
          (∀ j, g.own.getLsbD j = decide (j ∈ clusters.drop kept)) ∧ g.parent = some s.cur ∧
          g.vl = 0 ∧ g.vxsr = 0 ∧ g.emitseq = 0 ∧ g.trapCount = 0 ∧ g.rows = h.rows ∧ g.shape = h.shape ∧ g.tags = h.tags ∧
          g.windows = h.windows ∧ g.root = h.root ∧ g.trapsink = h.trapsink ∧ g.lastArea = (hartAt s (4 * core + k)).lastArea ∧
          g.vstate = (if g.own = 0 then .absent else .present) ∧
          ∀ n j, n < (if h.shape then 16 else 32) → j < (if h.shape then 32768 else 16384) →
            (vreg g h.shape n).getLsbD j =
              (vreg h h.shape n).getLsbD (j + 4096 * kept * (if h.shape then 2 else 1))))

/-- JOIN (R215): a HID that names no child of this hart gives all ones and nothing else; a child that has not halted makes JOIN wait; one
that has gives back its lane clusters, their bytes above the parent's own, and its flags, and its slot is free. -/
def Obligations.JoinTakesTheChildBack : Prop :=
  ∀ (s : State) (d a : Reg), let h := curHart s
    let isChild (n : Nat) : Prop := reg s a = BitVec.ofNat 64 n ∧ n < 3072 ∧ (hartAt s n).parent = some s.cur
    ((∀ n, ¬ isChild n) → ∃ t, exec (.join d a) s = .next t ∧ OnlyScalars s t ∧ NextPc s t 4 ∧
      WritesReg s t d (BitVec.allOnes 64)) ∧
    (∀ n, isChild n → canClose h = true → h.queue = [] → h.ctl ≠ .idle →
      let c := hartAt s n
      (c.ctl ≠ .idle → ∃ t, exec (.join d a) s = .next t ∧ WaitsAt s t) ∧
      (c.ctl = .idle → ∃ t, exec (.join d a) s = .next t ∧ NextPc s t 4 ∧ WritesReg s t d 0 ∧
        (curHart t).own = h.own ||| c.own ∧ (curHart t).vxsr = h.vxsr ||| c.vxsr ∧ (curHart t).vl = 0 ∧
        (curHart t).tags = h.tags ∧ (curHart t).masks = h.masks ∧
        (hartAt t n).parent = none ∧ (hartAt t n).own = 0 ∧ slotFree t n = true ∧
        ∀ k j, k < (if h.shape then 16 else 32) → j < (if h.shape then 32768 else 16384) →
          let bits := 4096 * laneCount h.own * (if h.shape then 2 else 1)
          (vreg (curHart t) h.shape k).getLsbD j =
            if j < bits then (vreg h h.shape k).getLsbD j else (vreg c h.shape k).getLsbD (j - bits)))

/-- FARM and NEXTS (R278 to R280, R292 to R294): a hart's n-th FARM names generation n, and the first of the team fixes its range, cut
so that no index is 2^64 − 1 and divided among the dies of the team; NEXTS hands out the next strips of its die's share, or, where
that is used up, of the upper half of the largest rest among the other dies, or all ones and 0 when every share is used up. What is
handed out leaves the shares: NEXT of the die's share is raised past it, and END of the share stolen from lowered, so that no index is
handed out twice. That both are illegal for every hart outside a launch, not for FORK children alone, is the model's choice (log 38). -/
def Obligations.FarmStrips : Prop :=
  (∀ (s : State) (a b : Reg), let h := curHart s
    (h.team = none → ∃ t, exec (.farm a b) s = .next t ∧ TakesTrap s t s.cur 1 0 0) ∧
    (∀ n, h.team = some n → let gen := findGen (teamAt s n) (h.farmGen + 1)
      ∃ t, exec (.farm a b) s = .next t ∧ NextPc s t 4 ∧ KeepsRegs s t ∧ SameBytes s t ∧ (curHart t).farmGen = h.farmGen + 1 ∧
        (gen.isSome = true → teamAt t n = teamAt s n) ∧
        (gen = none → ∃ g : FarmGen, findGen (teamAt t n) (h.farmGen + 1) = some g ∧
          (∀ k, k ≠ h.farmGen + 1 → findGen (teamAt t n) k = findGen (teamAt s n) k) ∧
          let lo := (reg s a).toNat
          let count := min (reg s b).toNat (2 ^ 64 - 1 - lo)
          let dies := (List.range 24).filter fun d => (teamAt s n).members.any fun m => m.hid / 128 == d
          g.shares.length = dies.length ∧ ∀ j die, dies[j]? = some die →
            g.shares[j]? = some (⟨die, lo + j * count / dies.length, lo + (j + 1) * count / dies.length⟩ : Share)))) ∧
  (∀ (s : State) (d a : Reg), 1 ≤ d.toNat → d.toNat ≤ 62 → let h := curHart s
    let gives (n : Nat) (v w : Word) (after : Option FarmGen) : Prop := ∃ t, exec (.nexts d a) s = .next t ∧ NextPc s t 4 ∧
      SameBytes s t ∧ (∀ r, reg t r = if r = d then v else if r = d + 1 then w else reg s r) ∧
      findGen (teamAt t n) h.farmGen = after ∧ (∀ k, k ≠ h.farmGen → findGen (teamAt t n) k = findGen (teamAt s n) k) ∧
      ∀ k, k ≠ n → teamAt t k = teamAt s k
    let want := max 1 (reg s a).toNat
    (h.team = none → ∃ t, exec (.nexts d a) s = .next t ∧ TakesTrap s t s.cur 1 0 0) ∧
    (∀ n g x, h.team = some n → findGen (teamAt s n) h.farmGen = some g → g.shares.find? (fun x => x.die == s.cur / 128) = some x →
      (x.next < x.stop → let cnt := min want (x.stop - x.next)
        gives n (BitVec.ofNat 64 x.next) (BitVec.ofNat 64 cnt) (some { g with
          shares := g.shares.map fun y => if y.die = x.die then { y with next := x.next + cnt } else y })) ∧
      (∀ before v after, x.stop ≤ x.next → g.shares = before ++ v :: after → v.next < v.stop → v.die ≠ x.die →
        (∀ y ∈ before, y.stop - y.next < v.stop - v.next) → (∀ y ∈ after, y.stop - y.next ≤ v.stop - v.next) →
        let half := (v.stop - v.next + 1) / 2
        let cnt := min want half
        gives n (BitVec.ofNat 64 (v.stop - half)) (BitVec.ofNat 64 cnt) (some { g with
          shares := g.shares.map fun y =>
            if y.die = x.die then { y with next := v.stop - half + cnt, stop := v.stop }
            else if y.die = v.die then { y with stop := v.stop - half } else y }))) ∧
    (∀ n, h.team = some n → (∀ g, findGen (teamAt s n) h.farmGen = some g → ∀ x ∈ g.shares, x.stop ≤ x.next) →
      gives n (BitVec.allOnes 64) 0 (findGen (teamAt s n) h.farmGen)))

/-- BAR (R281 to R284): illegal for every hart outside a launch, FORK children and others alike (the others by log 38, the model's
choice); it performs the hart's waiting stores, at system scope as a release does, and arrives; the last participant to arrive passes
at once, PC past its BAR and its count of barriers moved on; before that BAR waits, arrived. A barrier that everyone has reached
completes for a hart that waits in it, and not before. -/
def Obligations.BarrierArrival : Prop :=
  (∀ (s : State) (sc : Scope), let h := curHart s
    (h.team = none → ∃ t, exec (.bar sc) s = .next t ∧ TakesTrap s t s.cur 1 0 0) ∧
    (h.team ≠ none → canClose h = true → h.queue = [] →
      let others := (participants s s.cur sc).filter fun m => m.hid != s.cur
      let here := (participants s s.cur sc).any fun m => m.hid == s.cur
      (others.all (hasArrived s sc (barsDone h sc)) = true → here = true →
        (∀ m ∈ participants s s.cur sc, m.hid = s.cur → m.launched = true) →
        ((participants s s.cur sc).map (·.hid)).Nodup →
        ∃ t, exec (.bar sc) s = .next t ∧ NextPc s t 4 ∧ KeepsRegs s t ∧ barsDone (curHart t) sc = barsDone h sc + 1 ∧
          (curHart t).barArrived = none ∧ t.mem = (releaseAt s sc).mem) ∧
      (others.all (hasArrived s sc (barsDone h sc)) = false →
        ∃ t, exec (.bar sc) s = .next t ∧ WaitsAt s t ∧ (curHart t).barArrived = some sc ∧ t.mem = (releaseAt s sc).mem))) ∧
  (∀ (s : State) (hid : Nat), let h := hartAt s hid
    (h.barArrived = none → exec (.barrierComplete hid) s = .next s) ∧
    (∀ sc, h.barArrived = some sc → let ps := participants s hid sc
      (ps.all (hasArrived s sc (barsDone h sc)) = false → exec (.barrierComplete hid) s = .next s) ∧
      (ps.all (hasArrived s sc (barsDone h sc)) = true → (ps.map (·.hid)).Nodup → (∃ m ∈ ps, m.hid = hid) →
        ∃ t, exec (.barrierComplete hid) s = .next t ∧ t = { s with harts := t.harts } ∧
          (hartAt t hid).pc = h.pc + 4 ∧ barsDone (hartAt t hid) sc = barsDone h sc + 1 ∧ (hartAt t hid).barArrived = none ∧
          ∀ r, rd (hartAt t hid) r = rd h r)))

/-! ### E-words: element-wise words (R121 to R166) -/

/-- An element-wise word alone in the queue performs its sweep, position by position from where it resumes (R18, R30, R121, R124), and
completes: its acts are made in order, its flags reach VXSR, a fold reduction pushes its value. Named: the 21 VARITH words, VMAC,
VNMAC, the 7 VCMP words, VSEL, the 3 VCVT words, BCAST, INDEX, VMV, the 6 fold reductions, VLD into a register, VST, VAMO. A VLD into a
load queue fills it, and completes when its convoy holds no consumer and takes no further word (R155). A fold needs room in the return
queue for its value. A store that lands in a control page is R166's affair. -/
def Obligations.ElementWordsComplete : Prop :=
  (∀ (s : State) (i : Instr) (w : EFields) (e : Entry) f sp q, i = .vld w f sp q → q ≠ .reg →
    Alone s i (.vld f sp q) w e → (curHart s).conv = none →
    let u := enterWindow s s.cur
    let r := sweep s.cur e.shape (elemAt u.mem (curHart u) s.cur e (.vld f sp q) w) u (foldValue e) (keysToRead e (.vld f sp q))
    r.fault = none → r.stall = none →
    ∃ t, exec i s = .next t ∧ Completes r.shadow t e (e.flags ||| orActs r.acts ||| flagIf e.icx flagICX) []) ∧
  ∀ (s : State) (i : Instr) (c : EClass) (w : EFields) (e : Entry),
    i ∈ [.vadd w, .vsub w, .vmul w, .vmulh w, .vdiv w, .vrem w, .vmin w, .vmax w, .vabs w, .vneg w, .vand w, .vor w, .vxor w,
        .vnot w, .vshl w, .vshr w, .vsqrt w, .vexp2 w, .vlog2 w, .vrsq w, .vrcp w, .vmac w, .vnmac w, .vcmpEq w, .vcmpNe w,
        .vcmpLt w, .vcmpLe w, .vcmpGt w, .vcmpGe w, .vcmpUnord w, .vsel w, .vcvtCvt w, .vcvtRes w, .vcvtCrt w, .bcast w,
        .index w, .vmv w, .vredSum w, .vredMax w, .vredMin w, .vredAnd w, .vredOr w, .vredXor w] ∨
      (∃ f sp, i = .vld w f sp .reg) ∨ (∃ o f sp, i = .vst w o f sp) ∨ (∃ p sc, i = .vamo w p sc) →
    Alone s i c w e → RoomFor s c e →
    let u := enterWindow s s.cur
    let r := sweep s.cur e.shape (elemAt u.mem (curHart u) s.cur e c w) u (foldValue e) (keysLeft e)
    r.fault = none → r.stall = none → (∀ a ∈ r.acts, ∀ x ∈ a.effs, ∀ pa v, x ≠ .ctl pa v) →
    ∃ t, exec i s = .next t ∧
      Completes { r.shadow with mem := unpoison r.shadow.mem (storedRanges r.acts) } t e
        (e.flags ||| orActs r.acts ||| flagIf e.icx flagICX) (foldPush e c r.acc)

/-- The fault of an element-wise word (R164, R165, R187, R189) is precise: the positions before it have been committed and no other,
VSTART is its position, the word stays in the queue to go on from there, with the flags that it has raised (R31), and the hart has trapped at E level with the word's
provenance. -/
def Obligations.ElementFaultsArePrecise : Prop :=
  ∀ (s : State) (i : Instr) (c : EClass) (w : EFields) (e : Entry),
    Alone s i c w e → elementWise c = true → (∀ f sp t, c = .vld f sp t → t = .reg) → running (curHart s) = true →
    (curHart s).trapsink = 0 →
    let h := curHart s
    let u := enterWindow s s.cur
    let r := sweep s.cur e.shape (elemAt u.mem (curHart u) s.cur e c w) u (foldValue e) (keysLeft e)
    (∀ a ∈ r.acts, ∀ x ∈ a.effs, ∀ pa v, x ≠ .ctl pa v) → ∀ p f, r.fault = some (p, f) →
    ∃ t, exec i s = .next t ∧ p ∈ keysLeft e ∧ t.mem = unpoison r.shadow.mem (storedRanges r.acts) ∧
      let g := curHart t
      g.ctl = .trapped ∧ g.qStopped = true ∧ g.vstart = BitVec.ofNat 32 p ∧ g.trapCount = h.trapCount + 1 ∧
      g.trapRec.cause.extractLsb' 0 20 = f.code ∧ g.trapRec.cause.extractLsb' 20 8 = f.cls ∧
      g.trapRec.cause.getLsbD 28 = true ∧ g.trapRec.gpc = h.pc ∧ g.trapRec.vstart = BitVec.ofNat 64 p ∧
      g.trapRec.addr = f.addr ∧ g.trapRec.port = f.port ∧ g.trapRec.thread = e.thread.setWidth 64 ∧
      g.trapRec.emitPc = e.emitPc ∧ g.trapRec.seq = e.seq ∧
      g.vregs = (curHart r.shadow).vregs ∧ g.masks = (curHart r.shadow).masks ∧ g.rq = h.rq ∧ g.sregs = h.sregs ∧ g.pc = h.pc ∧
      g.vxsr = h.vxsr ∧ (isFold c = true → e.icx = false → g.rstate = r.acc) ∧
      ∃ e', g.queue = [e'] ∧ e'.word = e.word ∧ e'.complete = false ∧ e'.flags = e.flags ||| orActs r.acts ∧ keysLeft e' = (keysLeft e).filter fun k => decide (p ≤ k)

/-- What the register words VARITH, VMAC, VSEL, VCVT, BCAST, INDEX and VMV leave (R16, R19, R121, R124 to R140): every active position
that the word still had to perform holds the result of its source elements as they stood before the word, all at once; every other
element of the destination rows, and every other register, stands. The flags are those of the active positions. For sources that
are the destination rows themselves or rows apart from them; where R49 could fault, SSR.RCT is 0. -/
def Obligations.RegisterElementResults : Prop :=
  ∀ (s : State) (i : Instr) (c : EClass) (w : EFields) (e : Entry) (t : Ty),
    Alone s i c w e → e.icx = false → (tyOf e.taga = some t ∨ c = .vperm 7) → (t ≠ .t3 ∨ e.rct = false) →
    let h := curHart s
    let rows := e.rows.toNat
    let room := if e.shape then 32768 else 16384
    let regs := if e.shape then 16 else 32
    let raw (code : Reg) (ty : Ty) (r k : Nat) : Nat := srcElem h e w code ty r k
    let bad (code : Reg) (r k : Nat) : Bool := code != 35#6 && t == .t3 && t3Reserved (raw code t r k)
    let src (code : Reg) (r k : Nat) : Nat := if bad code r k then 0 else raw code t r k
    let rcr (code : Reg) (r k : Nat) : Flags := if bad code r k then flagRCR else 0
    let clear (code : Reg) : Prop := isVec code = true → code.toNat + rows ≤ w.d.toNat ∨ w.d.toNat + rows ≤ code.toNat
    let apart (code : Reg) : Prop := code = w.d ∨ clear code
    let gives (width : Nat) (act : Nat → Bool) (f : Nat → Nat → Nat × Flags) : Prop :=
      w.d.toNat + rows ≤ regs → e.vl.toNat * width ≤ room →
      ∃ u, exec i s = .next u ∧ (curHart u).masks = h.masks ∧
        CompletesInLanes s u e ((keysLeft e).foldl (fun z p => if act (keyElem p) then z ||| (f (keyRow p) (keyElem p)).2 else z) e.flags) [] ∧
        (∀ n, n < regs → n < w.d.toNat ∨ w.d.toNat + rows ≤ n → vreg (curHart u) e.shape n = vreg h e.shape n) ∧
        ∀ r k, r < rows → (k + 1) * width ≤ room → elem (curHart u) e.shape (w.d.toNat + r) width k =
          if posKey r k ∈ keysLeft e ∧ act k = true then (f r k).1 % 2 ^ width else elem h e.shape (w.d.toNat + r) width k
    (∀ fn, c = .varith fn → apart w.a → (readsB c = true → apart w.b) →
      gives (tyWidth t) (activeAt h w) fun r k =>
        let b := if readsB c then src w.b r k else 0
        let x := varithElem fn t e.mode (src w.a r k) b
        (x.1, x.2 ||| rcr w.a r k ||| (if readsB c then rcr w.b r k else 0))) ∧
    (∀ neg, c = .vmac neg → apart w.a → apart w.b →
      gives (tyWidth t) (activeAt h w) fun r k =>
        let x := vmacElem neg t e.mode (src w.a r k) (src w.b r k) (src w.d r k)
        (x.1, x.2 ||| rcr w.a r k ||| rcr w.b r k ||| rcr w.d r k)) ∧
    (c = .vsel → apart w.a → apart w.b →
      gives (tyWidth t) (fun _ => true) fun r k => (raw (if activeAt h w k then w.a else w.b) t r k, 0)) ∧
    (∀ d, tyOf (dstType e.mode e.taga) = some d →
      (c = .vcvt 0 → clear w.a ∨ w.a = w.d ∧ tyWidth d = tyWidth t →
        gives (tyWidth d) (activeAt h w) fun r k => convElem t d e.mode (raw w.a t r k)) ∧
      (c = .vcvt 1 → clear w.a ∨ w.a = w.d ∧ tyWidth d = tyWidth t →
        gives (tyWidth d) (activeAt h w) fun r k => resElem t (raw w.a t r k)) ∧
      (c = .vcvt 2 → clear w.a ∨ w.a = w.d ∧ tyWidth d = tyWidth t →
        (∀ p ∈ keysLeft e, activeAt h w (keyElem p) = true → t3CheckOk (src w.a (keyRow p) (keyElem p)) = true) →
        gives (tyWidth d) (activeAt h w) fun r k =>
          let x := crtElem d e.mode (e.x0.toNat % 2 ^ 32) (src w.a r k)
          (x.1, x.2 ||| rcr w.a r k)) ∧
      (c = .vperm 6 → clear w.a →
        gives (tyWidth d) (activeAt h w) fun r _ => (if w.imm.toNat < e.vl.toNat then raw w.a d r w.imm.toNat else 0, 0)) ∧
      (c = .vperm 7 →
        gives (tyWidth d) (activeAt h w) fun r k => fit d (modeSat e.mode) (w.imm.toInt + r * e.vl.toNat + k)) ∧
      (c = .vperm 8 → apart w.a → gives (tyWidth d) (activeAt h w) fun r k => (raw w.a d r k, 0)))

/-- The words whose result is a mask or an entry of the return queue (R17, R62, R123, R130, R131, R141 to R145). A comparison and a MASK
word write active positions only, guarded by the mask as it stood; a fold goes over the active elements in order from its start
value; SUMU pairs the elements of each row and then the rows; MPOPC counts and MFIRST finds the active ones; EXTRACT pushes one element
of each row. A word that pushes and finds too few free entries in the return queue stays where it is (R123). What a comparison and a step
of a fold give is stated in VectorElementValues. -/
def Obligations.MaskAndReductionResults : Prop :=
  ∀ (s : State) (i : Instr) (c : EClass) (w : EFields) (e : Entry) (t : Ty),
    Alone s i c w e → e.icx = false → (t ≠ .t3 ∨ e.rct = false) →
    let h := curHart s
    let vl := e.vl.toNat
    let rows := e.rows.toNat
    let raw (code : Reg) (r k : Nat) : Nat := srcElem h e w code t r k
    let bad (code : Reg) (r k : Nat) : Bool := code != 35#6 && t == .t3 && t3Reserved (raw code r k)
    let src (code : Reg) (r k : Nat) : Nat := if bad code r k then 0 else raw code r k
    let rcr (code : Reg) (r k : Nat) : Flags := if bad code r k then flagRCR else 0
    let md := w.d.toNat - 32
    let room : Prop := RoomFor s c e
    let masked (f : Nat → Bool) (write : Nat → Prop) (flags : Flags) : Prop :=
      ∃ u, exec i s = .next u ∧ (curHart u).vregs = h.vregs ∧ CompletesInLanes s u e flags [] ∧
        (∀ m, m < 16 → m ≠ md → (curHart u).masks[m]? = h.masks[m]?) ∧
        (∀ k, k < 8192 → write k → maskBit (curHart u) md k = f k) ∧
        (∀ k, k < 8192 → ¬ write k → maskBit (curHart u) md k = maskBit h md k)
    let pushes (v : Word) (flags : Flags) : Prop :=
      ∃ u, exec i s = .next u ∧ (curHart u).vregs = h.vregs ∧ (curHart u).masks = h.masks ∧ CompletesInLanes s u e flags [v]
    (∀ cc, c = .vcmp cc → i ∈ [.vcmpEq w, .vcmpNe w, .vcmpLt w, .vcmpLe w, .vcmpGt w, .vcmpGe w, .vcmpUnord w] → rows = 1 → tyOf e.taga = some t → vl ≤ 8192 → 1 ≤ md → md < 16 →
      let x (k : Nat) : Bool × Flags := vcmpElem cc t e.mode (src w.a 0 k) (src w.b 0 k)
      masked (fun k => (x k).1) (fun k => k ∈ keysLeft e ∧ activeAt h w k = true)
        ((keysLeft e).foldl (fun z k => if activeAt h w k then z ||| ((x k).2 ||| rcr w.a 0 k ||| rcr w.b 0 k) else z) e.flags)) ∧
    (∀ fn, c = .mask fn → i ∈ [.mand w, .mor w, .mxor w, .mandn w, .mnot w, .mset w] → pastEnd e = false → vl ≤ 8192 → 1 ≤ md → md < 16 →
      let ma := maskBit h w.a.toNat
      let mb := maskBit h w.b.toNat
      let writes (f : Nat → Bool) : Prop := masked f (fun k => k < vl ∧ activeAt h w k = true) e.flags
      (i = .mand w → writes fun k => ma k && mb k) ∧ (i = .mor w → writes fun k => ma k || mb k) ∧
      (i = .mxor w → writes fun k => ma k != mb k) ∧ (i = .mandn w → writes fun k => ma k && !mb k) ∧
      (i = .mnot w → writes fun k => !ma k) ∧ (i = .mset w → writes fun _ => w.imm.getLsbD 0)) ∧
    (¬ room → i ∈ [.mpopc w, .mfirst w, .extract w] ∨ i = .vredSumu w ∧ tyOf e.taga = some t →
      ∃ u, exec i s = .next u ∧ StaysQueued s u e) ∧
    (i = .mpopc w → room → pastEnd e = false →
      pushes (BitVec.ofNat 64 ((List.range vl).filter fun k => activeAt h w k && maskBit h w.a.toNat k).length) e.flags) ∧
    (i = .mfirst w → room → pastEnd e = false →
      (∀ k, k < vl → (activeAt h w k && maskBit h w.a.toNat k) = true →
        (∀ j, j < k → (activeAt h w j && maskBit h w.a.toNat j) = false) → pushes (BitVec.ofNat 64 k) e.flags) ∧
      ((∀ k, k < vl → (activeAt h w k && maskBit h w.a.toNat k) = false) → pushes (BitVec.allOnes 64) e.flags)) ∧
    (∀ fn d, c = .vred fn → i ∈ [.vredSum w, .vredMax w, .vredMin w, .vredAnd w, .vredOr w, .vredXor w] → room → tyOf e.taga = some t → tyOf (dstType e.mode e.taga) = some d →
      let step (x : Word × Flags) (p : Nat) : Word × Flags :=
        if activeAt h w (keyElem p) then
          let v := foldIn t d e.mode (src w.a (keyRow p) (keyElem p))
          let y := foldStep fn d e.mode (x.1.toNat % 2 ^ tyWidth d) v.1
          (BitVec.ofNat 64 y.1, x.2 ||| (y.2 ||| v.2 ||| rcr w.a (keyRow p) (keyElem p)))
        else x
      let x := (keysLeft e).foldl step (foldValue e, e.flags)
      pushes (pushValue d (x.1.toNat % 2 ^ tyWidth d)) x.2) ∧
    (∀ d, i = .vredSumu w → room → tyOf e.taga = some t → tyOf (dstType e.mode e.taga) = some d → pastEnd e = false →
      let leaf (r k : Nat) : Nat × Flags := leafIn t d e.mode (src w.a r k)
      let row (r : Nat) : Option Nat × Flags :=
        treeReduce (foldStep 0 d e.mode) ((List.range vl).map fun k => if activeAt h w k then some (leaf r k).1 else none) 15
      let all := treeReduce (foldStep 0 d e.mode) ((List.range rows).map fun r => (row r).1) 15
      let leafFlags (r : Nat) : Flags :=
        (List.range vl).foldl (fun z k => if activeAt h w k then z ||| ((leaf r k).2 ||| rcr w.a r k) else z) 0
      pushes (pushValue d (all.1.getD 0)) ((List.range rows).foldl (fun z r => z ||| ((row r).2 ||| leafFlags r)) (e.flags ||| all.2))) ∧
    (i = .extract w → room → tyOf e.taga = some t → pastEnd e = false →
      ∃ u, exec i s = .next u ∧ (curHart u).vregs = h.vregs ∧ (curHart u).masks = h.masks ∧
        CompletesInLanes s u e e.flags ((List.range rows).map fun r =>
          if w.imm.toNat < vl ∧ activeAt h w w.imm.toNat = true then pushValue t (raw w.a r w.imm.toNat) else 0)) ∧
    (pastEnd e = true → room → (i = .mpopc w ∨ i = .vredSumu w → pushes 0 e.flags) ∧ (i = .mfirst w → pushes (BitVec.allOnes 64) e.flags))

/-- The permutations performed whole, and VTYPE (R124, R136 to R139, R146): each element of a destination row comes from an element of the
same row of a as it stood before the word, whatever rows overlap; a slide fills with b, its bits cut to a's element or zero-extended to
it (the model's choice: DEDUCED, log 45); an index at or above VL gives zero bytes,
COMPRESS packs the selected elements from element 0 on; VTYPE writes no data. -/
def Obligations.PermutationResults : Prop :=
  ∀ (s : State) (i : Instr) (c : EClass) (w : EFields) (e : Entry) (t : Ty),
    Alone s i c w e → e.icx = false → (i = .vtype w ∨ tyOf e.taga = some t ∧ pastEnd e = false) →
    let h := curHart s
    let vl := e.vl.toNat
    let rows := e.rows.toNat
    let room := if e.shape then 32768 else 16384
    let regs := if e.shape then 16 else 32
    let src (r k : Nat) : Nat := srcElem h e w w.a t r k
    let fill : Nat := match tyOf e.tagb with
      | some u => srcElem h e w w.b u 0 0
      | none => 0
    let gives (f : Nat → Nat → Option Nat) : Prop := w.d.toNat + rows ≤ regs → vl * tyWidth t ≤ room →
      ∃ u, exec i s = .next u ∧ (curHart u).masks = h.masks ∧ CompletesInLanes s u e e.flags [] ∧
        (∀ n, n < regs → n < w.d.toNat ∨ w.d.toNat + rows ≤ n → vreg (curHart u) e.shape n = vreg h e.shape n) ∧
        ∀ r k, r < rows → (k + 1) * tyWidth t ≤ room → elem (curHart u) e.shape (w.d.toNat + r) (tyWidth t) k =
          match f r k with
          | some x => x % 2 ^ tyWidth t
          | none => elem h e.shape (w.d.toNat + r) (tyWidth t) k
    let active (f : Nat → Nat → Nat) (r k : Nat) : Option Nat := if k < vl ∧ activeAt h w k = true then some (f r k) else none
    let o := e.x1.toNat
    (i = .slideup w → gives (active fun r k => if o ≤ k then src r (k - o) else fill)) ∧
    (i = .slidedn w → gives (active fun r k => if k + o < vl then src r (k + o) else fill)) ∧
    (i = .slide1up w → gives (active fun r k => if 1 ≤ k then src r (k - 1) else fill)) ∧
    (i = .slide1dn w → gives (active fun r k => if k + 1 < vl then src r (k + 1) else fill)) ∧
    (∀ u, i = .gatherv w → tyOf e.tagb = some u →
      gives (active fun r k => let j := srcElem h e w w.b u r k; if j < vl then src r j else 0)) ∧
    (i = .compress w →
      gives fun r k => (((List.range vl).filter fun j => activeAt h w j)[k]?).map (src r)) ∧
    (i = .vtype w → ∃ u, exec i s = .next u ∧ (curHart u).vregs = h.vregs ∧ (curHart u).masks = h.masks ∧ CompletesInLanes s u e e.flags [])

/-! ### Matrix, copy, tile and collective words (R56 to R60, R218 to R241, R393 to R399) -/

/-- MOPA and MOPM (R56 to R60, R220 to R225): on a READY tile whose mode and depth admit them they perform their k-steps in increasing
order from KPROG on and complete, K, D and TYPE following; while an X word of another hart entered the issue window first, or at its
start the tile is not READY, they wait; at the start a tile of the other mode, or too deep, is the fault of class 19; one that has
started is not tested again. A k-step adds to element
(m, n) the product of element m of one operand and element n of the other: channel by channel in triad mode, with one rounding
in BF16 mode. -/
def Obligations.MultiplyWordResults : Prop :=
  (∀ (s : State) (i : Instr) (c : EClass) (w : EFields) (e : Entry),
    Alone s i c w e → e.icx = false → i = .mopa w ∨ i = .mopm w →
    let u := enterWindow s s.cur
    let core := coreOf s.cur
    let n := w.d.toNat
    let x := tileAt (coreAt s core) (96 + n)
    let triad := modeTd e.mode == 12
    let ta := (tyOf (if c = .mopa then e.taga else modeTa e.mode)).getD .i8
    let tb := (tyOf (if c = .mopa then e.tagb else modeTb e.mode)).getD .i8
    let weight := (pairWeight ta tb).getD 0
    let total := if c = .mopa then e.vl.toNat / 64 * e.rows.toNat else w.imm.toNat
    let left := total - e.kdone.toNat
    let first := arrayFree u s.cur e = true
    (¬ first ∨ e.started = false ∧ x.state ≠ .ready → ∃ t, exec i s = .next t ∧ StaysQueued s t e) ∧
    (first → e.started = false → x.state = .ready → running (curHart s) = true → ((x.mode == .triad) != triad ∨ triad = true ∧ depthLimit < x.d + left * weight) →
      ∃ t, exec i s = .next t ∧ (curHart t).ctl = .trapped ∧ field (curHart t).trapRec.cause 20 8 = 19 ∧
        field (curHart t).trapRec.cause 0 20 = (if (x.mode == .triad) != triad then n + 16 else n) ∧
        (coreAt t core).cb = (coreAt s core).cb ∧ (coreAt t core).tiles = (coreAt s core).tiles) ∧
    (first → e.started = true ∨
        x.state = .ready ∧ (x.mode == .triad) = triad ∧ (triad = true → x.d + left * weight ≤ depthLimit) →
      let r := runSteps triad (modeFtz e.mode) (if c = .mopa then mopaOps s.cur e w ta tb else mopmOps s.cur e ta tb)
        ⟨u, tileList (coreAt u core) n, e.kdone.toNat, 0, none⟩ left
      r.fault = none →
      ∃ t, exec i s = .next t ∧ Completes (setCore r.state core (coreAt t core)) t e (e.flags ||| r.flags) [] ∧
        coreAt t core = setTile (setTileData (coreAt u core) n r.tile) (96 + n) { x with
          k := BitVec.ofNat 32 (min (x.k.toNat + left) 16777215), d := if triad then x.d + left * weight else x.d,
          type := if triad || left = 0 then x.type else 11 })) ∧
  (∀ (ftz : Bool) (tile xs ys : List Nat) (m n : Nat), tile.length = 4096 → xs.length = 64 → ys.length = 64 → m < 64 → n < 64 →
    ∀ z x y, tile[64 * m + n]? = some z → xs[m]? = some x → ys[n]? = some y →
      (let v := (matStep true ftz tile xs ys).1[64 * m + n]?.getD 0
       t3C256 v = (t3C256 z + t3C256 x * t3C256 y) % 256 ∧ t3C255 v = (t3C255 z + t3C255 x * t3C255 y) % 255 ∧
       t3C257 v = (t3C257 z + t3C257 x * t3C257 y) % 257 ∧ t3C7 v = (t3C7 z + t3C7 x * t3C7 y) % 7) ∧
      (matStep false ftz tile xs ys).1[64 * m + n]? = some (fAdd fmtSingle .rne ftz
        (exactMul (unpack fmtBrain ftz x) (unpack fmtBrain ftz y)).1 (unpack fmtSingle ftz z)).1)

/-- MZERO, MBF, MROW.R, MROW.W and MCVT (R59, R227 to R229): on a READY tile MZERO makes a zero triad tile, MBF a BF16 tile with its bits
as they are; MROW.R copies tile rows to registers, MROW.W registers to tile rows; MCVT writes x · s, or adds it, at every
position from where it resumes, and sets TYPE when it completes, with positions left or none (log 43). Each waits while a tile it names is
not READY, or while an X word of another hart entered the window first. -/
def Obligations.TileWordResults : Prop :=
  ∀ (s : State) (i : Instr) (c : EClass) (w : EFields) (e : Entry),
    Alone s i c w e → e.icx = false →
    let u := enterWindow s s.cur
    let h := curHart s
    let core := coreOf s.cur
    let k := coreAt u core
    let n := w.d.toNat
    let x := tileAt k (96 + n)
    let from_ := w.imm.toNat % 16
    let cell (k : CoreSt) (t j : Nat) : Nat := bitsAt (k.cb[t]?.getD 0) (32 * j) 32
    let done (k' : CoreSt) (flags : Flags) : Prop := ∃ t, exec i s = .next t ∧ Completes (setCore u core k') t e flags []
    let writes (x' : Tile) (f : Nat → Option Nat) (flags : Flags) : Prop := ∃ k',
      done k' flags ∧ k' = { k with cb := k'.cb, tiles := k.tiles.setIfInBounds (96 + n) x' } ∧
        (∀ t j, t < 16 → j < 4096 → cell k' t j = if t = n then (f j).getD (cell k t j) else cell k t j)
    let first := arrayFree u s.cur e = true
    (¬ first → (claimsOf c).x = 1 → ∃ t, exec i s = .next t ∧ StaysQueued s t e) ∧
    (n < 16 → x.state ≠ .ready → i ∈ [.mzero w, .mbf w, .mcvt w, .mrowW w] → ∃ t, exec i s = .next t ∧ StaysQueued s t e) ∧
    ((tileAt k (96 + from_)).state ≠ .ready → i = .mcvt w ∨ (i = .mrowR w ∧ pastEnd e = false) →
      ∃ t, exec i s = .next t ∧ StaysQueued s t e) ∧
    (first → n < 16 → x.state = .ready →
      (i = .mzero w → writes { x with mode := .triad, type := 12, k := 0, d := 0 } (fun _ => some 0) e.flags) ∧
      (i = .mbf w → writes { x with mode := .bf16, type := 11, d := depthLimit } (fun _ => none) e.flags) ∧
      (i = .mrowW w → mrowKeys e w = [] → writes { x with type := e.taga } (fun _ => none) e.flags) ∧
      (i = .mcvt w → (tileAt k (96 + from_)).state = .ready → mcvtKeys e = [] → writes { x with type := 11 } (fun _ => none) e.flags) ∧
      (i = .mrowW w → mrowKeys e w ≠ [] → e.vl.toNat ≤ 64 → w.imm.toNat + e.rows.toNat ≤ 64 → (e.taga = 11 ∨ e.taga = 12 ∧ e.rct = false) →
        let ty : Ty := if e.taga = 12 then .t3 else .fp32
        let raw (r q : Nat) : Nat := srcElem h e w w.a ty r q
        let bad (r q : Nat) : Bool := w.a != 35#6 && e.taga == 12 && t3Reserved (raw r q)
        writes { x with type := e.taga, d := depthLimit }
          (fun j => if j ∈ mrowKeys e w then
            some (if bad (j / 64 - w.imm.toNat) (j % 64) then 0 else raw (j / 64 - w.imm.toNat) (j % 64)) else none)
          ((mrowKeys e w).foldl (fun z j => z ||| flagIf (bad (j / 64 - w.imm.toNat) (j % 64)) flagRCR) e.flags)) ∧
      (i = .mcvt w → (tileAt k (96 + from_)).state = .ready → ∀ v : Nat → FVal × Flags, mcvtKeys e ≠ [] →
        (∀ j, j ∈ mcvtKeys e → mcvtIn e from_ (tileAt k (96 + from_)).type (cell k from_ j) = .ok (v j)) →
        let r (j : Nat) : FRes := mcvtElem e.mode (w.imm.getLsbD 4) (v j).1
          (elem h e.shape w.a.toNat 32 (j / 64)) (elem h e.shape w.b.toNat 32 (j % 64)) (cell k n j)
        writes { x with type := 11, d := depthLimit } (fun j => if j ∈ mcvtKeys e then some (r j).1 else none)
          ((mcvtKeys e).foldl (fun z j => z ||| ((r j).2 ||| (v j).2)) e.flags))) ∧
    (first → i = .mrowR w → (tileAt k (96 + from_)).state = .ready → pastEnd e = false →
      n + e.rows.toNat ≤ (if e.shape then 16 else 32) → e.vl.toNat ≤ 64 →
      let row := w.imm.toNat / 16 % 64
      ∃ t, exec i s = .next t ∧ (curHart t).masks = h.masks ∧ CompletesInLanes s t e e.flags [] ∧
        (∀ m, m < (if e.shape then 16 else 32) → m < n ∨ n + e.rows.toNat ≤ m → vreg (curHart t) e.shape m = vreg h e.shape m) ∧
        ∀ r q, r < e.rows.toNat → q < 512 → elem (curHart t) e.shape (n + r) 32 q =
          if q < e.vl.toNat then cell k from_ (64 * (row + r) + q) else elem h e.shape (n + r) 32 q)

/-- TILE words, VFENCE and CPY (R162, R208, R218, R234, R235, R237, R239 to R241): TREADY and TEMPTY set an EMPTY or READY tile and wait
for another, TWAIT waits for READY, TQUERY pushes the entry where there is room; each waits behind a word of another hart on its tile
that entered the issue window before and can run now; VFENCE completes once the hart's stores have performed at system scope; a CPY that holds
its claims and may issue copies its rows in order and completes, and its last row leaves its tiles READY, or EMPTY, as R218
gives. -/
def Obligations.TileAndCopyWords : Prop :=
  (∀ (s : State) (i : Instr) (c : EClass) (w : EFields) (e : Entry),
    Alone s i c w e → e.icx = false →
    let u := enterWindow s s.cur
    let core := coreOf s.cur
    let k := w.imm.toNat % 128
    let x := tileAt (coreAt s core) k
    let done (b : State) (push : List Word) : Prop := ∃ t, exec i s = .next t ∧ Completes b t e e.flags push
    let waits : Prop := ∃ t, exec i s = .next t ∧ StaysQueued s t e
    let pass := passesFirst u s.cur e (fun _ _ => tileReadyNow u core k)
    (i = .vfence w → done (releaseStores u s.cur) []) ∧
    (pass = false → i ∈ [.tready w, .tempty w, .twait w, .tquery w] → waits) ∧
    (i = .tready w ∨ i = .tempty w → x.state = .filling ∨ x.state = .draining → waits) ∧
    (pass = true → i = .tready w → x.state = .empty ∨ x.state = .ready →
      done (setCore u core (setTile (coreAt u core) k { x with state := .ready })) []) ∧
    (pass = true → i = .tempty w → x.state = .empty ∨ x.state = .ready →
      done (setCore u core (setTile (coreAt u core) k { x with state := .empty })) []) ∧
    (i = .twait w → (pass = true → x.state = .ready → done u []) ∧ (x.state ≠ .ready → waits)) ∧
    (i = .tquery w → ¬ RoomFor s c e → waits) ∧
    (pass = true → i = .tquery w → RoomFor s c e → ∃ v, done u [v] ∧
      field v 0 2 = (match x.state with | .empty => 0 | .filling => 1 | .ready => 2 | .draining => 3) ∧
      (k < 96 → field v 2 62 = 0) ∧
      (96 ≤ k → field v 2 1 = (if x.mode = .bf16 then 1 else 0) ∧ field v 3 1 = (if x.type = 11 then 1 else 0) ∧
        field v 4 4 = 0 ∧ field v 8 24 = x.k.toNat % 2 ^ 24 ∧ field v 32 24 = x.d % 2 ^ 24 ∧ field v 56 8 = 0)) ∧
    (i = .cpy w →
      let v := claimCopy u s.cur 0 e
      (v.2 = false → ∃ t e', exec i s = .next t ∧ StaysQueued s t e' ∧ e'.word = e.word) ∧
      (v.2 = true → let z := acquire v.1 s.cur .cpy w
        ∀ e', (curHart z).queue = [e'] → mayIssue z s.cur e' w = true →
        let r := copyRows (editEntry z s.cur 0 fun y => { y with judged := true, deferred := none }) s.cur 0 w 4096
        r.ended = .complete [] → done r.state []))) ∧
  (∀ (s : State) (hid i : Nat) (e : Entry) (w : EFields), aSpace e.x0 = 1 ∨ aSpace e.x0 = 2 → aSpace e.x1 = 1 ∨ aSpace e.x1 = 2 →
    e.rowsDone + 1 = cpyRows e → 1 ≤ cpyLen e →
    cpySrcRow e e.rowsDone + cpyLen e ≤ bufSize (aSpace e.x0) → cpyDstRow e e.rowsDone + cpyLen e ≤ bufSize (aSpace e.x1) →
    let r := copyRow s hid i e w
    let c := coreAt s (coreOf hid)
    let c' := coreAt r.state (coreOf hid)
    r.ended = .complete [] ∧ r.state.mem = (if releases .cpy w = true ∧ w.imm.toNat / 4 % 8 = 6 then cleanAll s.mem else s.mem) ∧
    (∀ b, b < cpyLen e → bufByte c' (aSpace e.x1) (cpyDstRow e e.rowsDone + b) = bufByte c (aSpace e.x0) (cpySrcRow e e.rowsDone + b)) ∧
    (∀ sp b, sp = 1 ∨ sp = 2 → b < bufSize sp → sp ≠ aSpace e.x1 ∨ b < cpyDstRow e e.rowsDone ∨ cpyDstRow e e.rowsDone + cpyLen e ≤ b →
      bufByte c' sp b = bufByte c sp b) ∧
    (∀ k, k ∈ srcTiles e e.rowsDone → (tileAt c' k).state = if cpyKeep e then .ready else .empty) ∧
    (∀ k, k ∈ dstTiles e e.rowsDone → k ∉ srcTiles e e.rowsDone → (tileAt c' k).state = .ready))

/-- COLL words (R208, R389, R391, R395 to R402): one whose hart is being stopped, whose entry is in use, whose engine runs 16, or that
is not the first of its core to name its entry or of those that can start now, waits; else it starts, and its entry is read: not valid,
another core's, or with a destination that does not fit in AB, it faults with class 24 code 1; else its entry is BUSY, and with a global
destination and a path that is up it reads its source and is in flight under its number. It completes when its destination is written and
its segments are sent and acknowledged, and its number is used up. -/
def Obligations.CollectiveWords : Prop :=
  (∀ (s : State) (i : Instr) (w : EFields) (e : Entry) (kind : Nat),
    (kind, i) ∈ [(0, Instr.collReduceScatter w), (1, .collAllGather w), (2, .collAllReduce w), (3, .collKvRotation w)] →
    Alone s i (.coll kind) w e → e.icx = false → e.started = false →
    let u := enterWindow s s.cur
    let hub := hubOf s.cur
    let g := collGroup e
    let x := groupAt s hub g
    let c := collOf s.cur e w kind x
    let starts : Prop := collStays (curHart s) = false ∧ x.busy = false ∧ hubColls s hub < 16 ∧
      firstOfCore u s.cur e (waitsForGroup g) = true ∧ passesFirst u s.cur e (fun hid e c _ => collReadyNow u hid e c) = true
    (¬ starts → ∃ t, exec i s = .next t ∧ StaysQueued s t e ∧ t.colls = s.colls) ∧
    (starts → collBad s.cur e x c = true → running (curHart s) = true → ∃ t, exec i s = .next t ∧ (curHart t).ctl = .trapped ∧
      field (curHart t).trapRec.cause 20 8 = 24 ∧ field (curHart t).trapRec.cause 0 20 = 1 ∧ t.colls = s.colls ∧
      t.engines = s.engines) ∧
    (starts → collBad s.cur e x c = false → s.colls = [] → (engineAt s hub).inbox = [] → aSpace e.x1 = 0 → pathUp s x = true →
      collCount e ≠ 0 → (nextLink x).isSome = true →
      let n := sourceCount kind x.size.toNat (collCount e)
      let width := tyWidth (collTy c)
      let bytes := n * width / 8
      let v0 := { setGroup (editEntry u s.cur 0 fun y => { y with started := true }) hub g { x with busy := true } with
        colls := s.colls ++ [c] }
      let v := acquire (editEntry (setCore v0 (coreOf s.cur) (coreAt v0 (coreOf s.cur))) s.cur 0 fun y => { y with claims := e.claims })
        s.cur (.coll kind) w
      ∀ bs q, readLong v s.cur (aAddr e.x0) bytes (bytes / 2 ^ 19 + 2) = .ok (bs, q) →
        let c1 := { c with opened := true, source := unpackElems width bs n }
        (kind = 1 → ∃ z, writeDest (putColl q c1) c1 (x.rank.toNat * collCount e) c1.source = .ok z) →
        ∃ t e' c', exec i s = .next t ∧ (curHart t).queue = [e'] ∧ e'.word = e.word ∧ e'.started = true ∧ e'.complete = false ∧
          (groupAt t hub g).busy = true ∧ findColl t hub g = some c' ∧ c'.hid = s.cur ∧ c'.kind = kind ∧ c'.num = x.collno ∧
          c'.rank = x.rank.toNat ∧ c'.size = x.size.toNat ∧ c'.opened = true ∧ c'.source = unpackElems width bs n ∧
          ((kind = 1 ∨ kind = 3 ∨ c.fo = false ∨ c.rank = 0) → c'.unacked ≠ []))) ∧
  (∀ (s : State) (hub g : Nat) (c : CollSt) (e : Entry),
    findColl s hub g = some c → c.hub = hub → c.group = g → (hartAt s c.hid).queue = [e] → e.started = true → e.complete = false →
    (∃ k w, queuedClass e.word = some (.coll k, w)) → e.claims = [] → c.opened = true → c.unacked = [] → c.waiting = [] →
    destCount c ≤ c.written →
    let t := completeColl s hub g
    (hartAt t c.hid).queue = [] ∧ (hartAt t c.hid).vxsr = (hartAt s c.hid).vxsr ||| (c.flags ||| e.flags) ∧
    findColl t hub g = none ∧ (groupAt t hub g).busy = false ∧ (groupAt t hub g).collno = (groupAt s hub g).collno + 1)

/-- An illegal combination under SSR.ICT = 0 (R48): the word completes without any access to memory, a typed buffer or a tile, sets
VXSR.ICX, writes zero bytes to the active elements of its destination rows (VSEL to every element) and 0 to the active positions of
a mask, and pushes zeros, where the return queue has room. One that fills a load queue completes when no later word can join its convoy,
a TILE or COLL word when no word of another hart passes to the unit before it. A destination whose tag is NONE takes no bytes (the model's
choice: log 64). -/
def Obligations.IllegalCombinationsRun : Prop :=
  ∀ (s : State) (i : Instr) (c : EClass) (w : EFields) (e : Entry),
    Alone s i c w e → e.icx = true → c ≠ .vfence → c ≠ .mask 6 → (fillsQueue c = true → (curHart s).conv = none) →
    let u := enterWindow s s.cur
    ((claimsOf c).x = 1 → arrayFree u s.cur e = true) → RoomFor s c e →
    (∀ fn, c = .tile fn → passesFirst u s.cur e (fun _ _ => tileReadyNow u (coreOf s.cur) (w.imm.toNat % 128)) = true) →
    (∀ k, c = .coll k → passesFirst u s.cur e (fun hid e c _ => collReadyNow u hid e c) = true) →
    let h := curHart s
    let rows := e.rows.toNat
    let regs := if e.shape then 16 else 32
    let act (k : Nat) : Prop := c = .vsel ∨ activeAt h w k = true
    let swept (p : Nat) : Prop :=
      if elementWise c then p ∈ keysLeft e else pastEnd e = false ∧ p ∈ sweepKeys rows e.vl.toNat
    ∃ t, exec i s = .next t ∧ t.mem = s.mem ∧ t.tlb = s.tlb ∧ t.colls = s.colls ∧
      (coreAt t (coreOf s.cur)).cb = (coreAt s (coreOf s.cur)).cb ∧ (coreAt t (coreOf s.cur)).wb = (coreAt s (coreOf s.cur)).wb ∧
      (coreAt t (coreOf s.cur)).ab = (coreAt s (coreOf s.cur)).ab ∧ (coreAt t (coreOf s.cur)).tiles = (coreAt s (coreOf s.cur)).tiles ∧
      let g := curHart t
      g.queue = [] ∧ g.vxsr = h.vxsr ||| e.flags ||| flagICX ∧ g.rq = h.rq ++ List.replicate (rqPushes c rows) 0 ∧
      g.sregs = h.sregs ∧ g.pc = h.pc ∧ g.ctl = h.ctl ∧
      (writesVec c = false ∨ c = .vtype → g.vregs = h.vregs) ∧ (writesMask c = false → g.masks = h.masks) ∧
      (writesVec c = true → c ≠ .vtype → ∀ d, tyOf e.tagd = some d → w.d.toNat + rows ≤ regs →
        (∀ n, n < regs → n < w.d.toNat ∨ w.d.toNat + rows ≤ n → vreg g e.shape n = vreg h e.shape n) ∧
        ∀ r k, r < rows → (k + 1) * tyWidth d ≤ 8 * ownedBytes h.own e.shape → ∀ b, b = elem g e.shape (w.d.toNat + r) (tyWidth d) k →
          (swept (posKey r k) ∧ act k → b = 0) ∧
          (¬ (swept (posKey r k) ∧ act k) → b = elem h e.shape (w.d.toNat + r) (tyWidth d) k)) ∧
      (writesMask c = true → rows = 1 → 33 ≤ w.d.toNat → ∀ k, k < 8 * maskBytes e.shape →
        (swept k ∧ act k → maskBit g (w.d.toNat - 32) k = false) ∧
        (¬ (swept k ∧ act k) → maskBit g (w.d.toNat - 32) k = maskBit h (w.d.toNat - 32) k))

/-- What VARITH, VMAC, VCMP and the fold step compute on one element (R38, R39, R126 to R130, R143, R62): the exact integer result, VMUL's and
VMAC's product shifted and rounded by the mode word, saturated with SAT or wrapped; division by zero as R39 says; T3 channel by channel;
floating point with one rounding, on what FTZ reads; the special functions at their edges; the relations of the comparisons; the running
value of a fold, and the tree of five leaves. -/
def Obligations.VectorElementValues : Prop :=
  (∀ (t : Ty) (m : Word) (x y : Nat), tyIsInt t = true → x < 2 ^ tyWidth t → y < 2 ^ tyWidth t →
    let w := tyWidth t
    let A := intOf t x
    let B := intOf t y
    let lo : Int := if tySigned t then -(2 ^ (w - 1)) else 0
    let hi : Int := if tySigned t then 2 ^ (w - 1) - 1 else 2 ^ w - 1
    let fitted (z : Int) : Nat × Flags :=
      if modeSat m then (wrapBits w (max lo (min hi z)), if max lo (min hi z) = z then 0 else flagSAT) else (wrapBits w z, 0)
    let op (fn : Nat) : Nat × Flags := varithElem fn t m x y
    let sh := modeShift m
    let shifted (z : Int) : Int :=
      if sh ≤ 0 then z * 2 ^ (-sh).toNat
      else
        let p : Int := 2 ^ sh.toNat
        let q := Int.fdiv z p
        let r := z - q * p
        match modeRm m with
        | .rtz => z.tdiv p
        | .rdn => q
        | .rup => if r = 0 then q else q + 1
        | .rmm => if 2 * r < p ∨ 2 * r = p ∧ z < 0 then q else q + 1
        | .rne => if 2 * r < p ∨ 2 * r = p ∧ q % 2 = 0 then q else q + 1
    let cmp (cc : Nat) (p : Prop) : Prop := ∀ b, vcmpElem cc t m x y = b → (b.1 = true ↔ p) ∧ b.2 = 0
    cmp 0 (A = B) ∧ cmp 1 (A ≠ B) ∧ cmp 2 (A < B) ∧ cmp 3 (A ≤ B) ∧ cmp 4 (B < A) ∧ cmp 5 (B ≤ A) ∧
    (∀ z, vmacElem false t m x y z = fitted (shifted (A * B) + intOf t z) ∧
      vmacElem true t m x y z = fitted (shifted (-(A * B)) + intOf t z)) ∧
    (∀ d, foldIn t d m x = (wrapBits (tyWidth d) A, 0)) ∧
    op 0 = fitted (A + B) ∧ op 1 = fitted (A - B) ∧ op 2 = fitted (shifted (A * B)) ∧
    op 3 = fitted (Int.fdiv (A * B) (2 ^ w)) ∧
    (B ≠ 0 → op 4 = fitted (A.tdiv B) ∧ op 5 = (wrapBits w (A - B * A.tdiv B), 0)) ∧
    (B = 0 → op 4 = (2 ^ w - 1, flagDZ) ∧ op 5 = (x, flagDZ)) ∧
    (op 6).1 = wrapBits w (min A B) ∧ (op 7).1 = wrapBits w (max A B) ∧ (op 6).2 = 0 ∧ (op 7).2 = 0 ∧
    op 8 = fitted (A.natAbs : Int) ∧ op 9 = fitted (-A) ∧
    op 10 = (x &&& y, 0) ∧ op 11 = (x ||| y, 0) ∧ op 12 = (x ^^^ y, 0) ∧ (op 13).1 + x = 2 ^ w - 1 ∧
    op 14 = fitted (A * 2 ^ (y % w)) ∧ op 15 = (wrapBits w (Int.fdiv A (2 ^ (y % w))), 0)) ∧
  (∀ (m : Word) (x y : Nat),
    let is (fn : Nat) (g : Int → Int → Int) : Prop :=
      let v := varithElem fn .t3 m x y
      v.2 = 0 ∧ v.1 < 2 ^ 28 ∧ (t3C256 v.1 : Int) = g (t3C256 x) (t3C256 y) % 256 ∧ (t3C255 v.1 : Int) = g (t3C255 x) (t3C255 y) % 255 ∧
        (t3C257 v.1 : Int) = g (t3C257 x) (t3C257 y) % 257 ∧ (t3C7 v.1 : Int) = g (t3C7 x) (t3C7 y) % 7
    is 0 (fun a b => a + b) ∧ is 1 (fun a b => a - b) ∧ is 2 (fun a b => a * b) ∧ is 9 (fun a _ => -a) ∧
    foldIn .t3 .t3 m x = (x, 0) ∧
    (let same : Prop := t3C256 x = t3C256 y ∧ t3C255 x = t3C255 y ∧ t3C257 x = t3C257 y
     ((vcmpElem 0 .t3 m x y).1 = true ↔ same) ∧ ((vcmpElem 1 .t3 m x y).1 = true ↔ ¬ same) ∧
      (vcmpElem 0 .t3 m x y).2 = 0 ∧ (vcmpElem 1 .t3 m x y).2 = 0) ∧
    (∀ (neg : Bool) z, let v := vmacElem neg .t3 m x y z
      let g (a b c : Int) : Int := (if neg then -(a * b) else a * b) + c
      v.2 = 0 ∧ v.1 < 2 ^ 28 ∧ (t3C256 v.1 : Int) = g (t3C256 x) (t3C256 y) (t3C256 z) % 256 ∧
        (t3C255 v.1 : Int) = g (t3C255 x) (t3C255 y) (t3C255 z) % 255 ∧ (t3C257 v.1 : Int) = g (t3C257 x) (t3C257 y) (t3C257 z) % 257 ∧
        (t3C7 v.1 : Int) = g (t3C7 x) (t3C7 y) (t3C7 z) % 7)) ∧
  (∀ (d : Ty) (m : Word) (x y : Nat),
    foldStep 0 d m x y = varithElem 0 d m x y ∧ foldStep 2 d m x y = varithElem 7 d m x y ∧ foldStep 3 d m x y = varithElem 6 d m x y ∧
    foldStep 4 d m x y = (x &&& y, 0) ∧ foldStep 5 d m x y = (x ||| y, 0) ∧ foldStep 6 d m x y = (x ^^^ y, 0)) ∧
  (∀ (f : Nat → Nat → Nat × Flags) (a b c d e : Nat),
    treeReduce f [some a, some b, some c, some d, some e] 15 = (some (f (f (f a b).1 (f c d).1).1 e).1,
      (f a b).2 ||| (f c d).2 ||| (f (f a b).1 (f c d).1).2 ||| (f (f (f a b).1 (f c d).1).1 e).2)) ∧
  (∀ (t : Ty) (m : Word) (x y z : Nat), tyIsFp t = true → x < 2 ^ tyWidth t → y < 2 ^ tyWidth t →
    let f := fmtOf t
    let rm := modeRm m
    let ftz := modeFtz m
    let a := unpack f ftz x
    let b := unpack f ftz y
    let half := 2 ^ (tyWidth t - 1)
    let read (x : Nat) : Nat := if ftz = true ∧ x / 2 ^ f.fbits % 2 ^ f.ebits = 0 then x / half % 2 * half else x
    let op (fn : Nat) : Nat × Flags := varithElem fn t m x y
    op 0 = fAdd f rm ftz a b ∧ op 1 = fAdd f rm ftz a (fFlip b) ∧ op 2 = fMul f rm ftz a b ∧ op 4 = fDiv f rm ftz a b ∧
    op 6 = fMinMax f false (read x) (read y) ∧ op 7 = fMinMax f true (read x) (read y) ∧
    (isNan a = false → op 8 = (read x % half, 0) ∧ op 9 = ((read x + half) % (2 * half), 0)) ∧
    (∀ q, a = .nan q → op 8 = (fmtNan f, flagIf q flagNV) ∧ op 9 = (fmtNan f, flagIf q flagNV)) ∧
    vmacElem false t m x y z = fFma f rm ftz a b (unpack f ftz z) ∧
    vmacElem true t m x y z = fFma f rm ftz (fFlip a) b (unpack f ftz z) ∧
    (∀ na ma ea nb mb eb, a = .num na ma ea → b = .num nb mb eb → ∀ c,
      fFma f rm ftz a b c = fAdd f rm ftz (.num (na != nb) (ma * mb) (ea + eb)) c) ∧
    (∀ na nb e, a = .inf na → b = .num nb 0 e → ∀ c, (fFma f rm ftz a b c).1 = fmtNan f ∧ (fFma f rm ftz a b c).2 &&& flagNV = flagNV) ∧
    (∀ cc, cc < 7 →
      (isNan a = true ∨ isNan b = true →
        vcmpElem cc t m x y = (cc == 1 || cc == 6, flagIf (isSnan a || isSnan b || (decide (2 ≤ cc) && decide (cc ≤ 5))) flagNV)) ∧
      (isNan a = false → isNan b = false → (vcmpElem cc t m x y).2 = 0 ∧ (cc = 6 → (vcmpElem cc t m x y).1 = false)) ∧
      ∀ na ma ea nb mb eb, a = .num na ma ea → b = .num nb mb eb →
        let k := min ea eb
        let A : Int := (if na then -1 else 1) * (ma * 2 ^ (ea - k).toNat : Nat)
        let B : Int := (if nb then -1 else 1) * (mb * 2 ^ (eb - k).toNat : Nat)
        ((vcmpElem cc t m x y).1 = true ↔ (match cc with
          | 0 => A = B | 1 => A ≠ B | 2 => A < B | 3 => A ≤ B | 4 => B < A | 5 => B ≤ A | _ => False))) ∧
    foldIn t t m x = (read x, 0) ∧
    (∀ n k e, a = .num n k e → t ≠ .fp32 →
      ∃ k' e', unpack fmtSingle false (foldIn t .fp32 m x).1 = .num n k' e' ∧ (foldIn t .fp32 m x).2 = 0 ∧
        k' * 2 ^ (e' + 149).toNat = k * 2 ^ (e + 149).toNat)) ∧
  (∀ (t : Ty) (m : Word) (n : Bool), tyIsFp t = true →
    let f := fmtOf t
    let op (fn x : Nat) : Nat × Flags := varithElem fn t m x 0
    let zero := fmtZero f
    let inf := fmtInf f
    let invalid : Nat × Flags := (fmtNan f, flagNV)
    op 16 (zero n) = (zero n, 0) ∧ op 17 (zero n) = ((fmtBias f).toNat * 2 ^ f.fbits, 0) ∧ op 18 (zero n) = (inf true, flagDZ) ∧
    op 19 (zero n) = (inf n, flagDZ) ∧ op 20 (zero n) = (inf n, flagDZ) ∧
    op 16 (inf false) = (inf false, 0) ∧ op 17 (inf false) = (inf false, 0) ∧ op 18 (inf false) = (inf false, 0) ∧
    op 19 (inf false) = (zero false, 0) ∧ op 20 (inf n) = (zero n, 0) ∧ op 17 (inf true) = (zero false, 0) ∧
    op 16 (inf true) = invalid ∧ op 18 (inf true) = invalid ∧ op 19 (inf true) = invalid ∧
    (∀ x k e, unpack f (modeFtz m) x = .num true k e → k ≠ 0 → op 16 x = invalid ∧ op 18 x = invalid ∧ op 19 x = invalid) ∧
    (∀ x q, unpack f (modeFtz m) x = .nan q → ∀ fn, fn ∈ [16, 17, 18, 19, 20] → op fn x = (fmtNan f, if q then flagNV else 0)))

/-- What VLD, VST and VAMO do at an active position (R148 to R151, R154 to R161, R165 to R167, R272), for an element on one page of memory, in
a typed buffer or on a control page: its address, the element loaded into its register, the bytes stored, the old element returned and the
new one written; what fails takes class 16 with the element's address, poison class 25. An I4 element is one nibble of its byte. In the
host window an element is a request on the host link: it finds what the caches hold there written back. A typed buffer's bytes stand at
the address modulo the buffer's size, aligned to the element, and a load of bytes that an engine holds gives a free value. A control page
is read as its doublewords read; it is written by an ordered element of 8 aligned bytes, and by VAMO; any other element is discarded. -/
def Obligations.VectorMemoryElements : Prop :=
  ∀ (s : State) (hid : Nat) (e : Entry) (w : EFields) (acc : Word) (p : Nat),
    let h := hartAt s hid
    let r := keyRow p
    let k := keyElem p
    e.icx = false → activeAt h w k = true →
    let at_ (c : EClass) : Except FaultRec Act := elemAt s.mem h hid e c w s acc p
    let addr (width : Nat) : AddrForm → Word
      | .unit => e.x0 + BitVec.ofNat 64 r * (if 1 < e.rows.toNat then e.x2 else 0) + BitVec.ofNat 64 (k * width / 8)
      | .strided => e.x0 + BitVec.ofNat 64 r * (if 1 < e.rows.toNat then e.x2 else 0) + BitVec.ofNat 64 k * e.x1
      | .indexed => e.x0 + BitVec.ofNat 64 r * (if 1 < e.rows.toNat then e.x2 else 0) +
          (match tyOf e.tagb with
           | some u => BitVec.ofInt 64 (intOf u (srcElem h e w w.b u r k))
           | none => 0)
    let fails (c : EClass) (kind : Nat) (a : Word) (x : XFail) : Prop :=
      ∀ q, x = .reason q → q < 16 → ∃ f, at_ c = .error f ∧ f.cls = 16 ∧ f.code = BitVec.ofNat 20 (q + 16 * kind) ∧ f.addr = a ∧
        f.elevel = true ∧ f.emitPc = e.emitPc ∧ f.seq = e.seq
    let poisons (c : EClass) (a : Word) : Prop := ∃ f, at_ c = .error f ∧ f.cls = 25 ∧ f.addr = a ∧ f.elevel = true
    let old (y : Xlat) (n : Nat) : Nat := joinBytes (devBytes (askMem s.mem y.place n) (epochOf s y.place.key) y.place.pa n)
    let ctlOld (y : Xlat) (n : Nat) : Nat := joinBytes (ctlBytes s hid e y.place.pa n).1
    let size : Space → Nat
      | .wb => 1048576 | .ab => 524288 | _ => 262144
    let space : Space → Nat
      | .wb => 1 | .ab => 2 | _ => 3
    let nibble (width v : Nat) : Nat := if width = 4 then v / 2 ^ (4 * (k % 2)) % 16 else v
    let merged (width v old : Nat) : Nat :=
      if width ≠ 4 then v else if k % 2 = 0 then old / 16 * 16 + v % 16 else old % 16 + v % 16 * 16
    (∀ f t, tyOf (dstType e.mode e.taga) = some t →
      let width := tyWidth t
      let n := if width = 4 then 1 else width / 8
      let a := addr width f
      let loads (sp : Space) (v : Nat) : Prop := ∃ x, at_ (.vld f sp .reg) = .ok x ∧ x.pos = p ∧ x.flags = 0 ∧
          .reg (w.d.toNat + r) width k (nibble width v) ∈ x.effs ∧ (∀ l bs, .mem l bs ∉ x.effs) ∧ ∀ pa z, .ctl pa z ∉ x.effs
      (∀ x, spanOf s hid vldAccess a n = .error x → fails (.vld f .global .reg) 1 a x) ∧
      (∀ y, spanOf s hid vldAccess a n = .ok [(y, n)] → y.place.kind ≠ 3 →
        (poisoned s.mem y.place.pa n = true → poisons (.vld f .global .reg) a) ∧
        (poisoned s.mem y.place.pa n = false → loads .global (old y n))) ∧
      (∀ y, spanOf s hid vldAccess a n = .ok [(y, n)] → y.place.kind = 3 → loads .global (ctlOld y n)) ∧
      (∀ sp, sp ≠ .global →
        let m := if width = 4 then 1 else width / 8
        let off := a.toNat % size sp / m * m
        let core := coreAt s (coreOf hid)
        (inFlight core (space sp) off n = false →
          loads sp (joinBytes ((List.range n).map fun b => bufByte core (space sp) (off + b)))) ∧
        ∃ v, loads sp v)) ∧
    (∀ ordered f t, tyOf e.taga = some t →
      let width := tyWidth t
      let n := if width = 4 then 1 else width / 8
      let a := addr width f
      let v := srcElem h e w w.a t r k
      (∀ x, spanOf s hid (vstAccess ordered) a n = .error x → fails (.vst ordered f .global) 2 a x) ∧
      (∀ y, spanOf s hid (vstAccess ordered) a n = .ok [(y, n)] → y.place.kind ≠ 3 → poisoned s.mem y.place.pa n = false →
        ∃ x, at_ (.vst ordered f .global) = .ok x ∧ x.pos = p ∧ x.flags = 0 ∧ (∀ m j z q, .reg m j z q ∉ x.effs) ∧
          .mem [(y, n)] (splitBytes n (merged width v (old y n))) ∈ x.effs) ∧
      (∀ y, spanOf s hid (vstAccess ordered) a n = .ok [(y, n)] → y.place.kind = 3 →
        ∃ x, at_ (.vst ordered f .global) = .ok x ∧ x.pos = p ∧ x.flags = 0 ∧ (∀ l bs, .mem l bs ∉ x.effs) ∧
          (n = 8 → y.place.pa % 8 = 0 → .ctl y.place.pa (BitVec.ofNat 64 (v % 2 ^ 64)) ∈ x.effs) ∧
          (n ≠ 8 ∨ y.place.pa % 8 ≠ 0 → ∀ pa z, .ctl pa z ∉ x.effs)) ∧
      (∀ sp, sp ≠ .global →
        let m := if width = 4 then 1 else width / 8
        let off := a.toNat % size sp / m * m
        ∃ x, at_ (.vst ordered f sp) = .ok x ∧ x.pos = p ∧ x.flags = 0 ∧ (∀ l bs, .mem l bs ∉ x.effs) ∧
          .buf (space sp) off (splitBytes n (merged width v (joinBytes ((List.range n).map fun b =>
            bufByte (coreAt s (coreOf hid)) (space sp) (off + b))))) ∈ x.effs ∧
          (sp = .cb → .depthMax (off / 16384) ∈ x.effs))) ∧
    (∀ op sc t, tyOf e.taga = some t → t = .i32 ∨ t = .u32 ∨ t = .i64 →
      let width := tyWidth t
      let n := width / 8
      let a := addr width .indexed
      let v := srcElem h e w w.a t r k
      let new (old : Nat) : Nat := match op with
        | .add => (old + v) % 2 ^ width | .and => old &&& v | .or => old ||| v | .xor => old ^^^ v | .swap => v
        | .min => if (BitVec.ofNat width old).sle (BitVec.ofNat width v) then old else v
        | .max => if (BitVec.ofNat width old).sle (BitVec.ofNat width v) then v else old
        | .minu => min old v | .maxu => max old v
      (∀ x, spanOf s hid (vamoAccess n op) a n = .error x → fails (.vamo op sc) 3 a x) ∧
      (∀ y, spanOf s hid (vamoAccess n op) a n = .ok [(y, n)] → y.place.kind ≠ 3 →
        (poisoned s.mem y.place.pa n = true → poisons (.vamo op sc) a) ∧
        (poisoned s.mem y.place.pa n = false →
          ∃ x, at_ (.vamo op sc) = .ok x ∧ x.pos = p ∧ x.flags = 0 ∧ .reg (w.d.toNat + r) width k (old y n) ∈ x.effs ∧
            .mem [(y, n)] (splitBytes n (new (old y n))) ∈ x.effs ∧ (sc = .system → x.effs.head? = some .clean))) ∧
      (∀ y, spanOf s hid (vamoAccess n op) a n = .ok [(y, n)] → y.place.kind = 3 → n = 8 → y.place.pa % 8 = 0 →
        ∃ x, at_ (.vamo op sc) = .ok x ∧ x.pos = p ∧ x.flags = 0 ∧ .reg (w.d.toNat + r) width k (ctlOld y n) ∈ x.effs ∧
          .ctl y.place.pa (BitVec.ofNat 64 (new (ctlOld y n))) ∈ x.effs ∧ ∀ l bs, .mem l bs ∉ x.effs)) ∧
    (∀ b pa, b < 8 → pa % 8 = b → ∃ q, ctlBytes s hid e pa 1 =
      ([BitVec.ofNat 8 ((ctlReadAs s (.hart hid) (e.seq.toNat + 1) (pa - b)).1.toNat / 2 ^ (8 * b) % 256)], q)) ∧
    (∀ pa v, applyEffect hid e.shape s (.ctl pa v) = ctlWrite s (.hart hid) pa v)


/-! ### Events: the context page (R249 to R256, R262, R303, R413) -/

/-- The control word (R249, R250): RUN starts or resumes the hart from its page, with the oldest pending fault first (R188); the stops and IDLE move the
states that R250 lists, and nothing else; a drain or a freeze that is reached makes the hart STOPPED with its words, and the flags they
have raised (R31), in place; a drain is reached too when only COLLs that have not started are left to run (R402). Frame windows stored while the page was TRAPPED take effect when it leaves that state (R303). -/
def Obligations.ControlWordStores : Prop :=
  ∀ (s : State) (ag : Agent) (hid : Nat), let h := hartAt s hid
    let kept (t : State) : Prop := (hartAt t hid).pc = h.pc ∧ (∀ r, rd (hartAt t hid) r = rd h r) ∧ (hartAt t hid).masks = h.masks ∧
      (hartAt t hid).queue.map (·.word) = h.queue.map (·.word) ∧ ∀ k, k ≠ hid → hartAt t k = hartAt s k
    (h.ctl = .idle → h.awaitJoin = false → ∃ t, exec (.ctrlRun ag hid) s = .next t ∧ kept t ∧
      (hartAt t hid).own = h.own &&& ~~~(ownedOnCore s (hid / 4) hid) &&& ~~~(coreAt s (hid / 4)).retired ∧
      (h.queue = [] → h.pending = [] → (hartAt t hid).ctl = .run ∧ t.mem = s.mem)) ∧
    (h.ctl = .stopped ∨ h.ctl = .trapped → ∃ t, exec (.ctrlRun ag hid) s = .next t ∧ kept t ∧ (hartAt t hid).vregs = h.vregs ∧
      (hartAt t hid).pending = h.pending.drop 1 ∧ (hartAt t hid).windows = h.newWindows.getD h.windows ∧ (hartAt t hid).root = h.newRoot.getD h.root ∧
      (h.queue = [] → h.pending = [] → (hartAt t hid).ctl = .run ∧ (hartAt t hid).trapRec = h.trapRec ∧ t.mem = s.mem) ∧
      (∀ f l, h.pending = f :: l → (hartAt t hid).ctl = .trapped ∧ (hartAt t hid).trapRec.addr = f.addr ∧
        (hartAt t hid).trapRec.cause.extractLsb' 20 8 = f.cls ∧ (hartAt t hid).trapRec.cause.extractLsb' 0 20 = f.code)) ∧
    (h.ctl = .stopDrain → exec (.ctrlRun ag hid) s =
      .next (setHart s hid { h with ctl := .run, genStopped := false, gcount := 0, stalled := false })) ∧
    (h.ctl = .run ∨ h.ctl = .stopFreeze → exec (.ctrlRun ag hid) s = .next s) ∧
    (h.ctl = .run → exec (.ctrlStopDrain ag hid) s =
      .next (setHart s hid { h with ctl := .stopDrain, genStopped := false, gcount := 0, stalled := false })) ∧
    (h.ctl ≠ .run → exec (.ctrlStopDrain ag hid) s = .next s) ∧
    (h.ctl = .run ∨ h.ctl = .stopDrain → exec (.ctrlStopFreeze ag hid) s =
      .next (setHart s hid { h with ctl := .stopFreeze, genStopped := false, stalled := false })) ∧
    (h.ctl ≠ .run → h.ctl ≠ .stopDrain → exec (.ctrlStopFreeze ag hid) s = .next s) ∧
    (h.ctl = .stopped ∨ h.ctl = .trapped → ∃ t, exec (.ctrlIdle ag hid) s = .next t ∧
      (let g := hartAt t hid;
        g.ctl = .idle ∧ g.queue = [] ∧ g.rq = [] ∧ g.pending = [] ∧ g.vstate = .absent ∧ (∀ r, rd g r = rd h r) ∧
        (h.parent = none → g.own = 0) ∧ (h.parent ≠ none → g.own = h.own)) ∧
      ((∀ c ∈ s.colls, c.hid ≠ hid) → t.mem = (drainWc s hid).mem)) ∧
    (h.ctl ≠ .stopped → h.ctl ≠ .trapped → exec (.ctrlIdle ag hid) s = .next s) ∧
    (h.ctl = .stopDrain → h.genStopped = true → h.queue = [] → exec (.stopDrainComplete hid) s = .next (setHart s hid
      { h with
        ctl := .stopped, conv := none, stalled := false, gStall := none, wait := none, barArrived := none, genStopped := false
        gcount := 0 })) ∧
    (h.ctl = .stopDrain → h.genStopped = true → onlyIdleColls [] (headConvoy h.queue) = true → ∃ t,
      exec (.stopDrainComplete hid) s = .next t ∧ kept t ∧ (hartAt t hid).ctl = .stopped ∧ t.mem = s.mem ∧ t.colls = s.colls) ∧
    (h.ctl = .stopFreeze → h.genStopped = true → startedColl h = none → ∃ t, exec (.stopFreezeComplete hid) s = .next t ∧
      kept t ∧ (hartAt t hid).ctl = .stopped ∧ (hartAt t hid).conv = none ∧ (hartAt t hid).vregs = h.vregs ∧
      (hartAt t hid).vxsr = h.vxsr ∧ (hartAt t hid).queue.map (·.flags) = h.queue.map (·.flags) ∧ t.mem = s.mem) ∧
    (h.ctl = .stopDrain → exec (.stopDrainCountExpiry hid) s = .next (setHart s hid { h with gcount := 4096, stalled := false }))

/-- Stores to a context page (R255, R256, R262, R303, R354, R413): a page that is running, or of another world, takes none to these
fields; the image is edited one entry at a time; a change of shape with vector state present zeroes tags, masks and progress; a
hart's window reaches no further than one of its own, and what a TRAPPED page takes waits until it leaves that state; RECLAIM takes a request whose zero fields are zero (KEEP above 4 ignored: the
model's choice, log 19). -/
def Obligations.ContextPageStores : Prop :=
  ∀ (s : State) (ag : Agent) (hid : Nat), let h := hartAt s hid
    let others (t : State) : Prop := ∀ k, k ≠ hid → hartAt t k = hartAt s k
    let open_ := sameWorld s ag hid = true ∧ running h = false
    (¬ open_ → ∀ n off v, exec (.queueImageWrite ag hid n off v) s = .next s ∧ exec (.shapeWrite ag hid v) s = .next s ∧
      exec (.frameWindowWrite ag hid off v) s = .next s) ∧
    (open_ →
      (∀ n off v, ∃ t, exec (.queueImageWrite ag hid n off v) s = .next t ∧ others t ∧ t.mem = s.mem ∧
        (∀ r, rd (hartAt t hid) r = rd h r) ∧ (hartAt t hid).pc = h.pc ∧
        (let q := (hartAt t hid).queue;
          if n < h.queue.length then
            if off = 0 ∧ v = 0 then q = h.queue.take n
            else q.length = h.queue.length ∧ (∀ i, i ≠ n → q[i]? = h.queue[i]?) ∧ (off = 0 → (q[n]?).map (·.word) = some v)
          else if n = h.queue.length ∧ n < 64 ∧ off = 0 ∧ v ≠ 0 then q = h.queue ++ [{ Entry.blank with word := v }]
          else q = h.queue)) ∧
      (∀ v, (h.shape = v.getLsbD 0 → exec (.shapeWrite ag hid v) s = .next s) ∧
        (h.shape ≠ v.getLsbD 0 → h.vstate = .absent →
          exec (.shapeWrite ag hid v) s = .next (setHart s hid { h with shape := v.getLsbD 0 })) ∧
        (h.shape ≠ v.getLsbD 0 → h.vstate ≠ .absent → ∃ t, exec (.shapeWrite ag hid v) s = .next t ∧ others t ∧ t.mem = s.mem ∧
          hartAt t hid = { h with
            shape := v.getLsbD 0, vregs := (hartAt t hid).vregs, tags := Vector.replicate 32 0
            masks := Vector.replicate 16 0, vstart := 0, rstate := 0, kprog := 0 })) ∧
      (ag ≠ .hart hid →
        (∀ v, exec (.frameWindowWrite ag hid 0x21080 v) s = .next (setHart s hid
          (if h.ctl = .trapped then { h with newRoot := some (v &&& 0xFFFFFFF80001) } else { h with root := v &&& 0xFFFFFFF80001 }))) ∧
        (∀ i v, i < 8 → let there := h.newWindows.getD h.windows
          let old := there[i]?.getD Window.none
          let base : Window := { old with base := v &&& 0xFFFFFFF80000 }
          let limit : Window := { old with limit := v &&& 0xFFFFFFF8001D }
          let put (w : Window) := setHart s hid
            (if h.ctl = .trapped then { h with newWindows := some (there.setIfInBounds i w) }
            else { h with windows := there.setIfInBounds i w })
          ((∀ k, ag ≠ .hart k) → exec (.frameWindowWrite ag hid (0x21000 + 16 * i) v) s = .next (put base) ∧
            exec (.frameWindowWrite ag hid (0x21008 + 16 * i) v) s = .next (put limit)) ∧
          (∀ k, ag = .hart k →
            let inside (w : Window) : Bool := (hartAt s k).windows.toList.any (windowWithin w)
            exec (.frameWindowWrite ag hid (0x21000 + 16 * i) v) s =
              .next (if old.limit.getLsbD 0 = false ∨ inside base = true then put base else s) ∧
            exec (.frameWindowWrite ag hid (0x21008 + 16 * i) v) s =
              .next (if emptyWindow limit = true ∨ inside limit = true then put limit else s))))) ∧
    (∀ v, (sameWorld s ag hid = false ∨ v &&& 0x318 ≠ 0 ∨ 4 < (v &&& 7).toNat → exec (.reclaimRequest ag hid v) s = .next s) ∧
      (sameWorld s ag hid = true → v &&& 0x318 = 0 → (v &&& 7).toNat ≤ 4 → exec (.reclaimRequest ag hid v) s =
        .next (setHart s hid { h with
          reclaim := ⟨1, v.getLsbD 7, v.extractLsb' 5 2, v.extractLsb' 0 3, none⟩, stalled := false })))

/-- A store of 8 bytes to the control region (R101, R106, R184, R255, R314): to the PC and the scalar registers of a page that is not
running, to the control word as a control event, to a queue's TAIL, to a register that no store changes; a misaligned one does nothing. -/
def Obligations.ControlRegisterStores : Prop :=
  ∀ (s : State) (ag : Agent) (v : Word),
    (∀ pa, pa % 8 ≠ 0 → exec (.controlRegisterWrite ag pa v) s = .next s) ∧
    (∀ hid, hid < 3072 → let h := hartAt s hid
      let page := 0xC00000000000 + hid * 2 ^ 19
      let open_ := sameWorld s ag hid = true ∧ running h = false
      (open_ → exec (.controlRegisterWrite ag (page + 8) v) s = .next (setHart s hid { h with pc := v &&& ~~~3#64 })) ∧
      (open_ → ∀ r : Reg, ∃ t, exec (.controlRegisterWrite ag (page + 0x100 + 8 * r.toNat) v) s = .next t ∧
        t = setHart s hid { h with sregs := (hartAt t hid).sregs } ∧
        ∀ x, rd (hartAt t hid) x = if x = r ∧ r ≠ 0 then v else rd h x) ∧
      (¬ open_ → exec (.controlRegisterWrite ag (page + 8) v) s = .next s) ∧
      exec (.controlRegisterWrite ag page 0) s = exec (.ctrlIdle ag hid) s ∧
      exec (.controlRegisterWrite ag page 1) s = exec (.ctrlRun ag hid) s ∧
      exec (.controlRegisterWrite ag page 2) s = exec (.ctrlStopDrain ag hid) s ∧
      exec (.controlRegisterWrite ag page 3) s = exec (.ctrlStopFreeze ag hid) s ∧
      (∀ c : Word, 4 ≤ c.toNat → c.toNat < 8 → exec (.controlRegisterWrite ag page c) s = .next s)) ∧
    (∀ vi q, vi < 64 → q < 64 → exec (.controlRegisterWrite ag (0xC00100000000 + (64 * vi + q) * 2 ^ 19 + 8) v) s =
      exec (.tailWrite ag vi q v) s) ∧
    (∀ p, p < 1474560 → exec (.controlRegisterWrite ag (0xC00700000000 + 8 * p) v) s = .next s)

/-- The save commands (R258 to R261, R265 to R267) on a save area that lies on one page. A plain save writes the scalar part and, with
vector state, the registers owed (the dirty ones after a save or restore to the same area, else all); a plain restore brings them back, and
VSTATE follows; a sealed save draws a nonce and seals the context under its flacon's key, a sealed restore brings it back, and what is
not such a seal is refused; a vector restore that is stored while the page has no lane cluster reads nothing (R267); completion
publishes STATUS and LASTAREA. Of memory, only the area changes. A command with a reserved bit set fails with STATUS 4: a restore leaves
VSTATE ABSENT, a save the page as it is. While a page of the area is being moved the transfer waits (R317). The model makes a transfer in
one step (the model's choice: log 20), and a seal's ciphertext, which names its key, plaintext and nonce, is symbolic (the model's choice:
log 16), so that a seal under another key is STATUS 4. -/
def Obligations.SaveCommands : Prop :=
  (∀ (s : State) (hid : Nat) (j : SaveJob), (hartAt s hid).saveJob = some j → areaMoving s j = true →
    ∀ i, i ∈ [.save hid, .saveAll hid, .restoreScalar hid, .restoreVector hid, .restoreAll hid] → exec i s = .next s) ∧
  (∀ (s : State) (hid : Nat) (j : SaveJob), s.mem.wf = true → (hartAt s hid).saveJob = some j → areaMoving s j = false →
    let h := hartAt s hid
    let outcome (t : State) (o : BitVec 8) : Prop := (hartAt t hid).saveJob = some { j with outcome := some o }
    let regs (t : State) : Prop := (∀ r, rd (hartAt t hid) r = rd h r) ∧ (hartAt t hid).pc = h.pc
    let others (t : State) : Prop := ∀ k, k ≠ hid → hartAt t k = hartAt s k
    let command (i : Instr) (c : SaveCmd) : Prop := j.outcome = none ∧ j.cmd = c ∧
      ((c = .save ∧ i = .save hid) ∨ (c = .saveAll ∧ i = .saveAll hid) ∨ (c = .restoreScalar ∧ i = .restoreScalar hid) ∨
        (c = .restoreVector ∧ i = .restoreVector hid) ∨ (c = .restoreAll ∧ i = .restoreAll hid))
    let alone : Prop := ∀ c ∈ s.colls, c.hid ≠ hid
    let inArea (o : Nat) : Word := (areaRead s j o).getD 0
    let scalars (g : Hart) : Prop := (∀ r, rd g r = if r = 0 then 0 else inArea (0x100 + 8 * r.toNat)) ∧
      g.pc = inArea 8 &&& ~~~3#64 ∧ g.vl = inArea 0x300 ∧ g.trapRec.cause = inArea 0x20 &&& 0x3FFFFFFF ∧ g.trapCount = inArea 0x20020
    let vectors (g : Hart) (shape : Bool) : Prop := ∀ n k, n < (if shape then 16 else 32) → k < windowBytes { h with shape := shape } / 8 →
      let o := n * (if shape then 4096 else 2048) + 8 * k
      BitVec.ofNat 64 (bitsAt (g.vregs[o / 2048]?.getD 0) (8 * (o % 2048)) 64) = inArea (0x10000 + o)
    (worldOf s hid = 0 → ∀ base, j.area = [some base] → j.ptr.toNat % 2 ^ 19 + 0x21000 ≤ 2 ^ 19 → s.mem.poison = [] →
      let first := base + j.ptr.toNat % 2 ^ 19
      (∀ i c, command i c → c = .save ∨ c = .saveAll → ∃ t, exec i s = .next t ∧ outcome t 2 ∧ regs t ∧ others t ∧
        (hartAt t hid).vregs = h.vregs ∧ (hartAt t hid).conv = none ∧
        (h.vstate = .absent → (hartAt t hid).vstate = .absent) ∧
        (h.vstate ≠ .absent → (hartAt t hid).vstate = .saved ∧ (hartAt t hid).dirty = 0) ∧
        (∀ o ∈ scalarOffsets, areaRead t j o = some (saveDw s hid o)) ∧
        (h.vstate ≠ .absent → ∀ n, n < regCount h → c = .saveAll ∨ h.lastArea ≠ some j.ptr ∨ h.dirty.getLsbD n = true →
          ∀ o ∈ regOffsets h n, areaRead t j o = some (ctxDw s hid o)) ∧
        ∀ a, a < first ∨ first + 0x21000 ≤ a → viewByte t.mem 0 a = viewByte s.mem 0 a) ∧
      (∀ i, command i .restoreScalar → alone → ∃ t, exec i s = .next t ∧ outcome t 2 ∧ others t ∧ t.mem = s.mem ∧
        scalars (hartAt t hid) ∧ (hartAt t hid).vstate = .absent) ∧
      (∀ i, command i .restoreVector → windowBytes h ≠ 0 → ∃ t, exec i s = .next t ∧ outcome t 2 ∧ regs t ∧ others t ∧ t.mem = s.mem ∧
        vectors (hartAt t hid) h.shape ∧ (hartAt t hid).vstate = .saved ∧ (hartAt t hid).dirty = 0) ∧
      (∀ i, command i .restoreAll → alone → windowBytes h ≠ 0 → ∃ t, exec i s = .next t ∧ outcome t 2 ∧ others t ∧ t.mem = s.mem ∧
        scalars (hartAt t hid) ∧ vectors (hartAt t hid) ((inArea 0x370).getLsbD 0) ∧
        (hartAt t hid).vstate = .saved ∧ (hartAt t hid).dirty = 0)) ∧
    (∀ i c, command i c → worldOf s hid = 0 → none ∈ j.area → j.ptr.toNat % 8 = 0 → c = .save ∨ c = .saveAll →
      ∃ t, exec i s = .next t ∧ outcome t 3 ∧ regs t ∧ others t ∧ (hartAt t hid).vregs = h.vregs ∧ (hartAt t hid).vstate = h.vstate ∧
        ∀ a, (∀ base, some base ∈ j.area → a < base ∨ base + 2 ^ 19 ≤ a) → viewByte t.mem 0 a = viewByte s.mem 0 a) ∧
    (worldOf s hid ≠ 0 →
      (∀ i c, command i c → c = .save ∨ c = .saveAll →
        let segs := sealedStream s hid j.tbuf
        (∀ n, n ≤ segs.length → (areaAt j (4096 * n)).isSome = true) → ∃ t, exec i s = .next t ∧ outcome t 2 ∧ regs t ∧ others t ∧
          t.seals = ⟨ctxKeyOf s hid, Config.freeWord s.free, segs, h.shape, windowBytes h⟩ :: s.seals) ∧
      (∀ i, command i .restoreScalar → alone → ∀ nonce count, areaRead s j 0 = some nonce → areaRead s j 8 = some count →
        ((∀ x ∈ s.seals, x.nonce ≠ nonce) → ∃ t, exec i s = .next t ∧ outcome t 5 ∧ t.mem = s.mem ∧
          (hartAt t hid).vstate = .absent) ∧
        (∀ x, s.seals.find? (fun x => x.nonce == nonce) = some x → x.key ≠ ctxKeyOf s hid →
          ∃ t, exec i s = .next t ∧ outcome t 4 ∧ regs t ∧ t.mem = s.mem ∧ (hartAt t hid).vstate = .absent) ∧
        (∀ x, s.seals.find? (fun x => x.nonce == nonce) = some x → x.key = ctxKeyOf s hid → count.toNat = x.segs.length →
          (∀ k, k < x.segs.length → (areaAt j (0x1000 + 4096 * k)).isSome = true ∧ segmentIntact s j x k = true) → j.tbuf = false →
          ∃ t, exec i s = .next t ∧ outcome t 2 ∧ others t ∧ t.mem = s.mem ∧ (hartAt t hid).vstate = .absent ∧
            ∀ r, rd (hartAt t hid) r = if r = 0 then 0
              else BitVec.ofNat 64 (joinBytes (((sealRegion x 0).drop (0xF8 + 8 * r.toNat)).take 8))))) ∧
    (∀ o, j.outcome = some o → exec (.savecmdComplete hid) s = .next (setHart s hid
      { h with saveStatus := o, saveJob := none, lastArea := if o = 2 then some j.ptr else none }))) ∧
  (∀ (s : State) (ag : Agent) (hid : Nat) (v : Word), hid < 3072 → v = 4 ∨ v = 5 → let h := hartAt s hid
    h.saveStatus ≠ 1 → running h = false → windowBytes h = 0 →
    ∃ t, exec (.controlRegisterWrite ag (0xC00000000000 + hid * 2 ^ 19 + 0x22008) v) s = .next t ∧ (hartAt t hid).saveStatus = 1 ∧
      (hartAt t hid).saveJob.map (·.outcome) = some (some 4) ∧ (hartAt t hid).vstate = .absent ∧ t.mem = s.mem) ∧
  (∀ (s : State) (ag : Agent) (hid : Nat) (v : Word), hid < 3072 → v &&& 0xE0 ≠ 0 → let h := hartAt s hid
    let cmd := (v &&& 0xF).toNat
    1 ≤ cmd → cmd ≤ 5 → h.saveStatus ≠ 1 → running h = false →
    ∃ t, exec (.controlRegisterWrite ag (0xC00000000000 + hid * 2 ^ 19 + 0x22008) v) s = .next t ∧ (hartAt t hid).saveStatus = 1 ∧
      (hartAt t hid).saveJob.map (·.outcome) = some (some 4) ∧
      (3 ≤ cmd → (hartAt t hid).vstate = .absent ∧ t.mem = s.mem) ∧
      (cmd < 3 → hartAt t hid = { h with saveStatus := 1, saveJob := (hartAt t hid).saveJob }))

/-! ### Events: the VI page and the queue-head page (R304, R308 to R310, R321, R322, R330, R333) -/

/-- Stores to a VI page (R308 to R310): those of the VI itself are ignored; TSHOOT removes the VI's cached translations and no other; the
bounds of a range register change only while its KIND reads 0; a store that makes it live is taken only under the conditions of R310,
and counts in RANGEGEN; VI 0's registers are fixed. TRANSLATION_DROPPED removes or replaces
one cached translation, and changes nothing else. Stores to a queue-head page
(R321, R322, R330, R333): CTL while the queue is off and while it is on; TAIL only grows, and a smaller value counts in STALE; PRIOCAP
takes no hart's store; a hart's template window reaches no further than one of its own windows. -/
def Obligations.ViAndQueuePageStores : Prop :=
  (∀ (s : State) (ag : Agent) (vi : Nat),
    let own := (∃ k, ag = .hart k ∧ (hartAt s k).vi = vi) ∨ ag = .host vi
    (own → exec (.tshoot ag vi) s = .next s ∧ ∀ n dw v, exec (.rangeRegisterWrite ag vi n dw v) s = .next s) ∧
    (∀ n dw v, exec (.rangeRegisterWrite ag 0 n dw v) s = .next s) ∧
    (¬ own → exec (.tshoot ag vi) s = .next { s with tlb := s.tlb.filter fun x => x.vi != vi }) ∧
    (¬ own → vi ≠ 0 → ∀ n v, n < 16 →
      let x := viAt s vi
      let r := x.ranges[n]?.getD RangeReg.reset
      let put (r : RangeReg) := setVi s vi { x with ranges := x.ranges.setIfInBounds n r }
      let page := (v &&& 0xFFFFFFF80000).toNat
      let kind := v.extractLsb' 0 2
      let key := v.extractLsb' 8 8
      (r.kind ≠ 0 → ∀ dw, dw < 3 → exec (.rangeRegisterWrite ag vi n dw v) s = .next s) ∧
      (r.kind = 0 → exec (.rangeRegisterWrite ag vi n 0 v) s = .next (put { r with vbase := page }) ∧
        exec (.rangeRegisterWrite ag vi n 1 v) s = .next (put { r with vlast := page }) ∧
        exec (.rangeRegisterWrite ag vi n 2 v) s = .next (put { r with pbase := page })) ∧
      (kind = 0 → exec (.rangeRegisterWrite ag vi n 3 v) s = .next (put { r with key := key, kind := 0 })) ∧
      (kind ≠ 0 → r.kind ≠ 0 → exec (.rangeRegisterWrite ag vi n 3 v) s = .next s) ∧
      (kind ≠ 0 → r.kind = 0 →
        let low := if kind = 1 then 0 else if kind = 2 then 0x800000000000 else 0xC00000000000
        let viaEnd := if kind = 1 then 0x800000000000 else if kind = 2 then 0xC00000000000 else 2 ^ 48
        let paEnd := if kind = 1 then 0xB400000000 else viaEnd
        let allowed := r.vbase ≤ r.vlast ∧ low ≤ r.vbase ∧ r.vlast + 2 ^ 19 ≤ viaEnd ∧ low ≤ r.pbase + (r.vlast - r.vbase) ∧
          r.pbase + (r.vlast - r.vbase) + 2 ^ 19 ≤ paEnd ∧
          (∀ i, i < 16 → i ≠ n → let y := x.ranges[i]?.getD RangeReg.reset; y.kind = 0 ∨ r.vlast < y.vbase ∨ y.vlast < r.vbase) ∧
          (key = 0 ∨ (kind = 1 ∧ (keyAt s key.toNat).state = 1))
        (allowed → exec (.rangeRegisterWrite ag vi n 3 v) s = .next (setVi s vi
          { ranges := x.ranges.setIfInBounds n { r with key := key, kind := kind }, rangegen := x.rangegen + 1 })) ∧
        (¬ allowed → exec (.rangeRegisterWrite ag vi n 3 v) s = .next s))) ∧
    (∀ n, exec (.translationDropped (.drop n)) s = .next { s with tlb := s.tlb.eraseIdx n }) ∧
    (∀ hid va, ∃ t, exec (.translationDropped (.walk hid va)) s = .next t ∧ t = { s with tlb := t.tlb } ∧
      ∀ x ∈ t.tlb, x ∈ s.tlb ∨ x.cluster = hid / 16 ∧ x.vi = (hartAt s hid).vi ∧ x.root = (hartAt s hid).root ∧ x.unit = 16 ∧
        (if x.block then x.vpn / 65536 = va.toNat / 2 ^ 35 else x.vpn = va.toNat / 2 ^ 19))) ∧
  (∀ (s : State) (ag : Agent) (vi q : Nat) (v : Word), let x := queueAt s (64 * vi + q)
    let put (y : QueueSt) : Result := .next (setQueue s (64 * vi + q) y)
    let en := v.getLsbD 0
    (x.en = true → exec (.queueCtlWrite ag vi q v) s = put { x with en := en, fault := x.fault && en }) ∧
    (x.en = false → en = true → v.extractLsb' 1 4 = 0 → exec (.queueCtlWrite ag vi q v) s = .next s) ∧
    (x.en = false → en = false ∨ v.extractLsb' 1 4 ≠ 0 → exec (.queueCtlWrite ag vi q v) s = put { x with
      ring := (v.extractLsb' 7 41).toNat, log2 := (v.extractLsb' 1 4).toNat, en := en, fault := x.fault && en }) ∧
    (x.tail < v.toNat → exec (.tailWrite ag vi q v) s = put { x with tail := v.toNat }) ∧
    (x.tail = v.toNat → exec (.tailWrite ag vi q v) s = .next s) ∧
    (v.toNat < x.tail → x.stale + 1 < 2 ^ 64 → exec (.tailWrite ag vi q v) s = put { x with stale := x.stale + 1 }) ∧
    (∀ k, exec (.priocapWrite (.hart k) vi q v) s = .next s) ∧
    ((∀ k, ag ≠ .hart k) → exec (.priocapWrite ag vi q v) s = put { x with priocap := v.extractLsb' 0 2 }) ∧
    (∀ i, i < 8 → let old := x.wins[i]?.getD Window.none
      let base : Window := { old with base := v &&& 0xFFFFFFF80000 }
      let limit : Window := { old with limit := v &&& 0xFFFFFFF8001D }
      let set (w : Window) := put { x with wins := x.wins.setIfInBounds i w }
      ((∀ k, ag ≠ .hart k) → exec (.templateWrite ag vi q i false v) s = set base ∧
        exec (.templateWrite ag vi q i true v) s = set limit) ∧
      (∀ k, ag = .hart k →
        let inside (w : Window) : Bool := (hartAt s k).windows.toList.any (windowWithin w)
        exec (.templateWrite ag vi q i false v) s =
          (if old.limit.getLsbD 0 = false ∨ emptyWindow base = true ∨ inside base = true then set base else .next s) ∧
        exec (.templateWrite ag vi q i true v) s =
          (if emptyWindow limit = true ∨ inside limit = true then set limit else .next s))))

/-! ### Events: queues, packets and launch (R11, R276, R321 to R337, R414) -/

/-- A slot is scanned (R323, R324): with the SEQ that the scan awaits, its packet joins the waiting set and the scan moves on; with
another SEQ nothing happens; a wake of the scan that has more slots to examine is noted (R380); an access that stage 2 does not map sets FAULT. A packet whose state word has been set to a final state leaves
the waiting set (R331, R335); one that depends on a failed word fails with REASON 2 (R329); a queue that has FAULT set does nothing. -/
def Obligations.PacketScanAndChecks : Prop :=
  ∀ (s : State) (vi q : Nat), let qi := 64 * vi + q
    let x := queueAt s qi
    let via := x.ring * 128 + 128 * (x.scan % 2 ^ x.log2)
    s.mem.wf = true → q < 64 → s.resetPage.ready.getLsbD 0 = true → s.schedRunning = true →
    (x.en = true → x.fault = false → x.scan < x.tail → x.scan < x.head + 2 ^ x.log2 → x.waiting.length < 64 →
      ∀ i, i = .slotScan vi q ∨ i = .scanReread vi q →
      (schedRead s vi via = none → exec i s = .next (setQueue s qi { x with fault := true })) ∧
      (∀ w, schedRead s vi via = some w → w ≠ BitVec.ofNat 64 x.scan → exec i s = .next (setQueue s qi { x with waking := false })) ∧
      (∀ words : List Word, words.length = 16 → (∀ k, k < 16 → schedRead s vi (via + 8 * k) = words[k]?) →
        words[0]? = some (BitVec.ofNat 64 x.scan) → (∀ y ∈ x.waiting, y.slot ≠ x.scan) →
        let p : Packet := ⟨x.scan, via, words, none⟩
        pktState (pktWord p) = 1 → pktMalformed p = false → ∃ t, exec i s = .next t ∧
          t = { s with queues := t.queues } ∧ (∀ k, k ≠ qi → queueAt t k = queueAt s k) ∧
          queueAt t qi = { x with
            scan := x.scan + 1, waiting := x.waiting ++ [p]
            waking := decide (x.scan + 1 < x.tail ∧ x.scan + 1 < x.head + 2 ^ x.log2 ∧ x.waiting.length < 63) })) ∧
    (x.en = false ∨ x.fault = true ∨ x.tail ≤ x.scan → ∀ i, i = .slotScan vi q ∨ i = .scanReread vi q →
      exec i s = .next (setQueue s qi { x with waking := false })) ∧
    (x.fault = true → ∀ slot, exec (.stateWordRecheck vi q slot) s = .next s ∧ exec (.dependenceCheck vi q slot) s = .next s) ∧
    (x.fault = false → ∀ slot p, findPacket s qi slot = some p →
      (∀ w, schedRead s vi (p.via + 8) = some w → 2 ≤ pktState w → pktState w ≤ 5 →
        ∃ t, exec (.stateWordRecheck vi q slot) s = .next t ∧ t = { s with queues := t.queues } ∧
          findPacket t qi slot = none ∧ (∀ k, k ≠ qi → queueAt t k = queueAt s k)) ∧
      (schedRead s vi (p.via + 8) = none → exec (.stateWordRecheck vi q slot) s = .next (setQueue s qi { x with fault := true })) ∧
      (x.en = true → (∀ d ∈ depWords s qi p, d.isSome = true) →
        let bad := ∃ w, some w ∈ depWords s qi p ∧ (pktState w = 3 ∨ pktState w = 5)
        (¬ bad → exec (.dependenceCheck vi q slot) s = .next s) ∧
        (bad → schedRead s vi (p.via + 8) = some (pktWord p) →
          ∃ t, exec (.dependenceCheck vi q slot) s = .next t ∧ findPacket t qi slot = none ∧
            schedRead t vi (p.via + 8) = some (failedWord (pktWord p) 2) ∧ t.msix = s.msix ++ [(vi, q)] ∧
            t.harts = s.harts ∧ t.teams = s.teams)))

/-- The packet chosen is dispatched (R330 to R332): its state word becomes DISPATCHED, it leaves the waiting set, and a free team number
takes its harts, its ring and the queue's templates; one that no instance of SPAN can ever hold fails with REASON 4. -/
def Obligations.PacketDispatch : Prop :=
  ∀ (s : State) (start : Nat), s.mem.wf = true → s.resetPage.ready.getLsbD 0 = true → s.schedRunning = true →
    ∀ (n : Nat) (c : Candidate) (rest : List Candidate), freeTeam s = some n → inOrder s = c :: rest →
      let x := queueAt s c.qi
      let vi := c.qi / 64
      schedRead s vi (c.p.via + 8) = some (pktWord c.p) → pktState (pktWord c.p) = 1 →
      (neverFits s (pktWord c.p) = true → ∃ t, exec (.packetDispatch start) s = .next t ∧
        schedRead t vi (c.p.via + 8) = some (failedWord (pktWord c.p) 4) ∧ findPacket t c.qi c.p.slot = none ∧
        t.msix = s.msix ++ [(vi, c.qi % 64)] ∧ t.teams = s.teams) ∧
      (∀ members, neverFits s (pktWord c.p) = false → placeTeam s (pktWord c.p) start = some members →
        bufferUnmapped s vi c.p = false → ∃ t, exec (.packetDispatch start) s = .next t ∧
          schedRead t vi (c.p.via + 8) = some (putField (pktWord c.p) 0 4 2) ∧ findPacket t c.qi c.p.slot = none ∧
          t.rrQueue = s.rrQueue.setIfInBounds c.cls c.qi ∧ t.harts = s.harts ∧ (∀ k, k ≠ n → teamAt t k = teamAt s k) ∧
          (let y := teamAt t n;
            y.active = true ∧ y.vi = vi ∧ y.queue = c.qi ∧ y.members = members ∧ y.packet.slot = c.p.slot ∧ y.packet.via = c.p.via ∧
            y.root = x.roott ∧ y.wins = x.wins ∧ y.ept = x.eptt ∧ y.sinkt = x.sinkt ∧ y.savet = x.savet))

/-- Launch, reports and completion (R11, R276, R332, R334 to R336): a launch command takes a permit and starts the team's hart on its
cluster with the state of R11, where its rank ascends with its HID (R332), and with BYPTH 262,144, which R11 does not name (the model's
choice: DEDUCED, log 49); a report takes a permit and an acknowledgement gives one back; when every hart has ended and been
reported, the state word becomes COMPLETED, or FAILED with REASON 3 where a hart did not halt, and the queue's vector fires. -/
def Obligations.TeamLaunchAndCompletion : Prop :=
  (∀ (s : State) (n cl k : Nat) (m : Member), let x := teamAt s n
    let c := clusterAt s cl
    x.active = true → c.running = true → x.members[k]? = some m → m.hid / 16 = cl → m.launched = false → m.ended = false →
    (∀ i y, i ≠ k → x.members[i]? = some y → y.hid ≠ m.hid ∧ (y.hid / 16 = cl → y.launched = true ∨ y.ended = true)) →
    (∀ u ∈ c.unacked, u.num ≤ c.carried ∧ u.team ≠ n) → c.carried < c.nextCmd → s.resetPage.ready.getLsbD 0 = true → s.schedRunning = true →
    slotFree s m.hid = true → rankFits x.members k m.hid = true → ownedOnCore s (m.hid / 4) m.hid &&& m.own = 0 → (coreAt s (m.hid / 4)).retired &&& m.own = 0 →
    (c.held.contains n = false → c.cmdPermits = 0 → exec (.launchCommand n cl) s = .next s) ∧
    (c.held.contains n = true ∨ 0 < c.cmdPermits → ∃ t, exec (.launchCommand n cl) s = .next t ∧ t.mem = s.mem ∧
      (c.held.contains n = false → (clusterAt t cl).cmdPermits = c.cmdPermits - 1 ∧
        (clusterAt t cl).unacked = c.unacked ++ [⟨c.nextCmd, n⟩] ∧ (clusterAt t cl).nextCmd = c.nextCmd + 1 ∧
        (clusterAt t cl).carried = c.nextCmd) ∧
      (teamAt t n).members = x.members.map (fun y => if y.hid = m.hid then { y with launched := true } else y) ∧
      (∀ hid, hid ≠ m.hid → hartAt t hid = hartAt s hid) ∧
      (let g := hartAt t m.hid;
        g.ctl = .run ∧ g.pc = pktEntry x.packet ∧
        (∀ r, rd g r = if r = 1 then x.packet.words[3]?.getD 0 else if r = 2 then BitVec.ofNat 64 k
          else if r = 3 then BitVec.ofNat 64 (pktHarts (pktWord x.packet)) else 0) ∧
        g.own = m.own ∧ g.queue = [] ∧ g.rq = [] ∧ g.vl = 0 ∧ g.rows = 1 ∧ g.vxsr = 0 ∧ g.emitseq = 0 ∧ g.trapCount = 0 ∧
        g.dirty = 0 ∧ g.shape = false ∧ g.rct = true ∧ g.ict = true ∧
        g.vstate = (if m.own = 0 then .absent else .present) ∧ g.tags = Vector.replicate 32 0 ∧ g.masks = Vector.replicate 16 0 ∧
        g.root = x.root ∧ g.windows = x.wins ∧ g.ept = x.ept ∧ g.team = some n ∧ g.vi = x.vi ∧ g.bypth = 262144 ∧
        g.farmGen = (if x.packet.words[5]?.getD 0 = 0 then 0 else 1)))) ∧
  (∀ (s : State) (cl : Nat), let c := clusterAt s cl
    let put (y : ClusterSt) : Result := .next (setCluster s cl y)
    (∀ r rest, c.reports = r :: rest → c.running = true → 0 < c.repPermits → exec (.leafReport cl) s =
      put { c with reports := rest, repPermits := c.repPermits - 1, unackedReports := c.unackedReports + 1 }) ∧
    (c.repPermits = 0 → exec (.leafReport cl) s = .next s) ∧
    (∀ u rest, c.unacked = u :: rest → c.carried < u.num → exec (.commandLinkAcknowledge cl true) s = .next s) ∧
    (∀ u rest, c.unacked = u :: rest → u.num ≤ c.carried → c.cmdPermits < 16 → exec (.commandLinkAcknowledge cl true) s =
      put { c with unacked := rest, cmdPermits := c.cmdPermits + 1 }) ∧
    (0 < c.unackedReports → c.repPermits < 16 → exec (.commandLinkAcknowledge cl false) s =
      put { c with unackedReports := c.unackedReports - 1, repPermits := c.repPermits + 1 })) ∧
  (∀ (s : State) (n : Nat) (w : Word), let x := teamAt s n
    s.mem.wf = true → x.active = true → s.resetPage.ready.getLsbD 0 = true → s.schedRunning = true →
    ((∃ m ∈ x.members, m.ended = false) → exec (.packetComplete n) s = .next s) ∧
    ((∀ m ∈ x.members, m.ended = true ∧ m.hid ∉ (clusterAt s (m.hid / 16)).reports) →
      schedRead s x.vi (x.packet.via + 8) = some w → ∃ t, exec (.packetComplete n) s = .next t ∧ (teamAt t n).active = false ∧
        t.msix = s.msix ++ [(x.queue / 64, x.queue % 64)] ∧ t.harts = s.harts ∧
        schedRead t x.vi (x.packet.via + 8) = some (
          if ∀ m ∈ x.members, m.halted = true then putField (pktWord x.packet) 0 4 4 else failedWord (pktWord x.packet) 3)))


/-! ### Events: errors, memory from outside (R182, R243 to R246, R272, R277, R286, R287, R289, R317, R358, R372 to R376) -/

/-- Errors. A disagreement in a lane or in the array that is found in a word under check is counted by its leaf controller and recorded, and
one that could not be corrected is class 22 of that word, at the element group (for a word alone in its queue); a single-bit memory error is
recorded, a double-bit one in dirty data, or a tag, poisons what is lost (the set's dirty lines of that cluster: log 5); a missed heartbeat and a
hang are recorded and acted on; counters reach the hallmark record at a flush; a migration ends with its page in the new frame, and changes
no value. A write over the host link lands at the page's place, unless its page is keyed. The model's own choices among these, which no rule
states: severity 1 of KIND 10 and 11 and severity 0 and UNIT 0 of KIND 7 (log 36), the second CRUCIBLE_HANG taking the die rung (log 56), and
a migration as an exchange with the page that held the frame (log 60). -/
def Obligations.ErrorsAndOutsideWrites : Prop :=
  ∀ (s : State),
    (∀ core lc lane pipe sub row group, lc < 4 → lane < 4 → pipe < 4 → sub < 16 → let cl := core / 4
      let counts (t : State) (w : Nat) : Prop := fmGet (clusterAt t cl).counters 0 (128 * core + w) =
        min (fmGet (clusterAt s cl).counters 0 (128 * core + w) + 1) (2 ^ 32 - 1)
      let told (t : State) : Prop := (clusterAt t cl).reports = (clusterAt s cl).reports ++ [3072]
      let frame (t : State) : Prop := OnlyLogged { s with clusters := t.clusters } t ∧ ∀ k, k ≠ cl → clusterAt t k = clusterAt s k
      let corrected (checked : Bool) (f : LocalFault) (w unit : Nat) : Prop :=
        (checked = false → exec (.localFaultRecord cl f) s = .next s) ∧
        (checked = true → Unlimited s cl → ∃ t, exec (.localFaultRecord cl f) s = .next t ∧ frame t ∧ counts t w ∧ told t ∧
          Records s t 5 0 0 (cl / 8) (cl % 8) (core % 4) unit 0)
      corrected (underAssay s core lc (· == lane) (pipeChecked pipe)).isSome (.assayCorrected core lc lane pipe)
        (16 * lc + 4 * lane + pipe) (4 * lc + lane) ∧
      corrected (underAssay s core lc (fun _ => true) fun c => (List.range 4).any (pipeChecked · c)).isSome (.assayLaneWrong core lc)
        (64 + lc) (4 * lc) ∧
      corrected (arrayWord s core).isSome (.arrayCorrected core sub) (72 + sub) sub ∧
      (∀ k f, k ≠ cl → f ≠ .translationStructure → f = .assayCorrected core lc lane pipe ∨ f = .arrayUncorrectable core sub →
        exec (.localFaultRecord k f) s = .next s) ∧
      (let i : Instr := .localFaultRecord cl (.assayUncorrectable core lc lane pipe row group);
        (underAssay s core lc (· == lane) (pipeChecked pipe) = none → exec i s = .next s) ∧
        (∀ hid e c w p, underAssay s core lc (· == lane) (pipeChecked pipe) = some (hid, e) → queuedClass e.word = some (c, w) →
          groupStart (hartAt s hid) e c w lc lane row group = some p → (hartAt s hid).queue = [e] → elementWise c = true →
          fillsQueue c = false → (hartAt s hid).ctl ≠ .trapped →
          let u := enterWindow s hid
          let r := sweep hid e.shape (elemAt s.mem (hartAt u hid) hid e c w) u (foldValue e) ((keysLeft e).filter fun k => decide (k < p))
          r.fault = none → r.stall = none → (∀ a ∈ r.acts, ∀ x ∈ a.effs, ∀ pa v, x ≠ .ctl pa v) →
          ∃ t, exec i s = .next t ∧ counts t (16 * lc + 4 * lane + pipe) ∧ counts t (68 + lc) ∧ told t ∧
            Records s t 6 1 0 (cl / 8) (cl % 8) (core % 4) (4 * lc + lane) 0 ∧
            (let g := hartAt t hid; g.ctl = .trapped ∧ g.qStopped = true ∧ g.vstart = BitVec.ofNat 32 p ∧
              field g.trapRec.cause 20 8 = 22 ∧ field g.trapRec.cause 0 20 = 4 * lc + lane ∧ g.trapRec.cause.getLsbD 28 = true ∧
              g.trapRec.emitPc = e.emitPc ∧ g.trapRec.seq = e.seq ∧ g.pc = (hartAt s hid).pc))) ∧
      (let i : Instr := .localFaultRecord cl (.arrayUncorrectable core sub);
        (arrayWord s core = none → exec i s = .next s) ∧
        (∀ hid e, arrayWord s core = some (hid, e) → (hartAt s hid).ctl ≠ .trapped →
          ∃ t, exec i s = .next t ∧ counts t (72 + sub) ∧ counts t 88 ∧ told t ∧
            Records s t 6 1 0 (cl / 8) (cl % 8) (core % 4) 0 0 ∧ (hartAt t hid).ctl = .trapped ∧
            field (hartAt t hid).trapRec.cause 20 8 = 22 ∧ field (hartAt t hid).trapRec.cause 0 20 = 16))) ∧
    (∀ cl, ∃ t, exec (.localFaultRecord cl .translationStructure) s = .next t ∧ t.tlb = s.tlb.filter (fun x => x.cluster != cl) ∧
      t.harts = s.harts ∧ t.mem = s.mem ∧ (clusterAt t cl).reports = (clusterAt s cl).reports ++ [3072] ∧
      Records s t 7 0 0 (cl / 8) (cl % 8) 0 0 0) ∧
    (∀ cl pa k, let held := dirtyIn s.mem cl (pa / 128)
      (k = .doubleClean ∧ held = true ∨ k = .doubleDirty ∧ held = false → exec (.l2Error cl pa k) s = .next s) ∧
      (¬ (k = .doubleClean ∧ held = true) → ¬ (k = .doubleDirty ∧ held = false) →
        ∃ t, exec (.l2Error cl pa k) s = .next t ∧ OnlyLogged { s with mem := t.mem, clusters := t.clusters } t ∧
          (clusterAt t cl).reports = (clusterAt s cl).reports ++ [3072] ∧ t.mem.cells = s.mem.cells ∧ t.mem.locks = s.mem.locks ∧
          (k = .single → t.mem = s.mem) ∧
          (k = .single ∨ k = .doubleClean → t.mem.poison = s.mem.poison ∧
            (Unlimited s cl → Records s t 1 0 0 (cl / 8) (cl % 8) 0 (bankOf pa) (BitVec.ofNat 64 pa))) ∧
          (k = .doubleDirty ∨ k = .tag → Records s t 2 1 0 (cl / 8) (cl % 8) 0 (bankOf pa) (BitVec.ofNat 64 pa)) ∧
          (k = .doubleDirty → ∀ a, poisoned t.mem a 1 = (poisoned s.mem a 1 || decide (a / 32 = pa / 32))) ∧
          (k = .tag →
            ∀ a, poisoned t.mem a 1 = (poisoned s.mem a 1 || sameSet (a / 128) (pa / 128) && dirtyIn s.mem cl (a / 128))))) ∧
    (∀ die pa double, (0xB400000000 ≤ pa ∨ (frameAt s (pa / 2 ^ 19)).1 ≠ die → exec (.hbmError die pa double) s = .next s) ∧
      (pa < 0xB400000000 → (frameAt s (pa / 2 ^ 19)).1 = die → ∃ t, exec (.hbmError die pa double) s = .next t ∧
        OnlyLogged { s with mem := t.mem } t ∧ t.mem.cells = s.mem.cells ∧ t.mem.locks = s.mem.locks ∧
        (double = false → t.mem = s.mem ∧ (Unlimited s (8 * die) → Records s t 3 0 0 die 0 0 0 (BitVec.ofNat 64 pa))) ∧
        (double = true → Records s t 4 1 0 die 0 0 0 (BitVec.ofNat 64 pa) ∧
          ∀ a, poisoned t.mem a 1 = (poisoned s.mem a 1 || decide (a / 32 = pa / 32))))) ∧
    (∀ cl, ((clusterAt s cl).running = false → exec (.heartbeatTimeout (.leaf cl)) s = .next s) ∧
      ((clusterAt s cl).running = true → ∃ t, exec (.heartbeatTimeout (.leaf cl)) s = .next t ∧
        OnlyLogged { s with clusters := t.clusters } t ∧ clusterAt t cl = { clusterAt s cl with running := false } ∧
        (∀ k, k ≠ cl → clusterAt t k = clusterAt s k) ∧ Records s t 10 1 0 (cl / 8) (cl % 8) 0 0 0)) ∧
    (s.standbyActive = true ∨ s.schedRunning = false → exec (.heartbeatTimeout .scheduler) s = .next s) ∧
    (s.standbyActive = false → s.schedRunning = true → ∃ t, exec (.heartbeatTimeout .scheduler) s = .next t ∧
      OnlyLogged { s with schedRunning := false, takeover := some (s.pt + 100000) } t ∧ Records s t 11 1 1 0 0 0 0 0) ∧
    (∃ t, exec (.heartbeatTimeout .both) s = .next t ∧ OnlyLogged { s with schedRunning := false, takeover := none } t ∧
      Records s t 11 2 1 0 0 0 0 0) ∧
    (∀ core, core < 768 →
      (∀ since, fmFind s.hung core = some since → exec (.crucibleHang core) s =
        .next (if since + 1000000 ≤ s.pt then dieRung s (core / 32) else s)) ∧
      (fmFind s.hung core = none → coreBusy s core = false ∨ (coreAt s core).quiet < 2 ^ 22 → exec (.crucibleHang core) s = .next s) ∧
      (fmFind s.hung core = none → coreBusy s core = true → 2 ^ 22 ≤ (coreAt s core).quiet → ∃ t, exec (.crucibleHang core) s = .next t ∧
        (∀ i, i < 4 → (hartAt t (4 * core + i)).ctl = .idle) ∧ fmFind t.hung core = some s.pt ∧
        Records s t 9 1 0 (core / 32) (core / 4 % 8) (core % 4) 0 0 ∧
        ∀ l, l < 4 → fmGet (clusterAt t (core / 4)).counters 0 (128 * core + (68 + l)) =
          min (fmGet (clusterAt s (core / 4)).counters 0 (128 * core + (68 + l)) + 1) (2 ^ 32 - 1))) ∧
    (∀ cl ok, let c := clusterAt s cl
      (c.running = true → exec (.leafControllerRestart cl ok) s = .next s) ∧
      (c.running = false → ok = false → exec (.leafControllerRestart cl ok) s = .next (dieRung s (cl / 8))) ∧
      (c.running = false → ok = true → (∀ u ∈ c.unacked, u.num ≤ c.carried) → exec (.leafControllerRestart cl ok) s =
        .next (setCluster s cl { c with running := true }))) ∧
    (∃ t, exec .hallmarkFlush s = .next t ∧ t = { s with clusters := t.clusters, hallmark := t.hallmark } ∧
      (∀ cl, cl < 192 → (clusterAt t cl).counters = []) ∧
      ∀ cl k n, cl < 192 → (clusterAt s cl).counters = [(k, n)] → (∀ c, c < 192 → c ≠ cl → (clusterAt s c).counters = []) →
        fmGet t.hallmark.counters 0 k = min (fmGet s.hallmark.counters 0 k + n) (2 ^ 32 - 1)) ∧
    (∀ page die frame, let i : Instr := .pageMigration page die frame
      (∀ m, s.migration = some m →
        (m.page ≠ page → exec i s = .next s) ∧
        (m.page = page → ∃ t, exec i s = .next t ∧ t = { s with frames := t.frames, migration := none } ∧
          frameAt t page = (m.die, m.frame) ∧ (∀ q, m.other = some q → q ≠ page → frameAt t q = frameAt s page) ∧
          ∀ q, q ≠ page → m.other ≠ some q → frameAt t q = frameAt s q)) ∧
      (s.migration = none → s.calendar.current.isSome = true → exec i s = .next s) ∧
      (s.migration = none → s.calendar.current = none → page < 1474560 → die < 24 → frame < 61440 →
        exec i s = .next { s with migration := some ⟨page, die, frame, (frameHolder s die frame).filter (· != page), s.pt⟩ })) ∧
    (∀ vi via bs, bs.length ≤ 2 ^ 19 - via % 2 ^ 19 →
      (stageTwo s vi via = none → exec (.hostMemoryWrite vi via bs) s = .next s) ∧
      (∀ p, stageTwo s vi via = some p →
        (p.key ≠ 0 → exec (.hostMemoryWrite vi via bs) s = .next { s with aer := s.aer ++ [⟨vi, false⟩] }) ∧
        (p.key = 0 → p.kind ≠ 3 → exec (.hostMemoryWrite vi via bs) s = .next { s with mem := writeBytes s.mem 0 p.pa bs }) ∧
        (∀ v : Word, p.key = 0 → p.kind = 3 → p.pa % 8 = 0 → bs = splitBytes 8 v.toNat →
          exec (.hostMemoryWrite vi via bs) s = exec (.controlRegisterWrite (.host vi) p.pa v) s)))


/-! ### The calendar, power and time (R115, R210, R211, R247, R340 to R350) -/

/-- SLOTQ, a load of the calendar page, gives the first candidate, or all ones, once the hart's own queued vector words that access the
page have done so (R115, R183). A slot that is due begins, and one whose housekeeping is over ends
(R343); firmware's rewrite of the list begins with GEN odd and ends with GEN even: it drops what has ended unless an open slot keeps it
from starting, lists legal slots, those it is offered and its own (log 10), and refresh slots until 256 are listed, or, after an overrun, moves every later slot, counts and records it (R340, R341, R346). Time passes to a refill:
where nothing else falls due before, every balance takes REFILL up to CAP, and new allowances are adopted outside a sensor sweep (R348,
R350); to the end of a loan's microsecond: it costs a token, and a negative balance ends the loans (R210, R211). -/
def Obligations.AnnealCalendarAndPower : Prop :=
  (∀ (s : State) (d : Reg) (k : BitVec 4), 1 ≤ d.toNat → d.toNat ≤ 62 →
    let cand (x : Slot) : Prop := k.getLsbD x.kind = true ∧ x.dies.getLsbD (s.cur / 128) = true ∧ s.pt < x.start + x.dur
    let gives (v w : Word) : Prop := ∃ t, exec (.slotq d k) s = .next t ∧ OnlyScalars s t ∧ NextPc s t 4 ∧ SameBytes s t ∧
      ∀ r, reg t r = if r = d then v else if r = d + 1 then w else reg s r
    let busy := pageBusy s s.cur 0xC00600080000
    (busy = true → ∃ t, exec (.slotq d k) s = .next t ∧ WaitsAt s t ∧ t.mem = s.mem) ∧
    (busy = false → (∀ x ∈ s.calendar.slots, ¬ cand x) → gives (BitVec.allOnes 64) 0) ∧
    (∀ before x after, busy = false → s.calendar.slots = before ++ x :: after → cand x → (∀ z ∈ before, ¬ cand z) →
      gives (BitVec.ofNat 64 x.start) (BitVec.ofNat 64 x.dur))) ∧
  (∀ (s : State), let c := s.calendar
    let due (x : Slot) : Prop := x.start ≤ s.pt ∧ s.pt < x.start + x.dur
    let moves := ∃ r x, c.rewrite = some r ∧ r.overrun = some x
    (c.current.isSome = true ∨ moves ∨ (∀ x ∈ c.slots, ¬ due x) → exec .annealSlotStart s = .next s) ∧
    (∀ before x after, c.current = none → ¬ moves → c.slots = before ++ x :: after → due x → (∀ z ∈ before, ¬ due z) →
      ∃ t, exec .annealSlotStart s = .next t ∧
        t = { endMigration s with calendar := { c with current := some x, extra := 0 }, links := t.links } ∧
        ∀ l, (linkAt t l).state =
          if x.kind = 1 ∧ l < 36 ∧ x.hubs.getLsbD (l / 9) = true ∧ (linkAt s l).state = 3 then 1 else (linkAt s l).state) ∧
    (∀ late, c.current = none → exec (.annealSlotEnd late) s = .next s) ∧
    (∀ late x, c.current = some x →
      (s.pt < x.start + x.dur + late → exec (.annealSlotEnd late) s = .next { s with calendar := { c with extra := late } }) ∧
      (x.start + x.dur + late ≤ s.pt → c.rewrite = none → ∃ t, exec (.annealSlotEnd late) s = .next t ∧
        t.calendar = (let c := { c with current := none, extra := 0, blockEnd := t.calendar.blockEnd }
          if s.pt = x.start + x.dur then c
          else { c with gen := c.gen + 1, rewrite := some ⟨[], some (x, s.pt - (x.start + x.dur))⟩ }) ∧
        (∀ d, fmGet t.calendar.blockEnd 0 d = if d < 24 ∧ blocksDie x d = true then s.pt + 1 else fmGet c.blockEnd 0 d) ∧
        (x.kind ≠ 1 → t = { s with calendar := t.calendar }) ∧
        ∀ l, (linkAt t l).state =
          if x.kind = 1 ∧ l < 36 ∧ x.hubs.getLsbD (l / 9) = true ∧ (linkAt s l).state = 1 then 3 else (linkAt s l).state)) ∧
    (∀ add, c.rewrite = none → exec (.calendarPublish add) s =
      .next { s with calendar := { c with gen := c.gen + 1, rewrite := some ⟨add, none⟩ } }) ∧
    (∀ add more, c.rewrite = some ⟨add, none⟩ → c.slots.length ≤ 256 → ∃ t, exec (.calendarPublish more) s = .next t ∧
      t = { s with calendar := t.calendar } ∧ t.calendar.gen = c.gen + 1 ∧ t.calendar.rewrite = none ∧ t.calendar.current = c.current ∧
      t.calendar.slots.length = 256 ∧
      (let stays (y : Slot) : Prop := s.pt < y.start + y.dur ∨ ∃ z, c.current = some z ∧ z.start ≤ y.start
       (∀ y ∈ c.slots, stays y → y ∈ t.calendar.slots) ∧
       ∀ y ∈ t.calendar.slots,
        y ∈ c.slots ∧ stays y ∨
        y.kind = 0 ∧ y.dur = 280 ∧ y.dies = BitVec.allOnes 24 ∧ y.hubs = 15 ∨
        (y ∈ add ++ more ∨ (fmFind c.nominal y.kind).isSome = true ∨ ∃ z ∈ add ++ more, z.kind = y.kind) ∧
        s.pt < y.start ∧ (c.gen ≤ 1 ∨ s.pt + 800000 ≤ y.start) ∧ (y.kind = 1 ∧ y.dur = 2000 ∧ y.dies = BitVec.allOnes 24 ∨ y.kind = 2 ∧ y.dur = 1000 ∨
          y.kind = 3 ∧ y.dur = 100 ∧ y.dies = BitVec.allOnes 24 ∧ y.hubs = 15))) ∧
    (∀ add more x late, c.rewrite = some ⟨add, some (x, late)⟩ → ∃ t, exec (.calendarPublish more) s = .next t ∧
      OnlyLogged { s with calendar := t.calendar } t ∧ Records s t 8 0 1 0 0 0 0 (BitVec.ofNat 64 late) ∧
      t.calendar = { c with
        shift := c.shift + late, event := c.event + 1, gen := c.gen + 1, rewrite := none
        lastOver := late, lastKind := 2 ^ x.kind, lastStart := x.start
        lastRefresh := c.lastRefresh.map (· + late), nominal := c.nominal.map fun y => (y.1, y.2 + late)
        slots := c.slots.map fun y => if x.start < y.start then { y with start := y.start + late } else y })) ∧
  (∀ (s : State), let p := s.power
    let c := s.calendar
    let sweep := ∃ x, c.current = some x ∧ x.kind = 3
    -- nothing but refills and loans falls due in the next n ns
    let calm (n : Nat) : Prop := c.rewrite = none ∧ s.takeover = none ∧ s.migration = none ∧ (∀ x ∈ s.harts, x.2.wc = []) ∧
      (∀ x, c.current = some x → s.pt + n < x.start + x.dur + c.extra) ∧ (c.current = none → ∀ x ∈ c.slots, s.pt + n < x.start) ∧
      ∀ r, c.lastRefresh = some r → s.pt + n < r + 3900 - 800000
    let n := 10000 - s.pt % 10000
    (calm n → (∀ x ∈ s.cores, x.2.loans = []) → ∃ t, exec .tokenRefill s = .next t ∧ t.pt = s.pt + n ∧ t.mem = s.mem ∧
      (sweep → t.power = p) ∧
      (¬ sweep → t.power = { p with
        granted := p.nextGranted, borrowed := p.nextBorrowed, lent := p.nextLent
        refill := (p.nextGranted + p.nextBorrowed - p.nextLent - p.fixed.toNat) * 108 / 192 }) ∧
      (∀ cl, cl < 192 → (clusterAt t cl).bal = min (p.cap.toNat : Int) ((clusterAt s cl).bal + t.power.refill)) ∧
      ∀ hid, (hartAt t hid).timer = (hartAt s hid).timer +
        (if timerCounts s hid then n * clockOf s (hid / 128) / 100 else 0) ∧ (∀ r, rd (hartAt t hid) r = rd (hartAt s hid) r) ∧
        (hartAt t hid).pc = (hartAt s hid).pc) ∧
    (∀ k, exec (.rackCoordinatorGrant k) s = .next { s with power := { p with nextGranted := min k 65535 } }) ∧
    (∀ ag v, exec (.clkdieSelect ag v) s = .next { s with power := { p with clkdie := v.extractLsb' 8 5 } }) ∧
    (∀ die clk, (sweep → exec (.throttling die clk) s = .next s) ∧
      (¬ sweep → exec (.throttling die clk) s = .next { s with power := { p with clocks := fmSet p.clocks die (min clk 210) } })) ∧
    (∀ core lc, let cl := core / 4
      ((∀ l ∈ (coreAt s core).loans, l.lc ≠ lc) → exec (.loanDebit core lc) s = .next s) ∧
      (∀ l : Loan, l.lc = lc → (coreAt s core).loans = [l] → (∀ x ∈ s.cores, ∀ y ∈ x.2.loans, x.1 = core ∧ y = l) →
        l.since ≤ s.pt → s.pt < l.since + 1000 → calm (l.since + 1000 - s.pt) → l.since + 1000 < s.pt + n →
        ∃ t, exec (.loanDebit core lc) s = .next t ∧ t.pt = l.since + 1000 ∧ t.mem = s.mem ∧
          (clusterAt t cl).bal = (clusterAt s cl).bal - 1 ∧
          (1 ≤ (clusterAt s cl).bal → (coreAt t core).loans = [{ l with since := l.since + 1000 }]) ∧
          ((clusterAt s cl).bal < 1 → ∀ i, i < 4 → (coreAt t (4 * cl + i)).loans = []))) ∧
    (∀ l k, ((linkAt s l).state ≠ 2 → ∀ m, exec (.ingotTrade l m) s = .next s) ∧
      ((linkAt s l).state = 2 →
        let may := 0 < k ∧ k ≤ (linkAt s l).asked ∧ p.nextLent + k ≤ p.lendmax.toNat ∧
          p.measured + 20 ≤ 10 * (p.granted + p.borrowed - p.lent) ∧ (linkAt s l).offered ≠ some (s.pt / 1000000)
        (¬ may → exec (.ingotTrade l (.offer k)) s = .next s) ∧
        (may → ∃ t, exec (.ingotTrade l (.offer k)) s = .next t ∧
          t.power = { p with nextLent := p.nextLent + k } ∧ (linkAt t l).lent = (linkAt s l).lent + k ∧
          (linkAt t l).asked = (linkAt s l).asked - k ∧ (linkAt t l).offered = some (s.pt / 1000000) ∧ t.harts = s.harts) ∧
        (∃ t, exec (.ingotTrade l (.giveBack k)) s = .next t ∧
          t.power = { p with nextBorrowed := p.nextBorrowed - min k (linkAt s l).borrowed } ∧
          (linkAt t l).borrowed = (linkAt s l).borrowed - min k (linkAt s l).borrowed ∧ t.harts = s.harts))))


/-! ### Flacons, keys and the security controller (R352 to R367) -/

/-- The commands of the security controller (R353, R355 to R357, R362 to R367). A flacon's command that its state does not allow gives its
RESULT and changes nothing else; CREATE takes an empty flacon while DEBUG is 0, MEASURE absorbs a page that a live range maps under a key
of the flacon, FINALIZE ends the building, DESTROY empties a flacon without cores; ASSIGN and RELEASE move an empty core and wipe it;
GENERATE makes a key; REVOKE begins on a LIVE slot, which then reads REVOKING with what was stored under the key performed, and completes
on a REVOKING one, with its dirty lines written back and counted, its cached translations removed, and the slot EMPTY; a token is accepted
once, for its nonce; ATTEST reads FLID as the whole doubleword at TOKPA, so that one above 255 is rejected (the model's reading, log 50). -/
def Obligations.TrustCommands : Prop :=
  (∀ (s : State) (f : Nat), let x := flaconAt s f
    let y : Flacon := { x with cmd := 0 }
    let put (z : Flacon) : Result := .next (setFlacon s f z)
    let pending (c : BitVec 4) : Prop := x.cmd = c ∧ x.result = 2
    (∀ i c, (i = .create f ∧ c = 1) ∨ (i = .measure f ∧ c = 2) ∨ (i = .finalize f ∧ c = 3) ∨ (i = .destroy f ∧ c = 4) →
      (¬ pending c → exec i s = .next s)) ∧
    (pending 1 →
      (x.state ≠ 0 → exec (.create f) s = put { y with result := 4 }) ∧
      (x.state = 0 → s.sec.debug = true → exec (.create f) s = put { y with result := 3 }) ∧
      (x.state = 0 → s.sec.debug = false → exec (.create f) s = .next (setFlacon { s with epochs := s.epochs + 2 } f { y with
        state := 1, result := 1, measure := Config.shake256 [], debugLatch := false
        tagKey := s.epochs + 1, ctxKey := s.epochs + 2 }))) ∧
    (pending 2 →
      (x.state ≠ 1 → exec (.measure f) s = put { y with result := 4 }) ∧
      (x.state = 1 → measureSlot s f x.measpa.toNat = none → exec (.measure f) s = put { y with result := 6 }) ∧
      (∀ k, x.state = 1 → measureSlot s f x.measpa.toNat = some k → exec (.measure f) s = put { y with
        result := 1
        measure := Config.shake256 (splitBytes 64 x.measure.toNat ++ splitBytes 8 x.measpa.toNat ++
          readBytes s.mem (keyAt s k).epoch x.measpa.toNat (2 ^ 19)) })) ∧
    (pending 3 →
      (x.state ≠ 1 → exec (.finalize f) s = put { y with result := 4 }) ∧
      (x.state = 1 → exec (.finalize f) s = put { y with state := 2, result := 1 })) ∧
    (pending 4 →
      (x.state ≠ 1 → x.state ≠ 2 → exec (.destroy f) s = put { y with result := 4 }) ∧
      (x.state = 1 ∨ x.state = 2 → ncores s f ≠ 0 → exec (.destroy f) s = put { y with result := 5 }) ∧
      (x.state = 1 ∨ x.state = 2 → ncores s f = 0 → ∃ t, exec (.destroy f) s = .next t ∧
        flaconAt t f = { y with state := 0, result := 1, tagKey := 0, ctxKey := 0, debugLatch := false } ∧
        (∀ k, 1 ≤ k → k < 256 → (keyAt s k).state ≠ 0 → (keyAt s k).owner = BitVec.ofNat 8 f → f < 256 →
          (keyAt t k).state = 0 ∧ (keyAt t k).epoch = 0) ∧
        (∀ k, (keyAt s k).owner.toNat ≠ f → keyAt t k = keyAt s k)))) ∧
  (∀ (s : State) (f : Nat), let x := flaconAt s f
    let core := x.core.toNat
    let vacant := ∀ i, i < 4 → (hartAt s (4 * core + i)).ctl = .idle
    let refused (i : Instr) (r : BitVec 8) : Prop :=
      exec i s = .next (setFlacon s f { x with coreOp := 0, coreResult := r })
    let moved (i : Instr) (flid : BitVec 8) : Prop := ∃ t, exec i s = .next t ∧
      flaconAt t f = { x with coreOp := 0, coreResult := 2 } ∧ (coreAt t core).flid = flid ∧
      (coreAt t core).wb = CoreSt.reset.wb ∧ (coreAt t core).ab = CoreSt.reset.ab ∧ (coreAt t core).cb = CoreSt.reset.cb ∧
      (coreAt t core).tiles = CoreSt.reset.tiles ∧ (coreAt t core).retired = (coreAt s core).retired ∧
      (∀ k, k ≠ core → coreAt t k = coreAt s k) ∧
      ∀ i, i < 4 → let g := hartAt t (4 * core + i)
        (∀ r, rd g r = 0) ∧ g.vregs = Vector.replicate 32 0 ∧ g.masks = Vector.replicate 16 0 ∧ g.rq = [] ∧ g.lq0 = 0 ∧ g.lq1 = 0
    (x.coreResult ≠ 1 → exec (.assign f) s = .next s ∧ exec (.release f) s = .next s) ∧
    (x.coreOp = 1 → x.coreResult = 1 →
      (¬ vacant → refused (.assign f) 3) ∧
      (vacant → x.state ≠ 2 → refused (.assign f) 4) ∧
      (vacant → x.state = 2 → coreRetired s core = true ∨ ((coreAt s core).flid ≠ 0 ∧ (coreAt s core).flid.toNat ≠ f) →
        refused (.assign f) 5) ∧
      (vacant → x.state = 2 → coreRetired s core = false → (coreAt s core).flid = 0 ∨ (coreAt s core).flid.toNat = f → moved (.assign f) (BitVec.ofNat 8 f))) ∧
    (x.coreOp = 2 → x.coreResult = 1 →
      (¬ vacant → refused (.release f) 3) ∧
      (vacant → (coreAt s core).flid.toNat ≠ f → refused (.release f) 6) ∧
      (vacant → (coreAt s core).flid.toNat = f → moved (.release f) 0))) ∧
  (∀ (s : State) (k : Nat), let x := keyAt s k
    let y : KeySlot := { x with cmd := 0 }
    (x.result ≠ 2 → exec (.generate k) s = .next s ∧ exec (.revoke k) s = .next s) ∧
    (x.cmd = 1 → x.result = 2 →
      (x.state ≠ 0 → exec (.generate k) s = .next (setKey s k { y with result := 4 })) ∧
      (x.state = 0 → x.arg = 0 ∨ (flaconAt s x.arg.toNat).state = 0 →
        exec (.generate k) s = .next (setKey s k { y with result := 6 })) ∧
      (x.state = 0 → x.arg ≠ 0 → (flaconAt s x.arg.toNat).state ≠ 0 → exec (.generate k) s =
        .next (setKey { s with epochs := s.epochs + 1 } k { y with
          owner := x.arg, state := 1, result := 1, epoch := s.epochs + 1 }))) ∧
    (x.cmd = 2 → x.result = 2 →
      (x.state ≠ 1 → x.state ≠ 2 → exec (.revoke k) s = .next (setKey s k { y with result := 4 })) ∧
      (x.state = 1 → ∃ t, exec (.revoke k) s = .next t ∧ keyAt t k = { x with state := 2 } ∧ (∀ j, j ≠ k → keyAt t j = keyAt s j) ∧
        ((∀ h ∈ s.harts, ∀ w ∈ h.2.wc, w.epoch ≠ x.epoch) → t = setKey s k { x with state := 2 })) ∧
      (x.state = 2 → let lines := dirtyUnder s.mem x.epoch
        ∃ t, exec (.revoke k) s = .next t ∧
          keyAt t k = { y with owner := 0, state := 0, epoch := 0, flushed := lines.length, result := 1 } ∧
          (∀ j, j ≠ k → keyAt t j = keyAt s j) ∧ t.tlb = s.tlb.filter (fun e => !keyedBy s k e) ∧
          t.mem = { s.mem with dirty := s.mem.dirty.filter fun d => !lines.contains d.1 } ∧
          ∀ hid, hartAt t hid = { hartAt s hid with stalled := (hartAt t hid).stalled }))) ∧
  (∀ (s : State), let c := s.sec
    let done (ok : Bool) : SecCtl := { c with cmd := 0, result := if ok then 2 else 3, nonces := c.nonces + 1 }
    (c.result ≠ 1 → exec .debugUnlock s = .next s ∧ exec .lifeCycle s = .next s ∧ exec .attest s = .next s) ∧
    (c.cmd = 1 → c.result = 1 → exec .debugUnlock s = .next { s with
      sec := { done (tokenOk s 1) with debug := c.debug || tokenOk s 1 } }) ∧
    (c.cmd = 2 → c.result = 1 →
      let following : Option (BitVec 2) :=
        if tokenOk s 2 = true ∧ c.life ≠ 1 then some 1 else if tokenOk s 3 = true ∧ c.life = 1 then some 2 else none
      match following with
      | none => exec .lifeCycle s = .next { s with sec := done false }
      | some l => ∃ t, exec .lifeCycle s = .next t ∧ t.sec.life = l ∧ t.harts = [] ∧ t.cores = [] ∧ t.keys = [] ∧
        t.flacons = [] ∧ t.hallmark.boots = s.hallmark.boots + 1 ∧
        (l = 2 → t.hallmark.retired = []) ∧ (l = 1 → t.hallmark.retired = s.hallmark.retired) ∧
        ∀ a, a < 0x800000000000 → byteAt t.mem.cells a = 0) ∧
    (c.cmd = 3 → c.result = 1 → let w := tokDw s 0
      (w = 0 ∨ 255 < w.toNat ∨ (flaconAt s w.toNat).state ≠ 2 → exec .attest s = .next { s with sec := done false }) ∧
      (w ≠ 0 → w.toNat ≤ 255 → (flaconAt s w.toNat).state = 2 → let r := attestReport s (w.setWidth 8)
        exec .attest s = .next { s with
          sec := done true
          mem := uncachedWrite s.mem (c.tokpa.toNat + 0x1000) (r ++ (List.range 3309).map (Config.attestSig (Config.shake256 r))) })))

/-! ### The reset ladder (R287, R295, R367, R369 to R371) -/

/-- The rungs (R370, R371), each when it is the one commanded, with STATUS, RSTDONE and a record of KIND 14: a queue loses its ring and its
waiting set; an engine its hang; a partition its harts, queues and cached translations; a die its harts and their registers, the cached
translations of its clusters and its dirty lines; the whole device all but the hallmark record, LIFE and the host's memory, with PT and
the training of the links kept by the function-level reset of the PF. A function-level reset runs a rung that is busy first. STATUS and RSTDONE
after rung 6, and the record of that rung as the first of the new log, are the model's choice (log 37). -/
def Obligations.ResetLadder : Prop :=
  ∀ (s : State), let r := s.resetPage
    let commanded (rung target : Nat) : Prop := r.status = 1 ∧ r.rung = rung ∧ r.target.toNat = target
    let finished (t : State) (rung site die clu core : Nat) : Prop :=
      t.resetPage = { r with status := 2, rung := 0, done := r.done + 1 } ∧ Records s t 14 0 site die clu core rung 0
    let queueOff (t : State) (qi : Nat) : Prop := queueAt t qi = { queueAt s qi with
      en := false, fault := false, tail := 0, head := 0, scan := 0, stale := 0, waiting := [], finished := [], waking := false }
    let partition (t : State) (vi : Nat) : Prop := (∀ hid, (hartAt s hid).vi = vi → (hartAt t hid).ctl = .idle) ∧
      (∀ q, q < 64 → queueOff t (64 * vi + q)) ∧ (∀ k, k / 64 ≠ vi → queueAt t k = queueAt s k) ∧ (∀ x ∈ t.tlb, x.vi ≠ vi)
    let whole (t : State) : Prop := t.harts = [] ∧ t.cores = [] ∧ t.queues = [] ∧ t.teams = [] ∧ t.vis = [] ∧ t.frames = [] ∧
      t.flacons = [] ∧ t.keys = [] ∧ t.tlb = [] ∧ t.migration = none ∧ t.mem.dirty = [] ∧ t.mem.lines = [] ∧ t.booted = false ∧ t.sec.life = s.sec.life ∧ t.sec.debug = false ∧
      t.hallmark.boots = s.hallmark.boots + 1 ∧ t.hallmark.retired = s.hallmark.retired ∧
      t.resetPage = { status := 0, target := 0, rung := 0, done := 0, ready := 0 } ∧
      (∀ a, a < 0x800000000000 → byteAt t.mem.cells a = 0) ∧
      (s.mem.wf = true → ∀ a, 0x800000000000 ≤ a → byteAt t.mem.cells a = byteAt s.mem.cells a)
    let wholePf (t : State) : Prop := whole t ∧ t.pt = s.pt ∧ t.errlog.written = 1 ∧ t.links = s.links.map fun l =>
      (l.1, { l.2 with borrowed := 0, lent := 0, asked := 0, offered := none })
    (∀ qi, commanded 1 qi → ∃ t, exec (.rungQueue qi) s = .next t ∧ finished t 1 0 0 0 0 ∧ queueOff t qi ∧
      (∀ k, k ≠ qi → queueAt t k = queueAt s k) ∧ t.harts = s.harts ∧ t.mem = s.mem) ∧
    (∀ core, core < 768 → commanded 2 core → ∃ t, exec (.rungEngine core) s = .next t ∧
      finished t 2 0 (core / 32) (core / 4 % 8) (core % 4) ∧ t.hung = fmErase s.hung core ∧
      ((∀ i, i < 4 → ∀ e ∈ (hartAt s (4 * core + i)).queue, e.started = false) → t.harts = s.harts ∧ t.mem = s.mem)) ∧
    (∀ hub, hub < 4 → commanded 2 (0x800 + hub) → (∀ c ∈ s.colls, c.hub ≠ hub) →
      ∃ t, exec (.rungEngine (0x800 + hub)) s = .next t ∧ finished t 2 1 hub 0 0 ∧ t.harts = s.harts ∧ t.mem = s.mem) ∧
    (∀ vi, commanded 3 vi → ∃ t, exec (.rungPartition vi) s = .next t ∧ finished t 3 0 0 0 0 ∧ partition t vi) ∧
    (∀ die, commanded 4 die → ∃ t, exec (.rungDie die) s = .next t ∧ finished t 4 0 die 0 0 ∧
      (∀ cl, cl / 8 = die → (clusterAt t cl).running = true) ∧
      ((∀ cl, cl / 8 = die → ∀ m ∈ (clusterAt s cl).unacked, m.num ≤ (clusterAt s cl).carried) →
        t.hung = s.hung.filter (fun c => c.1 / 32 != die) ∧ (∀ e ∈ t.tlb, e.cluster / 8 ≠ die) ∧
        (s.mem.wf = true → ∀ cl ln, cl / 8 = die → dirtyIn t.mem cl ln = false) ∧
        ∀ hid, hid / 128 = die → (hartAt t hid).ctl = .idle ∧ ∀ x, rd (hartAt t hid) x = 0)) ∧
    (∀ fn, fn ≠ 0 → commanded 5 fn → ∃ t, exec (.rungFunctionLevel fn) s = .next t ∧ 
      finished { t with aer := s.aer } 5 0 0 0 0 ∧ t.aer = s.aer.filter (fun x => x.fn != fn) ∧ partition t fn) ∧
    (commanded 5 0 → ∃ t, exec (.rungFunctionLevel 0) s = .next t ∧ wholePf t) ∧
    (r.status = 1 → r.rung = 6 → ∃ t, exec .rungWholeDevice s = .next t ∧ whole t ∧ t.pt = 0 ∧ t.links = [] ∧ t.errlog.written = 1) ∧
    (∃ t, exec .perst s = .next t ∧ whole t ∧ t.pt = 0 ∧ t.links = [] ∧ t.errlog.written = 1) ∧
    (∃ t, exec .lossOfPower s = .next t ∧ whole t ∧ t.pt = 0 ∧ t.links = [] ∧ t.errlog.written = 0 ∧
      t.hallmark = { s.hallmark with boots := s.hallmark.boots + 1 }) ∧
    (r.status ≠ 1 →
      (∀ fn, fn ≠ 0 → ∃ t, exec (.functionLevelReset fn) s = .next t ∧ t.resetPage = { r with done := r.done + 1 } ∧
        Records s { t with aer := s.aer } 14 0 0 0 0 0 5 0 ∧ t.aer = s.aer.filter (fun x => x.fn != fn) ∧ partition t fn) ∧
      (∃ t, exec (.functionLevelReset 0) s = .next t ∧ wholePf t)) ∧
    (∀ i u fn, r.status = 1 → (∃ n, i = .rungQueue n ∧ commanded 1 n ∨ i = .rungEngine n ∧ commanded 2 n ∨
        i = .rungPartition n ∧ commanded 3 n ∨ i = .rungDie n ∧ commanded 4 n ∨ i = .rungFunctionLevel n ∧ commanded 5 n ∨
        i = .rungWholeDevice ∧ r.rung = 6) →
      exec i s = .next u → exec (.functionLevelReset fn) s = exec (.functionLevelReset fn) u)


/-! ### The fabric: links and engines (R350, R382 to R388, R391, R396, R399, R401) -/

/-- Flits. On a link that is down, or that retrains, nothing is taken; a flit that fails its checks is asked for again, and a third
failure in a row kills the link; one out of SEQ order is discarded; an accepted one moves the receive number on and is acknowledged, acks
and naks in bunches (the model's choice, log 23), and is forwarded or delivered; a segment is acknowledged by its engine when it is taken up or its number is
used up, and that acknowledgement goes on, on its way to another module, over the link that the route table names, under the SEQ by which the
segment had come; the link's acknowledgement frees the retry buffer, a negative one replays it in order under the slots that its SEQs carry; a
marker changes the receive key. A key near its last value sends a marker or kills the link; 10 µs of silence and loss of lock kill it, with
a record of KIND 12 and every ingot back. An abort uses its number
up when the number has come, and is kept until then. A group entry takes stores while it is not BUSY. -/
def Obligations.LinksAndGroups : Prop :=
  (∀ (s : State) (l : Nat) (h : FlitHdr), let k := linkAt s l
    let flit (i : Instr) : Prop := (∃ seg, i = .flitData l h seg) ∨ (∃ n, i = .flitAck l h n) ∨ (∃ n, i = .flitNak l h n) ∨
      (∃ b, i = .flitKeyMarker l h b) ∨ (∃ m, i = .flitControl l h m) ∨ i = .flitIdle l h
    let free := FreeLink s l
    let checked := h.ok = true ∧ h.ks = k.rks ∧ (k.awaited = none ∨ k.awaited = some h.seq)
    let good := checked ∧ h.seq = k.recvSeq
    let taken : Link := { k with silent := 0, recvSeq := (k.recvSeq + 1) % 2 ^ 48, awaited := none, fails := 0 }
    let here := h.dst = Config.moduleId.toNat
    let ack : FlitBody := .ack k.peer Config.moduleId.toNat h.seq false
    let acked (x : Link) : State := sentFlit (setLink s l { x with unacked := 0 }) l ack
    let engineAck : FlitBody := .ack h.src Config.moduleId.toNat h.seq true
    let dies (t : State) : Prop := (linkAt t l).state = 3 ∧ (linkAt t l).deaths = min (k.deaths + 1) 65535 ∧ (linkAt t l).retry = [] ∧
      (linkAt t l).backlog = [] ∧ (linkAt t l).borrowed = 0 ∧ (linkAt t l).lent = 0 ∧ Records s t 12 1 1 (l / 9) 0 0 l 0 ∧
      t.harts = s.harts ∧ t.mem = s.mem ∧
      t.power = { s.power with nextBorrowed := s.power.nextBorrowed - k.borrowed, nextLent := s.power.nextLent - k.lent } ∧
      ∀ j, j ≠ l → linkAt t j = linkAt s j
    let unused := ∀ c ∈ s.colls, ∀ p ∈ (engineAt s c.hub).groups, p.1 = c.group → nextLink p.2 ≠ some l
    let hub := hubOfCore h.dcore
    let addressed (seg : Segment) : Segment := { seg with dcore := h.dcore }
    let quiet (q : Nat) : Prop := (engineAt s q).inbox = [] ∧ s.colls = []
    let discarded (q : State) (n : Nat) : State := setEngine q n
      { engineAt q n with dropped := min ((engineAt q n).dropped + 1) (2 ^ 64 - 1) }
    (k.state ≠ 2 → exec (.keyRetireCount l) s = .next s ∧ exec (.linkSilenceTimeout l) s = .next s ∧ exec (.lossOfLock l) s = .next s) ∧
    (∀ i, flit i → k.state = 2 ∧ retraining s l = true ∨ k.state ≠ 2 ∧ i ≠ .flitControl l h .trained → exec i s = .next s) ∧
    (∀ i, flit i → free → h.ok = false ∨ h.ks ≠ k.rks → k.awaited = none ∨ k.awaited = some h.seq →
      let fails := if k.fails ≠ 0 ∧ k.failSeq = h.seq then k.fails + 1 else 1
      (fails < 3 → exec i s = .next (sentFlit
        (setLink s l { k with silent := 0, awaited := some h.seq, fails := fails, failSeq := h.seq }) l (.nak h.seq))) ∧
      (3 ≤ fails → unused → ∃ t, exec i s = .next t ∧ dies t)) ∧
    (∀ i, flit i → free → (k.awaited ≠ none ∧ k.awaited ≠ some h.seq) ∨ (checked ∧ h.seq ≠ k.recvSeq) →
      exec i s = .next (setLink s l { k with silent := 0 })) ∧
    (free → good →
      exec (.flitIdle l h) s = .next (setLink s l { k with silent := 0, awaited := none, fails := 0 }) ∧
      (∀ seg, ¬ here → (∀ x ∈ s.routes, x.1 ≠ h.dst) → exec (.flitData l h seg) s = .next (acked taken)) ∧
      (∀ seg x, ¬ here → s.routes.find? (fun x => x.1 == h.dst) = some x → (linkAt s x.2).state ≠ 2 →
        exec (.flitData l h seg) s = .next (acked taken)) ∧
      (∀ seg x, ¬ here → h.src ≠ Config.moduleId.toNat → s.routes.find? (fun x => x.1 == h.dst) = some x → x.2 ≠ l → FreeLink s x.2 →
        s.forwards = [] → exec (.flitData l h seg) s = .next { sentFlit (acked taken) x.2 (.data h.dst h.src (addressed seg)) with
          forwards := [⟨⟨l, h.seq, h.src⟩, x.2, (linkAt s x.2).sendSeq⟩] }) ∧
      (∀ seg, here → quiet hub → matchGroup s hub (addressed seg) = none → exec (.flitData l h seg) s = .next (discarded (acked taken) hub)) ∧
      (∀ seg g x, here → l ≠ 36 → quiet hub → matchGroup s hub (addressed seg) = some (g, x) → seg.num.toNat < x.collno.toNat →
        exec (.flitData l h seg) s = .next (sentFlit (discarded (acked taken) hub) l engineAck)) ∧
      (∀ seg g x, here → quiet hub → matchGroup s hub (addressed seg) = some (g, x) → x.collno.toNat ≤ seg.num.toNat → x.busy = false →
        seg.phase ≠ .abort → ∃ t, exec (.flitData l h seg) s = .next t ∧ (engineAt t hub).inbox = [(⟨l, h.seq, h.src⟩, addressed seg)] ∧
          t.outbox = (acked taken).outbox ∧ t.links = (acked taken).links ∧ t.harts = s.harts ∧ t.mem = s.mem) ∧
      (∀ b, exec (.flitKeyMarker l h b) s = .next (acked { taken with rks := b, rxKeys := if b then 2 else 1 })) ∧
      exec (.flitControl l h .heartbeat) s = .next (acked taken) ∧
      exec (.flitControl l h .trained) s = .next (acked taken) ∧
      (∀ n, let q := acked taken
        let x := linkAt q l
        exec (.flitControl l h (.offer n)) s = .next { setLink q l { x with borrowed := x.borrowed + n } with
          power := { q.power with nextBorrowed := q.power.nextBorrowed + n } } ∧
        exec (.flitControl l h (.ask n)) s = .next (setLink q l { x with asked := x.asked + n }) ∧
        (let m := min n x.lent;
          exec (.flitControl l h (.giveBack n)) s = .next { setLink q l { x with lent := x.lent - m } with
            power := { q.power with nextLent := q.power.nextLent - m } }) ∧
        (let m := min n x.borrowed;
          exec (.flitControl l h (.recall n)) s = .next (sentFlit { setLink q l { x with borrowed := x.borrowed - m } with
            power := { q.power with nextBorrowed := q.power.nextBorrowed - m } } l (.control (.giveBack m)))))) ∧
    (k.state ≠ 2 → exec (.flitControl l h .trained) s = .next (
      if h.ok = true ∧ (k.state = 0 ∨ k.state = 1) ∧ h.src ≠ Config.moduleId.toNat then setLink s l { Link.reset with
        state := 2, txKeys := 3, rxKeys := 3, replays := k.replays, deaths := k.deaths, peer := h.src } else s)) ∧
    (free → good → k.unacked + 1 < 64 → let noted : Link := { taken with unacked := k.unacked + 1 }
      (∀ n, here → let kept := ackRetry k n
        let covered := ∃ q, k.markerSeq = some q ∧ ∀ x ∈ kept, x.seq ≠ q
        (¬ covered → exec (.flitAck l h ⟨n, false⟩) s = .next (setLink s l { noted with retry := kept })) ∧
        (covered → exec (.flitAck l h ⟨n, false⟩) s = .next (setLink s l { noted with
          retry := kept, markerSeq := none, txKeys := if k.tks then 2 else 1 }))) ∧
      (∀ n, ¬ here → (∀ x ∈ s.routes, x.1 ≠ h.dst) → exec (.flitAck l h ⟨n, false⟩) s = .next (setLink s l noted)) ∧
      (∀ n x, ¬ here → s.routes.find? (fun x => x.1 == h.dst) = some x → x.2 ≠ l → FreeLink s x.2 →
        exec (.flitAck l h ⟨n, false⟩) s = .next (sentFlit (setLink s l noted) x.2 (.ack h.dst h.src n false))) ∧
      (∀ n, here → s.colls = [] → exec (.flitAck l h ⟨n, true⟩) s = .next (setLink s l noted)) ∧
      (∀ n, ¬ here → (∀ f ∈ s.forwards, f.out ≠ l ∨ f.outSeq ≠ n) → (∀ x ∈ s.routes, x.1 ≠ h.dst) →
        exec (.flitAck l h ⟨n, true⟩) s = .next (setLink s l noted)) ∧
      (∀ n x, ¬ here → s.routes.find? (fun x => x.1 == h.dst) = some x → x.2 ≠ l → FreeLink s x.2 →
        ((∀ f ∈ s.forwards, f.out ≠ l ∨ f.outSeq ≠ n) →
          exec (.flitAck l h ⟨n, true⟩) s = .next (sentFlit (setLink s l noted) x.2 (.ack h.dst h.src n true))) ∧
        (∀ f, s.forwards = [f] → f.out = l → f.outSeq = n → exec (.flitAck l h ⟨n, true⟩) s = .next
          { sentFlit (setLink s l noted) x.2 (.ack h.dst h.src f.origin.seq true) with forwards := [] })) ∧
      (∀ n, let again := k.retry.dropWhile fun x => x.seq != n
        ∃ t, exec (.flitNak l h n) s = .next t ∧ t = { s with links := t.links, outbox := t.outbox } ∧
          (linkAt t l).replays = min (k.replays + again.length) (2 ^ 32 - 1) ∧ (linkAt t l).retry = k.retry ∧
          (linkAt t l).sendSeq = k.sendSeq ∧ (linkAt t l).recvSeq = taken.recvSeq ∧ (∀ j, j ≠ l → linkAt t j = linkAt s j) ∧
          (∀ b, (linkAt t l).count b = k.count b + (again.filter fun x => x.ks == b).length) ∧
          t.outbox.map (fun x => (x.link, x.seq, x.ks, x.body)) = s.outbox.map (fun x => (x.link, x.seq, x.ks, x.body)) ++
            again.map fun x => (l, x.seq, x.ks, x.body))) ∧
    (free → good → 64 ≤ k.unacked + 1 → ∀ n, ¬ here → (∀ x ∈ s.routes, x.1 ≠ h.dst) →
      exec (.flitAck l h ⟨n, false⟩) s = .next (acked taken)) ∧
    (k.state = 2 → retireCount ≤ k.count k.tks → let other := k.txKeys.getLsbD (if k.tks then 0 else 1)
      (other = true → k.backlog = [] → retraining s l = false → k.count k.tks < 2 ^ 40 - 1 →
        (retryRoom ≤ k.retry.length → exec (.keyRetireCount l) s = .next (setLink s l { k with markerDue := true })) ∧
        (k.retry.length < retryRoom → ∃ t, exec (.keyRetireCount l) s = .next t ∧
          (linkAt t l).tks = !k.tks ∧ (linkAt t l).markerDue = false ∧ (linkAt t l).markerSeq = some k.sendSeq ∧
          (linkAt t l).retry = k.retry ++ [⟨k.sendSeq, k.tks, .marker !k.tks⟩] ∧
          (linkAt t l).count k.tks = k.count k.tks + 1 ∧ (linkAt t l).count (!k.tks) = k.count (!k.tks) ∧
          t.outbox = s.outbox ++ [⟨l, k.sendSeq, k.tks, k.count k.tks, .marker !k.tks⟩] ∧
          t = { s with links := t.links, outbox := t.outbox })) ∧
      (other = false → unused → ∃ t, exec (.keyRetireCount l) s = .next t ∧ dies t)) ∧
    (k.count k.tks < retireCount → exec (.keyRetireCount l) s = .next s) ∧
    (k.state = 2 → unused → (∃ t, exec (.lossOfLock l) s = .next t ∧ dies t) ∧
      (retraining s l = false → 10000 ≤ k.silent → ∃ t, exec (.linkSilenceTimeout l) s = .next t ∧ dies t)) ∧
    (retraining s l = true ∨ k.silent < 10000 → exec (.linkSilenceTimeout l) s = .next s)) ∧
  (∀ (s : State) (hub : Nat) (seg : Segment), (engineAt s hub).inbox = [] → s.colls = [] →
    (matchGroup s hub seg = none → exec (.abortSegment hub seg) s = .next (setEngine s hub
      { engineAt s hub with dropped := min ((engineAt s hub).dropped + 1) (2 ^ 64 - 1) })) ∧
    (∀ g x, matchGroup s hub seg = some (g, x) → groupAt s hub g = x → x.busy = false → x.collno = seg.num →
      ∃ t, exec (.abortSegment hub seg) s = .next t ∧ (groupAt t hub g).collno = x.collno + 1 ∧ t.harts = s.harts ∧ t.mem = s.mem) ∧
    (∀ g x, matchGroup s hub seg = some (g, x) → groupAt s hub g = x → x.busy = false → x.collno.toNat < seg.num.toNat →
      ∃ t, exec (.abortSegment hub seg) s = .next t ∧ groupAt t hub g = x ∧ t.harts = s.harts ∧ t.mem = s.mem ∧
        ∃ o, (o, { seg with phase := .abort, passed := true }) ∈ (engineAt t hub).inbox)) ∧
  (∀ (s : State) ag hub g dw v, let x := groupAt s hub g
    let put (y : Group) : Result := .next (setGroup s hub g y)
    (x.busy = true → exec (.groupEntryWrite ag hub g dw v) s = .next s) ∧
    (x.busy = false →
      exec (.groupEntryWrite ag hub g 0 v) s = put { x with
        size := v.extractLsb' 36 12, rank := v.extractLsb' 24 12, core := v.extractLsb' 14 10, v := v.getLsbD 0
        rerouted := false, active := false } ∧
      exec (.groupEntryWrite ag hub g 1 v) s = put { x with tag := v } ∧
      exec (.groupEntryWrite ag hub g 2 v) s = put { x with
        link := v.extractLsb' 28 6, module := v.extractLsb' 14 14, ncore := v.extractLsb' 0 10 } ∧
      exec (.groupEntryWrite ag hub g 3 v) s = put { x with alink := v.extractLsb' 28 6, av := v.getLsbD 0 } ∧
      exec (.groupEntryWrite ag hub g 4 v) s = put { x with
        plink := v.extractLsb' 28 6, pmodule := v.extractLsb' 14 14, pcore := v.extractLsb' 0 10 } ∧
      (5 ≤ dw → exec (.groupEntryWrite ag hub g dw v) s = .next s)))


/-! ### Events inside a core (R206, R210 to R212, R218, R234, R237, R247, R344) -/

/-- The words of a convoy of a queue that issues enter the window behind those that are there, and the lane clusters that they use are
awake; a cluster that no word in the window uses may be gated, and woken; one is lent while its owner's queue is empty and the balance
covers a grant; the copy engine takes commands up in the order of the window, makes its claims in order, judges a no-split command by its
estimate, and copies a row at a time; a word that has made no progress for 2^EPT cycles takes class 20 with what it waits for, and a collective under way is abandoned. What it
waits for (R247's table, R189): the element whose access holds the word, with its hart lane, pipe and bank; the operand of a MOPM; the row of
a CPY (its first byte, of its source where that is global: the model's choice, log 63); the Accord engine for a COLL; the unit that holds a
tile which is not in the state wanted; nothing for a word that waits for room in the return queue. -/
def Obligations.CoreEvents : Prop :=
  (∀ (s : State) (hid : Nat), let h := hartAt s hid
    let c := coreAt s (hid / 4)
    (issuing h = false → exec (.convoyEnter hid) s = .next s) ∧
    (issuing h = true → ∃ t, exec (.convoyEnter hid) s = .next t ∧ t = { s with harts := t.harts, cores := t.cores } ∧
      hartAt t hid = { h with inWindow := true } ∧ (∀ k, k ≠ hid → hartAt t k = hartAt s k) ∧
      (∀ k, k ≠ hid / 4 → coreAt t k = coreAt s k) ∧
      (let mine := ((headConvoy h.queue).filter fun e => !e.complete).map fun e => (hid % 4, e.seq)
        let there := c.window.filter fun x => decide (x.1 ≠ hid % 4) || mine.contains x
        coreAt t (hid / 4) = { c with
          window := there ++ mine.filter fun x => !there.contains x
          gated := c.gated &&& ~~~(busyClusters h) })) ∧
    (∀ bank hbm, (issuing h = false ∨ h.timer < 2 ^ h.ept.toNat → exec (.elementProgressTimeout hid bank hbm) s = .next s) ∧
      (∀ e rest cls w, issuing h = true → h.ctl ≠ .trapped → 2 ^ h.ept.toNat ≤ h.timer → headConvoy h.queue = e :: rest → e.complete = false →
        queuedClass e.word = some (cls, w) → (∀ c ∈ s.colls, ¬ (e.started = true ∧ c.hid = hid ∧ c.seq = e.seq)) →
        ∃ t, exec (.elementProgressTimeout hid bank hbm) s = .next t ∧
          (let g := hartAt t hid; let a := awaited s hid 0 (e :: rest) e cls w bank hbm
            g.ctl = .trapped ∧ g.qStopped = true ∧ field g.trapRec.cause 20 8 = 20 ∧ field g.trapRec.cause 0 20 = 0 ∧
            g.trapRec.cause.getLsbD 28 = true ∧ g.trapRec.emitPc = e.emitPc ∧ g.trapRec.seq = e.seq ∧ g.trapRec.addr = a.1 ∧
            g.trapRec.port = a.2 ∧ g.pc = h.pc ∧ (∀ r, rd g r = rd h r) ∧ g.queue.map (·.word) = h.queue.map (·.word)) ∧
          ∀ k, k ≠ hid → hartAt t k = hartAt s k) ∧
      (∀ e rest k w c, issuing h = true → h.ctl ≠ .trapped → 2 ^ h.ept.toNat ≤ h.timer → headConvoy h.queue = e :: rest → e.complete = false →
        queuedClass e.word = some (.coll k, w) → e.started = true → s.colls = [c] → c.hid = hid → c.seq = e.seq →
        c.opened = true → c.hub = hubOf hid → c.group = collGroup e →
        ∃ t, exec (.elementProgressTimeout hid bank hbm) s = .next t ∧
          (let g := hartAt t hid;
            g.ctl = .trapped ∧ field g.trapRec.cause 20 8 = 20 ∧ g.trapRec.addr = 0 ∧ g.trapRec.port = 5 ∧ g.pc = h.pc) ∧
          t.colls = [] ∧ (groupAt t c.hub c.group).busy = false ∧
          (groupAt t c.hub c.group).collno = (groupAt s c.hub c.group).collno + 1 ∧
          hstatAt t hid = ⟨((hstatAt s hid).done + 1) % 2 ^ 32, (hstatAt s hid).reroutes, 2⟩))) ∧
  (∀ (s : State) (core lc : Nat), lc < 4 → let c := coreAt s core
    let used := ∃ k, k < 4 ∧ issuing (hartAt s (4 * core + k)) = true ∧ (busyClusters (hartAt s (4 * core + k))).getLsbD lc = true
    let busy := used ∨ ∃ x ∈ c.loans, x.lc = lc
    (busy → exec (.laneClusterGate core lc) s = .next s) ∧
    (¬ busy → exec (.laneClusterGate core lc) s = .next (setCore s core { c with gated := c.gated ||| (1#4 <<< lc) })) ∧
    exec (.laneClusterWake core lc) s = .next (setCore s core { c with gated := c.gated &&& ~~~(1#4 <<< lc) }) ∧
    (∀ b, b < 4 → let g := hartAt s (4 * core + b)
      (laneHolder s core lc = none → exec (.laneLoanStart core lc b) s = .next s) ∧
      (∀ owner, laneHolder s core lc = some owner →
        let ok := owner ≠ 4 * core + b ∧ (hartAt s owner).queue = [] ∧ issuing g = true ∧
          (headConvoy g.queue).any lendable = true ∧ ¬ used ∧ (∀ x ∈ c.loans, x.lc ≠ lc) ∧
          (s.power.cost.toNat : Int) ≤ (clusterAt s (core / 4)).bal
        (ok → exec (.laneLoanStart core lc b) s = .next (setCore s core { c with loans := c.loans ++ [⟨lc, b, s.pt⟩] })) ∧
        (¬ ok → exec (.laneLoanStart core lc b) s = .next s)))) ∧
  (∀ (s : State) (hid : Nat), let h := hartAt s hid
    let q := enterWindow s hid
    (headCopy s hid = none → exec (.tileClaim hid) s = .next s ∧ exec (.nosplitJudge hid) s = .next s ∧
      exec (.cpyRowComplete hid) s = .next (joinWindow s hid)) ∧
    (∀ i e w go, headCopy s hid = some (i, e, w, go) →
      (∀ k asDst, claimList e = [(k, asDst)] → e.claims = [] → k < 112 →
        e.started = true ∨ (enginesBusy s (hid / 4) < 4 ∧
          firstOfCore q hid e (fun x => !x.started && !x.icx && wordIs (· == .cpy) x) = true) →
        let c := coreAt s (hid / 4)
        ∃ t, exec (.tileClaim hid) s = .next t ∧ t.mem = s.mem ∧ (∀ j, j ≠ k → tileAt (coreAt t (hid / 4)) j = tileAt c j) ∧
          (if (tileAt c k).state = (if asDst then TileState.empty else .ready) then
            tileAt (coreAt t (hid / 4)) k = { tileAt c k with state := if asDst then .filling else .draining } ∧
              (hartAt t hid).queue[i]? = some { e with started := true, claims := [k] }
          else tileAt (coreAt t (hid / 4)) k = tileAt c k ∧ (hartAt t hid).queue[i]? = some { e with started := true })) ∧
      (e.started = false → firstOfCore q hid e (fun x => !x.started && !x.icx && wordIs (· == .cpy) x) = false →
        exec (.tileClaim hid) s = .next q) ∧
      (let held := (claimTiles (dstTiles e e.rowsDone) (coreAt s (hid / 4)) e.claims (claimList e)).2.2 = true
        let free := ∀ x, s.calendar.current = some x → blocksDie x (hid / 128) = false
        let fits := ∀ x, nextBlocked s (hid / 128) = some x →
          s.pt + (200 + ((cpyRows e - e.rowsDone) * cpyLen e + 63) / 64) + 150 ≤ x.start
        let due := go = true ∧ w.imm.getLsbD 5 = true ∧ e.judged = false ∧ e.started = true ∧ held ∧
          ∀ at_, e.deferred = some at_ → at_ < fmGet s.calendar.blockEnd 0 (hid / 128)
        let passes := cpyGlobal e = true → free ∧ fits
        (due → ∃ t, exec (.nosplitJudge hid) s = .next t ∧ t = { s with harts := t.harts } ∧
          (passes → (hartAt t hid).queue[i]? = some { e with judged := true, deferred := none }) ∧
          (¬ passes → (hartAt t hid).queue[i]? = some { e with deferred := some s.pt })) ∧
        (¬ due → exec (.nosplitJudge hid) s = .next s))) ∧
    (∀ e w, headCopy s hid = some (0, e, w, true) → h.queue = [e] → h.reclaim.after = none → h.qStopped = false →
      let v := claimCopy q hid 0 e
      (v.2 = false → ∃ t e', exec (.cpyRowComplete hid) s = .next t ∧ t.mem = s.mem ∧ (hartAt t hid).queue = [e'] ∧
        e'.word = e.word ∧ e'.rowsDone = e.rowsDone) ∧
      (∀ e', v.2 = true → let b := acquire v.1 hid .cpy w
        (hartAt b hid).queue = [e'] → mayIssue b hid e' w = true →
        let e1 := { e' with judged := true, deferred := none }
        let b' := editEntry b hid 0 fun _ => e1
        mayIssue b' hid e1 w = true →
        let r := copyRow b' hid 0 e1 w
        (r.ended = .partly → ∃ t e2, exec (.cpyRowComplete hid) s = .next t ∧ t.mem = r.state.mem ∧
          (∀ k, coreAt t k = coreAt r.state k) ∧ (hartAt t hid).queue = [e2] ∧ e2.word = e.word ∧ e2.rowsDone = e.rowsDone + 1 ∧
          (hartAt t hid).timer = 0) ∧
        (r.ended = .complete [] → ∃ t, exec (.cpyRowComplete hid) s = .next t ∧ t.mem = r.state.mem ∧
          (∀ k, coreAt t k = coreAt r.state k) ∧ (hartAt t hid).queue = []) ∧
        (∀ f, r.ended = .fault none f → f.stalls = false → h.ctl ≠ .trapped → ∃ t, exec (.cpyRowComplete hid) s = .next t ∧
          (hartAt t hid).ctl = .trapped ∧ (hartAt t hid).trapRec.addr = f.addr ∧
          field (hartAt t hid).trapRec.cause 20 8 = f.cls.toNat)))) ∧
  (∀ (s : State) (hid : Nat) (bank : BitVec 4) (hbm : Bool), let h := hartAt s hid
    let port (r : Word × Word) (bk lane unit : Nat) : Prop := field r.2 0 4 = unit ∧ field r.2 4 4 = lane % 16 ∧
      field r.2 8 4 = bk % 16 ∧ r.2.getLsbD 12 = hbm ∧ r.2 >>> 13 = 0
    let bankIs (k : Access) (va : Word) (bk : Nat) : Prop :=
      (∀ x, translate s hid k va = .ok x → bk = bankOf x.place.pa) ∧ ((∀ x, translate s hid k va ≠ .ok x) → bk = bank.toNat)
    let width (e : Entry) : Nat := tyWidth ((tyOf (dstType e.mode e.taga)).getD .i32)
    let ea (e : Entry) (w : EFields) (f : AddrForm) (p : Nat) : Word := elemAddr h e w f (width e) (keyRow p) (keyElem p)
    let next (e : Entry) (c : EClass) (w : EFields) (f : AddrForm) (p : Nat) : Prop :=
      queuedClass e.word = some (c, w) ∧ elementForm c = some f ∧ e.complete = false ∧ e.icx = false ∧
        (keysToRead e c).find? (fun p => activeAt h w (keyElem p)) = some p
    let reports (r : Word × Word) (e : Entry) (c : EClass) (w : EFields) (f : AddrForm) (p unit : Nat) : Prop :=
      r.1 = ea e w f p ∧ ∃ bk, bankIs (pageAccess c) (ea e w f p) bk ∧
        port r bk (keyElem p * width e / 256 / (if e.shape then 8 else 4)) unit
    let unitOf (c : EClass) : Nat := match c with
      | .vld _ _ .lq1 => 2
      | .vld .. => 1
      | _ => 3
    (∀ e c w f p, next e c w f p → reports (awaited s hid 0 [e] e c w bank hbm) e c w f p (unitOf c)) ∧
    (∀ e c w e2 c2 w2 f p, queuedClass e.word = some (c, w) → elementWise c = true → elementForm c = none → keysLeft e ≠ [] →
      next e2 c2 w2 f p → reports (awaited s hid 0 [e, e2] e c w bank hbm) e2 c2 w2 f p (unitOf c2)) ∧
    (∀ e c w f p e2 c2 w2 f2 p2, next e c w f p → next e2 c2 w2 f2 p2 → globalForm c ≠ none → globalForm c2 ≠ none → (∃ o g sp, c2 = .vst o g sp) →
      let r := awaited s hid 0 [e, e2] e c w bank hbm
      (p ≤ p2 → reports r e c w f p (unitOf c)) ∧ (p2 < p → reports r e2 c2 w2 f2 p2 (unitOf c2))) ∧
    (∀ e c w conv, elementWise c = true → keysLeft e = [] → awaited s hid 0 conv e c w bank hbm = (0, 0)) ∧
    (∀ e w conv, arrayFree s hid e = true → tileReady (coreAt s (hid / 4)) w.d.toNat = true → aSpace e.x0 = 0 ∨ aSpace e.x2 = 0 →
      let r := awaited s hid 0 conv e .mopm w bank hbm
      ∃ m, m < 64 ∧ ((aSpace e.x0 = 0 ∧ r.1 = operandAddr e.x0 e.x1 ((tyOf (modeTa e.mode)).getD .i8) m e.kdone.toNat ∧
          ∃ bk, bankIs engineRead r.1 bk ∧ port r bk 0 1) ∨
        (aSpace e.x2 = 0 ∧ r.1 = operandAddr e.x2 e.x3 ((tyOf (modeTb e.mode)).getD .i8) m e.kdone.toNat ∧
          ∃ bk, bankIs engineRead r.1 bk ∧ port r bk 0 2))) ∧
    (∀ e w conv, let r := awaited s hid 0 conv e .cpy w bank hbm
      let issues := e.started = true ∧ (claimTiles (dstTiles e e.rowsDone) (coreAt s (hid / 4)) e.claims (claimList e)).2.2 = true ∧
        (w.imm.getLsbD 5 = true → e.judged = true)
      (issues → ∃ bk, r.1 = BitVec.ofNat 64 (if aSpace e.x0 = 0 then cpySrcRow e e.rowsDone else cpyDstRow e e.rowsDone) ∧
        bankIs engineRead r.1 bk ∧ port r bk 0 4) ∧
      (¬ issues → r = (0, 4))) ∧
    (∀ e w kind conv, e.started = false → awaited s hid 0 conv e (.coll kind) w bank hbm = (0, 5)) ∧
    (∀ e c w conv k, (match c with
        | .tile fn => fn ≠ 3 ∧ k = w.imm.toNat % 128
        | .mopa | .mzero | .mrowW | .mbf => k = 96 + w.d.toNat
        | .mrowR => k = 96 + w.imm.toNat % 16
        | _ => False) →
      let r := awaited s hid 0 conv e c w bank hbm
      let heldBy (p : EClass → Bool) : Prop := ∃ i, i < 4 ∧ ∃ x ∈ (hartAt s (4 * (hid / 4) + i)).queue, x.claims.contains k = true ∧ wordIs p x = true
      let coll (c : EClass) : Bool := match c with
        | .coll _ => true
        | _ => false
      ((tileAt (coreAt s (hid / 4)) k).state = .ready → r = (0, 0)) ∧
      ((tileAt (coreAt s (hid / 4)) k).state ≠ .ready → r.1 = 0 ∧
        (heldBy (· == .cpy) → r.2 = 4) ∧ (¬ heldBy (· == .cpy) → heldBy coll → r.2 = 5) ∧
        (¬ heldBy (· == .cpy) → ¬ heldBy coll → r.2 = 0))))

/-! ### Reset and the invariant -/

/-- Right after reset (R19, R29 to R33, R76, R191, R204, R217, R249, R255, R320, R321, R336, R347, R357, R369): every hart slot is IDLE and
unconnected, with ROWS 1, RCT and ICT 1, EPT 24 and empty queues; the tile table is READY; PRIOCAP is 3 and no queue is on; the power page
holds 320, 1, 8, 77, 360 and 159; no boot has completed; every key slot is empty. The registers that the spec gives no value read 0 (the
model's choice, log 9). Memory is in its canonical form with nothing listed, and every byte reads 0 (the model's choice, log 1). -/
def Obligations.ResetState : Prop :=
  let s := State.reset
  (∀ hid, let h := hartAt s hid
    h.ctl = .idle ∧ h.rows = 1 ∧ h.rct = true ∧ h.ict = true ∧ h.ept = 24 ∧ h.vstate = .absent ∧ h.own = 0 ∧ h.queue = [] ∧ h.rq = [] ∧
    h.trapCount = 0 ∧ h.trapsink = 0 ∧ h.saveStatus = 0 ∧ h.shape = false ∧
    h.newWindows = none ∧ h.newRoot = none ∧ h.bypth = 262144 ∧ h.saveJob = none ∧ h.wc = [] ∧
    (∀ r, rd h r = 0) ∧ h.pc = 0 ∧ h.vl = 0 ∧ h.vstart = 0 ∧ h.rstate = 0 ∧ h.kprog = 0 ∧ h.vxsr = 0 ∧ h.emitseq = 0) ∧
  (∀ core k, k < 112 → (tileAt (coreAt s core) k).state = .ready ∧ (coreAt s core).flid = 0 ∧ (coreAt s core).retired = 0 ∧
    (coreAt s core).window = [] ∧ (coreAt s core).loans = []) ∧
  (∀ q, (queueAt s q).en = false ∧ (queueAt s q).fault = false ∧ (queueAt s q).priocap = 3 ∧ (queueAt s q).tail = 0) ∧
  (∀ cl, (clusterAt s cl).cmdPermits = 16 ∧ (clusterAt s cl).repPermits = 16 ∧
    (clusterAt s cl).running = true ∧ (clusterAt s cl).unacked = []) ∧
  (∀ vi n, 1 ≤ vi → n < 16 → (rangeReg s vi n).kind = 0) ∧
  (∀ k, (keyAt s k).state = 0) ∧ (∀ f, (flaconAt s f).state = 0) ∧ (∀ l, (linkAt s l).state = 0) ∧
  (∀ p, frameAt s p = (p % 24, p / 24) ∧ moving s p = false) ∧ s.hung = [] ∧ s.tlb = [] ∧ s.calendar.gen = 0 ∧
  s.schedRunning = true ∧ s.standbyActive = false ∧
  s.power.cap = 320 ∧ s.power.cost = 1 ∧ s.power.lendmax = 8 ∧ s.power.fixed = 77 ∧ s.power.granted = 360 ∧ s.power.refill = 159 ∧
  s.pt = 0 ∧ s.resetPage.status = 0 ∧ s.resetPage.done = 0 ∧ s.resetPage.ready = 0 ∧ s.booted = false ∧ s.errlog.written = 0 ∧
  s.sec.debug = false ∧ MemoryCanonical s ∧ ∀ a, viewByte s.mem 0 a = 0 ∧ devByte s.mem 0 a = 0

/-- Every step keeps memory in its canonical form, from every state in which it is: equal memories stay equal data, whatever is
executed, stored, saved, wiped or received. -/
def Obligations.EveryStepKeepsMemoryCanonical : Prop :=
  ∀ (s t : State), MemoryCanonical s → Host.Outcome.next t = Sys2Proof.Machine.step s → MemoryCanonical t
end

