-- ==== Sys2Proof/Laws/State.lean ====
section
/-! SUPPORT. What the plain updates leave alone: one lemma per field per update, so that no proof unfolds a record
update. -/

namespace Sys2Proof.Laws

open Sys2Proof.Machine

/-! ### The state -/

variable (s : State)

@[simp] theorem setHart_cores (n : Nat) (x : Hart) : (setHart s n x).cores = s.cores := rfl
@[simp] theorem setHart_clusters (n : Nat) (x : Hart) : (setHart s n x).clusters = s.clusters := rfl
@[simp] theorem setHart_mem (n : Nat) (x : Hart) : (setHart s n x).mem = s.mem := rfl
@[simp] theorem setHart_tlb (n : Nat) (x : Hart) : (setHart s n x).tlb = s.tlb := rfl
@[simp] theorem setHart_vis (n : Nat) (x : Hart) : (setHart s n x).vis = s.vis := rfl
@[simp] theorem setHart_frames (n : Nat) (x : Hart) : (setHart s n x).frames = s.frames := rfl
@[simp] theorem setHart_migration (n : Nat) (x : Hart) : (setHart s n x).migration = s.migration := rfl
@[simp] theorem setHart_queues (n : Nat) (x : Hart) : (setHart s n x).queues = s.queues := rfl
@[simp] theorem setHart_teams (n : Nat) (x : Hart) : (setHart s n x).teams = s.teams := rfl
@[simp] theorem setHart_rrQueue (n : Nat) (x : Hart) : (setHart s n x).rrQueue = s.rrQueue := rfl
@[simp] theorem setHart_schedRunning (n : Nat) (x : Hart) : (setHart s n x).schedRunning = s.schedRunning := rfl
@[simp] theorem setHart_standbyActive (n : Nat) (x : Hart) : (setHart s n x).standbyActive = s.standbyActive := rfl
@[simp] theorem setHart_takeover (n : Nat) (x : Hart) : (setHart s n x).takeover = s.takeover := rfl
@[simp] theorem setHart_pt (n : Nat) (x : Hart) : (setHart s n x).pt = s.pt := rfl
@[simp] theorem setHart_calendar (n : Nat) (x : Hart) : (setHart s n x).calendar = s.calendar := rfl
@[simp] theorem setHart_power (n : Nat) (x : Hart) : (setHart s n x).power = s.power := rfl
@[simp] theorem setHart_resetPage (n : Nat) (x : Hart) : (setHart s n x).resetPage = s.resetPage := rfl
@[simp] theorem setHart_errlog (n : Nat) (x : Hart) : (setHart s n x).errlog = s.errlog := rfl
@[simp] theorem setHart_hallmark (n : Nat) (x : Hart) : (setHart s n x).hallmark = s.hallmark := rfl
@[simp] theorem setHart_sec (n : Nat) (x : Hart) : (setHart s n x).sec = s.sec := rfl
@[simp] theorem setHart_flacons (n : Nat) (x : Hart) : (setHart s n x).flacons = s.flacons := rfl
@[simp] theorem setHart_keys (n : Nat) (x : Hart) : (setHart s n x).keys = s.keys := rfl
@[simp] theorem setHart_epochs (n : Nat) (x : Hart) : (setHart s n x).epochs = s.epochs := rfl
@[simp] theorem setHart_seals (n : Nat) (x : Hart) : (setHart s n x).seals = s.seals := rfl
@[simp] theorem setHart_links (n : Nat) (x : Hart) : (setHart s n x).links = s.links := rfl
@[simp] theorem setHart_engines (n : Nat) (x : Hart) : (setHart s n x).engines = s.engines := rfl
@[simp] theorem setHart_colls (n : Nat) (x : Hart) : (setHart s n x).colls = s.colls := rfl
@[simp] theorem setHart_routes (n : Nat) (x : Hart) : (setHart s n x).routes = s.routes := rfl
@[simp] theorem setHart_forwards (n : Nat) (x : Hart) : (setHart s n x).forwards = s.forwards := rfl
@[simp] theorem setHart_msix (n : Nat) (x : Hart) : (setHart s n x).msix = s.msix := rfl
@[simp] theorem setHart_aer (n : Nat) (x : Hart) : (setHart s n x).aer = s.aer := rfl
@[simp] theorem setHart_hung (n : Nat) (x : Hart) : (setHart s n x).hung = s.hung := rfl
@[simp] theorem setHart_booted (n : Nat) (x : Hart) : (setHart s n x).booted = s.booted := rfl
@[simp] theorem setHart_agenda (n : Nat) (x : Hart) : (setHart s n x).agenda = s.agenda := rfl
@[simp] theorem setHart_focus (n : Nat) (x : Hart) : (setHart s n x).focus = s.focus := rfl
@[simp] theorem setHart_cur (n : Nat) (x : Hart) : (setHart s n x).cur = s.cur := rfl
@[simp] theorem setHart_laneLimit (n : Nat) (x : Hart) : (setHart s n x).laneLimit = s.laneLimit := rfl
@[simp] theorem setHart_storeLate (n : Nat) (x : Hart) : (setHart s n x).storeLate = s.storeLate := rfl
@[simp] theorem setHart_free (n : Nat) (x : Hart) : (setHart s n x).free = s.free := rfl
@[simp] theorem setHart_posted (n : Nat) (x : Hart) : (setHart s n x).posted = s.posted := rfl
@[simp] theorem setHart_outbox (n : Nat) (x : Hart) : (setHart s n x).outbox = s.outbox := rfl

@[simp] theorem setCur_cores (x : Hart) : (setCur s x).cores = s.cores := rfl
@[simp] theorem setCur_clusters (x : Hart) : (setCur s x).clusters = s.clusters := rfl
@[simp] theorem setCur_mem (x : Hart) : (setCur s x).mem = s.mem := rfl
@[simp] theorem setCur_tlb (x : Hart) : (setCur s x).tlb = s.tlb := rfl
@[simp] theorem setCur_vis (x : Hart) : (setCur s x).vis = s.vis := rfl
@[simp] theorem setCur_frames (x : Hart) : (setCur s x).frames = s.frames := rfl
@[simp] theorem setCur_migration (x : Hart) : (setCur s x).migration = s.migration := rfl
@[simp] theorem setCur_queues (x : Hart) : (setCur s x).queues = s.queues := rfl
@[simp] theorem setCur_teams (x : Hart) : (setCur s x).teams = s.teams := rfl
@[simp] theorem setCur_rrQueue (x : Hart) : (setCur s x).rrQueue = s.rrQueue := rfl
@[simp] theorem setCur_schedRunning (x : Hart) : (setCur s x).schedRunning = s.schedRunning := rfl
@[simp] theorem setCur_standbyActive (x : Hart) : (setCur s x).standbyActive = s.standbyActive := rfl
@[simp] theorem setCur_takeover (x : Hart) : (setCur s x).takeover = s.takeover := rfl
@[simp] theorem setCur_pt (x : Hart) : (setCur s x).pt = s.pt := rfl
@[simp] theorem setCur_calendar (x : Hart) : (setCur s x).calendar = s.calendar := rfl
@[simp] theorem setCur_power (x : Hart) : (setCur s x).power = s.power := rfl
@[simp] theorem setCur_resetPage (x : Hart) : (setCur s x).resetPage = s.resetPage := rfl
@[simp] theorem setCur_errlog (x : Hart) : (setCur s x).errlog = s.errlog := rfl
@[simp] theorem setCur_hallmark (x : Hart) : (setCur s x).hallmark = s.hallmark := rfl
@[simp] theorem setCur_sec (x : Hart) : (setCur s x).sec = s.sec := rfl
@[simp] theorem setCur_flacons (x : Hart) : (setCur s x).flacons = s.flacons := rfl
@[simp] theorem setCur_keys (x : Hart) : (setCur s x).keys = s.keys := rfl
@[simp] theorem setCur_epochs (x : Hart) : (setCur s x).epochs = s.epochs := rfl
@[simp] theorem setCur_seals (x : Hart) : (setCur s x).seals = s.seals := rfl
@[simp] theorem setCur_links (x : Hart) : (setCur s x).links = s.links := rfl
@[simp] theorem setCur_engines (x : Hart) : (setCur s x).engines = s.engines := rfl
@[simp] theorem setCur_colls (x : Hart) : (setCur s x).colls = s.colls := rfl
@[simp] theorem setCur_routes (x : Hart) : (setCur s x).routes = s.routes := rfl
@[simp] theorem setCur_forwards (x : Hart) : (setCur s x).forwards = s.forwards := rfl
@[simp] theorem setCur_msix (x : Hart) : (setCur s x).msix = s.msix := rfl
@[simp] theorem setCur_aer (x : Hart) : (setCur s x).aer = s.aer := rfl
@[simp] theorem setCur_hung (x : Hart) : (setCur s x).hung = s.hung := rfl
@[simp] theorem setCur_booted (x : Hart) : (setCur s x).booted = s.booted := rfl
@[simp] theorem setCur_agenda (x : Hart) : (setCur s x).agenda = s.agenda := rfl
@[simp] theorem setCur_focus (x : Hart) : (setCur s x).focus = s.focus := rfl
@[simp] theorem setCur_cur (x : Hart) : (setCur s x).cur = s.cur := rfl
@[simp] theorem setCur_laneLimit (x : Hart) : (setCur s x).laneLimit = s.laneLimit := rfl
@[simp] theorem setCur_storeLate (x : Hart) : (setCur s x).storeLate = s.storeLate := rfl
@[simp] theorem setCur_free (x : Hart) : (setCur s x).free = s.free := rfl
@[simp] theorem setCur_posted (x : Hart) : (setCur s x).posted = s.posted := rfl
@[simp] theorem setCur_outbox (x : Hart) : (setCur s x).outbox = s.outbox := rfl

@[simp] theorem setCore_harts (n : Nat) (x : CoreSt) : (setCore s n x).harts = s.harts := rfl
@[simp] theorem setCore_clusters (n : Nat) (x : CoreSt) : (setCore s n x).clusters = s.clusters := rfl
@[simp] theorem setCore_mem (n : Nat) (x : CoreSt) : (setCore s n x).mem = s.mem := rfl
@[simp] theorem setCore_tlb (n : Nat) (x : CoreSt) : (setCore s n x).tlb = s.tlb := rfl
@[simp] theorem setCore_vis (n : Nat) (x : CoreSt) : (setCore s n x).vis = s.vis := rfl
@[simp] theorem setCore_frames (n : Nat) (x : CoreSt) : (setCore s n x).frames = s.frames := rfl
@[simp] theorem setCore_migration (n : Nat) (x : CoreSt) : (setCore s n x).migration = s.migration := rfl
@[simp] theorem setCore_queues (n : Nat) (x : CoreSt) : (setCore s n x).queues = s.queues := rfl
@[simp] theorem setCore_teams (n : Nat) (x : CoreSt) : (setCore s n x).teams = s.teams := rfl
@[simp] theorem setCore_rrQueue (n : Nat) (x : CoreSt) : (setCore s n x).rrQueue = s.rrQueue := rfl
@[simp] theorem setCore_schedRunning (n : Nat) (x : CoreSt) : (setCore s n x).schedRunning = s.schedRunning := rfl
@[simp] theorem setCore_standbyActive (n : Nat) (x : CoreSt) : (setCore s n x).standbyActive = s.standbyActive := rfl
@[simp] theorem setCore_takeover (n : Nat) (x : CoreSt) : (setCore s n x).takeover = s.takeover := rfl
@[simp] theorem setCore_pt (n : Nat) (x : CoreSt) : (setCore s n x).pt = s.pt := rfl
@[simp] theorem setCore_calendar (n : Nat) (x : CoreSt) : (setCore s n x).calendar = s.calendar := rfl
@[simp] theorem setCore_power (n : Nat) (x : CoreSt) : (setCore s n x).power = s.power := rfl
@[simp] theorem setCore_resetPage (n : Nat) (x : CoreSt) : (setCore s n x).resetPage = s.resetPage := rfl
@[simp] theorem setCore_errlog (n : Nat) (x : CoreSt) : (setCore s n x).errlog = s.errlog := rfl
@[simp] theorem setCore_hallmark (n : Nat) (x : CoreSt) : (setCore s n x).hallmark = s.hallmark := rfl
@[simp] theorem setCore_sec (n : Nat) (x : CoreSt) : (setCore s n x).sec = s.sec := rfl
@[simp] theorem setCore_flacons (n : Nat) (x : CoreSt) : (setCore s n x).flacons = s.flacons := rfl
@[simp] theorem setCore_keys (n : Nat) (x : CoreSt) : (setCore s n x).keys = s.keys := rfl
@[simp] theorem setCore_epochs (n : Nat) (x : CoreSt) : (setCore s n x).epochs = s.epochs := rfl
@[simp] theorem setCore_seals (n : Nat) (x : CoreSt) : (setCore s n x).seals = s.seals := rfl
@[simp] theorem setCore_links (n : Nat) (x : CoreSt) : (setCore s n x).links = s.links := rfl
@[simp] theorem setCore_engines (n : Nat) (x : CoreSt) : (setCore s n x).engines = s.engines := rfl
@[simp] theorem setCore_colls (n : Nat) (x : CoreSt) : (setCore s n x).colls = s.colls := rfl
@[simp] theorem setCore_routes (n : Nat) (x : CoreSt) : (setCore s n x).routes = s.routes := rfl
@[simp] theorem setCore_forwards (n : Nat) (x : CoreSt) : (setCore s n x).forwards = s.forwards := rfl
@[simp] theorem setCore_msix (n : Nat) (x : CoreSt) : (setCore s n x).msix = s.msix := rfl
@[simp] theorem setCore_aer (n : Nat) (x : CoreSt) : (setCore s n x).aer = s.aer := rfl
@[simp] theorem setCore_hung (n : Nat) (x : CoreSt) : (setCore s n x).hung = s.hung := rfl
@[simp] theorem setCore_booted (n : Nat) (x : CoreSt) : (setCore s n x).booted = s.booted := rfl
@[simp] theorem setCore_agenda (n : Nat) (x : CoreSt) : (setCore s n x).agenda = s.agenda := rfl
@[simp] theorem setCore_focus (n : Nat) (x : CoreSt) : (setCore s n x).focus = s.focus := rfl
@[simp] theorem setCore_cur (n : Nat) (x : CoreSt) : (setCore s n x).cur = s.cur := rfl
@[simp] theorem setCore_laneLimit (n : Nat) (x : CoreSt) : (setCore s n x).laneLimit = s.laneLimit := rfl
@[simp] theorem setCore_storeLate (n : Nat) (x : CoreSt) : (setCore s n x).storeLate = s.storeLate := rfl
@[simp] theorem setCore_free (n : Nat) (x : CoreSt) : (setCore s n x).free = s.free := rfl
@[simp] theorem setCore_posted (n : Nat) (x : CoreSt) : (setCore s n x).posted = s.posted := rfl
@[simp] theorem setCore_outbox (n : Nat) (x : CoreSt) : (setCore s n x).outbox = s.outbox := rfl

@[simp] theorem setCluster_harts (n : Nat) (x : ClusterSt) : (setCluster s n x).harts = s.harts := rfl
@[simp] theorem setCluster_cores (n : Nat) (x : ClusterSt) : (setCluster s n x).cores = s.cores := rfl
@[simp] theorem setCluster_mem (n : Nat) (x : ClusterSt) : (setCluster s n x).mem = s.mem := rfl
@[simp] theorem setCluster_tlb (n : Nat) (x : ClusterSt) : (setCluster s n x).tlb = s.tlb := rfl
@[simp] theorem setCluster_vis (n : Nat) (x : ClusterSt) : (setCluster s n x).vis = s.vis := rfl
@[simp] theorem setCluster_frames (n : Nat) (x : ClusterSt) : (setCluster s n x).frames = s.frames := rfl
@[simp] theorem setCluster_migration (n : Nat) (x : ClusterSt) : (setCluster s n x).migration = s.migration := rfl
@[simp] theorem setCluster_queues (n : Nat) (x : ClusterSt) : (setCluster s n x).queues = s.queues := rfl
@[simp] theorem setCluster_teams (n : Nat) (x : ClusterSt) : (setCluster s n x).teams = s.teams := rfl
@[simp] theorem setCluster_rrQueue (n : Nat) (x : ClusterSt) : (setCluster s n x).rrQueue = s.rrQueue := rfl
@[simp] theorem setCluster_schedRunning (n : Nat) (x : ClusterSt) : (setCluster s n x).schedRunning = s.schedRunning := rfl
@[simp] theorem setCluster_standbyActive (n : Nat) (x : ClusterSt) : (setCluster s n x).standbyActive = s.standbyActive := rfl
@[simp] theorem setCluster_takeover (n : Nat) (x : ClusterSt) : (setCluster s n x).takeover = s.takeover := rfl
@[simp] theorem setCluster_pt (n : Nat) (x : ClusterSt) : (setCluster s n x).pt = s.pt := rfl
@[simp] theorem setCluster_calendar (n : Nat) (x : ClusterSt) : (setCluster s n x).calendar = s.calendar := rfl
@[simp] theorem setCluster_power (n : Nat) (x : ClusterSt) : (setCluster s n x).power = s.power := rfl
@[simp] theorem setCluster_resetPage (n : Nat) (x : ClusterSt) : (setCluster s n x).resetPage = s.resetPage := rfl
@[simp] theorem setCluster_errlog (n : Nat) (x : ClusterSt) : (setCluster s n x).errlog = s.errlog := rfl
@[simp] theorem setCluster_hallmark (n : Nat) (x : ClusterSt) : (setCluster s n x).hallmark = s.hallmark := rfl
@[simp] theorem setCluster_sec (n : Nat) (x : ClusterSt) : (setCluster s n x).sec = s.sec := rfl
@[simp] theorem setCluster_flacons (n : Nat) (x : ClusterSt) : (setCluster s n x).flacons = s.flacons := rfl
@[simp] theorem setCluster_keys (n : Nat) (x : ClusterSt) : (setCluster s n x).keys = s.keys := rfl
@[simp] theorem setCluster_epochs (n : Nat) (x : ClusterSt) : (setCluster s n x).epochs = s.epochs := rfl
@[simp] theorem setCluster_seals (n : Nat) (x : ClusterSt) : (setCluster s n x).seals = s.seals := rfl
@[simp] theorem setCluster_links (n : Nat) (x : ClusterSt) : (setCluster s n x).links = s.links := rfl
@[simp] theorem setCluster_engines (n : Nat) (x : ClusterSt) : (setCluster s n x).engines = s.engines := rfl
@[simp] theorem setCluster_colls (n : Nat) (x : ClusterSt) : (setCluster s n x).colls = s.colls := rfl
@[simp] theorem setCluster_routes (n : Nat) (x : ClusterSt) : (setCluster s n x).routes = s.routes := rfl
@[simp] theorem setCluster_forwards (n : Nat) (x : ClusterSt) : (setCluster s n x).forwards = s.forwards := rfl
@[simp] theorem setCluster_msix (n : Nat) (x : ClusterSt) : (setCluster s n x).msix = s.msix := rfl
@[simp] theorem setCluster_aer (n : Nat) (x : ClusterSt) : (setCluster s n x).aer = s.aer := rfl
@[simp] theorem setCluster_hung (n : Nat) (x : ClusterSt) : (setCluster s n x).hung = s.hung := rfl
@[simp] theorem setCluster_booted (n : Nat) (x : ClusterSt) : (setCluster s n x).booted = s.booted := rfl
@[simp] theorem setCluster_agenda (n : Nat) (x : ClusterSt) : (setCluster s n x).agenda = s.agenda := rfl
@[simp] theorem setCluster_focus (n : Nat) (x : ClusterSt) : (setCluster s n x).focus = s.focus := rfl
@[simp] theorem setCluster_cur (n : Nat) (x : ClusterSt) : (setCluster s n x).cur = s.cur := rfl
@[simp] theorem setCluster_laneLimit (n : Nat) (x : ClusterSt) : (setCluster s n x).laneLimit = s.laneLimit := rfl
@[simp] theorem setCluster_storeLate (n : Nat) (x : ClusterSt) : (setCluster s n x).storeLate = s.storeLate := rfl
@[simp] theorem setCluster_free (n : Nat) (x : ClusterSt) : (setCluster s n x).free = s.free := rfl
@[simp] theorem setCluster_posted (n : Nat) (x : ClusterSt) : (setCluster s n x).posted = s.posted := rfl
@[simp] theorem setCluster_outbox (n : Nat) (x : ClusterSt) : (setCluster s n x).outbox = s.outbox := rfl

@[simp] theorem setQueue_harts (n : Nat) (x : QueueSt) : (setQueue s n x).harts = s.harts := rfl
@[simp] theorem setQueue_cores (n : Nat) (x : QueueSt) : (setQueue s n x).cores = s.cores := rfl
@[simp] theorem setQueue_clusters (n : Nat) (x : QueueSt) : (setQueue s n x).clusters = s.clusters := rfl
@[simp] theorem setQueue_mem (n : Nat) (x : QueueSt) : (setQueue s n x).mem = s.mem := rfl
@[simp] theorem setQueue_tlb (n : Nat) (x : QueueSt) : (setQueue s n x).tlb = s.tlb := rfl
@[simp] theorem setQueue_vis (n : Nat) (x : QueueSt) : (setQueue s n x).vis = s.vis := rfl
@[simp] theorem setQueue_frames (n : Nat) (x : QueueSt) : (setQueue s n x).frames = s.frames := rfl
@[simp] theorem setQueue_migration (n : Nat) (x : QueueSt) : (setQueue s n x).migration = s.migration := rfl
@[simp] theorem setQueue_teams (n : Nat) (x : QueueSt) : (setQueue s n x).teams = s.teams := rfl
@[simp] theorem setQueue_rrQueue (n : Nat) (x : QueueSt) : (setQueue s n x).rrQueue = s.rrQueue := rfl
@[simp] theorem setQueue_schedRunning (n : Nat) (x : QueueSt) : (setQueue s n x).schedRunning = s.schedRunning := rfl
@[simp] theorem setQueue_standbyActive (n : Nat) (x : QueueSt) : (setQueue s n x).standbyActive = s.standbyActive := rfl
@[simp] theorem setQueue_takeover (n : Nat) (x : QueueSt) : (setQueue s n x).takeover = s.takeover := rfl
@[simp] theorem setQueue_pt (n : Nat) (x : QueueSt) : (setQueue s n x).pt = s.pt := rfl
@[simp] theorem setQueue_calendar (n : Nat) (x : QueueSt) : (setQueue s n x).calendar = s.calendar := rfl
@[simp] theorem setQueue_power (n : Nat) (x : QueueSt) : (setQueue s n x).power = s.power := rfl
@[simp] theorem setQueue_resetPage (n : Nat) (x : QueueSt) : (setQueue s n x).resetPage = s.resetPage := rfl
@[simp] theorem setQueue_errlog (n : Nat) (x : QueueSt) : (setQueue s n x).errlog = s.errlog := rfl
@[simp] theorem setQueue_hallmark (n : Nat) (x : QueueSt) : (setQueue s n x).hallmark = s.hallmark := rfl
@[simp] theorem setQueue_sec (n : Nat) (x : QueueSt) : (setQueue s n x).sec = s.sec := rfl
@[simp] theorem setQueue_flacons (n : Nat) (x : QueueSt) : (setQueue s n x).flacons = s.flacons := rfl
@[simp] theorem setQueue_keys (n : Nat) (x : QueueSt) : (setQueue s n x).keys = s.keys := rfl
@[simp] theorem setQueue_epochs (n : Nat) (x : QueueSt) : (setQueue s n x).epochs = s.epochs := rfl
@[simp] theorem setQueue_seals (n : Nat) (x : QueueSt) : (setQueue s n x).seals = s.seals := rfl
@[simp] theorem setQueue_links (n : Nat) (x : QueueSt) : (setQueue s n x).links = s.links := rfl
@[simp] theorem setQueue_engines (n : Nat) (x : QueueSt) : (setQueue s n x).engines = s.engines := rfl
@[simp] theorem setQueue_colls (n : Nat) (x : QueueSt) : (setQueue s n x).colls = s.colls := rfl
@[simp] theorem setQueue_routes (n : Nat) (x : QueueSt) : (setQueue s n x).routes = s.routes := rfl
@[simp] theorem setQueue_forwards (n : Nat) (x : QueueSt) : (setQueue s n x).forwards = s.forwards := rfl
@[simp] theorem setQueue_msix (n : Nat) (x : QueueSt) : (setQueue s n x).msix = s.msix := rfl
@[simp] theorem setQueue_aer (n : Nat) (x : QueueSt) : (setQueue s n x).aer = s.aer := rfl
@[simp] theorem setQueue_hung (n : Nat) (x : QueueSt) : (setQueue s n x).hung = s.hung := rfl
@[simp] theorem setQueue_booted (n : Nat) (x : QueueSt) : (setQueue s n x).booted = s.booted := rfl
@[simp] theorem setQueue_agenda (n : Nat) (x : QueueSt) : (setQueue s n x).agenda = s.agenda := rfl
@[simp] theorem setQueue_focus (n : Nat) (x : QueueSt) : (setQueue s n x).focus = s.focus := rfl
@[simp] theorem setQueue_cur (n : Nat) (x : QueueSt) : (setQueue s n x).cur = s.cur := rfl
@[simp] theorem setQueue_laneLimit (n : Nat) (x : QueueSt) : (setQueue s n x).laneLimit = s.laneLimit := rfl
@[simp] theorem setQueue_storeLate (n : Nat) (x : QueueSt) : (setQueue s n x).storeLate = s.storeLate := rfl
@[simp] theorem setQueue_free (n : Nat) (x : QueueSt) : (setQueue s n x).free = s.free := rfl
@[simp] theorem setQueue_posted (n : Nat) (x : QueueSt) : (setQueue s n x).posted = s.posted := rfl
@[simp] theorem setQueue_outbox (n : Nat) (x : QueueSt) : (setQueue s n x).outbox = s.outbox := rfl

@[simp] theorem setTeam_harts (n : Nat) (x : TeamSt) : (setTeam s n x).harts = s.harts := rfl
@[simp] theorem setTeam_cores (n : Nat) (x : TeamSt) : (setTeam s n x).cores = s.cores := rfl
@[simp] theorem setTeam_clusters (n : Nat) (x : TeamSt) : (setTeam s n x).clusters = s.clusters := rfl
@[simp] theorem setTeam_mem (n : Nat) (x : TeamSt) : (setTeam s n x).mem = s.mem := rfl
@[simp] theorem setTeam_tlb (n : Nat) (x : TeamSt) : (setTeam s n x).tlb = s.tlb := rfl
@[simp] theorem setTeam_vis (n : Nat) (x : TeamSt) : (setTeam s n x).vis = s.vis := rfl
@[simp] theorem setTeam_frames (n : Nat) (x : TeamSt) : (setTeam s n x).frames = s.frames := rfl
@[simp] theorem setTeam_migration (n : Nat) (x : TeamSt) : (setTeam s n x).migration = s.migration := rfl
@[simp] theorem setTeam_queues (n : Nat) (x : TeamSt) : (setTeam s n x).queues = s.queues := rfl
@[simp] theorem setTeam_rrQueue (n : Nat) (x : TeamSt) : (setTeam s n x).rrQueue = s.rrQueue := rfl
@[simp] theorem setTeam_schedRunning (n : Nat) (x : TeamSt) : (setTeam s n x).schedRunning = s.schedRunning := rfl
@[simp] theorem setTeam_standbyActive (n : Nat) (x : TeamSt) : (setTeam s n x).standbyActive = s.standbyActive := rfl
@[simp] theorem setTeam_takeover (n : Nat) (x : TeamSt) : (setTeam s n x).takeover = s.takeover := rfl
@[simp] theorem setTeam_pt (n : Nat) (x : TeamSt) : (setTeam s n x).pt = s.pt := rfl
@[simp] theorem setTeam_calendar (n : Nat) (x : TeamSt) : (setTeam s n x).calendar = s.calendar := rfl
@[simp] theorem setTeam_power (n : Nat) (x : TeamSt) : (setTeam s n x).power = s.power := rfl
@[simp] theorem setTeam_resetPage (n : Nat) (x : TeamSt) : (setTeam s n x).resetPage = s.resetPage := rfl
@[simp] theorem setTeam_errlog (n : Nat) (x : TeamSt) : (setTeam s n x).errlog = s.errlog := rfl
@[simp] theorem setTeam_hallmark (n : Nat) (x : TeamSt) : (setTeam s n x).hallmark = s.hallmark := rfl
@[simp] theorem setTeam_sec (n : Nat) (x : TeamSt) : (setTeam s n x).sec = s.sec := rfl
@[simp] theorem setTeam_flacons (n : Nat) (x : TeamSt) : (setTeam s n x).flacons = s.flacons := rfl
@[simp] theorem setTeam_keys (n : Nat) (x : TeamSt) : (setTeam s n x).keys = s.keys := rfl
@[simp] theorem setTeam_epochs (n : Nat) (x : TeamSt) : (setTeam s n x).epochs = s.epochs := rfl
@[simp] theorem setTeam_seals (n : Nat) (x : TeamSt) : (setTeam s n x).seals = s.seals := rfl
@[simp] theorem setTeam_links (n : Nat) (x : TeamSt) : (setTeam s n x).links = s.links := rfl
@[simp] theorem setTeam_engines (n : Nat) (x : TeamSt) : (setTeam s n x).engines = s.engines := rfl
@[simp] theorem setTeam_colls (n : Nat) (x : TeamSt) : (setTeam s n x).colls = s.colls := rfl
@[simp] theorem setTeam_routes (n : Nat) (x : TeamSt) : (setTeam s n x).routes = s.routes := rfl
@[simp] theorem setTeam_forwards (n : Nat) (x : TeamSt) : (setTeam s n x).forwards = s.forwards := rfl
@[simp] theorem setTeam_msix (n : Nat) (x : TeamSt) : (setTeam s n x).msix = s.msix := rfl
@[simp] theorem setTeam_aer (n : Nat) (x : TeamSt) : (setTeam s n x).aer = s.aer := rfl
@[simp] theorem setTeam_hung (n : Nat) (x : TeamSt) : (setTeam s n x).hung = s.hung := rfl
@[simp] theorem setTeam_booted (n : Nat) (x : TeamSt) : (setTeam s n x).booted = s.booted := rfl
@[simp] theorem setTeam_agenda (n : Nat) (x : TeamSt) : (setTeam s n x).agenda = s.agenda := rfl
@[simp] theorem setTeam_focus (n : Nat) (x : TeamSt) : (setTeam s n x).focus = s.focus := rfl
@[simp] theorem setTeam_cur (n : Nat) (x : TeamSt) : (setTeam s n x).cur = s.cur := rfl
@[simp] theorem setTeam_laneLimit (n : Nat) (x : TeamSt) : (setTeam s n x).laneLimit = s.laneLimit := rfl
@[simp] theorem setTeam_storeLate (n : Nat) (x : TeamSt) : (setTeam s n x).storeLate = s.storeLate := rfl
@[simp] theorem setTeam_free (n : Nat) (x : TeamSt) : (setTeam s n x).free = s.free := rfl
@[simp] theorem setTeam_posted (n : Nat) (x : TeamSt) : (setTeam s n x).posted = s.posted := rfl
@[simp] theorem setTeam_outbox (n : Nat) (x : TeamSt) : (setTeam s n x).outbox = s.outbox := rfl

@[simp] theorem setVi_harts (n : Nat) (x : ViSt) : (setVi s n x).harts = s.harts := rfl
@[simp] theorem setVi_cores (n : Nat) (x : ViSt) : (setVi s n x).cores = s.cores := rfl
@[simp] theorem setVi_clusters (n : Nat) (x : ViSt) : (setVi s n x).clusters = s.clusters := rfl
@[simp] theorem setVi_mem (n : Nat) (x : ViSt) : (setVi s n x).mem = s.mem := rfl
@[simp] theorem setVi_tlb (n : Nat) (x : ViSt) : (setVi s n x).tlb = s.tlb := rfl
@[simp] theorem setVi_frames (n : Nat) (x : ViSt) : (setVi s n x).frames = s.frames := rfl
@[simp] theorem setVi_migration (n : Nat) (x : ViSt) : (setVi s n x).migration = s.migration := rfl
@[simp] theorem setVi_queues (n : Nat) (x : ViSt) : (setVi s n x).queues = s.queues := rfl
@[simp] theorem setVi_teams (n : Nat) (x : ViSt) : (setVi s n x).teams = s.teams := rfl
@[simp] theorem setVi_rrQueue (n : Nat) (x : ViSt) : (setVi s n x).rrQueue = s.rrQueue := rfl
@[simp] theorem setVi_schedRunning (n : Nat) (x : ViSt) : (setVi s n x).schedRunning = s.schedRunning := rfl
@[simp] theorem setVi_standbyActive (n : Nat) (x : ViSt) : (setVi s n x).standbyActive = s.standbyActive := rfl
@[simp] theorem setVi_takeover (n : Nat) (x : ViSt) : (setVi s n x).takeover = s.takeover := rfl
@[simp] theorem setVi_pt (n : Nat) (x : ViSt) : (setVi s n x).pt = s.pt := rfl
@[simp] theorem setVi_calendar (n : Nat) (x : ViSt) : (setVi s n x).calendar = s.calendar := rfl
@[simp] theorem setVi_power (n : Nat) (x : ViSt) : (setVi s n x).power = s.power := rfl
@[simp] theorem setVi_resetPage (n : Nat) (x : ViSt) : (setVi s n x).resetPage = s.resetPage := rfl
@[simp] theorem setVi_errlog (n : Nat) (x : ViSt) : (setVi s n x).errlog = s.errlog := rfl
@[simp] theorem setVi_hallmark (n : Nat) (x : ViSt) : (setVi s n x).hallmark = s.hallmark := rfl
@[simp] theorem setVi_sec (n : Nat) (x : ViSt) : (setVi s n x).sec = s.sec := rfl
@[simp] theorem setVi_flacons (n : Nat) (x : ViSt) : (setVi s n x).flacons = s.flacons := rfl
@[simp] theorem setVi_keys (n : Nat) (x : ViSt) : (setVi s n x).keys = s.keys := rfl
@[simp] theorem setVi_epochs (n : Nat) (x : ViSt) : (setVi s n x).epochs = s.epochs := rfl
@[simp] theorem setVi_seals (n : Nat) (x : ViSt) : (setVi s n x).seals = s.seals := rfl
@[simp] theorem setVi_links (n : Nat) (x : ViSt) : (setVi s n x).links = s.links := rfl
@[simp] theorem setVi_engines (n : Nat) (x : ViSt) : (setVi s n x).engines = s.engines := rfl
@[simp] theorem setVi_colls (n : Nat) (x : ViSt) : (setVi s n x).colls = s.colls := rfl
@[simp] theorem setVi_routes (n : Nat) (x : ViSt) : (setVi s n x).routes = s.routes := rfl
@[simp] theorem setVi_forwards (n : Nat) (x : ViSt) : (setVi s n x).forwards = s.forwards := rfl
@[simp] theorem setVi_msix (n : Nat) (x : ViSt) : (setVi s n x).msix = s.msix := rfl
@[simp] theorem setVi_aer (n : Nat) (x : ViSt) : (setVi s n x).aer = s.aer := rfl
@[simp] theorem setVi_hung (n : Nat) (x : ViSt) : (setVi s n x).hung = s.hung := rfl
@[simp] theorem setVi_booted (n : Nat) (x : ViSt) : (setVi s n x).booted = s.booted := rfl
@[simp] theorem setVi_agenda (n : Nat) (x : ViSt) : (setVi s n x).agenda = s.agenda := rfl
@[simp] theorem setVi_focus (n : Nat) (x : ViSt) : (setVi s n x).focus = s.focus := rfl
@[simp] theorem setVi_cur (n : Nat) (x : ViSt) : (setVi s n x).cur = s.cur := rfl
@[simp] theorem setVi_laneLimit (n : Nat) (x : ViSt) : (setVi s n x).laneLimit = s.laneLimit := rfl
@[simp] theorem setVi_storeLate (n : Nat) (x : ViSt) : (setVi s n x).storeLate = s.storeLate := rfl
@[simp] theorem setVi_free (n : Nat) (x : ViSt) : (setVi s n x).free = s.free := rfl
@[simp] theorem setVi_posted (n : Nat) (x : ViSt) : (setVi s n x).posted = s.posted := rfl
@[simp] theorem setVi_outbox (n : Nat) (x : ViSt) : (setVi s n x).outbox = s.outbox := rfl

@[simp] theorem setFlacon_harts (n : Nat) (x : Flacon) : (setFlacon s n x).harts = s.harts := rfl
@[simp] theorem setFlacon_cores (n : Nat) (x : Flacon) : (setFlacon s n x).cores = s.cores := rfl
@[simp] theorem setFlacon_clusters (n : Nat) (x : Flacon) : (setFlacon s n x).clusters = s.clusters := rfl
@[simp] theorem setFlacon_mem (n : Nat) (x : Flacon) : (setFlacon s n x).mem = s.mem := rfl
@[simp] theorem setFlacon_tlb (n : Nat) (x : Flacon) : (setFlacon s n x).tlb = s.tlb := rfl
@[simp] theorem setFlacon_vis (n : Nat) (x : Flacon) : (setFlacon s n x).vis = s.vis := rfl
@[simp] theorem setFlacon_frames (n : Nat) (x : Flacon) : (setFlacon s n x).frames = s.frames := rfl
@[simp] theorem setFlacon_migration (n : Nat) (x : Flacon) : (setFlacon s n x).migration = s.migration := rfl
@[simp] theorem setFlacon_queues (n : Nat) (x : Flacon) : (setFlacon s n x).queues = s.queues := rfl
@[simp] theorem setFlacon_teams (n : Nat) (x : Flacon) : (setFlacon s n x).teams = s.teams := rfl
@[simp] theorem setFlacon_rrQueue (n : Nat) (x : Flacon) : (setFlacon s n x).rrQueue = s.rrQueue := rfl
@[simp] theorem setFlacon_schedRunning (n : Nat) (x : Flacon) : (setFlacon s n x).schedRunning = s.schedRunning := rfl
@[simp] theorem setFlacon_standbyActive (n : Nat) (x : Flacon) : (setFlacon s n x).standbyActive = s.standbyActive := rfl
@[simp] theorem setFlacon_takeover (n : Nat) (x : Flacon) : (setFlacon s n x).takeover = s.takeover := rfl
@[simp] theorem setFlacon_pt (n : Nat) (x : Flacon) : (setFlacon s n x).pt = s.pt := rfl
@[simp] theorem setFlacon_calendar (n : Nat) (x : Flacon) : (setFlacon s n x).calendar = s.calendar := rfl
@[simp] theorem setFlacon_power (n : Nat) (x : Flacon) : (setFlacon s n x).power = s.power := rfl
@[simp] theorem setFlacon_resetPage (n : Nat) (x : Flacon) : (setFlacon s n x).resetPage = s.resetPage := rfl
@[simp] theorem setFlacon_errlog (n : Nat) (x : Flacon) : (setFlacon s n x).errlog = s.errlog := rfl
@[simp] theorem setFlacon_hallmark (n : Nat) (x : Flacon) : (setFlacon s n x).hallmark = s.hallmark := rfl
@[simp] theorem setFlacon_sec (n : Nat) (x : Flacon) : (setFlacon s n x).sec = s.sec := rfl
@[simp] theorem setFlacon_keys (n : Nat) (x : Flacon) : (setFlacon s n x).keys = s.keys := rfl
@[simp] theorem setFlacon_epochs (n : Nat) (x : Flacon) : (setFlacon s n x).epochs = s.epochs := rfl
@[simp] theorem setFlacon_seals (n : Nat) (x : Flacon) : (setFlacon s n x).seals = s.seals := rfl
@[simp] theorem setFlacon_links (n : Nat) (x : Flacon) : (setFlacon s n x).links = s.links := rfl
@[simp] theorem setFlacon_engines (n : Nat) (x : Flacon) : (setFlacon s n x).engines = s.engines := rfl
@[simp] theorem setFlacon_colls (n : Nat) (x : Flacon) : (setFlacon s n x).colls = s.colls := rfl
@[simp] theorem setFlacon_routes (n : Nat) (x : Flacon) : (setFlacon s n x).routes = s.routes := rfl
@[simp] theorem setFlacon_forwards (n : Nat) (x : Flacon) : (setFlacon s n x).forwards = s.forwards := rfl
@[simp] theorem setFlacon_msix (n : Nat) (x : Flacon) : (setFlacon s n x).msix = s.msix := rfl
@[simp] theorem setFlacon_aer (n : Nat) (x : Flacon) : (setFlacon s n x).aer = s.aer := rfl
@[simp] theorem setFlacon_hung (n : Nat) (x : Flacon) : (setFlacon s n x).hung = s.hung := rfl
@[simp] theorem setFlacon_booted (n : Nat) (x : Flacon) : (setFlacon s n x).booted = s.booted := rfl
@[simp] theorem setFlacon_agenda (n : Nat) (x : Flacon) : (setFlacon s n x).agenda = s.agenda := rfl
@[simp] theorem setFlacon_focus (n : Nat) (x : Flacon) : (setFlacon s n x).focus = s.focus := rfl
@[simp] theorem setFlacon_cur (n : Nat) (x : Flacon) : (setFlacon s n x).cur = s.cur := rfl
@[simp] theorem setFlacon_laneLimit (n : Nat) (x : Flacon) : (setFlacon s n x).laneLimit = s.laneLimit := rfl
@[simp] theorem setFlacon_storeLate (n : Nat) (x : Flacon) : (setFlacon s n x).storeLate = s.storeLate := rfl
@[simp] theorem setFlacon_free (n : Nat) (x : Flacon) : (setFlacon s n x).free = s.free := rfl
@[simp] theorem setFlacon_posted (n : Nat) (x : Flacon) : (setFlacon s n x).posted = s.posted := rfl
@[simp] theorem setFlacon_outbox (n : Nat) (x : Flacon) : (setFlacon s n x).outbox = s.outbox := rfl

@[simp] theorem setKey_harts (n : Nat) (x : KeySlot) : (setKey s n x).harts = s.harts := rfl
@[simp] theorem setKey_cores (n : Nat) (x : KeySlot) : (setKey s n x).cores = s.cores := rfl
@[simp] theorem setKey_clusters (n : Nat) (x : KeySlot) : (setKey s n x).clusters = s.clusters := rfl
@[simp] theorem setKey_mem (n : Nat) (x : KeySlot) : (setKey s n x).mem = s.mem := rfl
@[simp] theorem setKey_tlb (n : Nat) (x : KeySlot) : (setKey s n x).tlb = s.tlb := rfl
@[simp] theorem setKey_vis (n : Nat) (x : KeySlot) : (setKey s n x).vis = s.vis := rfl
@[simp] theorem setKey_frames (n : Nat) (x : KeySlot) : (setKey s n x).frames = s.frames := rfl
@[simp] theorem setKey_migration (n : Nat) (x : KeySlot) : (setKey s n x).migration = s.migration := rfl
@[simp] theorem setKey_queues (n : Nat) (x : KeySlot) : (setKey s n x).queues = s.queues := rfl
@[simp] theorem setKey_teams (n : Nat) (x : KeySlot) : (setKey s n x).teams = s.teams := rfl
@[simp] theorem setKey_rrQueue (n : Nat) (x : KeySlot) : (setKey s n x).rrQueue = s.rrQueue := rfl
@[simp] theorem setKey_schedRunning (n : Nat) (x : KeySlot) : (setKey s n x).schedRunning = s.schedRunning := rfl
@[simp] theorem setKey_standbyActive (n : Nat) (x : KeySlot) : (setKey s n x).standbyActive = s.standbyActive := rfl
@[simp] theorem setKey_takeover (n : Nat) (x : KeySlot) : (setKey s n x).takeover = s.takeover := rfl
@[simp] theorem setKey_pt (n : Nat) (x : KeySlot) : (setKey s n x).pt = s.pt := rfl
@[simp] theorem setKey_calendar (n : Nat) (x : KeySlot) : (setKey s n x).calendar = s.calendar := rfl
@[simp] theorem setKey_power (n : Nat) (x : KeySlot) : (setKey s n x).power = s.power := rfl
@[simp] theorem setKey_resetPage (n : Nat) (x : KeySlot) : (setKey s n x).resetPage = s.resetPage := rfl
@[simp] theorem setKey_errlog (n : Nat) (x : KeySlot) : (setKey s n x).errlog = s.errlog := rfl
@[simp] theorem setKey_hallmark (n : Nat) (x : KeySlot) : (setKey s n x).hallmark = s.hallmark := rfl
@[simp] theorem setKey_sec (n : Nat) (x : KeySlot) : (setKey s n x).sec = s.sec := rfl
@[simp] theorem setKey_flacons (n : Nat) (x : KeySlot) : (setKey s n x).flacons = s.flacons := rfl
@[simp] theorem setKey_epochs (n : Nat) (x : KeySlot) : (setKey s n x).epochs = s.epochs := rfl
@[simp] theorem setKey_seals (n : Nat) (x : KeySlot) : (setKey s n x).seals = s.seals := rfl
@[simp] theorem setKey_links (n : Nat) (x : KeySlot) : (setKey s n x).links = s.links := rfl
@[simp] theorem setKey_engines (n : Nat) (x : KeySlot) : (setKey s n x).engines = s.engines := rfl
@[simp] theorem setKey_colls (n : Nat) (x : KeySlot) : (setKey s n x).colls = s.colls := rfl
@[simp] theorem setKey_routes (n : Nat) (x : KeySlot) : (setKey s n x).routes = s.routes := rfl
@[simp] theorem setKey_forwards (n : Nat) (x : KeySlot) : (setKey s n x).forwards = s.forwards := rfl
@[simp] theorem setKey_msix (n : Nat) (x : KeySlot) : (setKey s n x).msix = s.msix := rfl
@[simp] theorem setKey_aer (n : Nat) (x : KeySlot) : (setKey s n x).aer = s.aer := rfl
@[simp] theorem setKey_hung (n : Nat) (x : KeySlot) : (setKey s n x).hung = s.hung := rfl
@[simp] theorem setKey_booted (n : Nat) (x : KeySlot) : (setKey s n x).booted = s.booted := rfl
@[simp] theorem setKey_agenda (n : Nat) (x : KeySlot) : (setKey s n x).agenda = s.agenda := rfl
@[simp] theorem setKey_focus (n : Nat) (x : KeySlot) : (setKey s n x).focus = s.focus := rfl
@[simp] theorem setKey_cur (n : Nat) (x : KeySlot) : (setKey s n x).cur = s.cur := rfl
@[simp] theorem setKey_laneLimit (n : Nat) (x : KeySlot) : (setKey s n x).laneLimit = s.laneLimit := rfl
@[simp] theorem setKey_storeLate (n : Nat) (x : KeySlot) : (setKey s n x).storeLate = s.storeLate := rfl
@[simp] theorem setKey_free (n : Nat) (x : KeySlot) : (setKey s n x).free = s.free := rfl
@[simp] theorem setKey_posted (n : Nat) (x : KeySlot) : (setKey s n x).posted = s.posted := rfl
@[simp] theorem setKey_outbox (n : Nat) (x : KeySlot) : (setKey s n x).outbox = s.outbox := rfl

@[simp] theorem setLink_harts (n : Nat) (x : Link) : (setLink s n x).harts = s.harts := rfl
@[simp] theorem setLink_cores (n : Nat) (x : Link) : (setLink s n x).cores = s.cores := rfl
@[simp] theorem setLink_clusters (n : Nat) (x : Link) : (setLink s n x).clusters = s.clusters := rfl
@[simp] theorem setLink_mem (n : Nat) (x : Link) : (setLink s n x).mem = s.mem := rfl
@[simp] theorem setLink_tlb (n : Nat) (x : Link) : (setLink s n x).tlb = s.tlb := rfl
@[simp] theorem setLink_vis (n : Nat) (x : Link) : (setLink s n x).vis = s.vis := rfl
@[simp] theorem setLink_frames (n : Nat) (x : Link) : (setLink s n x).frames = s.frames := rfl
@[simp] theorem setLink_migration (n : Nat) (x : Link) : (setLink s n x).migration = s.migration := rfl
@[simp] theorem setLink_queues (n : Nat) (x : Link) : (setLink s n x).queues = s.queues := rfl
@[simp] theorem setLink_teams (n : Nat) (x : Link) : (setLink s n x).teams = s.teams := rfl
@[simp] theorem setLink_rrQueue (n : Nat) (x : Link) : (setLink s n x).rrQueue = s.rrQueue := rfl
@[simp] theorem setLink_schedRunning (n : Nat) (x : Link) : (setLink s n x).schedRunning = s.schedRunning := rfl
@[simp] theorem setLink_standbyActive (n : Nat) (x : Link) : (setLink s n x).standbyActive = s.standbyActive := rfl
@[simp] theorem setLink_takeover (n : Nat) (x : Link) : (setLink s n x).takeover = s.takeover := rfl
@[simp] theorem setLink_pt (n : Nat) (x : Link) : (setLink s n x).pt = s.pt := rfl
@[simp] theorem setLink_calendar (n : Nat) (x : Link) : (setLink s n x).calendar = s.calendar := rfl
@[simp] theorem setLink_power (n : Nat) (x : Link) : (setLink s n x).power = s.power := rfl
@[simp] theorem setLink_resetPage (n : Nat) (x : Link) : (setLink s n x).resetPage = s.resetPage := rfl
@[simp] theorem setLink_errlog (n : Nat) (x : Link) : (setLink s n x).errlog = s.errlog := rfl
@[simp] theorem setLink_hallmark (n : Nat) (x : Link) : (setLink s n x).hallmark = s.hallmark := rfl
@[simp] theorem setLink_sec (n : Nat) (x : Link) : (setLink s n x).sec = s.sec := rfl
@[simp] theorem setLink_flacons (n : Nat) (x : Link) : (setLink s n x).flacons = s.flacons := rfl
@[simp] theorem setLink_keys (n : Nat) (x : Link) : (setLink s n x).keys = s.keys := rfl
@[simp] theorem setLink_epochs (n : Nat) (x : Link) : (setLink s n x).epochs = s.epochs := rfl
@[simp] theorem setLink_seals (n : Nat) (x : Link) : (setLink s n x).seals = s.seals := rfl
@[simp] theorem setLink_engines (n : Nat) (x : Link) : (setLink s n x).engines = s.engines := rfl
@[simp] theorem setLink_colls (n : Nat) (x : Link) : (setLink s n x).colls = s.colls := rfl
@[simp] theorem setLink_routes (n : Nat) (x : Link) : (setLink s n x).routes = s.routes := rfl
@[simp] theorem setLink_forwards (n : Nat) (x : Link) : (setLink s n x).forwards = s.forwards := rfl
@[simp] theorem setLink_msix (n : Nat) (x : Link) : (setLink s n x).msix = s.msix := rfl
@[simp] theorem setLink_aer (n : Nat) (x : Link) : (setLink s n x).aer = s.aer := rfl
@[simp] theorem setLink_hung (n : Nat) (x : Link) : (setLink s n x).hung = s.hung := rfl
@[simp] theorem setLink_booted (n : Nat) (x : Link) : (setLink s n x).booted = s.booted := rfl
@[simp] theorem setLink_agenda (n : Nat) (x : Link) : (setLink s n x).agenda = s.agenda := rfl
@[simp] theorem setLink_focus (n : Nat) (x : Link) : (setLink s n x).focus = s.focus := rfl
@[simp] theorem setLink_cur (n : Nat) (x : Link) : (setLink s n x).cur = s.cur := rfl
@[simp] theorem setLink_laneLimit (n : Nat) (x : Link) : (setLink s n x).laneLimit = s.laneLimit := rfl
@[simp] theorem setLink_storeLate (n : Nat) (x : Link) : (setLink s n x).storeLate = s.storeLate := rfl
@[simp] theorem setLink_free (n : Nat) (x : Link) : (setLink s n x).free = s.free := rfl
@[simp] theorem setLink_posted (n : Nat) (x : Link) : (setLink s n x).posted = s.posted := rfl
@[simp] theorem setLink_outbox (n : Nat) (x : Link) : (setLink s n x).outbox = s.outbox := rfl

@[simp] theorem setEngine_harts (n : Nat) (x : Engine) : (setEngine s n x).harts = s.harts := rfl
@[simp] theorem setEngine_cores (n : Nat) (x : Engine) : (setEngine s n x).cores = s.cores := rfl
@[simp] theorem setEngine_clusters (n : Nat) (x : Engine) : (setEngine s n x).clusters = s.clusters := rfl
@[simp] theorem setEngine_mem (n : Nat) (x : Engine) : (setEngine s n x).mem = s.mem := rfl
@[simp] theorem setEngine_tlb (n : Nat) (x : Engine) : (setEngine s n x).tlb = s.tlb := rfl
@[simp] theorem setEngine_vis (n : Nat) (x : Engine) : (setEngine s n x).vis = s.vis := rfl
@[simp] theorem setEngine_frames (n : Nat) (x : Engine) : (setEngine s n x).frames = s.frames := rfl
@[simp] theorem setEngine_migration (n : Nat) (x : Engine) : (setEngine s n x).migration = s.migration := rfl
@[simp] theorem setEngine_queues (n : Nat) (x : Engine) : (setEngine s n x).queues = s.queues := rfl
@[simp] theorem setEngine_teams (n : Nat) (x : Engine) : (setEngine s n x).teams = s.teams := rfl
@[simp] theorem setEngine_rrQueue (n : Nat) (x : Engine) : (setEngine s n x).rrQueue = s.rrQueue := rfl
@[simp] theorem setEngine_schedRunning (n : Nat) (x : Engine) : (setEngine s n x).schedRunning = s.schedRunning := rfl
@[simp] theorem setEngine_standbyActive (n : Nat) (x : Engine) : (setEngine s n x).standbyActive = s.standbyActive := rfl
@[simp] theorem setEngine_takeover (n : Nat) (x : Engine) : (setEngine s n x).takeover = s.takeover := rfl
@[simp] theorem setEngine_pt (n : Nat) (x : Engine) : (setEngine s n x).pt = s.pt := rfl
@[simp] theorem setEngine_calendar (n : Nat) (x : Engine) : (setEngine s n x).calendar = s.calendar := rfl
@[simp] theorem setEngine_power (n : Nat) (x : Engine) : (setEngine s n x).power = s.power := rfl
@[simp] theorem setEngine_resetPage (n : Nat) (x : Engine) : (setEngine s n x).resetPage = s.resetPage := rfl
@[simp] theorem setEngine_errlog (n : Nat) (x : Engine) : (setEngine s n x).errlog = s.errlog := rfl
@[simp] theorem setEngine_hallmark (n : Nat) (x : Engine) : (setEngine s n x).hallmark = s.hallmark := rfl
@[simp] theorem setEngine_sec (n : Nat) (x : Engine) : (setEngine s n x).sec = s.sec := rfl
@[simp] theorem setEngine_flacons (n : Nat) (x : Engine) : (setEngine s n x).flacons = s.flacons := rfl
@[simp] theorem setEngine_keys (n : Nat) (x : Engine) : (setEngine s n x).keys = s.keys := rfl
@[simp] theorem setEngine_epochs (n : Nat) (x : Engine) : (setEngine s n x).epochs = s.epochs := rfl
@[simp] theorem setEngine_seals (n : Nat) (x : Engine) : (setEngine s n x).seals = s.seals := rfl
@[simp] theorem setEngine_links (n : Nat) (x : Engine) : (setEngine s n x).links = s.links := rfl
@[simp] theorem setEngine_colls (n : Nat) (x : Engine) : (setEngine s n x).colls = s.colls := rfl
@[simp] theorem setEngine_routes (n : Nat) (x : Engine) : (setEngine s n x).routes = s.routes := rfl
@[simp] theorem setEngine_forwards (n : Nat) (x : Engine) : (setEngine s n x).forwards = s.forwards := rfl
@[simp] theorem setEngine_msix (n : Nat) (x : Engine) : (setEngine s n x).msix = s.msix := rfl
@[simp] theorem setEngine_aer (n : Nat) (x : Engine) : (setEngine s n x).aer = s.aer := rfl
@[simp] theorem setEngine_hung (n : Nat) (x : Engine) : (setEngine s n x).hung = s.hung := rfl
@[simp] theorem setEngine_booted (n : Nat) (x : Engine) : (setEngine s n x).booted = s.booted := rfl
@[simp] theorem setEngine_agenda (n : Nat) (x : Engine) : (setEngine s n x).agenda = s.agenda := rfl
@[simp] theorem setEngine_focus (n : Nat) (x : Engine) : (setEngine s n x).focus = s.focus := rfl
@[simp] theorem setEngine_cur (n : Nat) (x : Engine) : (setEngine s n x).cur = s.cur := rfl
@[simp] theorem setEngine_laneLimit (n : Nat) (x : Engine) : (setEngine s n x).laneLimit = s.laneLimit := rfl
@[simp] theorem setEngine_storeLate (n : Nat) (x : Engine) : (setEngine s n x).storeLate = s.storeLate := rfl
@[simp] theorem setEngine_free (n : Nat) (x : Engine) : (setEngine s n x).free = s.free := rfl
@[simp] theorem setEngine_posted (n : Nat) (x : Engine) : (setEngine s n x).posted = s.posted := rfl
@[simp] theorem setEngine_outbox (n : Nat) (x : Engine) : (setEngine s n x).outbox = s.outbox := rfl

/-! ### A hart -/

variable (h : Hart)

@[simp] theorem nextPc_ctl (n : Nat) : (nextPc h n).ctl = h.ctl := rfl
@[simp] theorem nextPc_sregs (n : Nat) : (nextPc h n).sregs = h.sregs := rfl
@[simp] theorem nextPc_vregs (n : Nat) : (nextPc h n).vregs = h.vregs := rfl
@[simp] theorem nextPc_tags (n : Nat) : (nextPc h n).tags = h.tags := rfl
@[simp] theorem nextPc_masks (n : Nat) : (nextPc h n).masks = h.masks := rfl
@[simp] theorem nextPc_vl (n : Nat) : (nextPc h n).vl = h.vl := rfl
@[simp] theorem nextPc_rows (n : Nat) : (nextPc h n).rows = h.rows := rfl
@[simp] theorem nextPc_vstart (n : Nat) : (nextPc h n).vstart = h.vstart := rfl
@[simp] theorem nextPc_rstate (n : Nat) : (nextPc h n).rstate = h.rstate := rfl
@[simp] theorem nextPc_kprog (n : Nat) : (nextPc h n).kprog = h.kprog := rfl
@[simp] theorem nextPc_vxsr (n : Nat) : (nextPc h n).vxsr = h.vxsr := rfl
@[simp] theorem nextPc_rct (n : Nat) : (nextPc h n).rct = h.rct := rfl
@[simp] theorem nextPc_ict (n : Nat) : (nextPc h n).ict = h.ict := rfl
@[simp] theorem nextPc_own (n : Nat) : (nextPc h n).own = h.own := rfl
@[simp] theorem nextPc_emitseq (n : Nat) : (nextPc h n).emitseq = h.emitseq := rfl
@[simp] theorem nextPc_bypth (n : Nat) : (nextPc h n).bypth = h.bypth := rfl
@[simp] theorem nextPc_trapsink (n : Nat) : (nextPc h n).trapsink = h.trapsink := rfl
@[simp] theorem nextPc_ept (n : Nat) : (nextPc h n).ept = h.ept := rfl
@[simp] theorem nextPc_shape (n : Nat) : (nextPc h n).shape = h.shape := rfl
@[simp] theorem nextPc_queue (n : Nat) : (nextPc h n).queue = h.queue := rfl
@[simp] theorem nextPc_conv (n : Nat) : (nextPc h n).conv = h.conv := rfl
@[simp] theorem nextPc_lq0 (n : Nat) : (nextPc h n).lq0 = h.lq0 := rfl
@[simp] theorem nextPc_lq1 (n : Nat) : (nextPc h n).lq1 = h.lq1 := rfl
@[simp] theorem nextPc_rq (n : Nat) : (nextPc h n).rq = h.rq := rfl
@[simp] theorem nextPc_rqHeld (n : Nat) : (nextPc h n).rqHeld = h.rqHeld := rfl
@[simp] theorem nextPc_dirty (n : Nat) : (nextPc h n).dirty = h.dirty := rfl
@[simp] theorem nextPc_vstate (n : Nat) : (nextPc h n).vstate = h.vstate := rfl
@[simp] theorem nextPc_trapRec (n : Nat) : (nextPc h n).trapRec = h.trapRec := rfl
@[simp] theorem nextPc_trapCount (n : Nat) : (nextPc h n).trapCount = h.trapCount := rfl
@[simp] theorem nextPc_pending (n : Nat) : (nextPc h n).pending = h.pending := rfl
@[simp] theorem nextPc_windows (n : Nat) : (nextPc h n).windows = h.windows := rfl
@[simp] theorem nextPc_root (n : Nat) : (nextPc h n).root = h.root := rfl
@[simp] theorem nextPc_newWindows (n : Nat) : (nextPc h n).newWindows = h.newWindows := rfl
@[simp] theorem nextPc_newRoot (n : Nat) : (nextPc h n).newRoot = h.newRoot := rfl
@[simp] theorem nextPc_saveptr (n : Nat) : (nextPc h n).saveptr = h.saveptr := rfl
@[simp] theorem nextPc_saveStatus (n : Nat) : (nextPc h n).saveStatus = h.saveStatus := rfl
@[simp] theorem nextPc_saveJob (n : Nat) : (nextPc h n).saveJob = h.saveJob := rfl
@[simp] theorem nextPc_lastArea (n : Nat) : (nextPc h n).lastArea = h.lastArea := rfl
@[simp] theorem nextPc_reclaim (n : Nat) : (nextPc h n).reclaim = h.reclaim := rfl
@[simp] theorem nextPc_vi (n : Nat) : (nextPc h n).vi = h.vi := rfl
@[simp] theorem nextPc_team (n : Nat) : (nextPc h n).team = h.team := rfl
@[simp] theorem nextPc_rank (n : Nat) : (nextPc h n).rank = h.rank := rfl
@[simp] theorem nextPc_farmGen (n : Nat) : (nextPc h n).farmGen = h.farmGen := rfl
@[simp] theorem nextPc_parent (n : Nat) : (nextPc h n).parent = h.parent := rfl
@[simp] theorem nextPc_awaitJoin (n : Nat) : (nextPc h n).awaitJoin = h.awaitJoin := rfl
@[simp] theorem nextPc_barCount (n : Nat) : (nextPc h n).barCount = h.barCount := rfl
@[simp] theorem nextPc_barArrived (n : Nat) : (nextPc h n).barArrived = h.barArrived := rfl
@[simp] theorem nextPc_wc (n : Nat) : (nextPc h n).wc = h.wc := rfl
@[simp] theorem nextPc_images (n : Nat) : (nextPc h n).images = h.images := rfl
@[simp] theorem nextPc_wait (n : Nat) : (nextPc h n).wait = h.wait := rfl
@[simp] theorem nextPc_genStopped (n : Nat) : (nextPc h n).genStopped = h.genStopped := rfl
@[simp] theorem nextPc_gcount (n : Nat) : (nextPc h n).gcount = h.gcount := rfl
@[simp] theorem nextPc_qStopped (n : Nat) : (nextPc h n).qStopped = h.qStopped := rfl
@[simp] theorem nextPc_timer (n : Nat) : (nextPc h n).timer = h.timer := rfl
@[simp] theorem nextPc_inWindow (n : Nat) : (nextPc h n).inWindow = h.inWindow := rfl
@[simp] theorem nextPc_pc (n : Nat) : (nextPc h n).pc = h.pc + BitVec.ofNat 64 n := rfl
@[simp] theorem nextPc_stalled (n : Nat) : (nextPc h n).stalled = false := rfl

@[simp] theorem wr_ctl (r : Reg) (v : Word) : (wr h r v).ctl = h.ctl := by unfold wr; split <;> rfl
@[simp] theorem wr_pc (r : Reg) (v : Word) : (wr h r v).pc = h.pc := by unfold wr; split <;> rfl
@[simp] theorem wr_vregs (r : Reg) (v : Word) : (wr h r v).vregs = h.vregs := by unfold wr; split <;> rfl
@[simp] theorem wr_tags (r : Reg) (v : Word) : (wr h r v).tags = h.tags := by unfold wr; split <;> rfl
@[simp] theorem wr_masks (r : Reg) (v : Word) : (wr h r v).masks = h.masks := by unfold wr; split <;> rfl
@[simp] theorem wr_vl (r : Reg) (v : Word) : (wr h r v).vl = h.vl := by unfold wr; split <;> rfl
@[simp] theorem wr_rows (r : Reg) (v : Word) : (wr h r v).rows = h.rows := by unfold wr; split <;> rfl
@[simp] theorem wr_vstart (r : Reg) (v : Word) : (wr h r v).vstart = h.vstart := by unfold wr; split <;> rfl
@[simp] theorem wr_rstate (r : Reg) (v : Word) : (wr h r v).rstate = h.rstate := by unfold wr; split <;> rfl
@[simp] theorem wr_kprog (r : Reg) (v : Word) : (wr h r v).kprog = h.kprog := by unfold wr; split <;> rfl
@[simp] theorem wr_vxsr (r : Reg) (v : Word) : (wr h r v).vxsr = h.vxsr := by unfold wr; split <;> rfl
@[simp] theorem wr_rct (r : Reg) (v : Word) : (wr h r v).rct = h.rct := by unfold wr; split <;> rfl
@[simp] theorem wr_ict (r : Reg) (v : Word) : (wr h r v).ict = h.ict := by unfold wr; split <;> rfl
@[simp] theorem wr_own (r : Reg) (v : Word) : (wr h r v).own = h.own := by unfold wr; split <;> rfl
@[simp] theorem wr_emitseq (r : Reg) (v : Word) : (wr h r v).emitseq = h.emitseq := by unfold wr; split <;> rfl
@[simp] theorem wr_bypth (r : Reg) (v : Word) : (wr h r v).bypth = h.bypth := by unfold wr; split <;> rfl
@[simp] theorem wr_trapsink (r : Reg) (v : Word) : (wr h r v).trapsink = h.trapsink := by unfold wr; split <;> rfl
@[simp] theorem wr_ept (r : Reg) (v : Word) : (wr h r v).ept = h.ept := by unfold wr; split <;> rfl
@[simp] theorem wr_shape (r : Reg) (v : Word) : (wr h r v).shape = h.shape := by unfold wr; split <;> rfl
@[simp] theorem wr_queue (r : Reg) (v : Word) : (wr h r v).queue = h.queue := by unfold wr; split <;> rfl
@[simp] theorem wr_conv (r : Reg) (v : Word) : (wr h r v).conv = h.conv := by unfold wr; split <;> rfl
@[simp] theorem wr_lq0 (r : Reg) (v : Word) : (wr h r v).lq0 = h.lq0 := by unfold wr; split <;> rfl
@[simp] theorem wr_lq1 (r : Reg) (v : Word) : (wr h r v).lq1 = h.lq1 := by unfold wr; split <;> rfl
@[simp] theorem wr_rq (r : Reg) (v : Word) : (wr h r v).rq = h.rq := by unfold wr; split <;> rfl
@[simp] theorem wr_rqHeld (r : Reg) (v : Word) : (wr h r v).rqHeld = h.rqHeld := by unfold wr; split <;> rfl
@[simp] theorem wr_dirty (r : Reg) (v : Word) : (wr h r v).dirty = h.dirty := by unfold wr; split <;> rfl
@[simp] theorem wr_vstate (r : Reg) (v : Word) : (wr h r v).vstate = h.vstate := by unfold wr; split <;> rfl
@[simp] theorem wr_trapRec (r : Reg) (v : Word) : (wr h r v).trapRec = h.trapRec := by unfold wr; split <;> rfl
@[simp] theorem wr_trapCount (r : Reg) (v : Word) : (wr h r v).trapCount = h.trapCount := by unfold wr; split <;> rfl
@[simp] theorem wr_pending (r : Reg) (v : Word) : (wr h r v).pending = h.pending := by unfold wr; split <;> rfl
@[simp] theorem wr_windows (r : Reg) (v : Word) : (wr h r v).windows = h.windows := by unfold wr; split <;> rfl
@[simp] theorem wr_root (r : Reg) (v : Word) : (wr h r v).root = h.root := by unfold wr; split <;> rfl
@[simp] theorem wr_newWindows (r : Reg) (v : Word) : (wr h r v).newWindows = h.newWindows := by unfold wr; split <;> rfl
@[simp] theorem wr_newRoot (r : Reg) (v : Word) : (wr h r v).newRoot = h.newRoot := by unfold wr; split <;> rfl
@[simp] theorem wr_saveptr (r : Reg) (v : Word) : (wr h r v).saveptr = h.saveptr := by unfold wr; split <;> rfl
@[simp] theorem wr_saveStatus (r : Reg) (v : Word) : (wr h r v).saveStatus = h.saveStatus := by unfold wr; split <;> rfl
@[simp] theorem wr_saveJob (r : Reg) (v : Word) : (wr h r v).saveJob = h.saveJob := by unfold wr; split <;> rfl
@[simp] theorem wr_lastArea (r : Reg) (v : Word) : (wr h r v).lastArea = h.lastArea := by unfold wr; split <;> rfl
@[simp] theorem wr_reclaim (r : Reg) (v : Word) : (wr h r v).reclaim = h.reclaim := by unfold wr; split <;> rfl
@[simp] theorem wr_vi (r : Reg) (v : Word) : (wr h r v).vi = h.vi := by unfold wr; split <;> rfl
@[simp] theorem wr_team (r : Reg) (v : Word) : (wr h r v).team = h.team := by unfold wr; split <;> rfl
@[simp] theorem wr_rank (r : Reg) (v : Word) : (wr h r v).rank = h.rank := by unfold wr; split <;> rfl
@[simp] theorem wr_farmGen (r : Reg) (v : Word) : (wr h r v).farmGen = h.farmGen := by unfold wr; split <;> rfl
@[simp] theorem wr_parent (r : Reg) (v : Word) : (wr h r v).parent = h.parent := by unfold wr; split <;> rfl
@[simp] theorem wr_awaitJoin (r : Reg) (v : Word) : (wr h r v).awaitJoin = h.awaitJoin := by unfold wr; split <;> rfl
@[simp] theorem wr_barCount (r : Reg) (v : Word) : (wr h r v).barCount = h.barCount := by unfold wr; split <;> rfl
@[simp] theorem wr_barArrived (r : Reg) (v : Word) : (wr h r v).barArrived = h.barArrived := by unfold wr; split <;> rfl
@[simp] theorem wr_wc (r : Reg) (v : Word) : (wr h r v).wc = h.wc := by unfold wr; split <;> rfl
@[simp] theorem wr_images (r : Reg) (v : Word) : (wr h r v).images = h.images := by unfold wr; split <;> rfl
@[simp] theorem wr_wait (r : Reg) (v : Word) : (wr h r v).wait = h.wait := by unfold wr; split <;> rfl
@[simp] theorem wr_stalled (r : Reg) (v : Word) : (wr h r v).stalled = h.stalled := by unfold wr; split <;> rfl
@[simp] theorem wr_genStopped (r : Reg) (v : Word) : (wr h r v).genStopped = h.genStopped := by unfold wr; split <;> rfl
@[simp] theorem wr_gcount (r : Reg) (v : Word) : (wr h r v).gcount = h.gcount := by unfold wr; split <;> rfl
@[simp] theorem wr_qStopped (r : Reg) (v : Word) : (wr h r v).qStopped = h.qStopped := by unfold wr; split <;> rfl
@[simp] theorem wr_timer (r : Reg) (v : Word) : (wr h r v).timer = h.timer := by unfold wr; split <;> rfl
@[simp] theorem wr_inWindow (r : Reg) (v : Word) : (wr h r v).inWindow = h.inWindow := by unfold wr; split <;> rfl

@[simp] theorem orFlags_ctl (f : BitVec 8) : (orFlags h f).ctl = h.ctl := rfl
@[simp] theorem orFlags_pc (f : BitVec 8) : (orFlags h f).pc = h.pc := rfl
@[simp] theorem orFlags_sregs (f : BitVec 8) : (orFlags h f).sregs = h.sregs := rfl
@[simp] theorem orFlags_vregs (f : BitVec 8) : (orFlags h f).vregs = h.vregs := rfl
@[simp] theorem orFlags_tags (f : BitVec 8) : (orFlags h f).tags = h.tags := rfl
@[simp] theorem orFlags_masks (f : BitVec 8) : (orFlags h f).masks = h.masks := rfl
@[simp] theorem orFlags_vl (f : BitVec 8) : (orFlags h f).vl = h.vl := rfl
@[simp] theorem orFlags_rows (f : BitVec 8) : (orFlags h f).rows = h.rows := rfl
@[simp] theorem orFlags_vstart (f : BitVec 8) : (orFlags h f).vstart = h.vstart := rfl
@[simp] theorem orFlags_rstate (f : BitVec 8) : (orFlags h f).rstate = h.rstate := rfl
@[simp] theorem orFlags_kprog (f : BitVec 8) : (orFlags h f).kprog = h.kprog := rfl
@[simp] theorem orFlags_rct (f : BitVec 8) : (orFlags h f).rct = h.rct := rfl
@[simp] theorem orFlags_ict (f : BitVec 8) : (orFlags h f).ict = h.ict := rfl
@[simp] theorem orFlags_own (f : BitVec 8) : (orFlags h f).own = h.own := rfl
@[simp] theorem orFlags_emitseq (f : BitVec 8) : (orFlags h f).emitseq = h.emitseq := rfl
@[simp] theorem orFlags_bypth (f : BitVec 8) : (orFlags h f).bypth = h.bypth := rfl
@[simp] theorem orFlags_trapsink (f : BitVec 8) : (orFlags h f).trapsink = h.trapsink := rfl
@[simp] theorem orFlags_ept (f : BitVec 8) : (orFlags h f).ept = h.ept := rfl
@[simp] theorem orFlags_shape (f : BitVec 8) : (orFlags h f).shape = h.shape := rfl
@[simp] theorem orFlags_queue (f : BitVec 8) : (orFlags h f).queue = h.queue := rfl
@[simp] theorem orFlags_conv (f : BitVec 8) : (orFlags h f).conv = h.conv := rfl
@[simp] theorem orFlags_lq0 (f : BitVec 8) : (orFlags h f).lq0 = h.lq0 := rfl
@[simp] theorem orFlags_lq1 (f : BitVec 8) : (orFlags h f).lq1 = h.lq1 := rfl
@[simp] theorem orFlags_rq (f : BitVec 8) : (orFlags h f).rq = h.rq := rfl
@[simp] theorem orFlags_rqHeld (f : BitVec 8) : (orFlags h f).rqHeld = h.rqHeld := rfl
@[simp] theorem orFlags_dirty (f : BitVec 8) : (orFlags h f).dirty = h.dirty := rfl
@[simp] theorem orFlags_vstate (f : BitVec 8) : (orFlags h f).vstate = h.vstate := rfl
@[simp] theorem orFlags_trapRec (f : BitVec 8) : (orFlags h f).trapRec = h.trapRec := rfl
@[simp] theorem orFlags_trapCount (f : BitVec 8) : (orFlags h f).trapCount = h.trapCount := rfl
@[simp] theorem orFlags_pending (f : BitVec 8) : (orFlags h f).pending = h.pending := rfl
@[simp] theorem orFlags_windows (f : BitVec 8) : (orFlags h f).windows = h.windows := rfl
@[simp] theorem orFlags_root (f : BitVec 8) : (orFlags h f).root = h.root := rfl
@[simp] theorem orFlags_newWindows (f : BitVec 8) : (orFlags h f).newWindows = h.newWindows := rfl
@[simp] theorem orFlags_newRoot (f : BitVec 8) : (orFlags h f).newRoot = h.newRoot := rfl
@[simp] theorem orFlags_saveptr (f : BitVec 8) : (orFlags h f).saveptr = h.saveptr := rfl
@[simp] theorem orFlags_saveStatus (f : BitVec 8) : (orFlags h f).saveStatus = h.saveStatus := rfl
@[simp] theorem orFlags_saveJob (f : BitVec 8) : (orFlags h f).saveJob = h.saveJob := rfl
@[simp] theorem orFlags_lastArea (f : BitVec 8) : (orFlags h f).lastArea = h.lastArea := rfl
@[simp] theorem orFlags_reclaim (f : BitVec 8) : (orFlags h f).reclaim = h.reclaim := rfl
@[simp] theorem orFlags_vi (f : BitVec 8) : (orFlags h f).vi = h.vi := rfl
@[simp] theorem orFlags_team (f : BitVec 8) : (orFlags h f).team = h.team := rfl
@[simp] theorem orFlags_rank (f : BitVec 8) : (orFlags h f).rank = h.rank := rfl
@[simp] theorem orFlags_farmGen (f : BitVec 8) : (orFlags h f).farmGen = h.farmGen := rfl
@[simp] theorem orFlags_parent (f : BitVec 8) : (orFlags h f).parent = h.parent := rfl
@[simp] theorem orFlags_awaitJoin (f : BitVec 8) : (orFlags h f).awaitJoin = h.awaitJoin := rfl
@[simp] theorem orFlags_barCount (f : BitVec 8) : (orFlags h f).barCount = h.barCount := rfl
@[simp] theorem orFlags_barArrived (f : BitVec 8) : (orFlags h f).barArrived = h.barArrived := rfl
@[simp] theorem orFlags_wc (f : BitVec 8) : (orFlags h f).wc = h.wc := rfl
@[simp] theorem orFlags_images (f : BitVec 8) : (orFlags h f).images = h.images := rfl
@[simp] theorem orFlags_wait (f : BitVec 8) : (orFlags h f).wait = h.wait := rfl
@[simp] theorem orFlags_stalled (f : BitVec 8) : (orFlags h f).stalled = h.stalled := rfl
@[simp] theorem orFlags_genStopped (f : BitVec 8) : (orFlags h f).genStopped = h.genStopped := rfl
@[simp] theorem orFlags_gcount (f : BitVec 8) : (orFlags h f).gcount = h.gcount := rfl
@[simp] theorem orFlags_qStopped (f : BitVec 8) : (orFlags h f).qStopped = h.qStopped := rfl
@[simp] theorem orFlags_timer (f : BitVec 8) : (orFlags h f).timer = h.timer := rfl
@[simp] theorem orFlags_inWindow (f : BitVec 8) : (orFlags h f).inWindow = h.inWindow := rfl
@[simp] theorem orFlags_vxsr (f : BitVec 8) : (orFlags h f).vxsr = h.vxsr ||| f := rfl

end Sys2Proof.Laws
end

