-- ==== Sys2Proof/Laws/Tables.lean ====
section
/-! SUPPORT. Sparse tables: what is read after a write, and registers and units read after an update. -/

namespace Sys2Proof.Laws

open Sys2Proof.Machine

/-- A table read after a write: the value at its key, everything else as before. -/
theorem fmGet_fmSet {α : Type} (m : FMap α) (d : α) (k j : Nat) (v : α) :
    fmGet (fmSet m k v) d j = if k = j then v else fmGet m d j := by
  induction m with
  | nil => simp [fmSet, fmGet]
  | cons x rest ih =>
    obtain ⟨i, w⟩ := x
    simp only [fmSet]
    split
    · simp only [fmGet]
      by_cases hk : k = j
      · simp [hk]
      · simp only [hk, if_false]
        split
        · rw [if_neg (by omega), if_pos (by omega)]
        · rfl
    · split
      · subst i
        simp only [fmGet]
        by_cases hk : k = j <;> simp [hk]
      · simp only [fmGet]
        by_cases hk : k = j
        · subst j
          rw [if_neg (by omega), if_neg (by omega), ih, if_pos rfl, if_pos rfl]
        · rw [ih, if_neg hk, if_neg hk]

@[simp] theorem hartAt_setHart (s : State) (n k : Nat) (h : Hart) :
    hartAt (setHart s n h) k = if n = k then h else hartAt s k := fmGet_fmSet ..
@[simp] theorem coreAt_setCore (s : State) (n k : Nat) (x : CoreSt) :
    coreAt (setCore s n x) k = if n = k then x else coreAt s k := fmGet_fmSet ..
@[simp] theorem clusterAt_setCluster (s : State) (n k : Nat) (x : ClusterSt) :
    clusterAt (setCluster s n x) k = if n = k then x else clusterAt s k := fmGet_fmSet ..
@[simp] theorem queueAt_setQueue (s : State) (n k : Nat) (x : QueueSt) :
    queueAt (setQueue s n x) k = if n = k then x else queueAt s k := fmGet_fmSet ..
@[simp] theorem teamAt_setTeam (s : State) (n k : Nat) (x : TeamSt) :
    teamAt (setTeam s n x) k = if n = k then x else teamAt s k := fmGet_fmSet ..
@[simp] theorem viAt_setVi (s : State) (n k : Nat) (x : ViSt) :
    viAt (setVi s n x) k = if n = k then x else viAt s k := fmGet_fmSet ..
@[simp] theorem flaconAt_setFlacon (s : State) (n k : Nat) (x : Flacon) :
    flaconAt (setFlacon s n x) k = if n = k then x else flaconAt s k := fmGet_fmSet ..
@[simp] theorem keyAt_setKey (s : State) (n k : Nat) (x : KeySlot) :
    keyAt (setKey s n x) k = if n = k then x else keyAt s k := fmGet_fmSet ..
@[simp] theorem linkAt_setLink (s : State) (n k : Nat) (x : Link) :
    linkAt (setLink s n x) k = if n = k then x else linkAt s k := fmGet_fmSet ..
@[simp] theorem engineAt_setEngine (s : State) (n k : Nat) (x : Engine) :
    engineAt (setEngine s n x) k = if n = k then x else engineAt s k := fmGet_fmSet ..

@[simp] theorem curHart_setCur (s : State) (h : Hart) : curHart (setCur s h) = h := by
  simp [curHart, setCur, hartAt, setHart, fmGet_fmSet]

/-! ### Scalar registers (R13) -/

@[simp] theorem rd_zero (h : Hart) : rd h 0 = 0 := rfl

theorem rd_of_ne (h : Hart) (r : Reg) (hr : r ≠ 0) : rd h r = h.sregs[r.toNat]'(r.isLt) := if_neg hr

theorem wr_of_ne (h : Hart) (d : Reg) (v : Word) (hd : d ≠ 0) :
    wr h d v = { h with sregs := h.sregs.set d.toNat v d.isLt } := if_neg hd

/-- A register read after a write: the value, but for s0, which discards it. -/
theorem rd_wr (h : Hart) (d r : Reg) (v : Word) : rd (wr h d v) r = if r = d ∧ d ≠ 0 then v else rd h r := by
  by_cases hd : d = 0
  · rw [if_neg (fun e : r = d ∧ d ≠ 0 => e.2 hd), show wr h d v = h from if_pos hd]
  · by_cases hr : r = 0
    · rw [if_neg (fun e : r = d ∧ d ≠ 0 => hd (e.1 ▸ hr)), hr]
      rfl
    · rw [wr_of_ne h d v hd, rd_of_ne _ r hr, rd_of_ne _ r hr]
      by_cases hrd : r = d
      · subst hrd
        rw [if_pos ⟨rfl, hd⟩]
        exact Vector.getElem_set_self (hi := r.isLt)
      · have : d.toNat ≠ r.toNat := fun e => hrd (BitVec.eq_of_toNat_eq e.symm)
        rw [if_neg (fun e : r = d ∧ d ≠ 0 => hrd e.1)]
        exact Vector.getElem_set_ne (hi := d.isLt) (hj := r.isLt) this

@[simp] theorem rd_nextPc (h : Hart) (n : Nat) (r : Reg) : rd (nextPc h n) r = rd h r := rfl
@[simp] theorem rd_orFlags (h : Hart) (f : BitVec 8) (r : Reg) : rd (orFlags h f) r = rd h r := rfl

end Sys2Proof.Laws
end

