-- ==== Sys2Proof/Laws/Memory.lean ====
section
/-! SUPPORT. Memory: every operation keeps the canonical form, and what is read after a write. -/

namespace Sys2Proof.Laws

open Sys2Proof.Machine

/-! ### The canonical form -/

section Tables

variable {α : Type} [DecidableEq α] {zero : α}

theorem tableFrom_mono {b : FMap α} {lo hi : Nat} (h : lo ≤ hi) (w : tableFrom zero hi b = true) : tableFrom zero lo b = true := by
  cases b with
  | nil => rfl
  | cons x rest =>
    simp only [tableFrom, Bool.and_eq_true, decide_eq_true_eq] at w ⊢
    exact ⟨⟨by omega, w.1.2⟩, w.2⟩

theorem fmSet_from {b : FMap α} {lo a : Nat} {v : α} (hv : v ≠ zero) (hl : lo ≤ a) (w : tableFrom zero lo b = true) :
    tableFrom zero lo (fmSet b a v) = true := by
  induction b generalizing lo with
  | nil => simpa [fmSet, tableFrom, hl] using hv
  | cons x rest ih =>
    obtain ⟨j, u⟩ := x
    simp only [tableFrom, Bool.and_eq_true, decide_eq_true_eq] at w
    simp only [fmSet]
    split
    · simp only [tableFrom, Bool.and_eq_true, decide_eq_true_eq]
      exact ⟨⟨hl, hv⟩, ⟨by omega, w.1.2⟩, w.2⟩
    · split
      · subst j
        simp only [tableFrom, Bool.and_eq_true, decide_eq_true_eq]
        exact ⟨⟨hl, hv⟩, w.2⟩
      · simp only [tableFrom, Bool.and_eq_true, decide_eq_true_eq]
        exact ⟨w.1, ih (by omega) w.2⟩

theorem fmErase_from {b : FMap α} {lo : Nat} (a : Nat) (w : tableFrom zero lo b = true) :
    tableFrom zero lo (fmErase b a) = true := by
  induction b generalizing lo with
  | nil => rfl
  | cons x rest ih =>
    obtain ⟨j, v⟩ := x
    simp only [tableFrom, Bool.and_eq_true, decide_eq_true_eq] at w
    simp only [fmErase]
    split
    · exact tableFrom_mono (by omega) w.2
    · simp only [tableFrom, Bool.and_eq_true, decide_eq_true_eq]
      exact ⟨w.1, ih w.2⟩

/-- A table in canonical form without some of its entries is in canonical form. -/
theorem filter_from {b : FMap α} {lo : Nat} (p : Nat × α → Bool) (w : tableFrom zero lo b = true) :
    tableFrom zero lo (b.filter p) = true := by
  induction b generalizing lo with
  | nil => rfl
  | cons x rest ih =>
    obtain ⟨j, v⟩ := x
    simp only [tableFrom, Bool.and_eq_true, decide_eq_true_eq] at w
    rw [List.filter_cons]
    split
    · simp only [tableFrom, Bool.and_eq_true, decide_eq_true_eq]
      exact ⟨w.1, ih w.2⟩
    · exact tableFrom_mono (by omega) (ih w.2)

end Tables

theorem dropByte_from {b : Bytes} {lo : Nat} (a : Nat) (w : tableFrom 0 lo b = true) : tableFrom 0 lo (dropByte b a) = true := by
  induction b generalizing lo with
  | nil => rfl
  | cons x rest ih =>
    obtain ⟨j, v⟩ := x
    simp only [tableFrom, Bool.and_eq_true, decide_eq_true_eq] at w
    simp only [dropByte]
    split
    · simp only [tableFrom, Bool.and_eq_true, decide_eq_true_eq]
      exact w
    · split
      · exact tableFrom_mono (by omega) w.2
      · simp only [tableFrom, Bool.and_eq_true, decide_eq_true_eq]
        exact ⟨w.1, ih w.2⟩

/-- One byte written keeps the canonical form of a byte list. -/
theorem setByte_from {b : Bytes} (a : Nat) (v : Byte) (w : tableFrom 0 0 b = true) : tableFrom 0 0 (setByte b a v) = true := by
  unfold setByte
  split
  · exact dropByte_from a w
  · next hv => exact fmSet_from hv (by omega) w

theorem setBytes_from (l : List Nat) (f : Nat → Nat) (g : Nat → Byte) {b : Bytes} (w : tableFrom 0 0 b = true) :
    tableFrom 0 0 (l.foldl (fun c i => setByte c (f i) (g i)) b) = true := by
  induction l generalizing b with
  | nil => exact w
  | cons i rest ih => exact ih (setByte_from _ _ w)

/-- Every cached line is 128 bytes. -/
def wholeLines (l : FMap HostLine) : Prop := ∀ x ∈ l, x.2.data.length = 128

theorem wf_iff {m : Memory} :
    m.wf = true ↔ tableFrom 0 0 m.cells = true ∧ tableFrom 0 0 m.locks = true ∧ tableFrom 0 0 m.dirty = true ∧ wholeLines m.lines := by
  simp [Memory.wf, and_assoc, wholeLines]

theorem wholeLines_set {l : FMap HostLine} (k : Nat) (x : HostLine) (w : wholeLines l) (hx : x.data.length = 128) :
    wholeLines (fmSet l k x) := by
  induction l with
  | nil => intro y hy; simp only [fmSet, List.mem_singleton] at hy; rw [hy]; exact hx
  | cons y rest ih =>
    obtain ⟨j, v⟩ := y
    have wr : wholeLines rest := fun z hz => w z (List.mem_cons_of_mem _ hz)
    have wv : v.data.length = 128 := w (j, v) (List.mem_cons_self ..)
    intro z hz
    simp only [fmSet] at hz
    split at hz
    · rcases List.mem_cons.1 hz with h | h
      · rw [h]; exact hx
      · exact w z h
    · split at hz
      · rcases List.mem_cons.1 hz with h | h
        · rw [h]; exact hx
        · exact wr z h
      · rcases List.mem_cons.1 hz with h | h
        · rw [h]; exact wv
        · exact ih wr z h

theorem wholeLines_erase {l : FMap HostLine} (k : Nat) (w : wholeLines l) : wholeLines (fmErase l k) := by
  induction l with
  | nil => exact w
  | cons y rest ih =>
    obtain ⟨j, v⟩ := y
    have wr : wholeLines rest := fun z hz => w z (List.mem_cons_of_mem _ hz)
    simp only [fmErase]
    split
    · exact wr
    · intro z hz
      rcases List.mem_cons.1 hz with h | h
      · exact w z (h ▸ List.mem_cons_self ..)
      · exact ih wr z h

theorem fmFind_mem {α : Type} {l : FMap α} {k : Nat} {x : α} (h : fmFind l k = some x) : ∃ j, (j, x) ∈ l := by
  unfold fmFind at h
  induction l with
  | nil => cases h
  | cons y rest ih =>
    simp only [List.find?_cons] at h
    split at h
    · cases h; exact ⟨y.1, List.mem_cons_self ..⟩
    · obtain ⟨j, hj⟩ := ih h
      exact ⟨j, List.mem_cons_of_mem _ hj⟩

theorem relock_wf {m : Memory} (epoch a : Nat) (w : m.wf = true) : (relock m epoch a).wf = true := by
  unfold relock
  split
  · exact w
  · rw [wf_iff] at w ⊢
    refine ⟨setBytes_from _ _ _ w.1, ?_, w.2.2⟩
    dsimp only
    split
    · exact fmErase_from _ w.2.1
    · next h => exact fmSet_from h (by omega) w.2.1

theorem writeByte_wf {m : Memory} (epoch a : Nat) (v : Byte) (w : m.wf = true) : (writeByte m epoch a v).wf = true :=
  have h := wf_iff.1 (relock_wf epoch a w)
  wf_iff.2 ⟨setByte_from _ _ h.1, h.2⟩

theorem storeBytes_wf {m : Memory} (epoch a : Nat) (bs : List Byte) (w : m.wf = true) : (storeBytes m epoch a bs).wf = true := by
  induction bs generalizing m a with
  | nil => exact w
  | cons b rest ih => exact ih _ (writeByte_wf epoch a b w)

theorem healRange_wf {m : Memory} (a n : Nat) (w : m.wf = true) : (healRange m a n).wf = true := w

theorem writeBytes_wf {m : Memory} (epoch a : Nat) (bs : List Byte) (w : m.wf = true) : (writeBytes m epoch a bs).wf = true :=
  storeBytes_wf epoch a bs w

theorem writeMem_wf {m : Memory} (epoch a n v : Nat) (w : m.wf = true) : (writeMem m epoch a n v).wf = true :=
  writeBytes_wf epoch a _ w

theorem poisonRange_wf {m : Memory} (a n : Nat) (w : m.wf = true) : (poisonRange m a n).wf = true := w

theorem unpoison_wf {m : Memory} (l : List (Nat × Nat)) (w : m.wf = true) : (unpoison m l).wf = true := w

/-! ### Caches -/

theorem devStore_wf {m : Memory} (epoch a : Nat) (bs : List Byte) (w : m.wf = true) : (devStore m epoch a bs).wf = true := by
  induction bs generalizing m a with
  | nil => exact w
  | cons b rest ih =>
    unfold devStore
    dsimp only
    split
    · next l hl =>
      obtain ⟨j, hj⟩ := fmFind_mem hl
      have h := wf_iff.1 w
      exact ih _ (wf_iff.2 ⟨h.1, h.2.1, h.2.2.1, wholeLines_set _ _ h.2.2.2 (by simpa [HostLine.put] using h.2.2.2 _ hj)⟩)
    · exact ih _ (writeByte_wf epoch a b w)

theorem devWrite_wf {m : Memory} (epoch a : Nat) (bs : List Byte) (w : m.wf = true) : (devWrite m epoch a bs).wf = true := by
  unfold devWrite
  split
  · exact healRange_wf _ _ (devStore_wf epoch a bs w)
  · exact writeBytes_wf epoch a bs w

theorem foldl_wf {α : Type} (f : Memory → α → Memory) (hf : ∀ m x, m.wf = true → (f m x).wf = true) (l : List α) {m : Memory}
    (w : m.wf = true) : (l.foldl f m).wf = true := by
  induction l generalizing m with
  | nil => exact w
  | cons x rest ih => exact ih (hf _ _ w)

theorem undirty_wf {m : Memory} (ln : Nat) (w : m.wf = true) : ({ m with dirty := fmErase m.dirty ln } : Memory).wf = true := by
  have h := wf_iff.1 w
  exact wf_iff.2 ⟨h.1, h.2.1, fmErase_from _ h.2.2.1, h.2.2.2⟩

theorem sendLine_wf {m : Memory} (ln : Nat) (l : HostLine) (w : m.wf = true) : (sendLine m ln l).wf = true :=
  foldl_wf _ (fun _ _ => writeByte_wf _ _ _) _ w

theorem cleanLine_wf {m : Memory} (ln : Nat) (w : m.wf = true) : (cleanLine m ln).wf = true := by
  have h := wf_iff.1 (undirty_wf ln w)
  unfold cleanLine
  dsimp only
  split
  · next l hl =>
    obtain ⟨j, hj⟩ := fmFind_mem hl
    have g := wf_iff.1 (sendLine_wf ln l (undirty_wf ln w))
    exact wf_iff.2 ⟨g.1, g.2.1, g.2.2.1, wholeLines_set _ _ h.2.2.2 (h.2.2.2 _ hj)⟩
  · exact undirty_wf ln w

theorem dropLine_wf {m : Memory} (ln : Nat) (w : m.wf = true) : (dropLine m ln).wf = true := by
  have h := wf_iff.1 (cleanLine_wf ln w)
  exact wf_iff.2 ⟨h.1, h.2.1, h.2.2.1, wholeLines_erase _ h.2.2.2⟩

theorem makeRoom_wf {m : Memory} (cluster ln : Nat) (w : m.wf = true) : (makeRoom m cluster ln).wf = true := by
  unfold makeRoom
  dsimp only
  repeat' split
  · exact w
  · exact w
  · exact cleanLine_wf _ w
  · exact w

theorem markLine_wf {m : Memory} (cluster ln : Nat) (w : m.wf = true) : (markLine m cluster ln).wf = true := by
  unfold markLine
  split
  · exact w
  · have h := wf_iff.1 (makeRoom_wf cluster ln w)
    exact wf_iff.2 ⟨h.1, h.2.1, fmSet_from (by omega) (by omega) h.2.2.1, h.2.2.2⟩

theorem markDirty_wf {m : Memory} (cluster a n : Nat) (w : m.wf = true) : (markDirty m cluster a n).wf = true := by
  refine foldl_wf _ (fun m ln h => ?_) _ w
  split
  · exact markLine_wf cluster ln h
  · exact h

theorem fillLine_wf {m : Memory} (ln : Nat) (w : m.wf = true) : (fillLine m ln).wf = true := by
  unfold fillLine
  split
  · exact w
  · have h := wf_iff.1 w
    exact wf_iff.2 ⟨h.1, h.2.1, h.2.2.1, wholeLines_set _ _ h.2.2.2 (by simp [readBytes])⟩

theorem sweepLines_wf {m : Memory} (a n : Nat) (discard : Bool) (w : m.wf = true) : (sweepLines m a n discard).wf = true := by
  refine foldl_wf _ (fun m ln h => ?_) _ w
  split
  · exact dropLine_wf ln h
  · exact cleanLine_wf ln h

theorem cleanAll_wf {m : Memory} (w : m.wf = true) : (cleanAll m).wf = true := foldl_wf _ (fun _ ln => cleanLine_wf ln) _ w

theorem patchLines_wf {m : Memory} (a : Nat) (bs : List Byte) (w : m.wf = true) : (patchLines m a bs).wf = true := by
  induction bs generalizing m a with
  | nil => exact w
  | cons b rest ih =>
    unfold patchLines
    dsimp only
    split
    · next l hl =>
      obtain ⟨j, hj⟩ := fmFind_mem hl
      have h := wf_iff.1 w
      exact ih _ (wf_iff.2 ⟨h.1, h.2.1, h.2.2.1, wholeLines_set _ _ h.2.2.2 (by simpa using h.2.2.2 _ hj)⟩)
    · exact ih _ w

theorem uncachedWrite_wf {m : Memory} (a : Nat) (bs : List Byte) (w : m.wf = true) : (uncachedWrite m a bs).wf = true := by
  unfold uncachedWrite
  dsimp only
  split
  · exact patchLines_wf a bs (writeBytes_wf 0 a bs w)
  · exact writeBytes_wf 0 a bs w

/-- With no line of the host window cached the caches hold nothing of their own. -/
theorem devByte_uncached {m : Memory} (epoch a : Nat) (h : m.lines = []) : devByte m epoch a = viewByte m epoch a := by
  simp [devByte, fmFind, h]

theorem devBytes_uncached {m : Memory} (epoch a n : Nat) (h : m.lines = []) : devBytes m epoch a n = readBytes m epoch a n := by
  simp [devBytes, readBytes, devByte_uncached epoch _ h]

theorem devWrite_uncached {m : Memory} (epoch a : Nat) (bs : List Byte) (h : m.lines = []) :
    devWrite m epoch a bs = writeBytes m epoch a bs := by
  simp [devWrite, lineIn, h]

/-! ### The cipher (R358) -/

theorem swapBlock_swapBlock (p : BitVec 128 × BitVec 128) (x : BitVec 128) : Config.swapBlock p (Config.swapBlock p x) = x := by
  unfold Config.swapBlock
  split
  · next h => split <;> simp_all
  · split
    · next h => simp [h]
    · rfl

/-- What is encrypted under an epoch is decrypted under it. -/
theorem decrypt_encrypt (epoch block : Nat) (x : BitVec 128) : Config.decrypt epoch block (Config.encrypt epoch block x) = x := by
  unfold Config.decrypt Config.encrypt
  split
  · rfl
  · induction Config.xtsSwaps epoch block generalizing x with
    | nil => rfl
    | cons p rest ih => rw [List.foldl_cons, List.foldr_cons, ih, swapBlock_swapBlock]

/-- The ciphertext of what a block decrypts to is the block: stored back in the clear, it reads as the plaintext again. -/
theorem encrypt_decrypt (epoch block : Nat) (x : BitVec 128) : Config.encrypt epoch block (Config.decrypt epoch block x) = x := by
  unfold Config.decrypt Config.encrypt
  split
  · rfl
  · induction Config.xtsSwaps epoch block with
    | nil => rfl
    | cons p rest ih => rw [List.foldr_cons, List.foldl_cons, swapBlock_swapBlock, ih]

/-! ### Stores of harts -/

@[simp] theorem noteTables_mem (s : State) (hid a n : Nat) : (noteTables s hid a n).mem = s.mem := by
  unfold noteTables; split <;> rfl

@[simp] theorem noteTables_harts (s : State) (hid a n : Nat) : (noteTables s hid a n).harts = s.harts := by
  unfold noteTables; split <;> rfl

@[simp] theorem noteTables_cur (s : State) (hid a n : Nat) : (noteTables s hid a n).cur = s.cur := by
  unfold noteTables; split <;> rfl

@[simp] theorem hartStore_harts (s : State) (hid epoch a : Nat) (bs : List Byte) : (hartStore s hid epoch a bs).harts = s.harts := by
  simp [hartStore]

@[simp] theorem hartStore_cur (s : State) (hid epoch a : Nat) (bs : List Byte) : (hartStore s hid epoch a bs).cur = s.cur := by
  simp [hartStore]

/-- A hart's store changes memory and what is noted of cached translations. -/
theorem hartStore_eq (s : State) (hid epoch a : Nat) (bs : List Byte) :
    ∃ tlb, hartStore s hid epoch a bs =
      { s with mem := devWrite (markDirty s.mem (clusterOf hid) a bs.length) epoch a bs, tlb := tlb } := by
  unfold hartStore noteTables
  split
  · exact ⟨s.tlb, rfl⟩
  · exact ⟨_, rfl⟩

theorem hartStore_wf {s : State} (hid epoch a : Nat) (bs : List Byte) (w : s.mem.wf = true) :
    (hartStore s hid epoch a bs).mem.wf = true := by
  rw [hartStore, noteTables_mem]
  exact devWrite_wf epoch a bs (markDirty_wf _ _ _ w)

theorem performStore_wf {s : State} (hid : Nat) (x : WcStore) (w : s.mem.wf = true) : (performStore s hid x).mem.wf = true := by
  unfold performStore
  dsimp only
  split
  · rw [noteTables_mem]
    exact devWrite_wf _ _ _ w
  · exact hartStore_wf _ _ _ _ w

theorem performStores_wf {s : State} (hid : Nat) (l : List WcStore) (w : s.mem.wf = true) : (performStores s hid l).mem.wf = true := by
  induction l generalizing s with
  | nil => exact w
  | cons x rest ih => exact ih (performStore_wf _ _ w)

theorem drainWc_wf {s : State} (hid : Nat) (w : s.mem.wf = true) : (drainWc s hid).mem.wf = true := by
  unfold drainWc
  dsimp only
  split
  · exact w
  · exact performStores_wf _ _ w

theorem drainOverlap_wf {s : State} (hid pa n : Nat) (w : s.mem.wf = true) : (drainOverlap s hid pa n).mem.wf = true := by
  unfold drainOverlap
  split
  · exact drainWc_wf hid w
  · exact w

theorem releaseStores_wf {s : State} (hid : Nat) (w : s.mem.wf = true) : (releaseStores s hid).mem.wf = true :=
  cleanAll_wf (drainWc_wf hid w)

theorem writeSpan_wf {s : State} (hid : Nat) (l : List (Xlat × Nat)) (bs : List Byte) (w : s.mem.wf = true) :
    (writeSpan s hid l bs).mem.wf = true := by
  induction l generalizing s bs with
  | nil => exact w
  | cons x rest ih =>
    obtain ⟨x, n⟩ := x
    exact ih _ (hartStore_wf _ _ _ _ w)

/-! ### What is read after a write -/

theorem dropByte_above {b : Bytes} {lo a : Nat} (h : a < lo) (w : tableFrom 0 lo b = true) : fmGet b 0 a = 0 := by
  cases b with
  | nil => rfl
  | cons x rest =>
    obtain ⟨j, v⟩ := x
    simp only [tableFrom, Bool.and_eq_true, decide_eq_true_eq] at w
    rw [fmGet, if_neg (by omega), if_pos (by omega)]

theorem fmGet_dropByte {b : Bytes} {lo : Nat} (a k : Nat) (w : tableFrom 0 lo b = true) :
    fmGet (dropByte b a) 0 k = if a = k then 0 else fmGet b 0 k := by
  induction b generalizing lo with
  | nil => simp [dropByte, fmGet]
  | cons x rest ih =>
    obtain ⟨j, v⟩ := x
    simp only [tableFrom, Bool.and_eq_true, decide_eq_true_eq] at w
    simp only [dropByte]
    split
    · next h =>
      by_cases hk : a = k
      · subst hk
        rw [if_pos rfl, fmGet, if_neg (by omega), if_pos h]
      · rw [if_neg hk]
    · split
      · next h =>
        subst j
        by_cases hk : a = k
        · subst hk
          rw [if_pos rfl, dropByte_above (by omega) w.2]
        · rw [if_neg hk]
          rw [fmGet, if_neg hk]
          split
          · exact dropByte_above (by omega) w.2
          · rfl
      · rw [fmGet, fmGet, ih w.2]
        by_cases hk : a = k
        · subst hk
          rw [if_pos rfl, if_neg (by omega), if_neg (by omega), if_pos rfl]
        · simp only [if_neg hk]

/-- A byte read after one byte is written. -/
theorem byteAt_setByte {b : Bytes} (a k : Nat) (v : Byte) (w : tableFrom 0 0 b = true) :
    byteAt (setByte b a v) k = if a = k then v else byteAt b k := by
  unfold byteAt setByte
  split
  · next h => rw [fmGet_dropByte a k w, h]
  · exact fmGet_fmSet b 0 a k v

theorem fmErase_above {α : Type} [DecidableEq α] {zero : α} {b : FMap α} {lo a : Nat} (h : a < lo)
    (w : tableFrom zero lo b = true) : fmGet b zero a = zero := by
  cases b with
  | nil => rfl
  | cons x rest =>
    obtain ⟨j, v⟩ := x
    simp only [tableFrom, Bool.and_eq_true, decide_eq_true_eq] at w
    rw [fmGet, if_neg (by omega), if_pos (by omega)]

theorem fmGet_fmErase {α : Type} [DecidableEq α] {zero : α} {b : FMap α} {lo : Nat} (a k : Nat)
    (w : tableFrom zero lo b = true) : fmGet (fmErase b a) zero k = if a = k then zero else fmGet b zero k := by
  induction b generalizing lo with
  | nil => simp [fmErase, fmGet]
  | cons x rest ih =>
    obtain ⟨j, v⟩ := x
    simp only [tableFrom, Bool.and_eq_true, decide_eq_true_eq] at w
    simp only [fmErase]
    split
    · next h =>
      subst j
      by_cases hk : a = k
      · subst hk
        rw [if_pos rfl, fmErase_above (by omega) w.2]
      · rw [if_neg hk, fmGet, if_neg hk]
        split
        · exact fmErase_above (by omega) w.2
        · rfl
    · next h =>
      rw [fmGet, fmGet, ih w.2]
      by_cases hk : a = k
      · subst hk
        simp [if_neg h]
      · simp [if_neg hk]

/-- The epoch of every block after one has been brought under an epoch. -/
theorem lockAt_relock {m : Memory} (epoch a k : Nat) (w : m.wf = true) :
    lockAt (relock m epoch a) k = if k / 16 = a / 16 then epoch else lockAt m k := by
  unfold relock
  split
  · next h =>
    split
    · next hk => simpa [lockAt, hk] using h
    · rfl
  · simp only [lockAt]
    split
    · next h => subst h; simp only [fmGet_fmErase _ _ (wf_iff.1 w).2.1, eq_comm]
    · simp only [fmGet_fmSet, eq_comm]

theorem byteAt_setBytes (b0 : Nat) (g : Nat → Byte) (n k : Nat) {c : Bytes} (w : tableFrom 0 0 c = true) :
    byteAt ((List.range n).foldl (fun c i => setByte c (b0 + i) (g (b0 + i))) c) k =
      if b0 ≤ k ∧ k < b0 + n then g k else byteAt c k := by
  induction n with
  | zero => simp <;> omega
  | succ n ih =>
    rw [List.range_succ, List.foldl_append, List.foldl_cons, List.foldl_nil,
      byteAt_setByte _ _ _ (setBytes_from _ _ _ w), ih]
    by_cases h : b0 + n = k
    · subst h; simp
    · rw [if_neg h]
      by_cases h2 : b0 ≤ k ∧ k < b0 + n
      · rw [if_pos h2, if_pos (by omega)]
      · rw [if_neg h2, if_neg (by omega)]

/-- A block is its sixteen bytes. -/
theorem blockAt_congr {m n : Memory} {k : Nat} (h : ∀ j, j / 16 = k / 16 → byteAt m.cells j = byteAt n.cells j) :
    blockAt m k = blockAt n k := by
  unfold blockAt
  congr 2
  refine List.map_congr_left fun i hi => h _ ?_
  have := List.mem_range.1 hi
  omega

/-- Bringing a block under an epoch changes nothing that a reader under that epoch sees. -/
theorem viewByte_relock {m : Memory} (epoch a k : Nat) (w : m.wf = true) :
    viewByte (relock m epoch a) epoch k = viewByte m epoch k := by
  by_cases h : lockAt m a = epoch
  · rw [relock, if_pos h]
  · have hl := lockAt_relock epoch a k w
    have hc : (relock m epoch a).cells =
        (List.range 16).foldl (fun c i => setByte c (a / 16 * 16 + i) (viewByte m epoch (a / 16 * 16 + i))) m.cells := by
      rw [relock, if_neg h]
    have hb := byteAt_setBytes (a / 16 * 16) (viewByte m epoch) 16 k (wf_iff.1 w).1
    rw [← hc] at hb
    by_cases hk : k / 16 = a / 16
    · rw [if_pos (by omega)] at hb
      rw [viewByte, hl, if_pos hk, if_pos rfl, hb]
    · have hbl : blockAt (relock m epoch a) k = blockAt m k := blockAt_congr fun j hj => by
        have := byteAt_setBytes (a / 16 * 16) (viewByte m epoch) 16 j (wf_iff.1 w).1
        rwa [← hc, if_neg (by omega)] at this
      rw [if_neg (by omega)] at hb
      simp only [viewByte, hl, hb, hbl, if_neg hk]

/-- A byte stored under an epoch reads back under it, and every other byte reads as before under it. -/
theorem viewByte_store {m : Memory} (epoch a k : Nat) (v : Byte) (w : m.wf = true) :
    viewByte (writeByte m epoch a v) epoch k = if a = k then v else viewByte m epoch k := by
  have hl (x : Nat) := lockAt_relock epoch a x w
  have hv (x : Nat) : lockAt { relock m epoch a with cells := setByte (relock m epoch a).cells a v } x =
      lockAt (relock m epoch a) x := rfl
  by_cases hk : a = k
  · subst hk
    rw [writeByte, viewByte, hv, hl, if_pos rfl, if_pos rfl, if_pos rfl,
      byteAt_setByte a a v (wf_iff.1 (relock_wf epoch a w)).1, if_pos rfl]
  · rw [if_neg hk, ← viewByte_relock epoch a k w]
    have hb (x : Nat) := byteAt_setByte a x v (wf_iff.1 (relock_wf epoch a w)).1
    simp only [writeByte, viewByte, hv, hb k, if_neg hk]
    split
    · rfl
    · next he =>
      refine congrArg (fun b => Config.cipherView _ epoch (k / 16) b (k % 16)) (blockAt_congr fun j hj => ?_)
      have hne : a ≠ j := by
        rintro rfl
        exact he (by rw [hl, if_pos hj.symm])
      simp only [hb j, if_neg hne]

/-- Bytes stored under an epoch: what a reader under it sees of every address. -/
theorem viewByte_storeAll {m : Memory} (epoch a k : Nat) (bs : List Byte) (w : m.wf = true) :
    viewByte (storeBytes m epoch a bs) epoch k =
      if a ≤ k ∧ k < a + bs.length then bs[k - a]?.getD 0 else viewByte m epoch k := by
  induction bs generalizing m a with
  | nil => simp [storeBytes] <;> omega
  | cons b rest ih =>
    rw [storeBytes, ih (a + 1) (writeByte_wf epoch a b w), viewByte_store epoch a k b w]
    simp only [List.length_cons]
    by_cases hk : a = k
    · subst hk
      rw [if_neg (by omega), if_pos rfl, if_pos (by omega), Nat.sub_self, List.getElem?_cons_zero, Option.getD_some]
    · by_cases h1 : a + 1 ≤ k ∧ k < a + 1 + rest.length
      · rw [if_pos h1, if_pos (by omega), show k - a = (k - (a + 1)) + 1 by omega, List.getElem?_cons_succ]
      · rw [if_neg h1, if_neg hk, if_neg (by omega)]

/-- A byte stored in a block that is under the epoch already reads back, and every other byte is as it was. -/
theorem viewByte_writeByte {m : Memory} (epoch a k : Nat) (v : Byte) (w : m.wf = true) (he : lockAt m a = epoch) :
    viewByte (writeByte m epoch a v) epoch k = if a = k then v else viewByte m epoch k := by
  have hr : relock m epoch a = m := if_pos he
  have hl (x : Nat) : lockAt { m with cells := setByte m.cells a v } x = lockAt m x := rfl
  simp only [writeByte, hr, viewByte, hl, byteAt_setByte a k v (wf_iff.1 w).1]
  by_cases hk : a = k
  · subst hk
    simp [he]
  · simp only [if_neg hk]
    split
    · rfl
    · next hn =>
      refine congrArg (fun b => Config.cipherView _ epoch (k / 16) b (k % 16)) (blockAt_congr fun j hj => ?_)
      have hne : a ≠ j := by
        rintro rfl
        exact hn (by rw [← he]; simp only [lockAt, hj])
      simp only [byteAt_setByte a j v (wf_iff.1 w).1, if_neg hne]

theorem lockAt_writeByte {m : Memory} (epoch a k : Nat) (v : Byte) (he : lockAt m a = epoch) :
    lockAt (writeByte m epoch a v) k = lockAt m k := by
  have hr : relock m epoch a = m := if_pos he
  simp only [writeByte, hr]
  rfl

/-- Bytes stored under the epoch that they are under already: what a reader under that epoch sees of every address. -/
theorem viewByte_storeBytes {m : Memory} (epoch a k : Nat) (bs : List Byte) (w : m.wf = true)
    (he : ∀ i, i < bs.length → lockAt m (a + i) = epoch) :
    viewByte (storeBytes m epoch a bs) epoch k =
      if a ≤ k ∧ k < a + bs.length then bs[k - a]?.getD 0 else viewByte m epoch k := by
  induction bs generalizing m a with
  | nil => simp [storeBytes] <;> omega
  | cons b rest ih =>
    have h0 : lockAt m a = epoch := by simpa using he 0 (by simp)
    rw [storeBytes, ih (a + 1) (writeByte_wf epoch a b w), viewByte_writeByte epoch a k b w h0]
    · simp only [List.length_cons]
      by_cases hk : a = k
      · subst hk
        rw [if_neg (by omega), if_pos rfl, if_pos (by omega), Nat.sub_self, List.getElem?_cons_zero, Option.getD_some]
      · by_cases h1 : a + 1 ≤ k ∧ k < a + 1 + rest.length
        · rw [if_pos h1, if_pos (by omega), show k - a = (k - (a + 1)) + 1 by omega, List.getElem?_cons_succ]
        · rw [if_neg h1, if_neg hk, if_neg (by omega)]
    · intro i hi
      rw [lockAt_writeByte epoch a _ b h0, show a + 1 + i = a + (i + 1) by omega]
      exact he (i + 1) (by simpa using hi)

/-- One write, seen by a reader under its epoch. -/
theorem viewByte_writeBytes {m : Memory} (epoch a k : Nat) (bs : List Byte) (w : m.wf = true)
    (he : ∀ i, i < bs.length → lockAt m (a + i) = epoch) :
    viewByte (writeBytes m epoch a bs) epoch k =
      if a ≤ k ∧ k < a + bs.length then bs[k - a]?.getD 0 else viewByte m epoch k :=
  viewByte_storeBytes epoch a k bs w he

/-! ### Numbers and their bytes (R4) -/

@[simp] theorem splitBytes_length (n v : Nat) : (splitBytes n v).length = n := by
  induction n generalizing v with
  | zero => rfl
  | succ n ih => simp [splitBytes, ih]

theorem joinBytes_splitBytes (n v : Nat) : joinBytes (splitBytes n v) = v % 256 ^ n := by
  induction n generalizing v with
  | zero => simp [splitBytes, joinBytes, Nat.mod_one]
  | succ n ih =>
    simp only [splitBytes, joinBytes, ih, BitVec.toNat_ofNat]
    rw [show 256 ^ (n + 1) = 256 * 256 ^ n by rw [Nat.pow_succ, Nat.mul_comm], Nat.mod_mul]

theorem readBytes_eq {m : Memory} {epoch a n : Nat} {bs : List Byte} (hn : bs.length = n)
    (h : ∀ i, i < n → viewByte m epoch (a + i) = bs[i]?.getD 0) : readBytes m epoch a n = bs := by
  apply List.ext_getElem (by simp [readBytes, hn])
  intro i h1 h2
  simp only [readBytes, List.getElem_map, List.getElem_range]
  rw [h i (hn ▸ h2), List.getElem?_eq_getElem h2, Option.getD_some]

/-- A value read back where it was written under the epoch that the bytes are under already. -/
theorem readMem_writeMem {m : Memory} (epoch a n v : Nat) (w : m.wf = true) (he : ∀ i, i < n → lockAt m (a + i) = epoch) :
    readMem (writeMem m epoch a n v) epoch a n = v % 256 ^ n := by
  unfold readMem writeMem
  rw [readBytes_eq (bs := splitBytes n v) (splitBytes_length n v), joinBytes_splitBytes]
  intro i hi
  rw [viewByte_writeBytes epoch a _ _ w (by simpa using he), if_pos (by simp; omega), show a + i - a = i by omega]

/-- One write under an epoch, seen by a reader under it. -/
theorem viewByte_writeMem {m : Memory} (epoch a n v k : Nat) (w : m.wf = true) :
    viewByte (writeMem m epoch a n v) epoch k =
      if a ≤ k ∧ k < a + n then (splitBytes n v)[k - a]?.getD 0 else viewByte m epoch k := by
  have h := viewByte_storeAll epoch a k (splitBytes n v) w
  rwa [splitBytes_length] at h

/-- A value read back under the epoch that it was written under. -/
theorem readMem_written {m : Memory} (epoch a n v : Nat) (w : m.wf = true) :
    readMem (writeMem m epoch a n v) epoch a n = v % 256 ^ n := by
  rw [readMem, readBytes_eq (bs := splitBytes n v) (splitBytes_length n v), joinBytes_splitBytes]
  intro i hi
  rw [viewByte_writeMem epoch a n v _ w, if_pos (by omega), show a + i - a = i by omega]

/-! ### What a hart's store leaves for the harts (R328) -/

theorem fmFind_fmSet {α : Type} (m : FMap α) (k j : Nat) (v : α) : fmFind (fmSet m k v) j = if k = j then some v else fmFind m j := by
  induction m with
  | nil => by_cases h : k = j <;> simp [fmSet, fmFind, h]
  | cons x rest ih =>
    obtain ⟨i, y⟩ := x
    simp only [fmSet]
    split
    · by_cases h : k = j <;> simp [fmFind, h]
    · split
      · subst i
        by_cases h : k = j <;> simp [fmFind, h]
      · next h1 h2 =>
        have hf : fmFind ((i, y) :: fmSet rest k v) j = if i = j then some y else fmFind (fmSet rest k v) j := by
          by_cases h : i = j <;> simp [fmFind, h]
        have hg : fmFind ((i, y) :: rest) j = if i = j then some y else fmFind rest j := by
          by_cases h : i = j <;> simp [fmFind, h]
        rw [hf, hg, ih]
        by_cases h : i = j
        · rw [if_pos h, if_pos h, if_neg (by omega)]
        · simp only [if_neg h]

/-- Bytes stored under an epoch, seen by a hart under it: in the cached lines, or in memory. -/
theorem devByte_devStore {m : Memory} (epoch a k : Nat) (bs : List Byte) (w : m.wf = true) :
    devByte (devStore m epoch a bs) epoch k = if a ≤ k ∧ k < a + bs.length then bs[k - a]?.getD 0 else devByte m epoch k := by
  induction bs generalizing m a with
  | nil => simp [devStore] <;> omega
  | cons b rest ih =>
    have one : ∀ m' : Memory, m'.wf = true → (∀ x, devByte m' epoch x = if a = x then b else devByte m epoch x) →
        devByte (devStore m' epoch (a + 1) rest) epoch k =
          if a ≤ k ∧ k < a + (b :: rest).length then (b :: rest)[k - a]?.getD 0 else devByte m epoch k := by
      intro m' w' h
      rw [ih (a + 1) w', h]
      simp only [List.length_cons]
      by_cases hk : a = k
      · subst hk
        rw [if_neg (by omega), if_pos rfl, if_pos (by omega), Nat.sub_self, List.getElem?_cons_zero, Option.getD_some]
      · by_cases h1 : a + 1 ≤ k ∧ k < a + 1 + rest.length
        · rw [if_pos h1, if_pos (by omega), show k - a = (k - (a + 1)) + 1 by omega, List.getElem?_cons_succ]
        · rw [if_neg h1, if_neg hk, if_neg (by omega)]
    have hw := wf_iff.1 w
    unfold devStore
    dsimp only
    split
    · next l hl =>
      obtain ⟨j, hj⟩ := fmFind_mem hl
      have len : l.data.length = 128 := hw.2.2.2 _ hj
      refine one _ (wf_iff.2 ⟨hw.1, hw.2.1, hw.2.2.1, wholeLines_set _ _ hw.2.2.2 (by simpa [HostLine.put] using len)⟩) fun x => ?_
      simp only [devByte, fmFind_fmSet]
      by_cases hx : a / 128 = x / 128
      · rw [if_pos hx, ← hx, hl]
        by_cases he : a = x
        · subst he
          simp [HostLine.put, len, Nat.mod_lt]
        · rw [if_neg he]
          have : a % 128 ≠ x % 128 := by omega
          simp [HostLine.put, this]
      · rw [if_neg hx]
        simp only [if_neg (show a ≠ x by rintro rfl; exact hx rfl)]
        rfl
    · next hl =>
      refine one _ (writeByte_wf epoch a b w) fun x => ?_
      have hlines : (writeByte m epoch a b).lines = m.lines := by
        simp only [writeByte]; unfold relock; split <;> rfl
      simp only [devByte, hlines]
      by_cases hx : a = x
      · subst hx
        simp [hl, viewByte_store epoch a a b w]
      · simp only [if_neg hx]
        split
        · rfl
        · rw [viewByte_store epoch a x b w, if_neg hx]

theorem devByte_lines {m : Memory} {a k n : Nat} (h : lineIn m a n = false) (hk : a ≤ k ∧ k < a + n) :
    fmFind m.lines (k / 128) = none := by
  unfold fmFind
  rw [Option.map_eq_none_iff, List.find?_eq_none]
  intro x hx hc
  simp only [beq_iff_eq] at hc
  simp only [lineIn, List.any_eq_false, decide_eq_true_eq, not_and] at h
  exact h x hx (by omega) (by omega)

/-- One write by a hart, seen by a hart under its epoch. -/
theorem devByte_devWrite {m : Memory} (epoch a k : Nat) (bs : List Byte) (w : m.wf = true) :
    devByte (devWrite m epoch a bs) epoch k = if a ≤ k ∧ k < a + bs.length then bs[k - a]?.getD 0 else devByte m epoch k := by
  unfold devWrite
  split
  · exact devByte_devStore epoch a k bs w
  · next h =>
    simp only [Bool.not_eq_true] at h
    have hl : ∀ (m : Memory) a, (storeBytes m epoch a bs).lines = m.lines := by
      induction bs with
      | nil => intro m a; rfl
      | cons b rest ih =>
        intro m a
        rw [storeBytes, ih]
        · simp only [writeByte]; unfold relock; split <;> rfl
        · simp only [lineIn, List.any_eq_false, decide_eq_true_eq, not_and, List.length_cons] at h ⊢
          exact fun x hx h1 => by have := h x hx h1; omega
    have hlines : (writeBytes m epoch a bs).lines = m.lines := hl m a
    by_cases hk : a ≤ k ∧ k < a + bs.length
    · rw [if_pos hk, devByte, hlines, devByte_lines h hk]
      have := viewByte_storeAll epoch a k bs w
      rwa [if_pos hk] at this
    · rw [if_neg hk]
      simp only [devByte, hlines]
      split
      · rfl
      · have := viewByte_storeAll epoch a k bs w
        rwa [if_neg hk] at this

/-- A byte stored leaves what every reader sees of another block. -/
theorem viewByte_far {m : Memory} (epoch reader a k : Nat) (v : Byte) (w : m.wf = true) (hk : k / 16 ≠ a / 16) :
    viewByte (writeByte m epoch a v) reader k = viewByte m reader k := by
  have hl : lockAt (writeByte m epoch a v) k = lockAt m k := by
    have := lockAt_relock epoch a k w
    rwa [if_neg hk] at this
  have hb (j : Nat) (hj : j / 16 = k / 16) : byteAt (writeByte m epoch a v).cells j = byteAt m.cells j := by
    rw [writeByte, byteAt_setByte a j v (wf_iff.1 (relock_wf epoch a w)).1, if_neg (by rintro rfl; exact hk hj.symm)]
    unfold relock
    split
    · rfl
    · rw [byteAt_setBytes (a / 16 * 16) (viewByte m epoch) 16 j (wf_iff.1 w).1, if_neg (by omega)]
  simp only [viewByte, hl, hb k rfl, blockAt_congr hb]

/-- A line sent leaves what every reader sees of another line. -/
theorem viewByte_sendLine {m : Memory} (ln reader k : Nat) (l : HostLine) (w : m.wf = true) (hk : k / 128 ≠ ln) :
    viewByte (sendLine m ln l) reader k = viewByte m reader k := by
  have h : ∀ is : List Nat, (∀ i ∈ is, i < 128) → ∀ m : Memory, m.wf = true →
      viewByte (is.foldl (fun m i => writeByte m 0 (ln * 128 + i) (l.data[i]?.getD 0)) m) reader k = viewByte m reader k := by
    intro is
    induction is with
    | nil => intros; rfl
    | cons i rest ih =>
      intro hi m w
      rw [List.foldl_cons, ih (fun j hj => hi j (List.mem_cons_of_mem _ hj)) _ (writeByte_wf _ _ _ w)]
      have := hi i List.mem_cons_self
      exact viewByte_far _ _ _ _ _ w (by omega)
  exact h _ (fun i hi => List.mem_range.1 (List.mem_filter.1 hi).1) m w

/-- A line written back and kept clean leaves what every hart reads. -/
theorem devByte_cleanLine {m : Memory} (ln reader k : Nat) (w : m.wf = true) :
    devByte (cleanLine m ln) reader k = devByte m reader k := by
  unfold cleanLine
  dsimp only
  split
  · next l hl =>
    simp only [devByte, fmFind_fmSet]
    by_cases hk : ln = k / 128
    · subst hk
      rw [if_pos rfl, hl]
    · rw [if_neg hk]
      split
      · rfl
      · exact viewByte_sendLine ln reader k l (undirty_wf ln w) (Ne.symm hk)
  · rfl

theorem devByte_makeRoom {m : Memory} (cluster ln reader k : Nat) (w : m.wf = true) :
    devByte (makeRoom m cluster ln) reader k = devByte m reader k := by
  unfold makeRoom
  dsimp only
  repeat' split
  · rfl
  · rfl
  · exact devByte_cleanLine _ _ _ w
  · rfl

theorem devByte_markLine {m : Memory} (cluster ln reader k : Nat) (w : m.wf = true) :
    devByte (markLine m cluster ln) reader k = devByte m reader k := by
  unfold markLine
  split
  · rfl
  · exact devByte_makeRoom cluster ln reader k w

/-- Lines marked as held dirty read as before. -/
theorem devByte_markDirty {m : Memory} (cluster a n reader k : Nat) (w : m.wf = true) :
    devByte (markDirty m cluster a n) reader k = devByte m reader k := by
  have h : ∀ l : List Nat, ∀ m : Memory, m.wf = true →
      devByte (l.foldl (fun m ln => if ln * 128 < a + n then markLine m cluster ln else m) m) reader k = devByte m reader k := by
    intro l
    induction l with
    | nil => intros; rfl
    | cons ln rest ih =>
      intro m w
      rw [List.foldl_cons]
      split
      · rw [ih _ (markLine_wf cluster ln w), devByte_markLine cluster ln reader k w]
      · exact ih m w
  exact h _ m w

/-- A store of a hart, seen by a hart under its epoch. -/
theorem devByte_hartStore {s : State} (hid epoch a k : Nat) (bs : List Byte) (w : s.mem.wf = true) :
    devByte (hartStore s hid epoch a bs).mem epoch k =
      if a ≤ k ∧ k < a + bs.length then bs[k - a]?.getD 0 else devByte s.mem epoch k := by
  rw [hartStore, noteTables_mem, devByte_devWrite epoch a k bs (markDirty_wf _ _ _ w), devByte_markDirty _ _ _ _ _ w]

end Sys2Proof.Laws
end

