-- ==== Sys2Proof/Laws/Traps.lean ====
section
/-! SUPPORT. What the shared operations of a hart do: going on after a G-word, caching a translation, taking a trap
and returning from one. -/

namespace Sys2Proof.Laws

open Sys2Proof.Machine

/-! ### Going on -/

theorem retire_hart (s : State) (d : Reg) (v : Word) :
    curHart (retire s d v) = nextPc (wr (curHart s) d v) 4 := curHart_setCur ..

theorem retire_other (s : State) (d : Reg) (v : Word) (k : Nat) (h : s.cur ≠ k) :
    hartAt (retire s d v) k = hartAt s k := by
  simp [retire, setCur, h]

theorem advance_hart (s : State) : curHart (advance s) = nextPc (curHart s) 4 := curHart_setCur ..

@[simp] theorem retire_mem (s : State) (d : Reg) (v : Word) : (retire s d v).mem = s.mem := rfl
@[simp] theorem advance_mem (s : State) : (advance s).mem = s.mem := rfl
@[simp] theorem waiting_mem (s : State) : (waiting s).mem = s.mem := rfl

/-! ### Translations cached -/

/-- Of the machine, caching a translation changes the cached translations. -/
theorem cacheXlat_eq (s : State) (x : Xlat) : ∃ l, cacheXlat s x = { s with tlb := l } := ⟨_, rfl⟩

@[simp] theorem cacheXlat_harts (s : State) (x : Xlat) : (cacheXlat s x).harts = s.harts := by
  obtain ⟨l, h⟩ := cacheXlat_eq s x; rw [h]
@[simp] theorem cacheXlat_mem (s : State) (x : Xlat) : (cacheXlat s x).mem = s.mem := by
  obtain ⟨l, h⟩ := cacheXlat_eq s x; rw [h]
@[simp] theorem cacheXlat_cur (s : State) (x : Xlat) : (cacheXlat s x).cur = s.cur := by
  obtain ⟨l, h⟩ := cacheXlat_eq s x; rw [h]

/-! ### The trap sink (R191) -/

theorem storeSink_harts (s : State) (hid : Nat) (count : Word) : (storeSink s hid count).1.harts = s.harts := by
  unfold storeSink
  dsimp only
  split
  · rfl
  · split
    · rfl
    · split
      · rfl
      · split
        · rfl
        · rfl

theorem storeSink_wf {s : State} (hid : Nat) (count : Word) (w : s.mem.wf = true) : (storeSink s hid count).1.mem.wf = true := by
  unfold storeSink
  dsimp only
  split
  · exact w
  · split
    · exact w
    · split
      · exact w
      · split
        · exact w
        · exact devWrite_wf _ _ _ (markDirty_wf _ _ _ w)

/-- With no sink, taking a trap stores nothing. -/
theorem storeSink_none (s : State) (hid : Nat) (count : Word) (h : (hartAt s hid).trapsink = 0) :
    storeSink s hid count = (s, false) := by
  simp [storeSink, h]

/-! ### Taking a trap (R191) -/

/-- The hart that takes a trap. -/
theorem deliverTrap_hart (s : State) (hid : Nat) (f : FaultRec) :
    hartAt (deliverTrap s hid f) hid =
      { hartAt s hid with
        ctl := .trapped
        trapRec := trapRecord (hartAt s hid) f (storeSink s hid ((hartAt s hid).trapCount + 1)).2
        trapCount := (hartAt s hid).trapCount + 1
        qStopped := f.elevel || (hartAt s hid).qStopped
        stalled := false, gStall := none, wait := none, barArrived := none, genStopped := false, gcount := 0 } := by
  simp [deliverTrap]

/-- Every other hart. -/
theorem deliverTrap_other (s : State) (hid k : Nat) (f : FaultRec) (h : hid ≠ k) :
    hartAt (deliverTrap s hid f) k = hartAt s k := by
  unfold deliverTrap
  dsimp only
  rw [hartAt_setHart, if_neg h]
  unfold hartAt
  rw [storeSink_harts]

/-- Memory: only the trap sink. -/
theorem deliverTrap_mem (s : State) (hid : Nat) (f : FaultRec) :
    (deliverTrap s hid f).mem = (storeSink s hid ((hartAt s hid).trapCount + 1)).1.mem := rfl

theorem deliverTrap_wf {s : State} (hid : Nat) (f : FaultRec) (w : s.mem.wf = true) : (deliverTrap s hid f).mem.wf = true :=
  storeSink_wf hid _ w

theorem raiseE_wf {s : State} (hid : Nat) (f : FaultRec) (w : s.mem.wf = true) : (raiseE s hid f).mem.wf = true := by
  unfold raiseE
  dsimp only
  split
  · exact w
  · exact deliverTrap_wf hid f w

/-! ### Returning from a trap (R188, R192) -/

/-- A hart that leaves TRAPPED, STOPPED or IDLE takes the windows and the root stored before; nothing else of it changes. -/
theorem takeWindows_hart (s : State) (hid : Nat) :
    hartAt (takeWindows s hid) hid = { hartAt s hid with
      windows := (hartAt s hid).newWindows.getD (hartAt s hid).windows
      root := (hartAt s hid).newRoot.getD (hartAt s hid).root
      newWindows := none, newRoot := none } := by
  have hd (x : State) : hartAt (dropContext x hid) hid = hartAt x hid := rfl
  unfold takeWindows
  simp only [hd]
  by_cases h : ((hartAt s hid).newWindows.isNone && (hartAt s hid).newRoot.isNone) = true
  · rw [if_pos h, hd]
    generalize hartAt s hid = g at h
    obtain ⟨⟩ := g
    simp only [Bool.and_eq_true, Option.isNone_iff_eq_none] at h
    obtain ⟨h1, h2⟩ := h
    subst h1 h2
    rfl
  · rw [if_neg h, hd, hartAt_setHart, if_pos rfl]

theorem takeWindows_mem (s : State) (hid : Nat) : (takeWindows s hid).mem = s.mem := by
  unfold takeWindows; dsimp only; split <;> rfl

/-- A hart resumed with no fault pending. -/
theorem resumeHart_hart (s : State) (hid : Nat) (h : (hartAt s hid).pending = []) :
    hartAt (resumeHart s hid) hid = { hartAt (takeWindows s hid) hid with
      ctl := .run, qStopped := false, stalled := false, genStopped := false, gcount := 0, timer := 0 } := by
  have hp : (hartAt (takeWindows s hid) hid).pending = [] := by rw [takeWindows_hart]; exact h
  unfold resumeHart
  simp only [hp, hartAt_setHart, if_true, List.drop_nil]

/-- A hart resumed while faults are pending traps at once, at the PC at which it was resumed; the later ones stay. -/
theorem resumeHart_pending (s : State) (hid : Nat) (f : FaultRec) (l : List FaultRec) (h : (hartAt s hid).pending = f :: l) :
    (hartAt (resumeHart s hid) hid).ctl = .trapped ∧ (hartAt (resumeHart s hid) hid).pc = (hartAt s hid).pc ∧
      (hartAt (resumeHart s hid) hid).pending = l := by
  have hp : (hartAt (takeWindows s hid) hid).pending = f :: l := by rw [takeWindows_hart]; exact h
  have hpc : (hartAt (takeWindows s hid) hid).pc = (hartAt s hid).pc := by rw [takeWindows_hart]
  unfold resumeHart
  simp only [hp, deliverTrap_hart, hartAt_setHart, if_true]
  exact ⟨trivial, hpc, rfl⟩

theorem resumeHart_wf {s : State} (hid : Nat) (w : s.mem.wf = true) : (resumeHart s hid).mem.wf = true := by
  have hw : (takeWindows s hid).mem.wf = true := by rw [takeWindows_mem]; exact w
  unfold resumeHart
  dsimp only
  split
  · exact deliverTrap_wf hid _ hw
  · exact hw

theorem gXfail_wf {s : State} (acc : Nat) (va : Word) (f : XFail) (w : s.mem.wf = true) : (gXfail s acc va f).mem.wf = true := by
  unfold gXfail
  split
  · exact w
  · exact deliverTrap_wf _ _ w

/-! ### Fetching (R65, R84) -/

theorem fetchWord_ok {s : State} {va : Word} {w : BitVec 32} {t : State} (h : fetchWord s va = .ok (w, t)) :
    t.harts = s.harts ∧ t.mem = s.mem ∧ t.cur = s.cur := by
  unfold fetchWord at h
  split at h
  · cases h
  · dsimp only at h
    split at h
    · cases h
    · cases h
      exact ⟨cacheXlat_harts .., cacheXlat_mem .., cacheXlat_cur ..⟩

theorem fetchWord_error {s t : State} {va : Word} (h : fetchWord s va = .error t) (w : s.mem.wf = true) : t.mem.wf = true := by
  unfold fetchWord at h
  split at h
  · cases h
    exact gXfail_wf _ _ _ w
  · dsimp only at h
    split at h
    · cases h
      exact deliverTrap_wf _ _ ((cacheXlat_mem s _).symm ▸ w)
    · cases h

/-- A fetch changes nothing but the cached translations. -/
theorem fetch_ok {s : State} {f : Fetched} (h : fetch s = .ok f) :
    f.after.harts = s.harts ∧ f.after.mem = s.mem ∧ f.after.cur = s.cur := by
  unfold fetch at h
  dsimp only at h
  split at h
  · cases h
  · next h1 =>
    have e1 := fetchWord_ok h1
    split at h
    · split at h
      · cases h
      · next h2 =>
        have e2 := fetchWord_ok h2
        split at h
        · cases h
        · next h3 =>
          have e3 := fetchWord_ok h3
          cases h
          exact ⟨by rw [e3.1, e2.1, e1.1], by rw [e3.2.1, e2.2.1, e1.2.1], by rw [e3.2.2, e2.2.2, e1.2.2]⟩
    · cases h
      exact e1

theorem fetch_error {s t : State} (h : fetch s = .error t) (w : s.mem.wf = true) : t.mem.wf = true := by
  unfold fetch at h
  dsimp only at h
  split at h
  · next h1 =>
    cases h
    exact fetchWord_error h1 w
  · next h1 =>
    have e1 := fetchWord_ok h1
    split at h
    · split at h
      · next h2 =>
        cases h
        exact fetchWord_error h2 (e1.2.1 ▸ w)
      · next h2 =>
        have e2 := fetchWord_ok h2
        split at h
        · next h3 =>
          cases h
          exact fetchWord_error h3 (by rw [e2.2.1, e1.2.1]; exact w)
        · cases h
    · cases h

end Sys2Proof.Laws
end

