-- ==== Sys2Proof/Laws/Lanes.lean ====
section
/-! SUPPORT. The lanes: what a sweep is, what committing a position leaves alone, and the turn of a word that is alone. -/

namespace Sys2Proof.Laws

open Sys2Proof.Machine

/-! ### Tables written twice -/

theorem fmSet_fmSet {α : Type} (m : FMap α) (k : Nat) (v w : α) : fmSet (fmSet m k v) k w = fmSet m k w := by
  induction m with
  | nil => simp [fmSet]
  | cons x rest ih =>
    obtain ⟨j, y⟩ := x
    simp only [fmSet]
    split
    · simp [fmSet]
    · split
      · simp [fmSet]
      · simp only [fmSet]
        rw [if_neg ‹_›, if_neg ‹_›, ih]

@[simp] theorem setHart_setHart (s : State) (n : Nat) (g h : Hart) : setHart (setHart s n g) n h = setHart s n h := by
  simp [setHart, fmSet_fmSet]

@[simp] theorem setCur_setCur (s : State) (g h : Hart) : setCur (setCur s g) h = setCur s h := setHart_setHart ..

/-! ### Sweeps (R18, R164) -/

/-- The element-wise words act at the position at which they are computed. -/
theorem elemAt_pos (m : Memory) (g : Hart) (hid : Nat) (e : Entry) (c : EClass) (w : EFields) (s : State) (acc : Word)
    (p : Nat) (a : Act) (h : elemAt m g hid e c w s acc p = .ok a) : a.pos = p := by
  unfold elemAt at h
  simp only at h
  split at h
  · cases h
    unfold icxAct
    simp only
    repeat' split
    all_goals rfl
  · split at h
    · cases h; rfl
    · split at h
      · split at h <;> cases h <;> rfl
      · split at h
        · simp only [varithAt, bind, Except.bind] at h
          repeat' split at h
          all_goals first | (cases h; rfl) | cases h
        · simp only [vmacAt, bind, Except.bind] at h
          repeat' split at h
          all_goals first | (cases h; rfl) | cases h
        · simp only [vcmpAt, bind, Except.bind] at h
          repeat' split at h
          all_goals first | (cases h; rfl) | cases h
        · simp only [vcvtAt] at h
          repeat' split at h
          all_goals first | (cases h; rfl) | cases h
        · simp only [vpermAt] at h
          cases h
          repeat' split
          all_goals rfl
        · simp only [vredAt, bind, Except.bind] at h
          repeat' split at h
          all_goals first | (cases h; rfl) | cases h
        · simp only [vldElem] at h
          repeat' split at h
          all_goals first | (cases h; rfl) | cases h
        · simp only [vstElem] at h
          repeat' split at h
          all_goals first | (cases h; rfl) | cases h
        · simp only [vamoElem] at h
          repeat' split at h
          all_goals first | (cases h; rfl) | cases h
        · cases h; rfl

section Sweep

variable (hid : Nat) (shape : Bool) (elem : State → Word → Nat → Except FaultRec Act)

/-- The positions of the acts are positions of the sweep. -/
theorem sweep_pos (ok : ∀ s v p a, elem s v p = .ok a → a.pos = p) (s : State) (acc : Word) (l : List Nat) :
    ∀ a ∈ (sweep hid shape elem s acc l).acts, a.pos ∈ l := by
  induction l generalizing s acc with
  | nil => intro a h; cases h
  | cons p rest ih =>
    intro a h
    simp only [sweep] at h
    split at h
    · split at h <;> cases h
    · rename_i x hx
      simp only [List.mem_cons] at h
      obtain rfl | h := h
      · rw [ok _ _ _ _ hx]; exact List.mem_cons_self ..
      · exact List.mem_cons_of_mem _ (ih _ _ _ h)

/-- The shadow of a sweep is the state in which its acts have been made, one after another. -/
theorem sweep_shadow (s : State) (acc : Word) (l : List Nat) :
    (sweep hid shape elem s acc l).acts.foldl (applyAct hid shape) s = (sweep hid shape elem s acc l).shadow := by
  induction l generalizing s acc with
  | nil => rfl
  | cons p rest ih =>
    simp only [sweep]
    split
    · split <;> rfl
    · exact ih ..

/-- The running value of a sweep. -/
theorem sweep_acc (s : State) (acc : Word) (l : List Nat) :
    (sweep hid shape elem s acc l).acts.foldl (fun v a => (actFold a).getD v) acc = (sweep hid shape elem s acc l).acc := by
  induction l generalizing s acc with
  | nil => rfl
  | cons p rest ih =>
    simp only [sweep]
    split
    · split <;> rfl
    · exact ih ..

end Sweep

/-! ### What committing a position leaves alone -/

/-- An effect that is no store to a control page keeps the queue of every hart, whose turn it is, and no cession. -/
theorem applyEffect_keeps (hid : Nat) (shape : Bool) (s : State) (x : Effect) (hx : ∀ pa v, x ≠ .ctl pa v) :
    (applyEffect hid shape s x).cur = s.cur ∧ (applyEffect hid shape s x).laneLimit = s.laneLimit ∧
    ∀ k, (hartAt (applyEffect hid shape s x) k).queue = (hartAt s k).queue ∧
      (hartAt (applyEffect hid shape s x) k).reclaim = (hartAt s k).reclaim ∧
      (hartAt (applyEffect hid shape s x) k).vxsr = (hartAt s k).vxsr ∧
      (hartAt (applyEffect hid shape s x) k).rq = (hartAt s k).rq := by
  cases x with
  | reg n width i v =>
    refine ⟨rfl, rfl, fun k => ?_⟩
    simp only [applyEffect, hartAt_setHart]
    split
    · subst k; unfold putElem setVreg; split <;> exact ⟨rfl, rfl, rfl, rfl⟩
    · exact ⟨rfl, rfl, rfl, rfl⟩
  | mask m i b =>
    refine ⟨rfl, rfl, fun k => ?_⟩
    simp only [applyEffect, hartAt_setHart]
    split
    · subst k; unfold setMaskBit; split <;> exact ⟨rfl, rfl, rfl, rfl⟩
    · exact ⟨rfl, rfl, rfl, rfl⟩
  | lq q r i width v =>
    refine ⟨rfl, rfl, fun k => ?_⟩
    simp only [applyEffect, hartAt_setHart]
    split
    · subst k; split <;> exact ⟨rfl, rfl, rfl, rfl⟩
    · exact ⟨rfl, rfl, rfl, rfl⟩
  | lqVa q p va =>
    refine ⟨rfl, rfl, fun k => ?_⟩
    simp only [applyEffect, hartAt_setHart]
    split
    · subst k; split <;> exact ⟨rfl, rfl, rfl, rfl⟩
    · exact ⟨rfl, rfl, rfl, rfl⟩
  | fold v => exact ⟨rfl, rfl, fun k => ⟨rfl, rfl, rfl, rfl⟩⟩
  | cache l =>
    clear hx
    have h : ∀ s : State, (cacheSpan s l).cur = s.cur ∧ (cacheSpan s l).laneLimit = s.laneLimit ∧
        (cacheSpan s l).harts = s.harts := by
      induction l with
      | nil => intro s; exact ⟨rfl, rfl, rfl⟩
      | cons y rest ih =>
        intro s
        have : cacheSpan s (y :: rest) = cacheSpan (cacheXlat s y.1) rest := rfl
        rw [this]
        obtain ⟨a, b, c⟩ := ih (cacheXlat s y.1)
        rw [a, b, c]
        obtain ⟨t, h⟩ := cacheXlat_eq s y.1
        rw [h]; exact ⟨rfl, rfl, rfl⟩
    obtain ⟨a, b, c⟩ := h (askSpan s l)
    refine ⟨a, b, fun k => ?_⟩
    have e : hartAt (applyEffect hid shape s (.cache l)) k = hartAt s k := by
      unfold hartAt applyEffect; simp only [c]; rfl
    rw [e]; exact ⟨rfl, rfl, rfl, rfl⟩
  | clean => exact ⟨rfl, rfl, fun k => ⟨rfl, rfl, rfl, rfl⟩⟩
  | mem l bs =>
    clear hx
    have h : ∀ (s : State) bs, (writeSpan s hid l bs).cur = s.cur ∧ (writeSpan s hid l bs).laneLimit = s.laneLimit ∧
        (writeSpan s hid l bs).harts = s.harts := by
      induction l with
      | nil => intro s bs; exact ⟨rfl, rfl, rfl⟩
      | cons y rest ih =>
        intro s bs
        simp only [writeSpan]
        obtain ⟨a, b, c⟩ := ih (hartStore s hid (epochOf s y.1.place.key) y.1.place.pa (bs.take y.2)) (bs.drop y.2)
        rw [a, b, c]
        obtain ⟨t, h⟩ := hartStore_eq s hid (epochOf s y.1.place.key) y.1.place.pa (bs.take y.2)
        rw [h]; exact ⟨rfl, rfl, rfl⟩
    obtain ⟨a, b, c⟩ := h s bs
    refine ⟨a, b, fun k => ?_⟩
    have e : hartAt (applyEffect hid shape s (.mem l bs)) k = hartAt s k := by
      simp only [applyEffect, hartAt, c]
    rw [e]; exact ⟨rfl, rfl, rfl, rfl⟩
  | ctl pa v => exact absurd rfl (hx pa v)
  | buf sp a bs => exact ⟨rfl, rfl, fun k => ⟨rfl, rfl, rfl, rfl⟩⟩
  | freeTo n => exact ⟨rfl, rfl, fun k => ⟨rfl, rfl, rfl, rfl⟩⟩
  | snap y =>
    refine ⟨rfl, rfl, fun k => ?_⟩
    simp only [applyEffect, hartAt_setHart]
    split
    · subst k; exact ⟨rfl, rfl, rfl, rfl⟩
    · exact ⟨rfl, rfl, rfl, rfl⟩
  | tile t i v => exact ⟨rfl, rfl, fun k => ⟨rfl, rfl, rfl, rfl⟩⟩
  | depthMax t => exact ⟨rfl, rfl, fun k => ⟨rfl, rfl, rfl, rfl⟩⟩

/-- Acts with no store to a control page. -/
def plainActs (l : List Act) : Prop := ∀ a ∈ l, ∀ x ∈ a.effs, ∀ pa v, x ≠ .ctl pa v

theorem applyEffects_keep (hid : Nat) (shape : Bool) (l : List Effect) (h : ∀ x ∈ l, ∀ pa v, x ≠ .ctl pa v) (s : State) :
    let t := l.foldl (applyEffect hid shape) s
    t.cur = s.cur ∧ t.laneLimit = s.laneLimit ∧ ∀ k, (hartAt t k).queue = (hartAt s k).queue ∧
      (hartAt t k).reclaim = (hartAt s k).reclaim ∧ (hartAt t k).vxsr = (hartAt s k).vxsr ∧ (hartAt t k).rq = (hartAt s k).rq := by
  induction l generalizing s with
  | nil => exact ⟨rfl, rfl, fun k => ⟨rfl, rfl, rfl, rfl⟩⟩
  | cons x rest ih =>
    obtain ⟨a, b, c⟩ := applyEffect_keeps hid shape s x (h x (List.mem_cons_self ..))
    obtain ⟨a', b', c'⟩ := ih (fun y hy => h y (List.mem_cons_of_mem _ hy)) (applyEffect hid shape s x)
    refine ⟨a'.trans a, b'.trans b, fun k => ?_⟩
    obtain ⟨p, q, r, t⟩ := c k
    obtain ⟨p', q', r', t'⟩ := c' k
    exact ⟨p'.trans p, q'.trans q, r'.trans r, t'.trans t⟩

theorem applyActs_keep (hid : Nat) (shape : Bool) (l : List Act) (h : plainActs l) (s : State) :
    let t := l.foldl (applyAct hid shape) s
    t.cur = s.cur ∧ t.laneLimit = s.laneLimit ∧ ∀ k, (hartAt t k).queue = (hartAt s k).queue ∧
      (hartAt t k).reclaim = (hartAt s k).reclaim ∧ (hartAt t k).vxsr = (hartAt s k).vxsr ∧ (hartAt t k).rq = (hartAt s k).rq := by
  induction l generalizing s with
  | nil => exact ⟨rfl, rfl, fun k => ⟨rfl, rfl, rfl, rfl⟩⟩
  | cons x rest ih =>
    obtain ⟨a, b, c⟩ := applyEffects_keep hid shape x.effs (h x (List.mem_cons_self ..)) s
    obtain ⟨a', b', c'⟩ := ih (fun y hy => h y (List.mem_cons_of_mem _ hy)) (applyAct hid shape s x)
    refine ⟨a'.trans a, b'.trans b, fun k => ?_⟩
    obtain ⟨p, q, r, t⟩ := c k
    obtain ⟨p', q', r', t'⟩ := c' k
    exact ⟨p'.trans p, q'.trans q, r'.trans r, t'.trans t⟩


/-! ### The turn of a word that is alone -/

theorem keysLeft_lt (e : Entry) (p : Nat) (h : p ∈ keysLeft e) : p < noLimit := by
  unfold keysLeft at h
  split at h
  · cases h
  · have := (List.mem_filter.1 h).1
    unfold sweepKeys at this
    simp only [List.mem_flatMap, List.mem_range, List.mem_map] at this
    obtain ⟨r, hr, i, hi, rfl⟩ := this
    have := e.rows.isLt
    have := e.vl.isLt
    unfold posKey noLimit
    omega

theorem takeWhile_all {α : Type} (p : α → Bool) (l : List α) (h : ∀ a ∈ l, p a = true) : l.takeWhile p = l := by
  induction l with
  | nil => rfl
  | cons a rest ih =>
    rw [List.takeWhile_cons, if_pos (h a (List.mem_cons_self ..)), ih fun b hb => h b (List.mem_cons_of_mem _ hb)]

theorem headConvoy_alone (e : Entry) : headConvoy [e] = [e] := rfl

variable {s : State} {e : Entry} {c : EClass} {w : EFields} {hid : Nat}

theorem noClash (x : Uses) : clashes x Uses.none = false := by simp [clashes, overlap, Uses.none]

/-- Nothing holds back a word of the lanes that is alone in its convoy. -/
theorem holdOf_alone (g : RoundCfg) (u : Uses) (hen : engineWord c = false) : holdOf g (Planning.start s) e c w u = .free := by
  have ho : overlap u.reads [] = false := by simp [overlap]
  unfold holdOf pageHold
  simp [Planning.start, noClash, Hold.when, Hold.or, hen, ho, holdsStrict]

/-- An element-wise word alone, but a VLD to a load queue, is planned as its whole sweep. -/
theorem planWord_alone (hcls : queuedClass e.word = some (c, w)) (hel : elementWise c = true) (hc : e.complete = false)
    (hlq : fillsQueue c = false) (hold strict : Bool) (r : Swept)
    (hr : r = sweep hid e.shape (elemAt s.mem (hartAt s hid) hid e c w) s (foldValue e) (keysLeft e)) (hs : r.stall = none) :
    ∃ p, planWord ⟨s.mem, hid, hold, strict, none⟩ (Planning.start s) e = (.swept r noLimit false, p) := by
  have hen : engineWord c = false := by simp [engineWord, hel]
  have hk : computeKeys e c noLimit = keysLeft e := by
    unfold computeKeys keysToRead
    rw [List.filter_filter, List.filter_eq_self]
    intro p hp
    simp [hlq, keysLeft_lt e p hp]
  have hne : (c = EClass.mopa) = False := by
    apply eq_false; rintro rfl; simp [elementWise] at hel
  unfold planWord
  simp only [hc, hcls, holdOf_alone (s := s) (e := e) (w := w) _ _ hen, hne, hen, hel, if_true, if_false, Bool.false_eq_true]
  have hd : ((isVamo c || overlap (usesOf c w e.rows.toNat).reads []) && !isVamo c) = false := by
    cases isVamo c <;> simp [overlap]
  simp only [planLanes, planSweep, RoundCfg.found, Option.filter_none, Planning.start, List.map_nil, List.foldl_nil, hk, ← hr, hs, hd]
  exact ⟨_, rfl⟩

/-- A word alone in its queue pushes its entries when there is room for them (R123). -/
theorem pushReady_alone (h : Hart) (hcls : queuedClass e.word = some (c, w))
    (hroom : rqPushes c e.rows.toNat = 0 ∨ h.rq.length + rqPushes c e.rows.toNat ≤ 16) : pushReady h 0 (pushesOf e) = true := by
  have hn : pushesOf e = rqPushes c e.rows.toNat := by simp [pushesOf, owed, hcls]
  rw [hn]
  obtain h0 | h1 := hroom
  · simp [pushReady, h0]
  · simp [pushReady, owed, h1]

/-- What a sweep that is not cut short leaves: its acts made, poison that a store covers gone, its word complete. -/
theorem commitSweep_all (r : Swept) (hpos : ∀ a ∈ r.acts, a.pos < noLimit)
    (hready : pushReady (hartAt r.shadow hid) 0 (pushesOf e) = true)
    (hsh : r.acts.foldl (applyAct hid e.shape) s = r.shadow)
    (hacc : r.acts.foldl (fun v a => (actFold a).getD v) (foldValue e) = r.acc) :
    commitSweep s hid 0 e c r noLimit =
      (let b := { r.shadow with mem := unpoison r.shadow.mem (storedRanges r.acts) }
       let b := editEntry b hid 0 fun x => { x with flags := e.flags ||| orActs r.acts, fold := r.acc }
       setHart b hid (completeAt (hartAt b hid) 0 (flagIf e.icx flagICX) (foldPush e c r.acc))) := by
  have h1 : r.acts.takeWhile (fun a => decide (a.pos < noLimit)) = r.acts :=
    takeWhile_all _ _ fun a ha => decide_eq_true (hpos a ha)
  have h2 : (keysLeft e).all (fun p => decide (p < noLimit)) = true :=
    List.all_eq_true.2 fun p hp => decide_eq_true (keysLeft_lt e p hp)
  have h3 : pushReady (hartAt { r.shadow with mem := unpoison r.shadow.mem (storedRanges r.acts) } hid) 0 (pushesOf e) = true := hready
  unfold commitSweep
  simp only [h1, hsh, hacc, h2, h3, Bool.and_true, if_true]

/-- The engines have nothing to do with a word of the lanes that is alone, or has completed. -/
theorem engine_idle (s : State) (hid limit : Nat) (e : Entry) (hq : (hartAt s hid).queue = [e])
    (h : e.complete = true ∨ ∃ c w, queuedClass e.word = some (c, w) ∧ engineWord c = false) :
    engineEach hid limit s (engineOrder (headConvoy (hartAt s hid).queue)) = (s, none) := by
  have ha : engineAtIndex s hid limit 0 = (s, none) := by
    unfold engineAtIndex
    simp only [hq, headConvoy_alone, List.getElem?_cons_zero]
    obtain h | ⟨c, w, h, hen⟩ := h
    · split
      · rfl
      · simp [h]
    · simp [h, hen]
  rw [hq, headConvoy_alone]
  unfold engineOrder
  simp only [List.length_singleton, List.range_one, List.filter_cons, List.filter_nil, List.getElem?_cons_zero]
  have hl : ∀ b : Bool, (if b = true then [0] else []) ++ (if (!b) = true then [0] else []) = [0] := by
    intro b; cases b <;> rfl
  rw [hl]
  simp [engineEach, ha]

theorem settleQueue_done (l : List Item) (x : Item) (hid : Nat) (s : State)
    (h : ∀ e, (hartAt s hid).queue[x.idx]? = some e → e.complete = true) : settleQueue l hid s x = s := by
  unfold settleQueue
  split
  · next c w e _ he => simp [h e he]
  · rfl

theorem mopaAll_none (i limit hid : Nat) (e : Entry) (p : Plan) (s : State) (h : (p == Plan.mopa) = false) :
    mopaAll [⟨i, e, p⟩] limit hid s = ⟨s, none, false⟩ := by
  simp [mopaAll, h]

/-- A round that finds only a completed word does nothing. -/
theorem round_done (s : State) (hid limit : Nat) (hold : Bool) (e : Entry) (hq : (hartAt s hid).queue = [e])
    (h : e.complete = true) : round s hid limit hold none = ⟨s, none, false⟩ := by
  have hp : planRound s hid limit hold none = ([⟨0, e, .past⟩], Planning.start s) := by
    unfold planRound
    simp [hq, headConvoy_alone, planAll, planWord, h, itemsOf, settled, firstFault, Plan.fault]
  unfold Machine.round
  simp only [hp, List.foldl_cons, List.foldl_nil, commitItem, firstFault, Plan.fault]
  rw [mopaAll_none _ _ _ _ _ _ (by simp), settleQueue_done]
  · simp [Planning.start]
  · intro e' he'
    simp only [hq, List.getElem?_cons_zero, Option.some.injEq] at he'
    exact he' ▸ h

theorem turnLoop_done (s : State) (hid limit n : Nat) (e : Entry) (hq : (hartAt s hid).queue = [e])
    (h : e.complete = true) : turnLoop hid limit (n + 1) s = s := by
  unfold turnLoop
  rw [round_done s hid limit true e hq h]
  simp only [engine_idle s hid limit e hq (.inl h), if_true, ite_self]

theorem completeAt_queue (h : Hart) (flags : BitVec 8) (push : List Word) (hq : ∃ e, h.queue = [e]) :
    ∃ e', (completeAt h 0 flags push).queue = [e'] ∧ e'.complete = true := by
  obtain ⟨e, hq⟩ := hq
  have hr : (restartTimer h 0).queue = [e] := by unfold restartTimer; split <;> exact hq
  exact ⟨{ e with complete := true, claims := [], flags := 0, done := endDone e }, by
    simp [completeAt, pushRq, orFlags, updateEntry, hr], rfl⟩

/-- A sweep that is alone in its convoy and not cut short commits whole. -/
theorem commitItem_alone (hcls : queuedClass e.word = some (c, w)) (hlq : fillsQueue c = false) (r : Swept) (hf : r.fault = none)
    (hs : r.stall = none) (limit : Nat) :
    commitItem [⟨0, e, .swept r limit false⟩] limit hid s ⟨0, e, .swept r limit false⟩ = commitSweep s hid 0 e c r limit := by
  have hreach : Item.reach ⟨0, e, .swept r limit false⟩ = none := by simp [Item.reach, hf, hs]
  simp only [commitItem, hcls, hlq, hs, boundOf, hreach, Nat.min_self, List.foldl_cons, List.foldl_nil, Bool.false_eq_true, if_false]

/-- The round of an element-wise word that is alone and meets neither a fault nor a page whose accesses stall. -/
theorem round_alone (hq : (hartAt s hid).queue = [e]) (hcls : queuedClass e.word = some (c, w)) (hel : elementWise c = true)
    (hc : e.complete = false) (hlq : fillsQueue c = false) (r : Swept)
    (hr : r = sweep hid e.shape (elemAt s.mem (hartAt s hid) hid e c w) s (foldValue e) (keysLeft e))
    (hf : r.fault = none) (hs : r.stall = none) :
    (round s hid noLimit true none).state = commitSweep s hid 0 e c r noLimit ∧ (round s hid noLimit true none).fault = none := by
  obtain ⟨p, hplan⟩ := planWord_alone (s := s) (hid := hid) hcls hel hc hlq true false r hr hs
  have hset : settled [⟨0, e, .swept r noLimit false⟩] noLimit = true := by
    have := List.all_eq_true.2 fun p hp => decide_eq_true (keysLeft_lt e p hp)
    simp [settled, firstFault, Plan.fault, hf, hs, this]
  have hp : planRound s hid noLimit true none = ([⟨0, e, .swept r noLimit false⟩], p) := by
    unfold planRound
    simp [hq, headConvoy_alone, planAll, hplan, itemsOf, hset]
  have hst : ∀ l t, settleQueue l hid t ⟨0, e, .swept r noLimit false⟩ = t := by
    intro l t
    unfold settleQueue
    simp only [hcls]
    split
    · next heq _ => cases heq; simp [hlq]
    · rfl
  unfold Machine.round
  simp only [hp, List.foldl_cons, List.foldl_nil, commitItem_alone hcls hlq r hf hs, firstFault, Plan.fault, hf]
  rw [mopaAll_none _ _ _ _ _ _ (by simp), hst]
  exact ⟨rfl, rfl⟩

/-- The turn of an element-wise word that is alone and meets neither a fault nor a page whose accesses stall. -/
theorem turnLoop_alone (n : Nat) (hq : (hartAt s hid).queue = [e]) (hcls : queuedClass e.word = some (c, w))
    (hel : elementWise c = true) (hc : e.complete = false) (hlq : fillsQueue c = false) (hi : issuing (hartAt s hid) = true)
    (r : Swept) (hr : r = sweep hid e.shape (elemAt s.mem (hartAt s hid) hid e c w) s (foldValue e) (keysLeft e))
    (hf : r.fault = none) (hs : r.stall = none) (hp : plainActs r.acts)
    (hroom : rqPushes c e.rows.toNat = 0 ∨ (hartAt s hid).rq.length + rqPushes c e.rows.toNat ≤ 16) :
    turnLoop hid noLimit (n + 2) s =
      (let b := { r.shadow with mem := unpoison r.shadow.mem (storedRanges r.acts) }
       let b := editEntry b hid 0 fun x => { x with flags := e.flags ||| orActs r.acts, fold := r.acc }
       setHart b hid (completeAt (hartAt b hid) 0 (flagIf e.icx flagICX) (foldPush e c r.acc))) := by
  have hpos : ∀ a ∈ r.acts, a.pos < noLimit := by
    intro a ha
    rw [hr] at ha
    exact keysLeft_lt e _ (sweep_pos hid e.shape _ (fun _ _ _ _ h => elemAt_pos _ _ _ _ _ _ _ _ _ _ h) s _ _ a ha)
  have hsh : r.acts.foldl (applyAct hid e.shape) s = r.shadow := by rw [hr]; exact sweep_shadow ..
  have hacc : r.acts.foldl (fun v a => (actFold a).getD v) (foldValue e) = r.acc := by rw [hr]; exact sweep_acc ..
  have hround := round_alone hq hcls hel hc hlq r hr hf hs
  have hkeep := (applyActs_keep hid e.shape r.acts hp s).2.2 hid
  rw [hsh] at hkeep
  have hready := pushReady_alone (hartAt r.shadow hid) hcls (by rw [hkeep.2.2.2]; exact hroom)
  have hcm := commitSweep_all (s := s) (hid := hid) (e := e) (c := c) r hpos hready hsh hacc
  have hqc : ∃ e', (hartAt (commitSweep s hid 0 e c r noLimit) hid).queue = [e'] ∧ e'.complete = true := by
    rw [hcm]
    have hx : (hartAt { r.shadow with mem := unpoison r.shadow.mem (storedRanges r.acts) } hid).queue = [e] :=
      hkeep.1.trans hq
    rw [hartAt_setHart, if_pos rfl]
    refine completeAt_queue _ _ _ ?_
    simp only [editEntry, hartAt_setHart, if_true, updateEntry, hx]
    exact ⟨_, rfl⟩
  rw [← hcm]
  clear hcm
  generalize commitSweep s hid 0 e c r noLimit = t at hround hqc ⊢
  obtain ⟨e', hq', hc'⟩ := hqc
  have hne : ¬ ((hartAt t hid).queue = (hartAt s hid).queue) := by
    rw [hq', hq]; intro h; cases h; simp [hc] at hc'
  have hen := engine_idle t hid noLimit e' hq' (.inl hc')
  unfold turnLoop
  simp only [hi, hround.1, hround.2, hen, if_neg hne, Bool.not_true, Bool.false_eq_true, if_false]
  exact turnLoop_done t hid noLimit n e' hq' hc'

/-! ### The end of a turn -/

theorem tryCede_none (s : State) (hid : Nat) (h : (hartAt s hid).reclaim.after = none) : tryCede s hid = s := by
  unfold tryCede; simp only [h]

theorem freeEntries_alone (h : Hart) (e : Entry) (hq : h.queue = [e]) (hc : e.complete = true) :
    freeEntries h = { h with queue := [], inWindow := false } := by
  simp [freeEntries, hq, hc]

theorem syncProgress_nil (h : Hart) (hq : h.queue = []) : syncProgress h = h := by
  obtain ⟨⟩ := h
  cases hq
  rfl

theorem completeAt_alone (h : Hart) (e : Entry) (flags : BitVec 8) (push : List Word) (hq : h.queue = [e]) (hc : e.complete = false) :
    completeAt h 0 flags push = { h with
      queue := [{ e with complete := true, claims := [], flags := 0, done := endDone e }]
      vxsr := h.vxsr ||| (flags ||| e.flags), rq := h.rq ++ push
      vstart := if h.qStopped then h.vstart else 0
      rstate := if h.qStopped then h.rstate else 0
      kprog := if h.qStopped then h.kprog else 0
      images := h.images.filter fun x => x.reader != e.seq.toNat + 1
      timer := 0, stalled := false } := by
  have ho : oldest h = some 0 := by simp [oldest, hq, hc]
  simp [completeAt, restartTimer, ho, pushRq, orFlags, updateEntry, hq]

/-- A turn whose only word has completed ends with an empty queue. -/
theorem endTurn_alone (s : State) (hid : Nat) (e : Entry) (hq : (hartAt s hid).queue = [e]) (hc : e.complete = true)
    (hre : (hartAt s hid).reclaim.after = none) :
    endTurn s hid = setHart s hid { hartAt s hid with queue := [], inWindow := false } := by
  have hr : retireWords s hid = setHart s hid { hartAt s hid with queue := [], inWindow := false } := by
    unfold retireWords
    simp only [freeEntries_alone _ e hq hc, syncProgress_nil { hartAt s hid with queue := [], inWindow := false } rfl, ite_self]
    simp [joinWindow, issuing]
  rw [endTurn, hr, tryCede_none]
  simpa using hre

/-- The head convoy enters the window: of the hart nothing else changes. -/
theorem enterWindow_hart (s : State) (hid : Nat) : hartAt (enterWindow s hid) hid = { hartAt s hid with inWindow := true } := by
  simp [enterWindow, hartAt, setCore, setHart, fmGet_fmSet]

theorem enterWindow_other (s : State) (hid k : Nat) (h : hid ≠ k) : hartAt (enterWindow s hid) k = hartAt s k := by
  simp [enterWindow, hartAt, setCore, setHart, fmGet_fmSet, h]

theorem enterWindow_cur (s : State) (hid : Nat) : (enterWindow s hid).cur = s.cur := rfl

end Sys2Proof.Laws
end

