-- ==== Sys2Proof/Tests/Slice0.lean ====
section
/-! SUPPORT. Tests: words written out from the encoding tables, ill-formed terms, single steps with values worked out from
the spec, and for each statement states and operands that meet its hypotheses. -/

namespace Sys2Proof.Tests

open Sys2Proof Sys2Proof.Machine Sys2Proof.Safety

set_option Elab.async false

/-! ### Helpers -/

/-- Every G-word of the list, with the literal after it, decodes to the instruction beside it. -/
def readsG (l : List (BitVec 32 × Word × Instr)) : Bool :=
  l.all fun p => match decodeG p.1 p.2.1 with
    | .ok i => decide (i = p.2.2) && i.wf
    | .error _ => false

/-- Every E-word of the list decodes to the instruction beside it. -/
def readsE (l : List (Word × Instr)) : Bool :=
  l.all fun p => match decodeE p.1 with
    | .ok i => decide (i = p.2) && i.wf
    | .error _ => false

theorem decodeG_of_readsG {w : BitVec 32} {lit : Word} {i : Instr} (h : readsG [(w, lit, i)] = true) : decodeG w lit = .ok i := by
  simp only [readsG, List.all_cons, List.all_nil, Bool.and_true] at h
  split at h <;> simp_all

theorem decodeE_of_readsE {w : Word} {i : Instr} (h : readsE [(w, i)] = true) : decodeE w = .ok i := by
  simp only [readsE, List.all_cons, List.all_nil, Bool.and_true] at h
  split at h <;> simp_all

/-- A running hart with four lane clusters, whose address space is the first 32 GiB of the package (and, with the entry ctlEntry, the
control region above it). -/
def hart0 : Hart := { Hart.reset with
  ctl := .run, own := 15, vstate := .present, root := 0x80001, windows := Vector.replicate 8 ⟨0, 0xFFFFFFF8001F⟩ }

/-- The table entry that maps VA 0x8_0000_0000 on to the control region (R298, R299). -/
def ctlEntry : Nat × Nat := (0x80008, 0xC0000000001F)

/-- hart0 with some registers. -/
def withRegs (l : List (Nat × Word)) : Hart := l.foldl (fun h p => wr h (BitVec.ofNat 6 p.1) p.2) hart0

/-- The machine with one hart, its translation table, and some doublewords of memory. -/
def on (h : Hart) (dws : List (Nat × Nat) := []) : State := { State.reset with
  harts := [(0, h)], mem := dws.foldl (fun m p => writeMem m 0 p.1 8 p.2) ⟨[(0x80000, 0x1F)], [], [], [], []⟩ }

/-- The result is a next state, of which p holds. -/
def gives (r : Result) (p : State → Bool) : Bool :=
  match r with
  | .next t => p t
  | _ => false

/-- Executing i answers a next state, of which p holds. -/
def runs (i : Instr) (s : State) (p : State → Bool) : Bool := gives (exec i s) p

/-- Each instruction leaves its value in s3, with PC 4 on. -/
def leaves (s : State) (l : List (Instr × Word)) : Bool :=
  l.all fun p => runs p.1 s fun t => rd (curHart t) 3 == p.2 && (curHart t).pc == (curHart s).pc + 4

/-- Executing i traps the current hart with this class, code and ADDRESS. -/
def traps (i : Instr) (s : State) (cls code : Nat) (addr : Word) : Bool :=
  runs i s fun t => let g := curHart t
    decide (g.ctl = .trapped) && field g.trapRec.cause 20 8 == cls && field g.trapRec.cause 0 20 == code &&
      g.trapRec.addr == addr && g.pc == (curHart s).pc

/-- Executing i leaves the current hart waiting at it. -/
def waits (i : Instr) (s : State) : Bool :=
  runs i s fun t => (curHart t).stalled && (curHart t).pc == (curHart s).pc

/-- The answer is a value of which p holds. -/
def okAnd {ε α : Type} (r : Except ε α) (p : α → Bool) : Bool :=
  match r with
  | .ok x => p x
  | .error _ => false

/-- The answer is an error of which p holds. -/
def errAnd {ε α : Type} (r : Except ε α) (p : ε → Bool) : Bool :=
  match r with
  | .ok _ => false
  | .error x => p x

/-- The E-word of an instruction. -/
def wordOf (i : Instr) : Word := (encodeE i).getD 0

/-! ### Words written out from the encoding tables -/

/-- ALU-R by fn 0x00 to 0x17 (R67): d 3, a 21, b 42. -/
theorem decode_alu_words : readsG [
    (0b000001_000011_010101_101010_00000000, 0, .add 3 21 42),
    (0b000001_000011_010101_101010_00000001, 0, .sub 3 21 42),
    (0b000001_000011_010101_101010_00000010, 0, .and 3 21 42),
    (0b000001_000011_010101_101010_00000011, 0, .or 3 21 42),
    (0b000001_000011_010101_101010_00000100, 0, .xor 3 21 42),
    (0b000001_000011_010101_101010_00000101, 0, .shl 3 21 42),
    (0b000001_000011_010101_101010_00000110, 0, .shr 3 21 42),
    (0b000001_000011_010101_101010_00000111, 0, .sar 3 21 42),
    (0b000001_000011_010101_101010_00001000, 0, .mul 3 21 42),
    (0b000001_000011_010101_101010_00001001, 0, .mulh 3 21 42),
    (0b000001_000011_010101_101010_00001010, 0, .mulhu 3 21 42),
    (0b000001_000011_010101_101010_00001011, 0, .div 3 21 42),
    (0b000001_000011_010101_101010_00001100, 0, .divu 3 21 42),
    (0b000001_000011_010101_101010_00001101, 0, .rem 3 21 42),
    (0b000001_000011_010101_101010_00001110, 0, .remu 3 21 42),
    (0b000001_000011_010101_101010_00001111, 0, .min 3 21 42),
    (0b000001_000011_010101_101010_00010000, 0, .max 3 21 42),
    (0b000001_000011_010101_101010_00010001, 0, .minu 3 21 42),
    (0b000001_000011_010101_101010_00010010, 0, .maxu 3 21 42),
    (0b000001_000011_010101_101010_00010011, 0, .slt 3 21 42),
    (0b000001_000011_010101_101010_00010100, 0, .sltu 3 21 42),
    (0b000001_000011_010101_101010_00010101, 0, .seq 3 21 42),
    (0b000001_000011_010101_000000_00010110, 0, .clz 3 21),
    (0b000001_000011_010101_000000_00010111, 0, .popc 3 21)] = true := by decide +kernel

/-- Majors 0x02 to 0x0D (R66). -/
theorem decode_immediate_words : readsG [
    (0b000010_000101_000110_11111111111110, 0, .addi 5 6 (-2)),
    (0b000011_000101_000110_11111111111110, 0, .andi 5 6 (-2)),
    (0b000100_000101_000110_11111111111110, 0, .ori 5 6 (-2)),
    (0b000101_000101_000110_11111111111110, 0, .xori 5 6 (-2)),
    (0b000110_000101_000110_11111111111110, 0, .slti 5 6 (-2)),
    (0b000111_000101_000110_11111111111110, 0, .sltiu 5 6 (-2)),
    (0b001000_001001_001010_00_000000_100001, 0, .shli 9 10 33),
    (0b001000_001001_001010_01_000000_100001, 0, .shri 9 10 33),
    (0b001000_001001_001010_10_000000_100001, 0, .sari 9 10 33),
    (0b001001_001001_00000000000001000000, 0, .lui 9 0x40),
    (0b001011_000111_11111111111111111111, 0, .auipc 7 (-1)),
    (0b001100_000101_000110_001000_000011_00, 0, .ins 5 6 8 3),
    (0b001101_000110_000101_001000_000011_00, 0, .ext 6 5 8 3)] = true := by decide +kernel

/-- FP-R: fn[4:0] the operation, fn[7:5] the rounding mode (R44, R67); FMA (R66). -/
theorem decode_float_words : readsG [
    (0b001110_000001_000010_000011_000_00000, 0, .fadd 1 2 3 .rne),
    (0b001110_000001_000010_000011_001_00001, 0, .fsub 1 2 3 .rtz),
    (0b001110_000001_000010_000011_010_00010, 0, .fmul 1 2 3 .rdn),
    (0b001110_000001_000010_000011_011_00011, 0, .fdiv 1 2 3 .rup),
    (0b001110_000001_000010_000011_100_00100, 0, .fmin 1 2 3 .rmm),
    (0b001110_000001_000010_000011_000_00101, 0, .fmax 1 2 3 .rne),
    (0b001110_000001_000010_000000_100_00110, 0, .fsqrt 1 2 .rmm),
    (0b001110_000001_000010_000000_100_00111, 0, .fcvtW 1 2 .rmm),
    (0b001110_000001_000010_000000_100_01000, 0, .fcvtS 1 2 .rmm),
    (0b001110_000001_000010_000011_000_01001, 0, .feq 1 2 3),
    (0b001110_000001_000010_000011_000_01010, 0, .flt 1 2 3),
    (0b001110_000001_000010_000011_000_01011, 0, .fle 1 2 3),
    (0b001111_000100_000101_000110_000111_00, 0, .fma 4 5 6 7)] = true := by decide +kernel

/-- GB, JAL and JALR (R66). -/
theorem decode_branch_words : readsG [
    (0b010000_001011_001100_11111111111101, 0, .beq 11 12 (-3)),
    (0b010001_001011_001100_11111111111101, 0, .bne 11 12 (-3)),
    (0b010010_001011_001100_11111111111101, 0, .blt 11 12 (-3)),
    (0b010011_001011_001100_11111111111101, 0, .bge 11 12 (-3)),
    (0b010100_001011_001100_11111111111101, 0, .bltu 11 12 (-3)),
    (0b010101_001011_001100_11111111111101, 0, .bgeu 11 12 (-3)),
    (0b010110_111111_11111111111111111100, 0, .jal 63 (-4)),
    (0b010111_000000_111111_00000000000001, 0, .jalr 0 63 1)] = true := by decide +kernel

/-- GM and GA (R63, R66). -/
theorem decode_memory_words : readsG [
    (0b011000_001101_010100_00_00_1_111111111, 0, .ld 13 20 .b .plain true (-1)),
    (0b011000_001101_010100_01_01_1_000000010, 0, .ld 13 20 .h .sync true 2),
    (0b011000_001101_010100_10_10_0_000000011, 0, .ld 13 20 .w .nt false 3),
    (0b011000_001101_010100_11_00_0_011111111, 0, .ld 13 20 .d .plain false 255),
    (0b011001_001111_010101_11_01_0_000000001, 0, .st 15 21 .d .sync 1),
    (0b011010_001001_001010_001000_0000_000_0, 0, .amo 9 10 8 .add .hart false),
    (0b011010_001001_001010_001000_0001_001_1, 0, .amo 9 10 8 .and .core true),
    (0b011010_001001_001010_001000_0010_010_0, 0, .amo 9 10 8 .or .cluster false),
    (0b011010_001001_001010_001000_0011_011_1, 0, .amo 9 10 8 .xor .die true),
    (0b011010_001001_001010_001000_0100_100_0, 0, .amo 9 10 8 .min .package false),
    (0b011010_001001_001010_001000_0101_101_1, 0, .amo 9 10 8 .max .fabric true),
    (0b011010_001001_001010_001000_0110_110_0, 0, .amo 9 10 8 .minu .system false),
    (0b011010_001001_001010_001000_0111_000_1, 0, .amo 9 10 8 .maxu .hart true),
    (0b011010_001001_001010_001000_1000_001_0, 0, .amo 9 10 8 .swap .core false),
    (0b011011_000101_001010_000110_0000_010_1, 0, .cas 5 10 6 .cluster true),
    (0b011100_000000_000000_000000_110_10111, 0, .fence .system 0b10111),
    (0b011101_00000000000000000000000000, 0, .tfence),
    (0b011110_001001_010100_010110_010111_00, 0, .wait 9 20 22 23)] = true := by decide +kernel

/-- Majors 0x1F to 0x32 but the three with a literal (R66). -/
theorem decode_system_words : readsG [
    (0b011111_000100_000000_00000000001100, 0, .gets 4 12),
    (0b100000_000000_000100_00000000001011, 0, .sets 4 11),
    (0b100001_000101_000100_000011_00000100, 0, .setvl 5 4 3 .e64),
    (0b100010_000110_000111_11111111111111, 0, .setrows 6 7 (-1)),
    (0b100011_000000_000000_00000000000001, 0, .vshape true),
    (0b100101_000000_001001_000000_00000000, 0, .emitr 9),
    (0b100111_001000_001001_000000_00000000, 0, .emitq 8 9),
    (0b101000_00000000000000000000000000, 0, .waitv),
    (0b101001_000111_000000_000000_00000000, 0, .rqpop 7),
    (0b101010_000111_000000_000000_00000000, 0, .fork 7),
    (0b101011_000111_001000_000000_00000000, 0, .join 7 8),
    (0b101100_000000_001000_001001_00000000, 0, .farm 8 9),
    (0b101101_000111_001000_000000_00000000, 0, .nexts 7 8),
    (0b101110_000000_000000_00000000000011, 0, .bar .die),
    (0b101111_010100_000000_00000000001001, 0, .slotq 20 9),
    (0b110000_000000_10101011110011011110, 0, .trap 0xABCDE),
    (0b110001_00000000000000000000000000, 0, .halt),
    (0b110010_00000000000000000000000000, 0, .yield)] = true := by decide +kernel

/-- The three G-words with a literal (R12, R65, R78). -/
theorem decode_literal_words : readsG [
    (0b001010_001001_00000000000000000000, 0xFEDCBA9876543210, .lil 9 0xFEDCBA9876543210),
    (0b100100_00000000000000000000000000, 0xFEDCBA9876543210, .emitl 0xFEDCBA9876543210),
    (0b100110_000011_000001_000010_01010001, 0xFEDCBA9876543210, .emitx 3 1 2 0b01010001 0xFEDCBA9876543210)] = true := by decide +kernel

/-- OP 0x01, fn 0 to 20: 32 is LQ0, 35 the broadcast of imm14 (R69, R72). -/
theorem decode_varith_words : readsE [
    (0b000001_1_0_000011_100000_100011_000110_0111_1_0000000_001000_11111111111001, .vadd ⟨true, 3, 32, 35, 6, 7, true, 8, 16377⟩),
    (0b000001_1_0_000011_100000_100011_000110_0111_1_0000001_001000_11111111111001, .vsub ⟨true, 3, 32, 35, 6, 7, true, 8, 16377⟩),
    (0b000001_1_0_000011_100000_100011_000110_0111_1_0000010_001000_11111111111001, .vmul ⟨true, 3, 32, 35, 6, 7, true, 8, 16377⟩),
    (0b000001_1_0_000011_100000_100011_000110_0111_1_0000011_001000_11111111111001, .vmulh ⟨true, 3, 32, 35, 6, 7, true, 8, 16377⟩),
    (0b000001_1_0_000011_100000_100011_000110_0111_1_0000100_001000_11111111111001, .vdiv ⟨true, 3, 32, 35, 6, 7, true, 8, 16377⟩),
    (0b000001_1_0_000011_100000_100011_000110_0111_1_0000101_001000_11111111111001, .vrem ⟨true, 3, 32, 35, 6, 7, true, 8, 16377⟩),
    (0b000001_1_0_000011_100000_100011_000110_0111_1_0000110_001000_11111111111001, .vmin ⟨true, 3, 32, 35, 6, 7, true, 8, 16377⟩),
    (0b000001_1_0_000011_100000_100011_000110_0111_1_0000111_001000_11111111111001, .vmax ⟨true, 3, 32, 35, 6, 7, true, 8, 16377⟩),
    (0b000001_1_0_000011_100000_100011_000110_0111_1_0001010_001000_11111111111001, .vand ⟨true, 3, 32, 35, 6, 7, true, 8, 16377⟩),
    (0b000001_1_0_000011_100000_100011_000110_0111_1_0001011_001000_11111111111001, .vor ⟨true, 3, 32, 35, 6, 7, true, 8, 16377⟩),
    (0b000001_1_0_000011_100000_100011_000110_0111_1_0001100_001000_11111111111001, .vxor ⟨true, 3, 32, 35, 6, 7, true, 8, 16377⟩),
    (0b000001_1_0_000011_100000_100011_000110_0111_1_0001110_001000_11111111111001, .vshl ⟨true, 3, 32, 35, 6, 7, true, 8, 16377⟩),
    (0b000001_1_0_000011_100000_100011_000110_0111_1_0001111_001000_11111111111001, .vshr ⟨true, 3, 32, 35, 6, 7, true, 8, 16377⟩),
    (0b000001_1_0_000011_011111_000000_000110_0111_1_0001000_001000_00000000000000, .vabs ⟨true, 3, 31, 0, 6, 7, true, 8, 0⟩),
    (0b000001_1_0_000011_011111_000000_000110_0111_1_0001001_001000_00000000000000, .vneg ⟨true, 3, 31, 0, 6, 7, true, 8, 0⟩),
    (0b000001_1_0_000011_011111_000000_000110_0111_1_0001101_001000_00000000000000, .vnot ⟨true, 3, 31, 0, 6, 7, true, 8, 0⟩),
    (0b000001_1_0_000011_011111_000000_000110_0111_1_0010000_001000_00000000000000, .vsqrt ⟨true, 3, 31, 0, 6, 7, true, 8, 0⟩),
    (0b000001_1_0_000011_011111_000000_000110_0111_1_0010001_001000_00000000000000, .vexp2 ⟨true, 3, 31, 0, 6, 7, true, 8, 0⟩),
    (0b000001_1_0_000011_011111_000000_000110_0111_1_0010010_001000_00000000000000, .vlog2 ⟨true, 3, 31, 0, 6, 7, true, 8, 0⟩),
    (0b000001_1_0_000011_011111_000000_000110_0111_1_0010011_001000_00000000000000, .vrsq ⟨true, 3, 31, 0, 6, 7, true, 8, 0⟩),
    (0b000001_1_0_000011_011111_000000_000110_0111_1_0010100_001000_00000000000000, .vrcp ⟨true, 3, 31, 0, 6, 7, true, 8, 0⟩)] = true := by decide +kernel

/-- OP 0x02, 0x04, 0x05 and 0x06 (R70, R72): 37 is m5. -/
theorem decode_mac_compare_words : readsE [
    (0b000010_1_0_000011_000100_000101_000110_0111_1_0000000_001000_00000000000000, .vmac ⟨true, 3, 4, 5, 6, 7, true, 8, 0⟩),
    (0b000010_1_0_000011_000100_000101_000110_0111_1_0000001_001000_00000000000000, .vnmac ⟨true, 3, 4, 5, 6, 7, true, 8, 0⟩),
    (0b000100_1_0_100101_000100_000101_000110_0111_1_0000000_001000_00000000000000, .vcmpEq ⟨true, 37, 4, 5, 6, 7, true, 8, 0⟩),
    (0b000100_1_0_100101_000100_000101_000110_0111_1_0000001_001000_00000000000000, .vcmpNe ⟨true, 37, 4, 5, 6, 7, true, 8, 0⟩),
    (0b000100_1_0_100101_000100_000101_000110_0111_1_0000010_001000_00000000000000, .vcmpLt ⟨true, 37, 4, 5, 6, 7, true, 8, 0⟩),
    (0b000100_1_0_100101_000100_000101_000110_0111_1_0000011_001000_00000000000000, .vcmpLe ⟨true, 37, 4, 5, 6, 7, true, 8, 0⟩),
    (0b000100_1_0_100101_000100_000101_000110_0111_1_0000100_001000_00000000000000, .vcmpGt ⟨true, 37, 4, 5, 6, 7, true, 8, 0⟩),
    (0b000100_1_0_100101_000100_000101_000110_0111_1_0000101_001000_00000000000000, .vcmpGe ⟨true, 37, 4, 5, 6, 7, true, 8, 0⟩),
    (0b000100_1_0_100101_000100_000101_000110_0111_1_0000110_001000_00000000000000, .vcmpUnord ⟨true, 37, 4, 5, 6, 7, true, 8, 0⟩),
    (0b000101_1_0_000011_000100_000101_000110_0111_1_0000000_001000_00000000000000, .vsel ⟨true, 3, 4, 5, 6, 7, true, 8, 0⟩),
    (0b000110_1_0_000011_000100_000000_000110_0111_1_0000000_001000_00000000000000, .vcvtCvt ⟨true, 3, 4, 0, 6, 7, true, 8, 0⟩),
    (0b000110_1_0_000011_000100_000000_000110_0111_1_0000001_001000_00000000000000, .vcvtRes ⟨true, 3, 4, 0, 6, 7, true, 8, 0⟩),
    (0b000110_1_0_000011_000100_000000_000110_0111_1_0000010_001000_00000000000000, .vcvtCrt ⟨true, 3, 4, 0, 6, 7, true, 8, 0⟩)] = true := by decide +kernel

/-- OP 0x07 (R72): 34 is the broadcast of register x, 48 the return queue. -/
theorem decode_permute_words : readsE [
    (0b000111_1_0_000011_000100_100010_000110_0111_1_0000000_001000_00000000000000, .slideup ⟨true, 3, 4, 34, 6, 7, true, 8, 0⟩),
    (0b000111_1_0_000011_000100_100010_000110_0111_1_0000001_001000_00000000000000, .slidedn ⟨true, 3, 4, 34, 6, 7, true, 8, 0⟩),
    (0b000111_1_0_000011_000100_100010_000110_0111_1_0000010_001000_00000000000000, .slide1up ⟨true, 3, 4, 34, 6, 7, true, 8, 0⟩),
    (0b000111_1_0_000011_000100_100010_000110_0111_1_0000011_001000_00000000000000, .slide1dn ⟨true, 3, 4, 34, 6, 7, true, 8, 0⟩),
    (0b000111_1_0_000011_000100_000101_000110_0111_1_0000100_001000_00000000000000, .gatherv ⟨true, 3, 4, 5, 6, 7, true, 8, 0⟩),
    (0b000111_1_0_000011_000100_000000_000110_0111_1_0000101_001000_00000000000000, .compress ⟨true, 3, 4, 0, 6, 7, true, 8, 0⟩),
    (0b000111_1_0_000011_000100_000000_000110_0111_1_0000110_001000_00000000001001, .bcast ⟨true, 3, 4, 0, 6, 7, true, 8, 9⟩),
    (0b000111_1_0_000011_000000_000000_000110_0111_1_0000111_001000_00000000000000, .index ⟨true, 3, 0, 0, 6, 7, true, 8, 0⟩),
    (0b000111_1_0_000011_000100_000000_000110_0111_1_0001000_001000_00000000000000, .vmv ⟨true, 3, 4, 0, 6, 7, true, 8, 0⟩),
    (0b000111_1_0_110000_000100_000000_000110_0111_1_0001001_001000_00000001001101, .extract ⟨true, 48, 4, 0, 6, 7, true, 8, 77⟩)] = true := by decide +kernel

/-- OP 0x08, 0x09 and 0x0A (R72, R73). -/
theorem decode_reduce_mask_words : readsE [
    (0b001000_1_0_110000_000100_000000_000110_0111_1_0000000_001000_00000000000000, .vredSum ⟨true, 48, 4, 0, 6, 7, true, 8, 0⟩),
    (0b001000_1_0_110000_000100_000000_000110_0111_1_0000001_000000_00000000000000, .vredSumu ⟨true, 48, 4, 0, 6, 7, true, 0, 0⟩),
    (0b001000_1_0_110000_000100_000000_000110_0111_1_0000010_001000_00000000000000, .vredMax ⟨true, 48, 4, 0, 6, 7, true, 8, 0⟩),
    (0b001000_1_0_110000_000100_000000_000110_0111_1_0000011_001000_00000000000000, .vredMin ⟨true, 48, 4, 0, 6, 7, true, 8, 0⟩),
    (0b001000_1_0_110000_000100_000000_000110_0111_1_0000100_001000_00000000000000, .vredAnd ⟨true, 48, 4, 0, 6, 7, true, 8, 0⟩),
    (0b001000_1_0_110000_000100_000000_000110_0111_1_0000101_001000_00000000000000, .vredOr ⟨true, 48, 4, 0, 6, 7, true, 8, 0⟩),
    (0b001000_1_0_110000_000100_000000_000110_0111_1_0000110_001000_00000000000000, .vredXor ⟨true, 48, 4, 0, 6, 7, true, 8, 0⟩),
    (0b001001_1_0_101111_001111_000001_000000_0111_1_0000000_001000_00000000000000, .mand ⟨true, 47, 15, 1, 0, 7, true, 8, 0⟩),
    (0b001001_1_0_101111_001111_000001_000000_0111_1_0000001_001000_00000000000000, .mor ⟨true, 47, 15, 1, 0, 7, true, 8, 0⟩),
    (0b001001_1_0_101111_001111_000001_000000_0111_1_0000010_001000_00000000000000, .mxor ⟨true, 47, 15, 1, 0, 7, true, 8, 0⟩),
    (0b001001_1_0_101111_001111_000001_000000_0111_1_0000011_001000_00000000000000, .mandn ⟨true, 47, 15, 1, 0, 7, true, 8, 0⟩),
    (0b001001_1_0_100001_000010_000000_000000_0111_1_0000100_001000_00000000000000, .mnot ⟨true, 33, 2, 0, 0, 7, true, 8, 0⟩),
    (0b001001_1_0_110000_000010_000000_000000_0111_1_0000101_001000_00000000000000, .mpopc ⟨true, 48, 2, 0, 0, 7, true, 8, 0⟩),
    (0b001001_1_0_110000_000010_000000_000000_0111_1_0000110_001000_00000000000000, .mfirst ⟨true, 48, 2, 0, 0, 7, true, 8, 0⟩),
    (0b001001_1_0_100001_000000_000000_000000_0111_1_0000111_001000_00000000000001, .mset ⟨true, 33, 0, 0, 0, 7, true, 8, 1⟩),
    (0b001010_1_0_000011_000000_000000_000110_0000_0_0000000_001000_00000000000000, .vtype ⟨true, 3, 0, 0, 6, 0, false, 8, 0⟩)] = true := by decide +kernel

/-- OP 0x10 to 0x13 (R68, R72): VLD fn[1:0] form, [3:2] space, [5:4] target; VST fn[3:2] space; VAMO fn[3:0] op, [6:4] scope. The first is the word that R68 works out. -/
theorem decode_vector_memory_words : readsE [
    (0x4200000600028000, .vld ⟨true, 0, 0, 0, 6, 0, false, 10, 0⟩ .unit .global .reg),
    (0b010000_1_0_000000_000000_000000_000110_0111_1_0101001_001000_00000000000000, .vld ⟨true, 0, 0, 0, 6, 7, true, 8, 0⟩ .strided .ab .lq1),
    (0b010000_1_0_000000_000000_001001_000110_0111_1_0010010_001000_00000000000000, .vld ⟨true, 0, 0, 9, 6, 7, true, 8, 0⟩ .indexed .global .lq0),
    (0b010001_1_1_000000_000100_000000_000110_0111_1_0001000_001000_00000000000000, .vst ⟨true, 0, 4, 0, 6, 7, true, 8, 0⟩ true .unit .ab),
    (0b010001_0_0_000000_100001_001001_000110_0111_1_0000010_001000_00000000000000, .vst ⟨false, 0, 33, 9, 6, 7, true, 8, 0⟩ false .indexed .global),
    (0b010010_1_0_000011_000100_000101_000110_0111_1_0110111_001000_00000000000000, .vamo ⟨true, 3, 4, 5, 6, 7, true, 8, 0⟩ .maxu .die),
    (0b010011_1_0_000000_000000_000000_000000_0000_0_0000000_001000_00000000000000, .vfence ⟨true, 0, 0, 0, 0, 0, false, 8, 0⟩)] = true := by decide +kernel

/-- OP 0x18, 0x19 and 0x1A (R72, R73). -/
theorem decode_matrix_words : readsE [
    (0b011000_1_0_000011_000100_000101_000110_0000_0_0000000_000000_00000000000000, .mopa ⟨true, 3, 4, 5, 6, 0, false, 0, 0⟩),
    (0b011001_1_0_000011_000000_000000_000110_0000_0_0000000_001000_00000000001100, .mopm ⟨true, 3, 0, 0, 6, 0, false, 8, 12⟩),
    (0b011010_1_0_000011_000000_000000_000000_0000_0_0000000_001000_00000000000000, .mzero ⟨true, 3, 0, 0, 0, 0, false, 8, 0⟩),
    (0b011010_1_0_000011_000100_000101_000110_0000_0_0000001_001000_00000000010011, .mcvt ⟨true, 3, 4, 5, 6, 0, false, 8, 19⟩),
    (0b011010_1_0_000011_000000_000000_000110_0000_0_0000010_001000_00001111110101, .mrowR ⟨true, 3, 0, 0, 6, 0, false, 8, 1013⟩),
    (0b011010_1_0_000011_000100_000000_000110_0000_0_0000011_001000_00000000111111, .mrowW ⟨true, 3, 4, 0, 6, 0, false, 8, 63⟩),
    (0b011010_1_0_000011_000000_000000_000000_0000_0_0000100_001000_00000000000000, .mbf ⟨true, 3, 0, 0, 0, 0, false, 8, 0⟩)] = true := by decide +kernel

/-- OP 0x1C, 0x1D and 0x1E (R72). -/
theorem decode_engine_words : readsE [
    (0b011100_1_0_000000_000000_000000_000000_0000_0_0000000_001000_00000000100011, .cpy ⟨true, 0, 0, 0, 0, 0, false, 8, 35⟩),
    (0b011101_1_0_000000_000000_000000_000000_0000_0_0000000_000000_00000001101111, .tready ⟨true, 0, 0, 0, 0, 0, false, 0, 111⟩),
    (0b011101_1_0_000000_000000_000000_000000_0000_0_0000001_000000_00000001101111, .tempty ⟨true, 0, 0, 0, 0, 0, false, 0, 111⟩),
    (0b011101_1_0_000000_000000_000000_000000_0000_0_0000010_000000_00000001101111, .twait ⟨true, 0, 0, 0, 0, 0, false, 0, 111⟩),
    (0b011101_1_0_110000_000000_000000_000000_0000_0_0000011_000000_00000001100000, .tquery ⟨true, 48, 0, 0, 0, 0, false, 0, 96⟩),
    (0b011110_1_0_000000_000000_000000_000110_0000_0_0000000_001000_00000000000000, .collReduceScatter ⟨true, 0, 0, 0, 6, 0, false, 8, 0⟩),
    (0b011110_1_0_000000_000000_000000_000110_0000_0_0000001_001000_00000000000001, .collAllGather ⟨true, 0, 0, 0, 6, 0, false, 8, 1⟩),
    (0b011110_1_0_000000_000000_000000_000110_0000_0_0000010_001000_00000000000010, .collAllReduce ⟨true, 0, 0, 0, 6, 0, false, 8, 2⟩),
    (0b011110_1_0_000000_000000_000000_000110_0000_0_0000011_001000_00000000000011, .collKvRotation ⟨true, 0, 0, 0, 6, 0, false, 8, 3⟩)] = true := by decide +kernel

/-! ### Ill-formed terms -/

/-- A bare E-word with these registers. -/
def ew (d a b : Reg) (m k : Nat := 0) (n : Bool := false) (x : Reg := 0) (imm : BitVec 14 := 0) (c : Bool := true) : EFields :=
  ⟨c, d, a, b, BitVec.ofNat 6 m, BitVec.ofNat 4 k, n, x, imm⟩

/-- The G-words that the encoding rules refuse, one for each check (R64, R66, R78, R91, R100, R111). -/
theorem test_ill_formed_gwords : [
    Instr.ins 1 2 60 4, .ext 1 2 63 1, .ld 1 2 .d .plain true 0, .gets 1 13, .sets 1 13, .sets 1 0, .sets 1 7, .sets 1 10,
    .emitx 0 1 2 0b1111 0, .emitx 0 1 0 0 0, .emitx 0 1 2 0b1 0, .emitx 3 1 2 0b11 0, .nexts 63 1, .nexts 0 1,
    .slotq 0 1, .slotq 63 1, .slotq 1 0].all (fun i => !i.wf) = true := by decide +kernel

/-- The E-words that the encoding rules refuse, one for each check of a family (R69, R70, R72, R73). -/
theorem test_ill_formed_ewords : [
    Instr.vadd (ew 32 1 2), .vadd (ew 1 36 2), .vabs (ew 1 2 3), .vcmpEq (ew 1 2 3), .vcmpEq (ew 32 2 3), .vcvtCvt (ew 1 2 0 (imm := 1)),
    .slideup (ew 1 2 3), .slideup (ew 1 2 34 (x := 63)), .slide1up (ew 1 2 34 (imm := 1)), .gatherv (ew 1 2 34), .compress (ew 1 2 3),
    .bcast (ew 1 2 3), .index (ew 1 2 0), .vmv (ew 1 2 0 (imm := 1)), .extract (ew 1 2 0), .vredSum (ew 1 2 0), .vredSum (ew 48 2 0 (imm := 1)),
    .mand (ew 33 16 1), .mand (ew 33 1 1 (m := 1)), .mnot (ew 33 1 1), .mpopc (ew 33 1 0), .mset (ew 33 0 0 (imm := 2)),
    .vtype (ew 1 0 0 (k := 1)), .vld (ew 1 0 0) .unit .global .lq0, .vld (ew 1 0 2) .unit .global .reg, .vld (ew 1 0 0 (x := 63)) .strided .global .reg,
    .vst (ew 1 2 0) false .unit .global, .vst (ew 0 2 0) false .unit .wb, .vst (ew 0 34 0) false .unit .global, .vamo (ew 1 32 3) .add .hart,
    .vfence (ew 0 0 0 (k := 1)), .mopa (ew 16 1 2), .mopa (ew 1 1 2 (x := 1)), .mopm (ew 1 0 0), .mopm (ew 1 0 0 (imm := 1) (x := 61)),
    .mzero (ew 16 0 0), .mbf (ew 1 0 0 (m := 1)), .mcvt (ew 1 2 3 (imm := 32)), .mrowR (ew 1 0 0 (imm := 1024)), .mrowW (ew 1 2 0 (imm := 64)),
    .cpy (ew 0 0 0 (imm := 64)), .cpy (ew 0 0 0 (imm := 0b11100)), .cpy (ew 0 0 0 (x := 61)), .tready (ew 0 0 0 (imm := 112)), .tready (ew 48 0 0),
    .tquery (ew 0 0 0), .collAllReduce (ew 0 0 0 (imm := 8)), .collAllReduce (ew 0 0 0 (x := 61))].all (fun i => !i.wf) = true := by
  decide +kernel

/-- Events that name a unit the package does not have, one for each range. -/
theorem test_ill_formed_events :
    (Instr.convoyEnter 3072).wf = false ∧ (Instr.queueImageWrite (.hart 0) 0 64 0 0).wf = false ∧
    (Instr.frameWindowWrite (.hart 0) 0 0x21088 0).wf = false ∧ (Instr.laneClusterGate 768 0).wf = false ∧
    (Instr.laneLoanStart 0 4 0).wf = false ∧ (Instr.controlRegisterWrite (.hart 0) 0 0).wf = false ∧
    (Instr.tshoot (.hart 0) 64).wf = false ∧ (Instr.rangeRegisterWrite (.hart 0) 0 16 0 0).wf = false ∧
    (Instr.tailWrite (.hart 0) 0 64 0).wf = false ∧ (Instr.templateWrite (.hart 0) 0 0 8 false 0).wf = false ∧
    (Instr.slotScan 64 0).wf = false ∧ (Instr.packetDispatch 3072).wf = false ∧ (Instr.launchCommand 4096 0).wf = false ∧
    (Instr.packetComplete 4096).wf = false ∧ (Instr.leafReport 192).wf = false ∧ (Instr.crucibleHang 768).wf = false ∧
    (Instr.create 0).wf = false ∧ (Instr.generate 256).wf = false ∧ (Instr.rungPartition 64).wf = false ∧
    (Instr.rungDie 24).wf = false ∧ (Instr.l2Error 0 (2 ^ 40) .single).wf = false ∧ (Instr.hbmError 24 0 true).wf = false ∧
    (Instr.pageMigration 1474560 0 0).wf = false ∧ (Instr.hostMemoryWrite 64 0 []).wf = false ∧ (Instr.keyRetireCount 36).wf = false ∧
    (Instr.abortSegment 4 ⟨0, 0, 0, 0, 0, .abort, [], 0, false, false, 0, 0, 0, false⟩).wf = false ∧
    (Instr.groupEntryWrite (.hart 0) 0 0 6 0).wf = false ∧ (Instr.heartbeatTimeout (.leaf 192)).wf = false ∧
    (Instr.rungQueue 4096).wf = false ∧ (Instr.rungEngine 0x804).wf = false := by
  decide +kernel

/-! ### Hypotheses met: encoding and the step -/

theorem witness_GWordsRoundTrip : (Instr.add 3 1 2).wf = true ∧ (encodeG (.add 3 1 2)).isSome = true ∧
    (Instr.lil 3 7).wf = true ∧ (encodeG (.lil 3 7)).isSome = true := by decide +kernel

theorem witness_EWordsRoundTrip : (Instr.vadd (ew 1 2 35 (imm := -1))).wf = true ∧
    encodeE (.vadd (ew 1 2 35 (imm := -1))) = some 0x60428c000003fff := by decide +kernel

/-- A G-word without a literal, one with a literal, and an E-word decode. -/
theorem witness_DecodingReadsEveryBit : decodeG 0xC8000000#32 0 = .ok .yield ∧ decodeG 0x28300000#32 9 = .ok (.lil 3 9) ∧
    decodeE 0x4200000600028000 = .ok (.vld ⟨true, 0, 0, 0, 6, 0, false, 10, 0⟩ .unit .global .reg) :=
  ⟨decodeG_of_readsG (by decide +kernel), decodeG_of_readsG (by decide +kernel), decodeE_of_readsE (by decide +kernel)⟩

/-- The ends of the unassigned ranges. -/
theorem witness_UnassignedOpcodesAreRefused :
    [0x00#6, 0x33, 0x3F].all (fun op => fld (op ++ 0#26) 26 6 == op && errAnd (decodeG (op ++ 0#26) 0) (· == .unassignedMajor)) = true ∧
    [0x00#6, 0x03, 0x0B, 0x0F, 0x14, 0x17, 0x1B, 0x1F, 0x3F].all (fun op => (op ++ 0#58).extractLsb' 58 6 == op &&
      errAnd (decodeE (op ++ 0#58)) fun _ => true) = true := by decide +kernel

/-- ADD s3, s1, s2 at address 0, and this hart's turn. -/
def sStep (h : Hart) : State := { on h [(0, 0b000001_000011_000001_000010_00000000)] with agenda := [.generator 0 false], cur := 5 }
/-- The same with another word. -/
def sWord (h : Hart) (w : Nat) : State := { on h [(0, w)] with agenda := [.generator 0 false] }

def fetches (s : State) (i : Instr) : Bool := okAnd (fetch s) fun f => okAnd (decodeG f.word f.lit) fun j => decide (j = i)

/-- hart0 under STOP-DRAIN, so many words counted. -/
def draining (n : Nat) : Hart := { hart0 with ctl := .stopDrain, gcount := n }

theorem witness_StepRunsTheDecodedWord :
    fetches { sStep hart0 with agenda := [], cur := 0 } (.add 3 1 2) = true ∧
    gives (step (sStep (withRegs [(1, 5), (2, 6)]))) (fun t => rd (hartAt t 0) 3 == 11 && t.cur == 0) = true ∧
    fetches { sStep (draining 4095) with agenda := [], cur := 0 } (.add 3 1 2) = true ∧
    marksBoundary { sStep (draining 4095) with cur := 0 } (.add 3 1 2) = false ∧
    gives (step (sStep (draining 4095))) (fun t => (hartAt t 0).gcount == 4096 && (hartAt t 0).pc == 4) = true ∧
    marksBoundary (sWord (draining 4095) 0xC8000000) .yield = true ∧ canClose (draining 4095) = true ∧
    gives (step (sWord (draining 4095) 0xC8000000)) (fun t => (hartAt t 0).genStopped && (hartAt t 0).pc == 0) = true ∧
    gives (step (sStep (draining 4096))) (fun t => (hartAt t 0).genStopped && (hartAt t 0).pc == 0) = true ∧
    gives (step { on hart0 with agenda := [.event (.laneClusterGate 9 2)] }) (fun t => (coreAt t 9).gated == 4#4) = true := by
  decide +kernel

theorem witness_FetchReadsTheWordAtPc :
    okAnd (translate (sWord hart0 0x28300000) 0 fetchAccess 0) (fun x => !poisoned (sWord hart0 0x28300000).mem x.place.pa 4) = true ∧
    okAnd (fetch (sWord hart0 0x0000000928300000)) (fun f => hasLiteral f.word && f.lit == 9) = true ∧
    okAnd (fetch { sStep hart0 with cur := 0 }) (fun f => !hasLiteral f.word) = true := by decide +kernel

/-- A hart beyond its address space; poisoned bytes at PC. -/
def sFar : State := sWord { hart0 with pc := 0x800000000 } 0
def sPoison : State := { sWord hart0 0 with mem := { (on hart0).mem with poison := [0] } }

/-- An unassigned major; a fetch from a page that no walk reaches; a fetch of poisoned bytes. -/
theorem witness_WordsThatCannotRunTrap :
    okAnd (fetch (sWord hart0 0)) (fun f => errAnd (decodeG f.word f.lit) fun _ => true) = true ∧
    gives (step (sWord hart0 0)) (fun t => field (hartAt t 0).trapRec.cause 20 8 == 1) = true ∧
    errAnd (translate sFar 0 fetchAccess 0x800000000) (· == .reason 0) = true ∧
    gives (step sFar) (fun t => field (hartAt t 0).trapRec.cause 20 8 == 3 && (hartAt t 0).trapRec.addr == 0x800000000) = true ∧
    okAnd (translate sPoison 0 fetchAccess 0) (fun x => poisoned sPoison.mem x.place.pa 4) = true ∧
    gives (step sPoison) (fun t => field (hartAt t 0).trapRec.cause 20 8 == 9) = true := by decide +kernel

/-- The widest fields that R91 admits, and the narrowest it refuses. -/
theorem witness_BitWords : (60#6).toNat + (3#6).toNat ≤ 63 ∧ (0#6).toNat + (63#6).toNat ≤ 63 ∧
    [0b001100_000001_000010_111100_000100_00#32, 0b001101_000001_000010_000001_111111_00, 0b001101_000001_000010_000000_111111_01].all (fun w =>
      (fld w 26 6 == 0x0C || fld w 26 6 == 0x0D) && (decide (64 ≤ (fld w 8 6).toNat + (fld w 2 6).toNat) || fld w 0 2 != 0) && errAnd (decodeG w 0) fun _ => true) = true := by
  decide +kernel

/-- CLZ and POPC with b = 1; SHIFTI of kind 3 and with imm[11:6] = 1; LIL with imm20 = 1. -/
theorem witness_illegal_fields : [0b000001_000001_000010_000001_00010110#32, 0b000001_000001_000010_000001_00010111, 0b001000_000001_000010_11000000000000,
    0b001000_000001_000010_00000001000000, 0b001010_000001_00000000000000000001].all (fun w => errAnd (decodeG w 0) fun _ => true) = true := by decide +kernel

/-- Operands with and without a NaN, and every form of word. -/
theorem witness_ScalarFloatResults : isNan (single 0x3F800000) = false ∧ isNan (single 0x7FC00000) = true ∧
    (∃ a b c r, Instr.fma 1 2 3 4 = .fma 1 a b c ∧ r = RM.rne) := ⟨by decide +kernel, by decide +kernel, 2, 3, 4, .rne, rfl, rfl⟩

/-- The ends of the ranges: the least subnormal scale, the largest number. -/
theorem witness_FloatRoundingExactAndCommutative :
    roundTo fmtSingle .rup false false (2 ^ 23) (-149) false = (0x00800000, 0) ∧
    roundTo fmtSingle .rtz false true (2 ^ 24 - 1) 104 false = (0xFF7FFFFF, 0) := by decide +kernel

theorem witness_BranchesAndJumps :
    ((0x1004 : Word) + 4 * (-1 : BitVec 14).signExtend 64).extractLsb' 0 2 = 0 ∧ ((3 : Word) + 4 * (0 : BitVec 14).signExtend 64).extractLsb' 0 2 ≠ 0 := by
  decide

/-! ### Single steps: scalar words -/

/-- s1 = −7, s2 = 3 (R87). -/
def sA : State := on (withRegs [(1, -7), (2, 3), (4, 0), (5, 0x8000000000000000), (6, -1)])

theorem test_alu : leaves sA [
    (.add 3 1 2, -4), (.sub 3 1 2, -10), (.and 3 1 2, 1), (.or 3 1 2, 0xFFFFFFFFFFFFFFFB), (.xor 3 1 2, 0xFFFFFFFFFFFFFFFA),
    (.shl 3 1 2, -56), (.shr 3 1 2, 0x1FFFFFFFFFFFFFFF), (.sar 3 1 2, -1), (.mul 3 1 2, -21), (.mulh 3 1 2, -1), (.mulhu 3 1 2, 2),
    (.div 3 1 2, -2), (.divu 3 1 2, 0x5555555555555553), (.rem 3 1 2, -1), (.remu 3 1 2, 0), (.min 3 1 2, -7), (.max 3 1 2, 3),
    (.minu 3 1 2, 3), (.maxu 3 1 2, -7), (.slt 3 1 2, 1), (.sltu 3 1 2, 0), (.seq 3 1 2, 0), (.seq 3 1 1, 1), (.clz 3 2, 62), (.popc 3 1, 62)] = true := by
  decide +kernel

/-- Division by zero and of the most negative number by −1, a shift by 64 + 62, counts at both ends (R39, R87). -/
theorem test_alu_corners : leaves sA [
    (.div 3 1 4, -1), (.divu 3 1 4, -1), (.rem 3 1 4, -7), (.remu 3 1 4, -7), (.div 3 5 6, 0x8000000000000000), (.rem 3 5 6, 0),
    (.shl 3 2 6, 0x8000000000000000), (.clz 3 4, 64), (.clz 3 5, 0), (.popc 3 4, 0), (.popc 3 6, 64)] = true := by decide +kernel

/-- A write to s0 is discarded (R13); a source that is also the destination is read first. -/
theorem test_register_zero : runs (.add 0 1 2) sA (fun t => rd (curHart t) 0 == 0 && (curHart t).pc == 4) = true ∧
    runs (.sub 1 1 1) sA (fun t => rd (curHart t) 1 == 0) = true := by decide +kernel

/-- R88 to R91: immediates sign-extended, amounts, LUI and AUIPC by 2^14, fields. -/
theorem test_immediates : leaves sA [
    (.addi 3 1 (-1), -8), (.andi 3 1 (-2), -8), (.ori 3 2 8, 11), (.xori 3 2 (-1), -4), (.slti 3 1 (-6), 1), (.sltiu 3 2 (-1), 1),
    (.shli 3 1 63, 0x8000000000000000), (.shri 3 1 63, 1), (.sari 3 5 63, -1), (.lui 3 0x80000, 0xFFFFFFFE00000000), (.auipc 3 1, 0x4000),
    (.ins 3 1 8 7, 0xF900), (.ext 3 1 4 59, 0x0FFFFFFFFFFFFFFF)] = true := by decide +kernel

theorem test_lil : runs (.lil 3 0xFEDCBA9876543210) sA (fun t => rd (curHart t) 3 == 0xFEDCBA9876543210 && (curHart t).pc == 12) = true := by
  decide +kernel

/-- FP32 (R92 to R94): s1 = 1.5, s2 = −2, s4 = +∞, s5 a signaling NaN, s6 = 2^−149, s7 the integer −3. -/
def sF : State := on (withRegs [(1, 0x3FC00000), (2, 0xC0000000), (4, 0x7F800000), (5, 0x7F800001), (6, 1), (7, 0xFFFFFFFD), (8, 0x40490FDB)])

theorem test_scalar_float : leaves sF [
    (.fadd 3 1 2 .rne, 0xBF000000), (.fsub 3 1 2 .rne, 0x40600000), (.fmul 3 1 2 .rne, 0xC0400000), (.fdiv 3 1 2 .rne, 0xBF400000),
    (.fmin 3 1 2 .rne, 0xC0000000), (.fmax 3 1 2 .rne, 0x3FC00000), (.fsqrt 3 4 .rne, 0x7F800000), (.fcvtW 3 8 .rtz, 3), (.fcvtS 3 7 .rne, 0xC0400000),
    (.feq 3 1 1, 1), (.flt 3 2 1, 1), (.fle 3 1 2, 0), (.fma 3 1 2 8, 0x3E10FDB0)] = true := by decide +kernel

/-- Flags (R31, R45): NV of a signaling NaN, DZ of 1.5 / 0, OF and NX of a sum past the largest, UF and NX below the least. -/
theorem test_scalar_float_flags :
    runs (.fadd 3 5 1 .rne) sF (fun t => rd (curHart t) 3 == 0x7FC00000 && (curHart t).vxsr == flagNV) = true ∧
    runs (.fdiv 3 1 0 .rne) sF (fun t => rd (curHart t) 3 == 0x7F800000 && (curHart t).vxsr == flagDZ) = true ∧
    runs (.fmul 3 6 6 .rup) sF (fun t => rd (curHart t) 3 == 1 && (curHart t).vxsr == flagUF ||| flagNX) = true := by decide +kernel

/-- Branches (R95): taken to PC + 4·sext(offset), else to PC + 4. -/
theorem test_branches : [(Instr.beq 1 1 3, 12), (.beq 1 2 3, 4), (.bne 1 2 (-1), -4), (.bne 1 1 3, 4), (.blt 1 2 3, 12), (.blt 2 1 3, 4),
    (.bge 2 1 3, 12), (.bge 1 2 3, 4), (.bltu 2 1 3, 12), (.bltu 1 2 3, 4), (.bgeu 1 2 3, 12), (.bgeu 2 1 3, 4)].all
      (fun (p : Instr × Word) => runs p.1 sA fun t => (curHart t).pc == p.2) = true := by decide +kernel

/-- JAL and JALR (R96): the link is PC + 4, JALR reads its base first; a target off a multiple of 4 is class 2 code 1. -/
theorem test_jumps : runs (.jal 63 (-2)) sA (fun t => rd (curHart t) 63 == 4 && (curHart t).pc == -8) = true ∧
    runs (.jalr 2 2 (-1)) (on (withRegs [(2, 0x1004)])) (fun t => rd (curHart t) 2 == 4 && (curHart t).pc == 0x1000) = true ∧
    traps (.jalr 3 2 0) sA 2 1 3 = true := by decide +kernel

/-! ### Memory words -/

/-- s1 = 0x1000 in memory, s2 = 0x8000 of the control region (its page 0 is hart slot 0's), s4 = 5. -/
def sM : State := on (withRegs [(1, 0x1000), (2, 0x800000000), (4, 5), (5, 0x1122334455667788), (6, 0x1003)])
  [(0x1000, 0x8899AABBCCDDEEFF), (0x1008, 0x7F), ctlEntry]
/-- sM with poison in the sector of 0x1000. -/
def sMp : State := { sM with mem := { sM.mem with poison := [0x80] } }
def xl (s : State) (k : Access) (va : Word) (p : Xlat → Bool) : Bool := okAnd (translate s s.cur k va) p

/-- Little-endian, zero- or sign-extended, offsets in units of the size (R98, R100). -/
theorem test_loads : leaves sM [
    (.ld 3 1 .b .plain false 0, 0xFF), (.ld 3 1 .b .plain true 0, -1), (.ld 3 1 .h .plain false 1, 0xCCDD), (.ld 3 1 .h .plain true 1, 0xFFFFFFFFFFFFCCDD),
    (.ld 3 1 .w .sync true 1, 0xFFFFFFFF8899AABB), (.ld 3 1 .d .plain false 0, 0x8899AABBCCDDEEFF), (.ld 3 1 .d .nt false 1, 0x7F)] = true := by decide +kernel

theorem test_stores :
    runs (.st 5 1 .h .plain 3) sM (fun t => readMem t.mem 0 0x1000 8 == 0x7788AABBCCDDEEFF && (curHart t).pc == 4) = true ∧
    runs (.st 5 1 .d .nt 1) sM (fun t => readMem t.mem 0 0x1008 8 == 0x7F && (curHart t).wc.length == 1) = true ∧
    traps (.st 5 6 .w .plain 0) sM 2 0 0x1003 = true := by decide +kernel

/-- AMO and CAS give the old value and write the new (R104 to R106). -/
theorem test_atomics : [(Instr.amo 3 1 4 .add .hart false, 0x8899AABBCCDDEF04), (.amo 3 1 4 .and .hart false, 5), (.amo 3 1 4 .or .hart false, 0x8899AABBCCDDEEFF),
    (.amo 3 1 4 .xor .hart true, 0x8899AABBCCDDEEFA), (.amo 3 1 4 .min .hart false, 0x8899AABBCCDDEEFF), (.amo 3 1 4 .max .hart false, 5),
    (.amo 3 1 4 .minu .hart false, 5), (.amo 3 1 4 .maxu .hart false, 0x8899AABBCCDDEEFF), (.amo 3 1 4 .swap .hart false, 5),
    (.cas 3 1 4 .hart false, 0x8899AABBCCDDEEFF)].all (fun (p : Instr × Nat) => runs p.1 sM fun t =>
      rd (curHart t) 3 == 0x8899AABBCCDDEEFF && readMem t.mem 0 0x1000 8 == p.2 && readMem t.mem 0 0x1008 8 == 0x7F) = true ∧
    runs (.cas 3 1 4 .hart false) (on (withRegs [(1, 0x1000), (3, 9), (4, 5)]) [(0x1000, 9)])
      (fun t => rd (curHart t) 3 == 9 && readMem t.mem 0 0x1000 8 == 5) = true := by decide +kernel

/-! ### Hypotheses met: memory words -/

theorem witness_LoadResults :
    xl sM (loadAccess 8) 0x1000 (fun y => y.place.kind != 3 && !poisoned sM.mem y.place.pa 8) = true ∧
    xl sMp (loadAccess 8) 0x1000 (fun y => y.place.kind != 3 && poisoned sMp.mem y.place.pa 8) = true ∧
    traps (.ld 3 1 .d .plain false 0) sMp 9 0 0x1000 = true ∧
    xl sM (loadAccess 4) 0x80000000C (fun y => y.place.kind == 3 && y.place.pa == 0xC0000000000C) = true ∧
    runs (.ld 3 2 .d .plain false 0) sM (fun t => rd (curHart t) 3 == 1 && (curHart t).pc == 4) = true := by decide +kernel

theorem witness_StoreResults : sM.mem.wf = true ∧
    xl sM (storeAccess 2) 0x1006 (fun y => y.place.kind != 3 && (List.range 2).all fun k => lockAt sM.mem (y.place.pa + k) == epochOf sM y.place.key) = true ∧
    xl sM (storeAccess 8) 0x1008 (fun y => y.place.kind != 3) = true ∧
    xl sM (storeAccess 4) 0x800000008 (fun y => y.place.kind == 3) = true ∧
    xl sM (storeAccess 8) 0x800000008 (fun y => y.place.kind == 3 && y.place.pa % 8 == 0) = true ∧
    runs (.st 5 2 .w .plain 2) sM (fun t => (curHart t).pc == 4 && (curHart t).ctl == .run) = true ∧
    runs (.st 4 2 .d .plain 0) sM (fun t => (curHart t).pc == 4) = true := by decide +kernel

theorem witness_AtomicResults : sM.mem.wf = true ∧
    [false, true].all (fun b => xl sM (amoAccess b) 0x1000 fun y => y.place.kind != 3 && !poisoned sM.mem y.place.pa 8 &&
      (List.range 8).all fun k => lockAt sM.mem (y.place.pa + k) == epochOf sM y.place.key) = true := by decide +kernel

/-- A page under key 7, whose owner is flacon 3 (R358); with no keys the slot is empty. -/
def sKey : State := { sM with
  harts := [(0, { hart0 with vi := 1, sregs := (withRegs [(1, 0x180000)]).sregs })]
  vis := [(1, { ranges := ((Vector.replicate 16 RangeReg.reset).setIfInBounds 0 ⟨0, 0x100000, 0, 0, 1⟩).setIfInBounds 1 ⟨0x180000, 0x180000, 0x180000, 7, 1⟩, rangegen := 0 })]
  keys := [(7, { KeySlot.empty with owner := 3, state := 1, epoch := 1 })] }

/-- Each failure of an access that AccessFaults names, for each of its words. -/
theorem witness_AccessFaults :
    errAnd (translate sM 0 (loadAccess 8) 0x1003) (· == .misaligned) = true ∧ traps (.ld 3 6 .d .plain false 0) sM 2 0 0x1003 = true ∧
    errAnd (translate sM 0 (storeAccess 8) (0x800000000 + 0x800000000)) (· == .reason 0) = true ∧
    traps (.st 3 2 .b .plain 0) (on (withRegs [(2, 0x800000000)])) 3 0x20 0x800000000 = true ∧
    errAnd (translate sM 0 (amoAccess true) 0x1003) (· == .misaligned) = true ∧ traps (.amo 3 6 4 .and .hart false) sM 2 0 0x1003 = true ∧
    errAnd (translate sKey 0 (amoAccess false) 0x180000) (fun x => x == .keyAbsent 7 true) = true ∧
    traps (.cas 3 1 4 .hart false) sKey 10 0x107 0x180000 = true ∧
    errAnd (translate { sKey with keys := [] } 0 (loadAccess 8) 0x180000) (fun x => x == .keyAbsent 7 false) = true ∧
    traps (.wait 3 1 4 5) { sKey with keys := [] } 10 7 0x180000 = true ∧
    (curHart sKey).wait = none := by decide +kernel

theorem witness_TranslationChecks :
    ((0x8000000000000 : Word) >>> 51) ≠ 0 ∧ ((0x7FFFFFFFFFFFF : Word) >>> 51) = 0 ∧ (0x1003 : Word).toNat % (loadAccess 4).align ≠ 0 ∧
    xl sM (loadAccess 4) 0x1004 (fun y => y.place.pa == 0x1004) = true := by decide +kernel

/-! ### Fences, waits, special registers, traps -/

/-- A VADD of I32 rows 1 and 2 into row 3; its MODE is s0. -/
def wAdd : Word := wordOf (.vadd (ew 3 1 2))
/-- The state after accepting an E-word from `emitl`. -/
def queued (s : State) (w : Word) : State :=
  match exec (.emitl w) s with
  | .next t => t
  | _ => s
/-- hart0 with MODE words for I32, FP32 and T3 in s7, s8 and s10, 0.5 in s12, 2 in s13, I32 as TA in s14, an address and a stride in s20 and s21; v1 and v2 of type I32 (tag 6), VL 8: v1 = 1, 2, …, 8 and v2 = 10 in each element; m2 = 0x55, m4 = 0xF0. -/
def hartV : Hart :=
  let h := { withRegs [(7, 6), (8, 11), (10, 12), (12, 0x3F000000), (13, 2), (14, 0x60), (20, 0x4000), (21, 8)] with vl := 8, tags := Vector.replicate 32 6 }
  let h := (List.range 8).foldl (fun h k => putElem (putElem h false 1 32 k (k + 1)) false 2 32 k 10) h
  { h with masks := (h.masks.setIfInBounds 2 0x55).setIfInBounds 4 0xF0 }
/-- One word queued in a convoy of its own that has no unconsumed load queue. -/
def sQ : State := queued (on hartV) wAdd
/-- An open convoy with an unconsumed load queue: a VLD into LQ0 whose consumer has not been emitted. -/
def sLq : State := queued (on hartV) (wordOf (.vld (ew 0 0 0 (m := 7)) .unit .global .lq0))
/-- A hart with a combined store of 0x55 at 0x2000. -/
def hartWc : Hart := { hart0 with wc := [⟨false, 0x2000, 0, 8, 0x55, 0⟩] }

theorem test_fences :
    runs (.fence .system 0b010) (on hartWc) (fun t => readMem t.mem 0 0x2000 8 == 0x55 && (curHart t).wc.isEmpty && (curHart t).pc == 4) = true ∧
    runs (.fence .system 0b001) (on hartWc) (fun t => (curHart t).wc.length == 1 && (curHart t).pc == 4) = true ∧
    runs .tfence { on hartWc with tlb := [⟨0, 0, 0, 0, 0, 0, [], [0], 16, false⟩, ⟨0, 0, 0, 1, 0, 0, [], [4], 16, false⟩] } (fun t => t.tlb == [⟨0, 0, 0, 1, 0, 0, [], [4], 16, false⟩] && (curHart t).wc.isEmpty) = true ∧
    runs (.writeCombineDrain 0) (on hartWc) (fun t => readMem t.mem 0 0x2000 8 == 0x55 && (curHart t).wc.isEmpty && (curHart t).pc == 0) = true := by
  decide +kernel

/-- With the queue empty, with a word queued, with an unconsumed load queue; a change of shape with lanes and without (R202). -/
theorem witness_FencesWaitForTheQueue :
    (7#5).getLsbD 2 = true ∧ (3#5).getLsbD 2 = false ∧ canClose hart0 = true ∧ hart0.queue = [] ∧
    canClose (curHart sQ) = true ∧ (curHart sQ).queue ≠ [] ∧ canClose (curHart sLq) = false ∧
    [Instr.waitv, .tfence, .halt, .vshape true, .fence .system 7, .fork 7].all (fun i => waits i sQ && traps i sLq 6 0 0) = true ∧
    runs .waitv (on hart0) (fun t => (curHart t).pc == 4) = true ∧
    runs (.vshape true) (on hartV) (fun t => (curHart t).shape && (curHart t).tags[1] == 0 && (curHart t).vstate == .present) = true ∧
    laneCount hartV.own ≠ 0 ∧ runs (.vshape true) (on { hartV with own := 0 }) (fun t => (curHart t).shape && (curHart t).tags[1] == 6) = true ∧
    (on hartWc).mem.wf = true ∧ hartWc.wc = [] ++ [⟨false, 0x2000, 0, 8, 0x55, 0⟩] := by decide +kernel

/-- A WAIT of s1 = 0x1000, which holds 7, for a value other than s2 with limit s4; and one that sleeps since 0. -/
def sWait (expected limit : Word) (pt : Nat) : State := { on (withRegs [(1, 0x1000), (2, expected), (4, limit)]) [(0x1000, 7)] with pt := pt }
def sAsleep (limit : Word) (pt : Nat) : State :=
  { on { hart0 with wait := some ⟨0x1000, 7, limit, 0⟩, stalled := true } [(0x1000, 7)] with pt := pt }
/-- The host's memory under a hart's VA 0x8_0000_0000 (R109, R110). -/
def sHostWait : State := on { hart0 with wait := some ⟨0x800000000, 0, 0, 0⟩, stalled := true } [(0x80008, 0x80000000001F)]

/-- A change, the limit reached exactly, one nanosecond short of it, no limit (R109). -/
theorem witness_WaitOutcomes :
    xl (sWait 7 5 5) (loadAccess 8) 0x1000 (fun y => y.place.kind != 3 && !poisoned (sWait 7 5 5).mem y.place.pa 8) = true ∧
    runs (.wait 3 1 2 4) (sWait 6 5 9) (fun t => rd (curHart t) 3 == 0 && (curHart t).pc == 4) = true ∧
    waits (.wait 3 1 2 4) (sWait 7 5 0) = true ∧
    runs (.wait 3 1 2 4) { sAsleep 5 5 with pt := 5 } (fun t => rd (curHart t) 3 == 1 && (curHart t).pc == 4) = true ∧
    waits (.wait 3 1 2 4) (sAsleep 5 4) = true ∧ waits (.wait 3 1 2 4) (sAsleep 0 9) = true ∧
    runs (.waitWake 0) (sAsleep 5 4) (fun t => !(hartAt t 0).stalled) = true ∧
    runs (.waitTimeout 0) (sAsleep 5 5) (fun t => !(hartAt t 0).stalled) = true ∧
    runs (.waitTimeout 0) (sAsleep 5 4) (fun t => (hartAt t 0).stalled) = true ∧
    xl sHostWait (loadAccess 8) 0x800000000 (fun y => y.place.kind == 2) = true ∧
    runs (.hostWindowWaitRead 0) sHostWait (fun t => !(hartAt t 0).stalled) = true := by decide +kernel

/-- A hart with a different value in each special register, on a core of world 3. -/
def sSpecial : State := { on { hart0 with
    vl := 11, rows := 2, vstart := 0x10000005, rstate := 13, kprog := 14, vxsr := 0x81, rct := false, ict := true, own := 11
    emitseq := 19, bypth := 21, trapsink := 24 } with pt := 20, cores := [(0, { CoreSt.reset with flid := 3 })] }

theorem witness_SpecialRegistersRead : leaves sSpecial [(.gets 3 0, 11), (.gets 3 1, 2), (.gets 3 2, 0x10000005), (.gets 3 3, 13), (.gets 3 4, 14),
    (.gets 3 5, 0x81), (.gets 3 6, 0x203), (.gets 3 7, 0), (.gets 3 8, 0x3B), (.gets 3 9, 19), (.gets 3 10, 20), (.gets 3 11, 21), (.gets 3 12, 24)] = true ∧
    traps (.gets 3 13) sSpecial 1 0 0 = true ∧ (13 : BitVec 14).toNat ≥ 13 := by decide +kernel

/-- ROWS at 1, 8, 0 and 9; the progress registers with the queue empty and with a word queued; the read-only ones (R29, R111, R113). -/
theorem witness_SpecialRegistersWritten :
    runs (.sets 1 1) (on (withRegs [(1, 8)])) (fun t => (curHart t).rows == 8 && (curHart t).pc == 4) = true ∧
    runs (.sets 1 1) (on (withRegs [(1, 1)])) (fun t => (curHart t).rows == 1) = true ∧
    traps (.sets 1 1) (on (withRegs [(1, 9)])) 1 0 0 = true ∧ traps (.sets 0 1) (on hart0) 1 0 0 = true ∧
    runs (.sets 1 5) (on (withRegs [(1, 0x1FF)])) (fun t => (curHart t).vxsr == 0xFF) = true ∧
    runs (.sets 1 6) (on (withRegs [(1, 0x100)])) (fun t => (curHart t).rct && !(curHart t).ict) = true ∧
    runs (.sets 1 11) (on (withRegs [(1, 77)])) (fun t => (curHart t).bypth == 77) = true ∧
    runs (.sets 1 12) (on (withRegs [(1, 0x1007)])) (fun t => (curHart t).trapsink == 0x1000) = true ∧
    runs (.sets 1 2) (on (withRegs [(1, 0x500000003)])) (fun t => (curHart t).vstart == 3) = true ∧
    runs (.sets 1 3) (on (withRegs [(1, 9)])) (fun t => (curHart t).rstate == 9) = true ∧
    runs (.sets 1 4) (on (withRegs [(1, 9)])) (fun t => (curHart t).kprog == 9) = true ∧
    waits (.sets 1 2) sQ = true ∧ [0, 7, 10, 13, 16383].all (fun i => traps (.sets 1 i) (on hart0) 1 0 0) = true ∧
    runs (.setrows 3 1 (-1)) (on (withRegs [(1, 9)])) (fun t => (curHart t).rows == 8 && rd (curHart t) 3 == 8) = true ∧
    traps (.setrows 3 1 8) (on (withRegs [(1, 1)])) 1 0 0 = true := by decide +kernel

/-- A hart that asks for 3,000 elements of 16 bits with 4 lane clusters, and the balance of its cluster (R25 to R27). -/
def sVl (own : BitVec 4) (avl cap : Word) (bal : Int) : State :=
  { on { withRegs [(1, avl), (2, cap)] with own := own } with clusters := [(0, { ClusterSt.reset with bal := bal })] }

theorem witness_VectorLengthGrant : hart0.reclaim.status ≠ 1 ∧ hart0.reclaim.after = none ∧
    runs (.setvl 3 1 2 .e16) (sVl 15 3000 0 320) (fun t => rd (curHart t) 3 == 1024 && (curHart t).vl == 1024 && (clusterAt t 0).bal == 316) = true ∧
    runs (.setvl 3 1 2 .e16) (sVl 15 3000 300 320) (fun t => rd (curHart t) 3 == 300 && (clusterAt t 0).bal == 318) = true ∧
    runs (.setvl 3 1 2 .e64) (sVl 15 3000 0 0) (fun t => rd (curHart t) 3 == 64 && (clusterAt t 0).bal == -1) = true ∧
    waits (.setvl 3 1 2 .e16) (sVl 15 3000 0 (-1)) = true ∧
    runs (.setvl 3 1 2 .e4) (sVl 0 3000 0 5) (fun t => rd (curHart t) 3 == 0 && (curHart t).vl == 0 && (clusterAt t 0).bal == 5) = true ∧
    runs (.setvl 3 0 2 .e4) (sVl 15 9 0 5) (fun t => rd (curHart t) 3 == 0 && (clusterAt t 0).bal == 5) = true := by decide +kernel

/-- A parent's child and a hart of its own at HALT (R117, R214). -/
theorem witness_TrapYieldAndHalt : canClose hart0 = true ∧ hart0.queue = [] ∧ hart0.parent = none ∧
    traps (.trap 0xABCDE) sQ 8 0xABCDE 0 = true ∧ runs .yield sA (fun t => (curHart t).pc == 4) = true ∧
    runs .halt (on hart0) (fun t => (curHart t).ctl == .idle && (curHart t).own == 0 && (curHart t).pc == 4) = true ∧
    runs .halt (on { hart0 with parent := some 1 }) (fun t => (curHart t).ctl == .idle && (curHart t).own == 15 && (curHart t).awaitJoin) = true := by
  decide +kernel

/-- No sink; a sink that does not translate; a sink in memory (R191). -/
theorem witness_TrapEntry : (on hart0).mem.wf = true ∧ hart0.trapsink = 0 ∧
    errAnd (translate (on hart0) 0 sinkAccess 0x1000000000) (fun _ => true) = true ∧
    okAnd (translate (on hart0) 0 sinkAccess 0x3000) (fun y => y.place.key == 0 && y.place.kind != 3 &&
      (List.range 8).all fun k => lockAt (on hart0).mem (y.place.pa + k) == 0) = true ∧
    (let t := deliverTrap (on { hart0 with trapsink := 0x3000, trapCount := 4 }) 0 (gFaultRec 8 5 0)
    readMem t.mem 0 0x3000 8 == 5 && (hartAt t 0).trapRec.sinkSeq == 5 && (hartAt t 0).ctl == .trapped) = true := by decide +kernel

/-! ### The emit family, farms and barriers -/

/-- hartV with the VADD's word in s9, and 64 entries queued. -/
def hartE : Hart := wr hartV 9 wAdd
def sFull : State := on { hartE with queue := List.replicate 64 { Entry.blank with word := wAdd } }
/-- The word with an operand field that R64 refuses (destination code 32), and one whose types differ (R48). -/
def wBad : Word := 0x0680000000000000

/-- What an EMIT captures (R76): the word, its MODE and operands, ROWS, VL, the tags, the provenance. -/
theorem test_emit : [(Instr.emitl wAdd, 12), (.emitr 9, 4), (.emitq 3 9, 4), (.emitx 0 0 0 0 wAdd, 12)].all (fun (p : Instr × Word) =>
    runs p.1 (on hartE) fun t => (curHart t).pc == p.2 && (curHart t).emitseq == 1 && (match (curHart t).queue with
      | [e] => e.word == wAdd && e.vl == 8 && e.rows == 1 && e.taga == 6 && e.tagb == 6 && e.tagd == 6 && !e.icx && e.seq == 1 && e.conv
      | _ => false)) = true ∧
    runs (.emitq 3 9) (on hartE) (fun t => rd (curHart t) 3 == 1) = true := by decide +kernel

/-- EMITX (R78): with sel = 0b11, s1 replaces d and s2 replaces a, in order from the lowest bit. -/
theorem test_emitx_fields : emitxWord (withRegs [(1, 3), (2, 0x41)]) 0 1 2 0b11 (wordOf (.vadd (ew 0 0 2))) = wordOf (.vadd (ew 3 1 2)) := by
  decide +kernel

theorem witness_EmitAcceptsOneWord :
    (match emitCheck hartE 0 0 wAdd with
      | .accept .. => true
      | _ => false) = true ∧ (hartE.queue.length < 64) ∧
    (match emitCheck hartE 0 0 wBad with
      | .refuse c k => decide (c < 256) && decide (k < 2 ^ 20)
      | _ => false) = true ∧ traps (.emitl wBad) (on hartE) 4 0 0 = true ∧
    (match emitCheck (curHart sFull) 0 0 wAdd with
      | .accept .. => true
      | _ => false) = true ∧ 64 ≤ (curHart sFull).queue.length ∧ waits (.emitr 9) sFull = true ∧
    runs (.emitq 3 9) sFull (fun t => rd (curHart t) 3 == 0 && (curHart t).pc == 4 && (curHart t).queue.length == 64) = true ∧
    ((7, 20, 7) ∈ [(0, 50, 6), (1, 44, 6), (2, 38, 6), (3, 32, 6), (4, 28, 4), (5, 14, 6), (6, 0, 14), (7, 20, 7)]) := by decide +kernel

/-- A word that owes an entry: MPOPC of m1 into the return queue. -/
def sOwed : State := queued (on hartV) (wordOf (.mpopc (ew 48 1 0)))

theorem witness_ReturnQueuePop : hart0.rq = [] ∧ owed hart0.queue = 0 ∧ 0 < owed (curHart sOwed).queue ∧ (curHart sOwed).rq = [] ∧
    runs (.rqpop 3) (on { hart0 with rq := [7, 8] }) (fun t => rd (curHart t) 3 == 7 && (curHart t).rq == [8] && (curHart t).pc == 4) = true ∧
    runs (.rqpop 0) (on { hart0 with rq := [7, 8] }) (fun t => (curHart t).rq == [8]) = true ∧
    waits (.rqpop 3) sOwed = true ∧ traps (.rqpop 3) (on hart0) 1 0 0 = true := by decide +kernel

/-- A parent with lane clusters 0, 1 and 3, and 0xAA in byte 1,024 of v1, the first byte of its third cluster (R213). -/
def sFork : State := on { wr (putElem hart0 false 1 8 1024 0xAA) 1 0x77 with own := 11 }
/-- Every slot of the core taken. -/
def sNoSlot : State := { on hart0 with harts := [(0, hart0), (1, hart0), (2, hart0), (3, hart0)] }

theorem witness_ForkMakesAChild : canClose (curHart sFork) = true ∧ (curHart sFork).queue = [] ∧ (curHart sFork).ctl ≠ .idle ∧
    slotFree sFork 0 = false ∧ slotFree sFork 1 = true ∧ (curHart sFork).vstate ≠ .absent ∧
    runs (.fork 5) sFork (fun t => rd (curHart t) 5 == 1 && (curHart t).own == 3 && (hartAt t 1).own == 8 && rd (hartAt t 1) 1 == 0x77 &&
      rd (hartAt t 1) 5 == 0 && (hartAt t 1).pc == 4 && bitsAt (vreg (hartAt t 1) false 1) 0 8 == 0xAA && (hartAt t 1).parent == some 0) = true ∧
    (List.range 4).all (fun k => !slotFree sNoSlot k) = true ∧ runs (.fork 5) sNoSlot (fun t => rd (curHart t) 5 == -1 && (curHart t).pc == 4) = true := by
  decide +kernel

/-- A child of slot 0 in slot 2, halted or not, with cluster 3 and 0xAA in byte 0 of its v1. -/
def sChild (ctl : Ctl) : State := { on (withRegs [(1, 2), (2, 3)]) with harts := [
  (0, { withRegs [(1, 2), (2, 3)] with own := 7, vxsr := 1 }),
  (2, { putElem hart0 false 1 8 0 0xAA with own := 8, vxsr := 4, parent := some 0, ctl := ctl, awaitJoin := ctl == .idle })] }

theorem witness_JoinTakesTheChildBack :
    canClose (curHart (sChild .idle)) = true ∧ (curHart (sChild .idle)).queue = [] ∧ (curHart (sChild .idle)).ctl ≠ .idle ∧
    (hartAt (sChild .idle) 2).parent = some 0 ∧ (hartAt (sChild .idle) 2).ctl = .idle ∧ (hartAt (sChild .run) 2).ctl ≠ .idle ∧
    runs (.join 5 1) (sChild .idle) (fun t => rd (curHart t) 5 == 0 && (curHart t).own == 15 && (curHart t).vxsr == 5 && slotFree t 2 &&
      bitsAt (vreg (curHart t) false 1) (8 * 1536) 8 == 0xAA) = true ∧
    waits (.join 5 1) (sChild .run) = true ∧
    runs (.join 5 2) (sChild .idle) (fun t => rd (curHart t) 5 == -1 && (curHart t).own == 7) = true := by decide +kernel

/-- Two harts of team 9, on cores 0 and 1 of die 0, whose generation 1 has one share with strips 4 to 8 left. -/
def team9 : TeamSt := { TeamSt.free with
  active := true, members := [⟨0, 15, true, false, false⟩, ⟨4, 15, true, false, false⟩], gens := [⟨1, [⟨0, 4, 9⟩]⟩] }
def sTeam (h : Hart) : State := { on h with
  harts := [(0, { h with team := some 9 }), (4, { hart0 with team := some 9, rank := 1 })], teams := [(9, team9)] }

theorem witness_FarmStrips : hart0.team = none ∧ (curHart (sTeam hart0)).team = some 9 ∧
    traps (.farm 1 2) (on hart0) 1 0 0 = true ∧ traps (.nexts 5 1) (on hart0) 1 0 0 = true ∧
    runs (.farm 1 2) (sTeam (withRegs [(1, 10), (2, 20)])) (fun t => (curHart t).farmGen == 1 && (curHart t).pc == 4 &&
      (findGen (teamAt t 9) 1).isSome) = true ∧
    (findGen (teamAt (sTeam { hart0 with farmGen := 1 }) 9) 1) = some ⟨1, [⟨0, 4, 9⟩]⟩ ∧
    runs (.nexts 62 1) (sTeam { withRegs [(1, 3)] with farmGen := 1 }) (fun t => rd (curHart t) 62 == 4 && rd (curHart t) 63 == 3) = true ∧
    runs (.nexts 1 1) (sTeam { withRegs [(1, 300)] with farmGen := 1 }) (fun t => rd (curHart t) 1 == 4 && rd (curHart t) 2 == 5) = true ∧
    findGen (teamAt (sTeam hart0) 9) 0 = none ∧
    runs (.nexts 5 1) (sTeam hart0) (fun t => rd (curHart t) 5 == -1 && rd (curHart t) 6 == 0) = true := by decide +kernel

/-- The other hart of the team waits in its first BAR of the die. -/
def sBar : State := { sTeam hart0 with harts := [(0, { hart0 with team := some 9 }), (4, { hart0 with team := some 9, rank := 1, barArrived := some .die, stalled := true })] }
/-- Both have arrived. -/
def sBoth : State := { sBar with harts := [(0, { hart0 with team := some 9, barArrived := some .die, stalled := true }),
  (4, { hart0 with team := some 9, rank := 1, barArrived := some .die, stalled := true })] }

theorem witness_BarrierArrival : traps (.bar .die) (on hart0) 1 0 0 = true ∧
    ((participants sBar 0 .die).filter fun m => m.hid != 0).all (hasArrived sBar .die 0) = true ∧
    (participants sBar 0 .die).any (fun m => m.hid == 0) = true ∧ ((participants sBar 0 .die).map (·.hid)).Nodup ∧
    (∀ m ∈ participants sBar 0 .die, m.launched = true) ∧
    runs (.bar .die) sBar (fun t => (curHart t).pc == 4 && barsDone (curHart t) .die == 1 && (curHart t).barArrived == none) = true ∧
    ((participants (sTeam hart0) 0 .die).filter fun m => m.hid != 0).all (hasArrived (sTeam hart0) .die 0) = false ∧
    waits (.bar .die) (sTeam hart0) = true ∧
    (hartAt sBar 0).barArrived = none ∧ (participants sBar 4 .die).all (hasArrived sBar .die 0) = false ∧
    runs (.barrierComplete 4) sBar (fun t => (hartAt t 4).pc == 0) = true ∧
    (participants sBoth 4 .die).all (hasArrived sBoth .die 0) = true ∧ (∃ m ∈ participants sBoth 4 .die, m.hid = 4) ∧
    runs (.barrierComplete 4) sBoth (fun t => (hartAt t 4).pc == 4 && (hartAt t 0).pc == 4 && barsDone (hartAt t 4) .die == 1) = true := by
  decide +kernel

/-! ### Single steps: E-words -/

/-- The state after the word of i has been emitted and its turn has come. -/
def performed (s : State) (i : Instr) : State :=
  match exec i (queued s (wordOf i)) with
  | .next t => t
  | _ => s
/-- The first n elements of a register after the word has been performed and has left the queue; none if it has not. -/
def elems (s : State) (i : Instr) (row width n : Nat) : List Nat :=
  let t := performed s i
  if (curHart t).queue = [] ∧ (curHart t).ctl = .run then (List.range n).map (elem (curHart t) false row width) else []
/-- Emitting and performing the word leaves these elements in a register. -/
def fills (s : State) (row width : Nat) (l : List (Instr × List Nat)) : Bool :=
  l.all fun p => elems s p.1 row width p.2.length == p.2

/-- v1 = 1 … 8, v2 = 10, I32; MODE 0 (R126, R127, R129, R132). -/
theorem test_varith_integers : fills (on hartV) 3 32 [
    (.vadd (ew 3 1 2), [11, 12, 13, 14, 15, 16, 17, 18]), (.vsub (ew 3 1 2), [0xFFFFFFF7]), (.vmul (ew 3 1 2), [10, 20]), (.vmulh (ew 3 1 2), [0, 0]),
    (.vdiv (ew 3 2 1), [10, 5, 3, 2, 2, 1, 1, 1]), (.vrem (ew 3 2 1), [0, 0, 1, 2, 0, 4, 3, 2]), (.vmin (ew 3 1 2), [1, 2]), (.vmax (ew 3 1 2), [10, 10]),
    (.vabs (ew 3 1 0), [1, 2]), (.vneg (ew 3 1 0), [0xFFFFFFFF, 0xFFFFFFFE]), (.vand (ew 3 1 2), [0, 2, 2]), (.vor (ew 3 1 2), [11, 10, 11]), (.vxor (ew 3 1 2), [11, 8, 9]),
    (.vnot (ew 3 1 0), [0xFFFFFFFE]), (.vshl (ew 3 1 2), [1024, 2048]), (.vshr (ew 3 2 1), [5, 2, 1, 0]), (.vadd (ew 3 1 35 (imm := -1)), [0, 1, 2]),
    (.vsel (ew 3 1 2), [1, 2, 3]), (.vsel (ew 3 1 2 (n := true)), [10, 10]), (.vmv (ew 3 2 0), [10, 10]), (.vmac (ew 3 1 2), [10, 20]), (.vnmac (ew 3 1 2), [0xFFFFFFF6]),
    (.vmv (ew 3 34 0 (m := 14) (x := 13)), [2, 2])] = true := by decide +kernel

/-- v1 = 0, v2 = +∞, v4 = −1, FP32: the special functions at their edges, and exact arithmetic (R128). -/
def hartF : Hart :=
  let h := { withRegs [(7, 6), (8, 11), (10, 12)] with vl := 2, tags := Vector.replicate 32 11 }
  (List.range 2).foldl (fun h k => putElem (putElem h false 2 32 k 0x7F800000) false 4 32 k 0xBF800000) h

theorem test_varith_floats : fills (on hartF) 3 32 [
    (.vsqrt (ew 3 2 0), [0x7F800000]), (.vexp2 (ew 3 1 0), [0x3F800000]), (.vlog2 (ew 3 1 0), [0xFF800000]), (.vrsq (ew 3 2 0), [0]), (.vrcp (ew 3 1 0), [0x7F800000]),
    (.vsqrt (ew 3 4 0), [0x7FC00000]), (.vadd (ew 3 4 4), [0xC0000000, 0xC0000000]), (.vmac (ew 3 4 4), [0x3F800000]), (.vnmac (ew 3 4 4), [0xBF800000]),
    (.vcvtCvt (ew 3 4 0 (m := 7)), [0xFFFFFFFF])] = true ∧
    (curHart (performed (on hartF) (.vsqrt (ew 3 4 0)))).vxsr = flagNV ∧ (curHart (performed (on hartF) (.vlog2 (ew 3 1 0)))).vxsr = flagDZ := by decide +kernel

/-- Residues of 1 and 2 (R52), the example that R135 works out, conversion to FP32 (R133). -/
theorem test_vcvt : fills (on hartV) 3 32 [(.vcvtRes (ew 3 1 0 (m := 10)), [0x02010101, 0x04020202]), (.vcvtCvt (ew 3 1 0 (m := 8)), [0x3F800000, 0x40000000])] = true ∧
    fills (on { putElem hartV false 4 32 0 (252 + 251 * 256 + 253 * 65536 + 3 * 2 ^ 25) with tags := Vector.replicate 32 12, vl := 1 }) 3 32
      [(.vcvtCrt (ew 3 4 0 (m := 8) (x := 12)), [0xC0000000])] = true := by decide +kernel

/-- Permutations (R136 to R141): offset 2 in s13; the fill is imm14. -/
theorem test_vperm : fills (on hartV) 3 32 [
    (.slideup (ew 3 1 35 (x := 12) (imm := 9)), [9, 9, 1, 2]), (.slidedn (ew 3 1 35 (x := 12) (imm := 9)), [3, 4, 5, 6, 7, 8, 9, 9]),
    (.slide1up (ew 3 1 35 (imm := 9)), [9, 1, 2]), (.slide1dn (ew 3 1 35 (imm := 9)), [2, 3, 4, 5, 6, 7, 8, 9]),
    (.gatherv (ew 3 2 1), [10, 10, 10, 10, 10, 10, 10, 0]), (.compress (ew 3 1 0 (k := 2)), [1, 3, 5, 7, 0]), (.bcast (ew 3 1 0 (imm := 6)), [7, 7]),
    (.index (ew 3 0 0 (m := 7) (imm := -1)), [0xFFFFFFFF, 0, 1])] = true := by decide +kernel

/-- v1 compared with v2 or with itself into m3, read back by MPOPC and MFIRST; reductions (R130, R131, R143 to R145). -/
def pushed (s : State) (i : Instr) : List Word := (curHart (performed s i)).rq
def maskOf (s : State) (i : Instr) : Nat := ((curHart (performed s i)).masks[3]).toNat % 256

theorem test_compares_and_masks :
    [(Instr.vcmpEq (ew 35 1 35 (imm := 3)), 4), (.vcmpNe (ew 35 1 35 (imm := 3)), 0xFB), (.vcmpLt (ew 35 1 35 (imm := 3)), 3), (.vcmpLe (ew 35 1 35 (imm := 3)), 7),
      (.vcmpGt (ew 35 1 35 (imm := 3)), 0xF8), (.vcmpGe (ew 35 1 35 (imm := 3)), 0xFC), (.mand (ew 35 2 4), 0x50), (.mor (ew 35 2 4), 0xF5), (.mxor (ew 35 2 4), 0xA5),
      (.mandn (ew 35 2 4), 5), (.mnot (ew 35 2 0), 0xAA), (.mset (ew 35 0 0 (imm := 1)), 0xFF)].all (fun (p : Instr × Nat) => maskOf (on hartV) p.1 == p.2) = true ∧
    maskOf (on { putElem hartF false 1 32 1 0x7FC00000 with rows := 1 }) (.vcmpUnord (ew 35 1 2)) = 2 := by decide +kernel

/-- The folds start from RSTATE, here 0 (R143). -/
theorem test_reductions :
    [(Instr.vredSum (ew 48 1 0), 36), (.vredMax (ew 48 1 0), 8), (.vredMin (ew 48 1 0), 0), (.vredAnd (ew 48 1 0), 0), (.vredOr (ew 48 1 0), 15), (.vredXor (ew 48 1 0), 8),
      (.vredSumu (ew 48 1 0), 36), (.mpopc (ew 48 2 0), 4), (.mfirst (ew 48 4 0), 4), (.extract (ew 48 1 0 (imm := 4)), 5)].all (fun (p : Instr × Word) =>
      pushed (on hartV) p.1 == [p.2]) = true := by decide +kernel

/-- VTYPE writes the tag and no data (R146). -/
theorem test_vtype : ((curHart (performed (on hartV) (.vtype (ew 3 0 0 (m := 8))))).tags[3]) = 11 ∧
    elems (on hartV) (.vtype (ew 1 0 0 (m := 8))) 1 32 2 = [1, 2] := by decide +kernel

/-! ### Vector memory, matrix, copy and tile words -/

/-- hartV's address s20 = 0x4000 holds 1, 2, 3, … as 32-bit numbers. -/
def sV : State := on { hartV with vl := 4 } [(0x4000, 0x0000000200000001), (0x4008, 0x0000000400000003), (0x4010, 5), (0x4018, 6)]

/-- Unit, strided by 8, and indexed by zeros; a store; an atomic sum over one address in order (R148 to R161). -/
theorem test_vector_memory : fills sV 3 32 [
    (.vld (ew 3 0 0 (m := 7) (x := 20)) .unit .global .reg, [1, 2, 3, 4]), (.vld (ew 3 0 0 (m := 7) (x := 20)) .strided .global .reg, [1, 3, 5, 6]),
    (.vld (ew 3 0 9 (m := 7) (x := 20)) .indexed .global .reg, [1, 1, 1, 1]), (.vamo (ew 3 1 9 (x := 20)) .add .hart, [1, 2, 4, 7])] = true ∧
    readMem (performed sV (.vamo (ew 3 1 9 (x := 20)) .add .hart)).mem 0 0x4000 4 = 11 ∧
    readMem (performed sV (.vst (ew 0 2 0 (x := 20) (k := 2)) true .unit .global)).mem 0 0x4000 16 = 0x000000040000000A000000020000000A ∧
    (curHart (performed { on { hartWc with own := 15 } with cur := 0 } (.vfence (ew 0 0 0)))).wc = [] := by decide +kernel

/-- v1 = 3 and v2 = 5 in 64 elements of I8; MODE for MOPM in s11; WB at byte 0 holds 2, with pitch 64 in s25 and s27 (R220 to R223). -/
def hartM : Hart :=
  let h := { withRegs [(8, 11), (10, 12), (11, 0x22C), (24, 0x4000000000000000), (25, 64), (26, 0x4000000000000000), (27, 64)] with
    vl := 64, tags := Vector.replicate 32 2 }
  (List.range 64).foldl (fun h k => putElem (putElem h false 1 8 k 3) false 2 8 k 5) h
def coreM : CoreSt := { CoreSt.reset with
  wb := CoreSt.reset.wb.setIfInBounds 0 (BitVec.ofNat 131072 ((2 ^ 512 - 1) / 255 * 2))
  cb := CoreSt.reset.cb.setIfInBounds 1 (BitVec.ofNat 131072 (t3Form 4)) }
def sMat : State := { on hartM with cores := [(0, coreM)] }
/-- A CB cell of core 0 after the word. -/
def cell (s : State) (i : Instr) (t j : Nat) : Nat := bitsAt ((coreAt (performed s i) 0).cb[t]?.getD 0) (32 * j) 32
def tileOfWord (s : State) (i : Instr) (k : Nat) : Tile := tileAt (coreAt (performed s i) 0) k

/-- One element of a k-step, channel by channel; a MOPA of no k-steps completes (R221). -/
theorem test_mopa : (matStep true false [t3Form 7] [t3Form 3] [t3Form (-5)]).1 = [t3Form (-8)] ∧
    (curHart (performed { sMat with harts := [(0, { hartM with vl := 0 })] } (.mopa (ew 0 1 2 (m := 10))))).queue = [] := by decide +kernel

/-- The operands of MOPM's k-step 0: the residues of 64 elements of 2 from WB for each side (R223, R224). -/
theorem test_mopm : (match (curHart (queued sMat (wordOf (.mopm (ew 2 0 0 (m := 11) (x := 24) (imm := 1)))))).queue with
    | [e] => !e.icx && okAnd (mopmOps 0 e .i8 .i8 sMat 0) fun r => r.1.1 == List.replicate 64 (t3Form 2) && r.1.2 == List.replicate 64 (t3Form 2)
    | _ => false) = true := by decide +kernel

theorem test_mzero_mbf : cell sMat (.mzero (ew 1 0 0)) 1 0 = 0 ∧ (tileOfWord sMat (.mzero (ew 1 0 0)) 97).type = 12 ∧
    cell sMat (.mbf (ew 1 0 0)) 1 0 = t3Form 4 ∧ (tileOfWord sMat (.mbf (ew 1 0 0)) 97).mode = .bf16 := by decide +kernel

/-- s · x with a = 1.0 and b = 0.5 in every element, resumed at the last position, which holds the residue 4 in tile 1 (R228); rows to
and from a register (R229). -/
def hartC : Hart :=
  let h := { withRegs [(8, 11), (10, 12)] with vl := 2, tags := Vector.replicate 32 11 }
  (List.range 64).foldl (fun h k => putElem (putElem h false 1 32 k 0x3F800000) false 2 32 k 0x3F000000) h
def sCvt : State := { on hartC with cores := [(0, { coreM with
  cb := coreM.cb.setIfInBounds 1 (BitVec.ofNat 131072 (t3Form 4 + t3Form 4 * 2 ^ (32 * 4095)))
  tiles := coreM.tiles.setIfInBounds 97 { Tile.reset with type := 12 } })] }
def sCvtLast : State := { sCvt with harts := [(0, { hartC with vstart := 4095 })] }

theorem test_mcvt : (let t := coreAt (performed sCvtLast (.mcvt (ew 3 1 2 (imm := 1)))) 0
    bitsAt t.cb[3] (32 * 4095) 32 == 0x40000000 && bitsAt t.cb[3] 0 32 == 0 && (tileAt t 99).type == 11 && (tileAt t 99).d == 8388479) = true := by
  decide +kernel

theorem test_mrow : elems sCvt (.mrowR (ew 4 0 0 (m := 10) (imm := 1))) 4 32 2 = [t3Form 4, 0] ∧
    cell sCvt (.mrowW (ew 3 2 0 (imm := 5))) 3 (64 * 5 + 1) = 0x3F000000 ∧ cell sCvt (.mrowW (ew 3 2 0 (imm := 5))) 3 (64 * 5 + 2) = 0 := by decide +kernel

/-- 16 bytes from WB to an EMPTY tile of AB (R218, R234). -/
def sCopy (imm : BitVec 14) : State :=
  queued { on (withRegs [(24, 0x4000000000000000), (25, 0x8000000000000010), (26, 0x1000000000)]) with
    cores := [(0, { coreM with tiles := coreM.tiles.setIfInBounds 64 { Tile.reset with state := .empty } })] } (wordOf (.cpy (ew 0 0 0 (x := 24) (imm := imm))))

theorem test_cpy : runs (.cpy (ew 0 0 0 (x := 24))) (sCopy 0) (fun t => bufByte (coreAt t 0) 2 0x10 == 2 && bufByte (coreAt t 0) 2 0x1F == 2 &&
    bufByte (coreAt t 0) 2 0x20 == 0 && (tileAt (coreAt t 0) 64).state == .ready && (tileAt (coreAt t 0) 0).state == .empty && (curHart t).queue.isEmpty) = true := by
  decide +kernel

theorem test_tile_words : (tileOfWord sMat (.tempty (ew 0 0 0 (imm := 96))) 96).state = .empty ∧
    (tileOfWord { sMat with cores := [(0, { coreM with tiles := coreM.tiles.setIfInBounds 5 { Tile.reset with state := .empty } })] }
      (.tready (ew 0 0 0 (imm := 5))) 5).state = .ready ∧
    (curHart (performed sMat (.twait (ew 0 0 0 (imm := 7))))).queue = [] ∧ pushed sMat (.tquery (ew 48 0 0 (imm := 95))) = [2] := by decide +kernel

/-! ### Hypotheses met: E-words -/

/-- A word stands alone in the queue, as the statements about E-words ask, and p holds of it. -/
def aloneAnd (s : State) (i : Instr) (p : EClass → EFields → Entry → Bool) : Bool :=
  match (curHart s).queue, eClass i with
  | [e], some (c, w) => readsE [(e.word, i)] && issuing (curHart s) && !e.complete && decide (s.laneLimit = none) &&
      decide ((curHart s).reclaim.after = none) && p c w e
  | _, _ => false

theorem alone_of_aloneAnd {s : State} {i : Instr} {p : EClass → EFields → Entry → Bool} (h : aloneAnd s i p = true) :
    ∃ c w e, Alone s i c w e ∧ p c w e = true := by
  unfold aloneAnd at h
  split at h
  · rename_i e c w hq hc
    simp only [Bool.and_eq_true, Bool.not_eq_true', decide_eq_true_eq] at h
    exact ⟨c, w, e, ⟨hq, decodeE_of_readsE h.1.1.1.1.1, hc, h.1.1.1.1.2, h.1.1.1.2, h.1.1.2, h.1.2⟩, h.2⟩
  · cases h

/-- The same for a word that has just been emitted. -/
def emitted (s : State) (i : Instr) (p : EClass → EFields → Entry → Bool) : Bool := aloneAnd (queued s (wordOf i)) i p

/-- The sweep of a word as the statements name it. -/
def sweptBy (s : State) (c : EClass) (w : EFields) (e : Entry) : Swept :=
  let u := enterWindow s s.cur
  sweep s.cur e.shape (elemAt u.mem (curHart u) s.cur e c w) u (foldValue e) (keysLeft e)

def noCtl (r : Swept) : Bool := r.acts.all fun a => a.effs.all fun x => match x with
  | .ctl .. => false
  | _ => true

theorem witness_ElementWordsComplete : [Instr.vadd (ew 3 1 2), .vredSum (ew 48 1 0), .vcmpLt (ew 35 1 2), .index (ew 3 0 0 (m := 7)),
    .vld (ew 3 0 0 (m := 7) (x := 20)) .unit .global .reg, .vst (ew 0 2 0 (x := 20)) true .unit .global, .vamo (ew 3 1 9 (x := 20)) .add .hart].all
      (fun i => emitted sV i fun c w e => let r := sweptBy (queued sV (wordOf i)) c w e
        r.fault.isNone && r.acts.length == 4 && noCtl r) = true := by decide +kernel

/-- A strided load whose element 2 lies in an address that no walk reaches. -/
def iFar : Instr := .vld (ew 3 0 0 (m := 7) (x := 20)) .strided .global .reg
def sFault : State := on { hartV with vl := 4, sregs := (wr hartV 21 0x400000000).sregs } [ctlEntry]

theorem witness_ElementFaultsArePrecise : emitted { sFault with mem := sV.mem } iFar (fun c w e =>
      let r := sweptBy (queued { sFault with mem := sV.mem } (wordOf iFar)) c w e
      elementWise c && noCtl r && (match r.fault with
        | some (p, f) => p == 2 && f.cls == 16
        | none => false)) = true ∧
    running hartV = true ∧ hartV.trapsink = 0 ∧
    runs iFar (queued { sFault with mem := sV.mem } (wordOf iFar)) (fun t => (curHart t).ctl == .trapped && (curHart t).vstart == 2 &&
      (curHart t).qStopped && (curHart t).queue.length == 1 && (curHart t).trapRec.addr == 0x800004000) = true := by decide +kernel

/-- For each family a word into the last register, I32 or T3 under RCT 0, that meets the conditions on its operands. -/
theorem witness_RegisterElementResults :
    [(Instr.vadd (ew 31 1 31), EClass.varith 0), (.vmac (ew 31 31 2), .vmac false), (.vsel (ew 31 1 2 (k := 2)), .vsel), (.vcvtCvt (ew 31 31 0 (m := 8)), .vcvt 0),
      (.vcvtRes (ew 31 30 0 (m := 10)), .vcvt 1), (.bcast (ew 31 30 0 (imm := 16383)), .vperm 6), (.index (ew 31 0 0 (m := 7)), .vperm 7), (.vmv (ew 31 31 0), .vperm 8)].all
      (fun (p : Instr × EClass) => emitted (on hartV) p.1 fun c w e => decide (c = p.2) && !e.icx && e.rows == 1 && w.d == 31 &&
        decide (w.d.toNat + e.rows.toNat ≤ 32) && decide (e.vl.toNat * 32 ≤ 16384) && (decide (tyOf e.taga = some .i32) || decide (c = .vperm 7))) = true ∧
    emitted (on { hartV with rct := false, tags := Vector.replicate 32 12 }) (.vcvtCrt (ew 31 1 0 (m := 8) (x := 12)))
      (fun c _ e => decide (c = .vcvt 2) && !e.icx && !e.rct && decide (tyOf e.taga = some .t3) && decide (tyOf (dstType e.mode e.taga) = some .fp32)) = true := by
  decide +kernel

theorem witness_MaskAndReductionResults :
    [(Instr.vcmpUnord (ew 47 1 2), EClass.vcmp 6), (.mand (ew 33 1 15), .mask 0), (.mset (ew 47 0 0), .mask 7), (.mpopc (ew 48 15 0), .mask 5), (.mfirst (ew 48 1 0), .mask 6),
      (.vredMax (ew 48 1 0), .vred 2), (.vredSumu (ew 48 1 0), .vred 1), (.extract (ew 48 1 0 (imm := 7)), .vperm 9)].all
      (fun (p : Instr × EClass) => emitted (on { hartF with vl := 8 }) p.1 fun c _ e => decide (c = p.2) && !e.icx && e.rows == 1 && !pastEnd e && decide (e.vl.toNat ≤ 8192)) = true ∧
    emitted (on { hartV with vstart := 8 }) (.mfirst (ew 48 2 0)) (fun c _ e => decide (c = .mask 6) && pastEnd e) = true ∧
    pushed (on { hartV with vstart := 8 }) (.mfirst (ew 48 2 0)) = [BitVec.allOnes 64] ∧
    (∀ k, k < 4 → (activeAt hartV (ew 48 4 0) k && maskBit hartV 4 k) = false) ∧ (activeAt hartV (ew 48 4 0) 4 && maskBit hartV 4 4) = true := by decide +kernel

theorem witness_PermutationResults :
    [(Instr.slideup (ew 31 1 35 (x := 12)), EClass.vperm 0), (.slidedn (ew 31 1 35 (x := 12)), .vperm 1), (.slide1up (ew 31 31 35), .vperm 2), (.slide1dn (ew 31 31 35), .vperm 3),
      (.gatherv (ew 31 2 1), .vperm 4), (.compress (ew 31 1 0 (k := 2)), .vperm 5), (.vtype (ew 31 0 0 (m := 8)), .vtype)].all
      (fun (p : Instr × EClass) => emitted (on hartV) p.1 fun c w e => decide (c = p.2) && !e.icx && decide (w.d.toNat + e.rows.toNat ≤ 32) &&
        decide (e.vl.toNat * 32 ≤ 16384) && (decide (c = .vtype) || (decide (tyOf e.taga = some .i32) && !pastEnd e))) = true := by decide +kernel

/-- An EMPTY tile; a tile in BF16 mode; a tile one k-step short of the depth limit, and one past that (R57: 16,384 a step for I8). -/
def matTile (x : Tile) : State := { sMat with cores := [(0, { coreM with tiles := coreM.tiles.setIfInBounds 96 x })] }
def iMopa : Instr := .mopa (ew 0 1 2 (m := 10))

theorem witness_MultiplyWordResults :
    emitted sMat iMopa (fun c w e => decide (c = .mopa) && !e.icx && (tileAt (coreAt sMat 0) 96).state == .ready && (tileAt (coreAt sMat 0) 96).mode == .triad &&
      modeTd e.mode == 12 && decide (pairWeight .i8 .i8 = some 16384) && e.vl == 64 && w.d == 0) = true ∧
    runs iMopa (queued (matTile { Tile.reset with state := .empty }) (wordOf iMopa)) (fun t => (curHart t).queue.length == 1 && (curHart t).ctl == .run) = true ∧
    runs iMopa (queued (matTile { Tile.reset with mode := .bf16 }) (wordOf iMopa)) (fun t => (curHart t).ctl == .trapped && field (curHart t).trapRec.cause 20 8 == 19 &&
      field (curHart t).trapRec.cause 0 20 == 16) = true ∧
    runs iMopa (queued (matTile { Tile.reset with d := depthLimit - 16383 }) (wordOf iMopa)) (fun t => (curHart t).ctl == .trapped &&
      field (curHart t).trapRec.cause 20 8 == 19 && field (curHart t).trapRec.cause 0 20 == 0) = true ∧ depthLimit - 16384 + 1 * 16384 ≤ depthLimit ∧
    (List.replicate 4096 0).length = 4096 ∧ (List.replicate 64 3).length = 64 := by decide +kernel

theorem witness_TileWordResults :
    [(Instr.mzero (ew 15 0 0), EClass.mzero), (.mbf (ew 15 0 0), .mbf), (.mcvt (ew 15 1 2 (imm := 1)), .mcvt), (.mrowW (ew 15 2 0 (imm := 63)), .mrowW),
      (.mrowR (ew 31 0 0 (m := 10) (imm := 0x3F1)), .mrowR)].all (fun (p : Instr × EClass) => emitted sCvt p.1 fun c w e =>
        decide (c = p.2) && !e.icx && !pastEnd e && decide (e.vl.toNat ≤ 64) && (tileAt (coreAt sCvt 0) 111).state == .ready &&
        (tileAt (coreAt sCvt 0) 97).state == .ready && decide (w.d.toNat + e.rows.toNat ≤ 32)) = true ∧
    emitted sCvtLast (.mcvt (ew 3 1 2 (imm := 1))) (fun _ w e => mcvtKeys e == [4095] &&
      okAnd (mcvtIn e 1 (tileAt (coreAt sCvt 0) 97).type (t3Form 4)) (fun _ => true) && w.imm.toNat % 16 == 1) = true ∧
    [Instr.mzero (ew 0 0 0), .mbf (ew 0 0 0), .mrowW (ew 0 2 0), .mrowR (ew 4 0 0 (m := 10)), .mcvt (ew 3 1 2)].all (fun i =>
      runs i (queued { sCvt with cores := [(0, { coreM with tiles := coreM.tiles.setIfInBounds 96 { Tile.reset with state := .draining } })] } (wordOf i))
        fun t => (curHart t).queue.length == 1) = true := by decide +kernel

/-- Words of the tile table on tiles in each state; a CPY that waits for a tile, and one that copies its last row. -/
def tileIn (x : TileState) : State := { on hart0 with cores := [(0, { CoreSt.reset with tiles := CoreSt.reset.tiles.setIfInBounds 111 { Tile.reset with state := x } })] }

theorem witness_TileAndCopyWords :
    [TileState.filling, .draining].all (fun x => [Instr.tready (ew 0 0 0 (imm := 111)), .tempty (ew 0 0 0 (imm := 111)), .twait (ew 0 0 0 (imm := 111))].all fun i =>
      runs i (queued (tileIn x) (wordOf i)) fun t => (curHart t).queue.length == 1) = true ∧
    [TileState.empty, .ready].all (fun x => [Instr.tready (ew 0 0 0 (imm := 111)), .tempty (ew 0 0 0 (imm := 111)), .tquery (ew 48 0 0 (imm := 111))].all fun i =>
      runs i (queued (tileIn x) (wordOf i)) fun t => (curHart t).queue.isEmpty) = true ∧
    emitted (on hart0) (.vfence (ew 0 0 0)) (fun c _ e => decide (c = .vfence) && !e.icx) = true ∧
    aloneAnd (sCopy 0) (.cpy (ew 0 0 0 (x := 24))) (fun _ w e => let v := claimCopy (enterWindow (sCopy 0) 0) 0 0 e
      let z := acquire v.1 0 .cpy w
      v.2 && (match (curHart z).queue with
        | [f] => mayIssue z 0 f w && decide ((copyRows (editEntry z 0 0 fun y => { y with judged := true }) 0 0 w 4096).ended = .complete []) &&
            aSpace f.x0 == 1 && aSpace f.x1 == 2 && f.rowsDone + 1 == cpyRows f && cpyLen f == 16 &&
            decide (cpySrcRow f f.rowsDone + cpyLen f ≤ bufSize 1) && decide (cpyDstRow f f.rowsDone + cpyLen f ≤ bufSize 2)
        | _ => false)) = true ∧
    aloneAnd { sCopy 0 with cores := [(0, coreM)] } (.cpy (ew 0 0 0 (x := 24))) (fun _ _ e =>
      !(claimCopy (enterWindow { sCopy 0 with cores := [(0, coreM)] } 0) 0 0 e).2) = true := by decide +kernel

/-- A group entry that is not valid, one that is BUSY, and one that is free, for a rotation of 4 elements of I32 from 0x4000 to 0x6000. -/
def collHart : Hart := withRegs [(9, 0x60), (24, 0x4000), (25, 0x6000), (26, 4)]
def iColl : Instr := .collKvRotation (ew 0 0 0 (m := 9) (x := 24))
def sColl (g : Group) : State := queued { on collHart with engines := [(0, { Engine.reset with groups := [(0, g)] })] } (wordOf iColl)
/-- Rank 0 of 2, on core 0, whose next rank is on another module. -/
def groupOf (busy : Bool) : Group := { Group.reset with v := true, size := 2, busy := busy, module := Config.moduleId + 1, link := 3 }

theorem nextLink_groupOf : (nextLink (groupOf false)).isSome = true := by
  have h : Config.moduleId + 1#14 ≠ Config.moduleId := by
    intro h
    have := congrArg BitVec.toNat h
    simp only [BitVec.toNat_add, BitVec.toNat_ofNat] at this
    omega
  simp [nextLink, groupOf, h]

theorem witness_CollectiveWords :
    aloneAnd (sColl Group.reset) iColl (fun _ w e => !e.icx && !e.started && collBad 0 e Group.reset (collOf 0 e w 3 Group.reset)) = true ∧
    running collHart = true ∧
    runs iColl (sColl Group.reset) (fun t => (curHart t).ctl == .trapped && field (curHart t).trapRec.cause 20 8 == 24 && field (curHart t).trapRec.cause 0 20 == 1) = true ∧
    aloneAnd (sColl (groupOf true)) iColl (fun _ w e => !collBad 0 e (groupOf true) (collOf 0 e w 3 (groupOf true)) && (groupOf true).busy) = true ∧
    runs iColl (sColl (groupOf true)) (fun t => (curHart t).queue.length == 1 && t.colls.isEmpty) = true ∧
    aloneAnd (sColl (groupOf false)) iColl (fun _ w e => let x := groupOf false
      !collBad 0 e x (collOf 0 e w 3 x) && !x.busy && (engineAt (sColl x) 0).inbox.isEmpty && aSpace e.x1 == 0 && collCount e == 4 &&
        okAnd (readLong (sColl x) 0 (aAddr e.x0) 16 2) fun r => r.1.length == 16) = true := by decide +kernel

/-- A rotation that is in flight with its destination written and nothing unacknowledged. -/
def sDone : State :=
  let s := sColl (groupOf false)
  let c : CollSt := { collOf 0 ((curHart s).queue.headD Entry.blank) (ew 0 0 0) 3 (groupOf false) with type := 6, count := 4, opened := true, written := 4 }
  { setCur s { curHart s with queue := (curHart s).queue.map fun e => { e with started := true } } with colls := [c] }

theorem witness_CollectiveWords_completion :
    (match findColl sDone 0 0, (curHart sDone).queue with
      | some c, [e] => c.hub == 0 && c.group == 0 && e.started && !e.complete && e.claims.isEmpty && c.unacked.isEmpty && decide (destCount c ≤ c.written) &&
          (match queuedClass e.word with
            | some (.coll _, _) => true
            | _ => false)
      | _, _ => false) = true ∧
    (let t := completeColl sDone 0 0
    (curHart t).queue.isEmpty && t.colls.isEmpty && (groupAt t 0 0).collno == 1) = true := by decide +kernel

/-- ICT is 0 and a type does not suit its word: it completes with ICX (R48). -/
def sIcx : State := on { hartV with ict := false, tags := hartV.tags.setIfInBounds 2 11 }

theorem witness_IllegalCombinationsRun : [Instr.vadd (ew 1 2 1), .vcmpEq (ew 35 1 2), .vredSum (ew 48 2 0 (m := 7))].all (fun i =>
      emitted sIcx i fun c _ e => e.icx && !decide (c = .vfence) && !decide (c = .mask 6)) = true ∧
    elems sIcx (.vadd (ew 1 2 1)) 1 32 4 = [0, 0, 0, 0] ∧ (curHart (performed sIcx (.vadd (ew 1 2 1)))).vxsr = flagICX ∧
    pushed sIcx (.vredSum (ew 48 2 0 (m := 7))) = [0] := by decide +kernel

/-- The greatest elements of the narrowest and widest types; a negative number and both kinds of NaN. -/
theorem witness_VectorElementValues : tyIsInt .i4 = true ∧ 15 < 2 ^ tyWidth .i4 ∧ tyIsInt .i64 = true ∧ 2 ^ 64 - 1 < 2 ^ tyWidth .i64 ∧
    modeShift 0 = 0 ∧ intOf .i4 15 ≠ 0 ∧ intOf .i4 0 = 0 ∧ tyIsFp .fp16 = true ∧
    (match unpack fmtSingle false 0xC0000000 with
      | .num true k _ => k != 0
      | _ => false) = true ∧
    unpack fmtSingle false 0x7F800001 = .nan true ∧ unpack fmtSingle false 0x7FC00000 = .nan false := by decide +kernel

/-- Elements on one page, and an address that no walk reaches, for a load, a store and an atomic word. -/
theorem witness_VectorMemoryElements :
    [Instr.vld (ew 3 0 0 (m := 7) (x := 20)) .unit .global .reg, .vst (ew 0 2 0 (x := 20)) true .unit .global, .vamo (ew 3 1 9 (x := 20)) .add .hart].all (fun i =>
      emitted sV i fun c w e => !e.icx && activeAt hartV w 0 && decide (tyOf (dstType e.mode e.taga) = some .i32) && okAnd (elemAt sV.mem hartV 0 e c w sV 0 0) fun x => x.pos == 0) = true ∧
    okAnd (spanOf sV 0 vldAccess 0x4000 4) (fun l => l.length == 1 && l.all fun y => y.1.place.kind != 3 && !poisoned sV.mem y.1.place.pa y.2) = true ∧
    okAnd (spanOf sV 0 (vstAccess true) 0x4000 4) (fun l => l.length == 1) = true ∧ okAnd (spanOf sV 0 (vamoAccess 4 .add) 0x4000 4) (fun l => l.length == 1) = true ∧
    errAnd (spanOf sV 0 vldAccess 0x800000000 4) (· == .reason 0) = true ∧ errAnd (spanOf sV 0 (vstAccess false) 0x800000000 4) (· == .reason 0) = true ∧
    errAnd (spanOf sV 0 (vamoAccess 4 .add) 0x800000002 4) (· == .reason 4) = true := by decide +kernel

/-! ### Hypotheses met: the context page -/

/-- Slot 4 in a given state of its control word, seen from slot 0. -/
def sSlot (h : Hart) : State := { on hart0 with harts := [(0, hart0), (4, h)] }
def slotIn (c : Ctl) : Hart := { withRegs [(1, 0x77)] with ctl := c, pc := 0x40 }
def ctlOf (i : Instr) (s : State) (c : Ctl) : Bool := runs i s fun t => decide ((hartAt t 4).ctl = c)

theorem witness_ControlWordStores :
    ctlOf (.ctrlRun (.hart 0) 4) (sSlot (slotIn .idle)) .run = true ∧ ctlOf (.ctrlRun (.hart 0) 4) (sSlot (slotIn .stopped)) .run = true ∧
    ctlOf (.ctrlRun (.hart 0) 4) (sSlot (slotIn .trapped)) .run = true ∧
    ctlOf (.ctrlRun (.hart 0) 4) (sSlot { slotIn .stopped with pending := [gFaultRec 20 3 9] }) .trapped = true ∧
    ctlOf (.ctrlRun (.hart 0) 4) (sSlot (slotIn .stopDrain)) .run = true ∧ ctlOf (.ctrlRun (.hart 0) 4) (sSlot (slotIn .stopFreeze)) .stopFreeze = true ∧
    ctlOf (.ctrlStopDrain (.hart 0) 4) (sSlot (slotIn .run)) .stopDrain = true ∧ ctlOf (.ctrlStopDrain (.hart 0) 4) (sSlot (slotIn .stopFreeze)) .stopFreeze = true ∧
    ctlOf (.ctrlStopFreeze (.hart 0) 4) (sSlot (slotIn .stopDrain)) .stopFreeze = true ∧ ctlOf (.ctrlStopFreeze (.hart 0) 4) (sSlot (slotIn .idle)) .idle = true ∧
    ctlOf (.ctrlIdle (.hart 0) 4) (sSlot (slotIn .stopped)) .idle = true ∧ ctlOf (.ctrlIdle (.hart 0) 4) (sSlot (slotIn .run)) .run = true ∧
    ctlOf (.ctrlIdle (.hart 0) 4) (sSlot { slotIn .trapped with parent := some 5 }) .idle = true ∧
    ctlOf (.stopDrainComplete 4) (sSlot { slotIn .stopDrain with genStopped := true }) .stopped = true ∧
    ctlOf (.stopFreezeComplete 4) (sSlot { slotIn .stopFreeze with genStopped := true }) .stopped = true ∧ startedColl (slotIn .stopFreeze) = none ∧
    runs (.stopDrainCountExpiry 4) (sSlot (slotIn .stopDrain)) (fun t => (hartAt t 4).gcount == 4096) = true := by decide +kernel

/-- A stopped page with two entries in its image; the storing hart's one window is pages 0 to 0x1F with R and W. -/
def sPage (h : Hart) : State := { on hart0 with harts := [
  (0, { hart0 with windows := (Vector.replicate 8 Window.none).setIfInBounds 0 ⟨0, 0xF8000D⟩ }), (4, h)] }
def imaged : Hart := { slotIn .stopped with queue := [{ Entry.blank with word := wAdd }, { Entry.blank with word := wAdd }], windows := Vector.replicate 8 Window.none }
def queueLen (i : Instr) (n : Nat) : Bool := runs i (sPage imaged) fun t => (hartAt t 4).queue.length == n
def limitOf (v : Word) : Nat := match exec (.frameWindowWrite (.hart 0) 4 0x21008 v) (sPage imaged) with
  | .next t => (hartAt t 4).windows[0].limit.toNat
  | _ => 0

theorem witness_ContextPageStores :
    sameWorld (sPage imaged) (.hart 0) 4 = true ∧ running imaged = false ∧ running (slotIn .run) = true ∧
    sameWorld { sPage imaged with cores := [(1, { CoreSt.reset with flid := 5 })] } (.hart 0) 4 = false ∧
    queueLen (.queueImageWrite (.hart 0) 4 0 0 0) 0 = true ∧ queueLen (.queueImageWrite (.hart 0) 4 1 0 wAdd) 2 = true ∧
    queueLen (.queueImageWrite (.hart 0) 4 2 0 wAdd) 3 = true ∧ queueLen (.queueImageWrite (.hart 0) 4 3 0 wAdd) 2 = true ∧
    queueLen (.queueImageWrite (.hart 0) 4 2 8 wAdd) 2 = true ∧
    runs (.shapeWrite (.hart 0) 4 1) (sPage imaged) (fun t => (hartAt t 4).shape && (hartAt t 4).tags[1] == 0) = true ∧
    runs (.shapeWrite (.hart 0) 4 1) (sPage { imaged with vstate := .absent, tags := Vector.replicate 32 6 }) (fun t => (hartAt t 4).shape && (hartAt t 4).tags[1] == 6) = true ∧
    limitOf 0xF8000D = 0xF8000D ∧ limitOf 0x100000D = 0 ∧ limitOf 0xF8001D = 0 ∧ limitOf 0x100000C = 0x100000C ∧
    runs (.frameWindowWrite (.host 0) 4 0x21080 0x80001) (sPage imaged) (fun t => (hartAt t 4).root == 0x80001) = true ∧
    runs (.frameWindowWrite (.hart 0) 4 0x21008 0xF8000D) (sPage { imaged with ctl := .trapped })
      (fun t => (hartAt t 4).windows[0].limit == 0 && ((hartAt t 4).newWindows.map (·[0].limit)) == some 0xF8000D) = true ∧
    runs (.frameWindowWrite (.host 0) 4 0x21080 0x80001) (sPage { imaged with ctl := .trapped })
      (fun t => (hartAt t 4).root == imaged.root && (hartAt t 4).newRoot == some 0x80001) = true ∧
    ctlOf (.ctrlRun (.hart 0) 4) (sPage { imaged with ctl := .trapped, queue := [], newRoot := some 0x80001 }) .run = true ∧
    runs (.reclaimRequest (.hart 0) 4 0xA4) (sPage imaged) (fun t => (hartAt t 4).reclaim == ⟨1, true, 1, 4, none⟩) = true ∧
    [0xA5, 0xAC, 0x1A4].all (fun v => runs (.reclaimRequest (.hart 0) 4 v) (sPage imaged) fun t => (hartAt t 4).reclaim.status == 0) = true := by decide +kernel

theorem witness_ControlRegisterStores : sameWorld (sPage imaged) (.hart 0) 4 = true ∧ running imaged = false ∧ running (slotIn .run) = true ∧
    runs (.controlRegisterWrite (.hart 0) (0xC00000000000 + 4 * 2 ^ 19 + 8) 0x47) (sPage imaged) (fun t => (hartAt t 4).pc == 0x44) = true ∧
    runs (.controlRegisterWrite (.hart 0) (0xC00000000000 + 4 * 2 ^ 19 + 0x100) 0x47) (sPage imaged) (fun t => rd (hartAt t 4) 0 == 0) = true ∧
    runs (.controlRegisterWrite (.hart 0) (0xC00000000000 + 4 * 2 ^ 19 + 0x100 + 8 * 63) 0x47) (sPage imaged) (fun t => rd (hartAt t 4) 63 == 0x47) = true ∧
    runs (.controlRegisterWrite (.hart 0) (0xC00000000000 + 4 * 2 ^ 19 + 8) 0x47) (sPage (slotIn .run)) (fun t => (hartAt t 4).pc == 0x40) = true ∧
    runs (.controlRegisterWrite (.hart 0) (0xC00000000000 + 4 * 2 ^ 19 + 4) 0x47) (sPage imaged) (fun t => (hartAt t 4).pc == 0x40) = true ∧
    runs (.controlRegisterWrite (.hart 0) (0xC00000000000 + 4 * 2 ^ 19) 1) (sPage { imaged with queue := [] }) (fun t => (hartAt t 4).ctl == .run) = true ∧
    [4, 7].all (fun v => runs (.controlRegisterWrite (.hart 0) (0xC00000000000 + 4 * 2 ^ 19) v) (sPage imaged) fun t => (hartAt t 4).ctl == .stopped) = true ∧
    runs (.controlRegisterWrite (.host 0) (0xC00100000000 + (64 * 63 + 63) * 2 ^ 19 + 8) 9) (on hart0) (fun t => (queueAt t 4095).tail == 9) = true ∧
    runs (.controlRegisterWrite (.hart 0) (0xC00700000000 + 8 * 1474559) 9) (on hart0) (fun t => (curHart t).ctl == .run) = true := by decide +kernel

/-- Slot 4, stopped, with a save command on the area at 0x100000, and a world. -/
def job (c : SaveCmd) (o : Option (BitVec 8)) : SaveJob := ⟨c, false, .hart 0, 0x100000, [some 0x100000], o⟩
def sSave (c : SaveCmd) (o : Option (BitVec 8) := none) (own : BitVec 4 := 15) (flid : BitVec 8 := 0) : State :=
  { sSlot { slotIn .stopped with vl := 5, own := own, vstate := if own = 0 then .absent else .present, saveJob := some (job c o) } with cores := [(1, { CoreSt.reset with flid := flid })] }

theorem witness_SaveCommands : (sSave .save).mem.wf = true ∧ worldOf (sSave .save) 4 = 0 ∧ (0x100000 : Word).toNat % 2 ^ 19 + 0x21000 ≤ 2 ^ 19 ∧
    (sSave .save).mem.poison = [] ∧ windowBytes { hart0 with own := 15 } ≠ 0 ∧ windowBytes { hart0 with own := 0 } = 0 ∧ worldOf (sSave .save none 15 3) 4 ≠ 0 ∧
    windowBytes { slotIn .stopped with own := 0 } = 0 ∧
    runs (.save 4) { sSave .save with harts := [(4, { slotIn .stopped with saveJob := some { job .save none with area := [none] } })] }
      (fun t => ((hartAt t 4).saveJob.map (·.outcome)) == some (some 3)) = true ∧
    areaRead (sSave .restoreScalar none 15 3) (job .restoreScalar none) 0 = some 0 ∧
    (sSave .restoreScalar none 15 3).seals = [] ∧
    runs (.restoreScalar 4) { sSave .restoreScalar none 15 3 with seals := [⟨77, 0, [], false, 0⟩] } (fun t => ((hartAt t 4).saveJob.map (·.outcome)) == some (some 4)) = true ∧
    runs (.controlRegisterWrite (.hart 0) (0xC00000000000 + 4 * 2 ^ 19 + 0x22008) 4) (sSlot { slotIn .stopped with own := 0 })
      (fun t => (hartAt t 4).saveStatus == 1 && ((hartAt t 4).saveJob.map (·.outcome)) == some (some 4) && (hartAt t 4).vstate == .absent) = true ∧
    runs (.savecmdComplete 4) (sSave .save (some 2)) (fun t => (hartAt t 4).saveStatus == 2 && (hartAt t 4).lastArea == some 0x100000) = true := by decide +kernel

/-! ### Hypotheses met: VI and queue pages, packets, launch -/

/-- VI 5 with range register 1 live on one page of device memory and register 2 set up but not live. -/
def sVi (r : RangeReg) : State := { on hart0 with vis := [(5, {
  ranges := ((Vector.replicate 16 RangeReg.reset).setIfInBounds 1 ⟨0x80000, 0x80000, 0, 0, 1⟩).setIfInBounds 2 r, rangegen := 7 })], tlb := [⟨0, 5, 0, 0, 0, 0, [], [], 16, false⟩, ⟨0, 6, 0, 0, 0, 0, [], [], 16, false⟩] }
def genOf (i : Instr) (s : State) : Nat := match exec i s with
  | .next t => (viAt t 5).rangegen.toNat
  | _ => 0
def live (r : RangeReg) (v : Word := 1) : Nat := genOf (.rangeRegisterWrite (.host 0) 5 2 3 v) (sVi r)
def qOf (x : QueueSt) : State := { on hart0 with queues := [(321, x)] }
def afterQ (i : Instr) (x : QueueSt) (p : QueueSt → Bool) : Bool := runs i (qOf x) fun t => p (queueAt t 321)

/-- Of R310: device memory just above and just below another register's range, overlapping it, out of order, past 737,280 MiB, the host
window's and the control region's last pages, an empty key slot, and the host window from a PBASE one page below it; then stores to a queue-head page on and off. -/
theorem witness_ViAndQueuePageStores :
    [live ⟨0x100000, 0x100000, 0, 0, 0⟩, live ⟨0, 0, 0, 0, 0⟩, live ⟨0, 0x80000, 0, 0, 0⟩, live ⟨0x200000, 0x100000, 0, 0, 0⟩,
      live ⟨0x100000, 0x100000, 0xB3FFF80000, 0, 0⟩, live ⟨0x100000, 0x100000, 0xB400000000, 0, 0⟩, live ⟨0x800000000000, 0xBFFFFFF80000, 0x800000000000, 0, 0⟩ 2,
      live ⟨0xC00000000000, 0xFFFFFFF80000, 0xC00000000000, 0, 0⟩ 3, live ⟨0xBFFFFFF80000, 0xBFFFFFF80000, 0xC00000000000, 0, 0⟩ 3,
      live ⟨0x100000, 0x100000, 0, 0, 0⟩ 0x701, live ⟨0x800000000000, 0x800000080000, 0x7FFFFFF80000, 0, 0⟩ 2] = [8, 8, 7, 7, 8, 7, 8, 8, 7, 7, 8] ∧
    runs (.tshoot (.host 0) 5) (sVi RangeReg.reset) (fun t => t.tlb == [⟨0, 6, 0, 0, 0, 0, [], [], 16, false⟩]) = true ∧
    runs (.tshoot (.host 5) 5) (sVi RangeReg.reset) (fun t => t.tlb.length == 2) = true ∧
    runs (.rangeRegisterWrite (.host 0) 5 1 0 0x100000) (sVi RangeReg.reset) (fun t => (rangeReg t 5 1).vbase == 0x80000) = true ∧
    runs (.rangeRegisterWrite (.host 0) 5 2 1 0xFFFFF) (sVi RangeReg.reset) (fun t => (rangeReg t 5 2).vlast == 0x80000) = true ∧
    runs (.rangeRegisterWrite (.host 0) 5 1 3 0x700) (sVi RangeReg.reset) (fun t => (rangeReg t 5 1).kind == 0 && (rangeReg t 5 1).key == 7) = true ∧
    runs (.translationDropped (.drop 0)) (sVi RangeReg.reset) (fun t => t.tlb == [⟨0, 6, 0, 0, 0, 0, [], [], 16, false⟩]) = true ∧
    runs (.translationDropped (.walk 0 0x100000)) (sVi RangeReg.reset)
      (fun t => t.tlb.length == 3 && t.tlb.any fun x => x.cluster == 0 && x.vi == 0 && x.root == 0x80001 && x.vpn == 0 && x.block) = true ∧
    afterQ (.queueCtlWrite (.hart 0) 5 1 0x203) QueueSt.reset (fun x => x.en && x.log2 == 1 && x.ring == 4) = true ∧
    afterQ (.queueCtlWrite (.hart 0) 5 1 1) QueueSt.reset (fun x => !x.en) = true ∧
    afterQ (.queueCtlWrite (.hart 0) 5 1 0x204) { QueueSt.reset with en := true, fault := true } (fun x => !x.en && !x.fault && x.log2 == 0) = true ∧
    [(9, 9, 0), (5, 5, 0), (4, 5, 1)].all (fun (p : Nat × Nat × Nat) => afterQ (.tailWrite (.hart 0) 5 1 (BitVec.ofNat 64 p.1)) { QueueSt.reset with tail := 5 }
      fun x => x.tail == p.2.1 && x.stale == p.2.2) = true ∧
    afterQ (.priocapWrite (.hart 0) 5 1 1) QueueSt.reset (fun x => x.priocap == 3) = true ∧ afterQ (.priocapWrite (.host 0) 5 1 1) QueueSt.reset (fun x => x.priocap == 1) = true ∧
    afterQ (.templateWrite (.host 0) 5 1 7 true 0x8001D) QueueSt.reset (fun x => x.wins[7].limit == 0x8001D) = true ∧
    afterQ (.templateWrite (.hart 0) 5 1 7 false 0x80000) { QueueSt.reset with wins := Vector.replicate 8 ⟨0, 0x8001D⟩ } (fun x => x.wins[7].base == 0x80000) = true := by
  decide +kernel

/-- A PENDING packet of one hart with 4 lane clusters, within a core; a ring of two slots at 0x200000; the scheduler at work. -/
def wPending : Word := 0x3000011
def words0 : List Word := [0, wPending, 0x1000, 0x77, 0, 0, 0, 0, 0, 0, 0, 0, 0, 0, 0, 0]
def packet0 : Packet := ⟨0, 0x200000, words0, none⟩
def sSched (x : QueueSt) (state : Word) : State := { on hart0 [(0x200008, state.toNat), (0x200010, 0x1000), (0x200018, 0x77), (0x300000, 5)] with
  resetPage := ⟨0, 0, 0, 0, 1⟩, queues := [(0, { x with ring := 0x4000, log2 := 1, en := true, tail := 1 })] }
def sWaiting : State := sSched { QueueSt.reset with scan := 1, waiting := [packet0] } wPending

/-- A packet that depends on the state word at 0x300000, which reads FAILED. -/
def packetDep : Packet := ⟨0, 0x200000, [0, wPending + 0x10000, 0x1000, 0x77, 0, 0, 0x300000], none⟩
def sDep : State := sSched { QueueSt.reset with scan := 1, waiting := [packetDep] } (wPending + 0x10000)

theorem witness_PacketScanAndChecks :
    (sSched QueueSt.reset wPending).mem.wf = true ∧ pktState wPending = 1 ∧ pktMalformed packet0 = false ∧
    (List.range 16).all (fun k => schedRead (sSched QueueSt.reset wPending) 0 (0x200000 + 8 * k) == words0[k]?) = true ∧
    runs (.slotScan 0 0) (sSched QueueSt.reset wPending) (fun t => (queueAt t 0).scan == 1 && (queueAt t 0).waiting == [packet0]) = true ∧
    runs (.scanReread 0 0) (sSched { QueueSt.reset with scan := 1, head := 1 } wPending) (fun t => (queueAt t 0).scan == 1 && (queueAt t 0).waiting.isEmpty) = true ∧
    runs (.slotScan 0 0) { sSched QueueSt.reset wPending with mem := { (on hart0).mem with poison := [0x10000] } } (fun t => (queueAt t 0).fault) = true ∧
    findPacket sWaiting 0 0 = some packet0 ∧ runs (.stateWordRecheck 0 0 0) { sWaiting with mem := writeMem sWaiting.mem 0 0x200008 8 0x3000013 }
      (fun t => (queueAt t 0).waiting.isEmpty) = true ∧
    depWords sDep 0 packetDep = [some 5] ∧ findPacket sDep 0 0 = some packetDep ∧ schedRead sDep 0 0x200008 = some (pktWord packetDep) ∧
    runs (.dependenceCheck 0 0 0) sDep (fun t => (queueAt t 0).waiting.isEmpty && schedRead t 0 0x200008 == some 0x203010015 && t.msix == [(0, 0)]) = true ∧
    depWords sWaiting 0 packet0 = [] ∧ runs (.dependenceCheck 0 0 0) sWaiting (fun t => (queueAt t 0).waiting.length == 1) = true := by decide +kernel

/-- A packet of five harts in one core can never be placed. -/
def packetBig : Packet := ⟨0, 0x200000, [0, 0x3000051, 0x1000], none⟩
def sBig : State := sSched { QueueSt.reset with scan := 1, waiting := [packetBig] } 0x3000051

theorem witness_PacketDispatch : freeTeam sWaiting = some 0 ∧ inOrder sWaiting = [⟨0, packet0, 0⟩] ∧
    schedRead sWaiting 0 0x200008 = some (pktWord packet0) ∧ bufferUnmapped sWaiting 0 packet0 = false ∧ neverFits sWaiting wPending = false ∧
    runs (.packetDispatch 7) sWaiting (fun t => (teamAt t 0).active && (teamAt t 0).members.length == 1 && schedRead t 0 0x200008 == some 0x3000012 &&
      (queueAt t 0).waiting.isEmpty) = true ∧
    inOrder sBig = [⟨0, packetBig, 0⟩] ∧ neverFits sBig 0x3000051 = true ∧
    runs (.packetDispatch 0) sBig (fun t => schedRead t 0 0x200008 == some 0x403000055 && t.msix == [(0, 0)]) = true := by decide +kernel

/-- Team 2 of one hart, slot 5 with lane clusters 0 and 1, in each stage of its life. -/
def sLaunch (m : Member) (c : ClusterSt) : State := { sSched QueueSt.reset 0x3000012 with
  teams := [(2, { TeamSt.free with active := true, packet := packet0, members := [m], root := 0x80001 })], clusters := [(0, c)] }
def member5 : Member := ⟨5, 3, false, false, false⟩

theorem witness_TeamLaunchAndCompletion :
    slotFree (sLaunch member5 ClusterSt.reset) 5 = true ∧ ownedOnCore (sLaunch member5 ClusterSt.reset) 1 5 &&& 3 = 0 ∧ member5.hid / 16 = 0 ∧
    runs (.launchCommand 2 0) (sLaunch member5 ClusterSt.reset) (fun t => (hartAt t 5).ctl == .run && (hartAt t 5).pc == 0x1000 && rd (hartAt t 5) 1 == 0x77 &&
      rd (hartAt t 5) 3 == 1 && (hartAt t 5).own == 3 && (clusterAt t 0).cmdPermits == 15) = true ∧
    runs (.launchCommand 2 0) (sLaunch member5 { ClusterSt.reset with cmdPermits := 0 }) (fun t => (hartAt t 5).ctl == .idle) = true ∧
    runs (.leafReport 0) (sLaunch member5 { ClusterSt.reset with reports := [5], repPermits := 1 }) (fun t => (clusterAt t 0).reports.isEmpty && (clusterAt t 0).repPermits == 0) = true ∧
    runs (.leafReport 0) (sLaunch member5 { ClusterSt.reset with reports := [5], repPermits := 0 }) (fun t => (clusterAt t 0).reports.length == 1) = true ∧
    runs (.commandLinkAcknowledge 0 true) (sLaunch member5 { ClusterSt.reset with unacked := [⟨1, 2⟩], carried := 1, cmdPermits := 15 }) (fun t => (clusterAt t 0).cmdPermits == 16) = true ∧
    runs (.commandLinkAcknowledge 0 true) (sLaunch member5 { ClusterSt.reset with unacked := [⟨1, 2⟩], cmdPermits := 15 }) (fun t => (clusterAt t 0).cmdPermits == 15) = true ∧
    runs (.launchCommand 2 0) (sLaunch member5 { ClusterSt.reset with cmdPermits := 0, held := [2] }) (fun t => (hartAt t 5).ctl == .run) = true ∧
    runs (.commandLinkAcknowledge 0 false) (sLaunch member5 { ClusterSt.reset with unackedReports := 1, repPermits := 15 }) (fun t => (clusterAt t 0).repPermits == 16) = true ∧
    runs (.packetComplete 2) (sLaunch { member5 with launched := true } ClusterSt.reset) (fun t => (teamAt t 2).active) = true ∧
    runs (.packetComplete 2) (sLaunch { member5 with launched := true, ended := true, halted := true } ClusterSt.reset)
      (fun t => !(teamAt t 2).active && schedRead t 0 0x200008 == some 0x3000014) = true ∧
    runs (.packetComplete 2) (sLaunch { member5 with launched := true, ended := true } ClusterSt.reset)
      (fun t => schedRead t 0 0x200008 == some 0x303000015 && t.msix == [(0, 0)]) = true := by decide +kernel

/-! ### Hypotheses met: errors, the calendar, power -/

def loggedAs (i : Instr) (s : State) (kind sev : Nat) : Bool := runs i s fun t =>
  t.errlog.written == 1 && (fmGet t.errlog.recs ⟨0, 0, 0, 0⟩ 0).cls == errClass kind sev 0 0 0 0 0 && t.msix.length == sev % 2
def sWordOn (i : Instr) (h : Hart) : State := queued (on h) (wordOf i)

/-- A VADD whose sequence number names lane 0 for its check (R243). -/
def sAssay : State := queued (on { hartV with emitseq := 3 }) wAdd
/-- A BF16 MOPA that the array performs; a dirty line in the L2 of cluster 0, and one of the same set in that of cluster 1. -/
def sArray : State := let s := queued (matTile { Tile.reset with mode := .bf16 }) (wordOf iMopa)
  setHart s 0 { curHart s with queue := (curHart s).queue.map fun e => { e with started := true } }
def sDirty : State := { State.reset with mem := ⟨[], [], [], [(0x20, 1), (0x20 + 0x800000, 2)], []⟩ }
/-- A running hart 0 on a core that retires nothing; a hung core since PT 5. -/
def sQuiet (q : Nat) : State := { on hart0 with cores := [(0, { CoreSt.reset with quiet := q })] }
def sHung (pt : Nat) : State := { on hart0 with hung := [(0, 5)], pt := pt }
/-- Page 5, of die 5 and frame 0, on its way to die 7, whose page 7 takes its place. -/
def sMoving : State := { State.reset with migration := some ⟨5, 7, 0, some 7, 0⟩ }

theorem witness_ErrorsAndOutsideWrites :
    (underAssay sAssay 0 0 (· == 0) (pipeChecked 0)).map (·.1) = some 0 ∧ underAssay sAssay 0 0 (· == 1) (pipeChecked 0) = none ∧
    underAssay sAssay 0 0 (· == 0) (pipeChecked 2) = none ∧ arrayWord sAssay 0 = none ∧ (arrayWord sArray 0).isSome = true ∧
    loggedAs (.localFaultRecord 0 (.assayCorrected 0 0 0 1)) sAssay 5 0 = true ∧ loggedAs (.localFaultRecord 0 (.assayLaneWrong 0 0)) sAssay 5 0 = true ∧
    runs (.localFaultRecord 0 (.arrayCorrected 0 3)) sArray (fun t => fmGet (clusterAt t 0).counters 0 75 == 1 && (clusterAt t 0).reports == [3072]) = true ∧
    runs (.localFaultRecord 1 (.assayCorrected 0 0 0 1)) sAssay (fun t => t.errlog.written == 0) = true ∧
    (groupStart (curHart sAssay) ((curHart sAssay).queue.headD Entry.blank) (.varith 0) (ew 3 1 2) 0 0 0 0) = some 0 ∧
    runs (.localFaultRecord 0 (.assayUncorrectable 0 0 0 1 0 0)) sAssay (fun t => (curHart t).ctl == .trapped && field (curHart t).trapRec.cause 20 8 == 22 &&
      field (curHart t).trapRec.cause 0 20 == 0 && fmGet (clusterAt t 0).counters 0 1 == 1 && fmGet (clusterAt t 0).counters 0 68 == 1) = true ∧
    runs (.localFaultRecord 0 (.assayUncorrectable 0 0 1 1 0 0)) sAssay (fun t => (curHart t).ctl == .run && t.errlog.written == 0) = true ∧
    runs (.localFaultRecord 0 (.arrayUncorrectable 0 2)) sArray (fun t => field (curHart t).trapRec.cause 20 8 == 22 && field (curHart t).trapRec.cause 0 20 == 16 &&
      fmGet (clusterAt t 0).counters 0 74 == 1 && fmGet (clusterAt t 0).counters 0 88 == 1) = true := by decide +kernel

theorem witness_memory_errors :
    bankOf 0x1010 = 2 ∧ bankOf 0x80000 = 1 ∧ dirtyIn sDirty.mem 0 0x20 = true ∧
    runs (.l2Error 0 0x1010 .doubleDirty) sDirty (fun t => poisoned t.mem 0x101F 1 && poisoned t.mem 0x1000 1 && !poisoned t.mem 0x1020 1) = true ∧
    runs (.l2Error 0 0x1010 .doubleDirty) State.reset (fun t => t.mem.poison.isEmpty && t.errlog.written == 0) = true ∧
    runs (.l2Error 0 0x1010 .doubleClean) sDirty (fun t => t.errlog.written == 0) = true ∧
    runs (.l2Error 0 0x1010 .doubleClean) { State.reset with mem := ⟨[], [], [], [(0x20, 2)], []⟩ } (fun t => t.errlog.written == 1) = true ∧
    runs (.l2Error 0 0x1010 .tag) State.reset (fun t => t.mem.poison.isEmpty && t.errlog.written == 1) = true ∧
    runs (.l2Error 0 0xB3FFFFFFFF .single) State.reset (fun t => t.errlog.written == 1 && t.mem == State.reset.mem && (clusterAt t 0).reports == [3072]) = true ∧
    runs (.hbmError 0 0x1010 true) State.reset (fun t => poisoned t.mem 0x1000 1) = true ∧ runs (.hbmError 0 0xB400000000 true) State.reset (fun t => t.errlog.written == 0) = true ∧
    runs (.hbmError 1 0x1010 true) State.reset (fun t => t.errlog.written == 0) = true ∧ runs (.hbmError 1 0x80000 false) State.reset (fun t => t.errlog.written == 1) = true ∧
    runs (.localFaultRecord 0 .translationStructure) { State.reset with tlb := [⟨0, 0, 0, 0, 0, 0, [], [], 16, false⟩, ⟨1, 0, 0, 0, 0, 0, [], [], 16, false⟩] }
      (fun t => t.tlb == [⟨1, 0, 0, 0, 0, 0, [], [], 16, false⟩]) = true := by decide +kernel

theorem witness_hangs_and_outside_writes :
    runs (.heartbeatTimeout (.leaf 3)) State.reset (fun t => !(clusterAt t 3).running) = true ∧
    runs (.heartbeatTimeout .scheduler) State.reset (fun t => !t.standbyActive && !t.schedRunning && t.takeover == some 100000) = true ∧
    runs (.heartbeatTimeout .scheduler) { State.reset with standbyActive := true } (fun t => t.schedRunning) = true ∧
    runs (.heartbeatTimeout .both) State.reset (fun t => !t.schedRunning && t.aer == [⟨0, true⟩]) = true ∧
    coreBusy (on hart0) 0 = true ∧ runs (.crucibleHang 0) (sQuiet (2 ^ 22)) (fun t => (hartAt t 0).ctl == .idle && t.hung == [(0, 0)]) = true ∧
    runs (.crucibleHang 0) (sQuiet (2 ^ 22 - 1)) (fun t => (hartAt t 0).ctl == .run && t.hung.isEmpty) = true ∧
    runs (.crucibleHang 0) (sHung 1000004) (fun t => t.harts.length == 1 && t.hung == [(0, 5)]) = true ∧
    runs (.leafControllerRestart 3 true) { State.reset with clusters := [(3, { ClusterSt.reset with running := false })] } (fun t => (clusterAt t 3).running) = true ∧
    fmGet (flushCluster { State.reset with clusters := [(3, { ClusterSt.reset with counters := [(9, 4)] })] } 3).hallmark.counters 0 9 = 4 ∧
    runs (.pageMigration 5 7 0) State.reset (fun t => moving t 5 && moving t 7 && frameAt t 5 == (5, 0)) = true ∧
    runs (.pageMigration 5 0 0) sMoving (fun t => frameAt t 5 == (7, 0) && frameAt t 7 == (5, 0) && !moving t 5) = true ∧
    runs (.pageMigration 6 0 0) sMoving (fun t => moving t 5) = true ∧
    runs (.pageMigration 5 7 0) { State.reset with calendar := { State.reset.calendar with current := some ⟨0, 280, 0, 1, 0⟩ } } (fun t => !moving t 5) = true ∧
    (stageTwo State.reset 1 0x1000).isNone = true ∧ (stageTwo State.reset 0 0x1000).any (fun p => p.key == 0 && p.kind != 3) = true ∧
    runs (.hostMemoryWrite 0 0x1000 [7, 8]) State.reset (fun t => t.mem.cells == [(0x1000, 7), (0x1001, 8)]) = true ∧
    (stageTwo sKey 1 0x180000).any (fun p => p.key != 0) = true ∧ runs (.hostMemoryWrite 1 0x180000 [7]) sKey (fun t => t.aer == [⟨1, false⟩]) = true ∧
    (stageTwo State.reset 0 0xC00100000008).any (fun p => p.key == 0 && p.kind == 3 && p.pa % 8 == 0) = true := by decide +kernel

/-- A link-retrain slot of 2,000 ns from 100, and the calendar before, in, at the end of and 40 ns after it. -/
def slot1 : Slot := ⟨100, 2000, 1, BitVec.allOnes 24, 1⟩
def slot2 : Slot := ⟨3000, 280, 0, BitVec.allOnes 24, 15⟩
def sCal (cur : Option Slot) (pt : Nat) : State := { on hart0 with
  pt := pt, calendar := { State.reset.calendar with slots := [slot1, slot2], current := cur }, links := [(0, { Link.reset with state := 3 })] }

/-- The same with a rewrite of the list begun, and refresh slots listed from PT 6,000 on. -/
def slotsOn : List Slot := (List.range 254).map fun k => ⟨6000 + 3900 * k, 280, 0, BitVec.allOnes 24, 15⟩
def sRewrite (r : Rewrite) (l : List Slot) : State := let s := sCal none 2140
  { s with calendar := { s.calendar with gen := 5, rewrite := some r, slots := l, lastRefresh := some (6000 + 3900 * 253) } }
def sLoan (bal : Int) : State := { on hart0 with cores := [(0, { CoreSt.reset with loans := [⟨1, 2, 0⟩] })], clusters := [(0, { ClusterSt.reset with bal := bal })] }
def sAsked (n : Nat) (p : Power := State.reset.power) : State := { on hart0 with links := [(0, { Link.reset with state := 2, asked := n })], power := p }
/-- A legal retrain slot, one that lies too close to a refresh slot, one whose duration is wrong, and one that is too near. -/
def offered : List Slot := [⟨900500, 2000, 1, BitVec.allOnes 24, 1⟩, ⟨898000, 1000, 2, 1, 1⟩, ⟨904000, 101, 3, BitVec.allOnes 24, 15⟩, ⟨12000, 100, 3, BitVec.allOnes 24, 15⟩]

theorem witness_AnnealCalendarAndPower :
    runs (.slotq 62 1) (sCal none 0) (fun t => rd (curHart t) 62 == 3000 && rd (curHart t) 63 == 280) = true ∧
    runs (.slotq 1 4) (sCal none 0) (fun t => rd (curHart t) 1 == -1 && rd (curHart t) 2 == 0) = true ∧
    runs .annealSlotStart (sCal none 99) (fun t => t.calendar.current == none) = true ∧
    runs .annealSlotStart (sCal none 100) (fun t => t.calendar.current == some slot1 && (linkAt t 0).state == 1) = true ∧
    runs (.annealSlotEnd 0) (sCal (some slot1) 2099) (fun t => t.calendar.current == some slot1) = true ∧
    runs (.annealSlotEnd 0) (sCal (some slot1) 2100) (fun t => t.calendar.current == none && t.calendar.rewrite == none) = true ∧
    runs (.annealSlotEnd 40) (sCal (some slot1) 2140) (fun t => t.calendar.current == none && t.calendar.gen == 1 && t.calendar.rewrite == some ⟨[], some (slot1, 40)⟩) = true ∧
    runs (.annealSlotEnd 41) (sCal (some slot1) 2140) (fun t => t.calendar.current == some slot1 && t.calendar.extra == 41) = true ∧
    runs (.calendarPublish []) (sRewrite ⟨[], some (slot1, 40)⟩ [slot1, slot2]) (fun t => t.calendar.slots == [slot1, { slot2 with start := 3040 }] &&
      t.calendar.lastOver == 40 && t.calendar.lastKind == 2 && t.calendar.event == 1 && t.calendar.gen == 6 && t.errlog.written == 1) = true ∧
    runs (.calendarPublish offered) (sCal none 2100) (fun t => t.calendar.gen == 1 && t.calendar.rewrite == some ⟨offered, none⟩ && t.calendar.slots.length == 2) = true := by
  decide +kernel

theorem witness_publication :
    runs (.calendarPublish offered) (sRewrite ⟨[], none⟩ (slot1 :: slotsOn)) (fun t => t.calendar.gen == 6 && t.calendar.slots.length == 256 &&
      !t.calendar.slots.contains slot1 && (offered.map t.calendar.slots.contains) == [true, false, false, false]) = true := by decide +kernel

theorem witness_power :
    (clusterAt (refillCluster { on hart0 with clusters := [(0, { ClusterSt.reset with bal := -100 })] } 0) 0).bal = 59 ∧
    (adopt { sCal (some ⟨20000, 100, 3, BitVec.allOnes 24, 15⟩) 20050 with power := { State.reset.power with nextGranted := 0 } }).power.granted = 360 ∧
    (adopt { sCal none 20050 with power := { State.reset.power with nextGranted := 0 } }).power.refill = 0 ∧
    runs (.rackCoordinatorGrant 70000) (on hart0) (fun t => t.power.nextGranted == 65535) = true ∧ runs (.clkdieSelect (.host 0) 0x500) (on hart0) (fun t => t.power.clkdie == 5) = true ∧
    runs (.throttling 3 250) (on hart0) (fun t => fmGet t.power.clocks 0 3 == 210) = true ∧
    runs (.throttling 3 50) (sCal (some ⟨20000, 100, 3, BitVec.allOnes 24, 15⟩) 20050) (fun t => t.power.clocks.isEmpty) = true ∧
    runs (.loanDebit 0 1) (sLoan 0) (fun t => t.pt == 1000 && (clusterAt t 0).bal == -1 && (coreAt t 0).loans.isEmpty) = true ∧
    runs (.loanDebit 0 1) (sLoan 1) (fun t => (clusterAt t 0).bal == 0 && (coreAt t 0).loans == [⟨1, 2, 1000⟩]) = true ∧
    runs (.loanDebit 0 0) (sLoan 320) (fun t => (clusterAt t 0).bal == 320) = true ∧
    runs (.ingotTrade 0 (.offer 8)) (sAsked 8) (fun t => t.power.nextLent == 8 && (linkAt t 0).lent == 8 && (linkAt t 0).asked == 0) = true ∧
    runs (.ingotTrade 0 (.offer 8)) (sAsked 7) (fun t => t.power.nextLent == 0) = true ∧ runs (.ingotTrade 0 (.offer 9)) (sAsked 9) (fun t => t.power.nextLent == 0) = true ∧
    runs (.ingotTrade 0 (.offer 8)) (sAsked 8 { State.reset.power with measured := 3581 }) (fun t => t.power.nextLent == 0) = true ∧
    runs (.ingotTrade 0 (.giveBack 9)) { on hart0 with links := [(0, { Link.reset with state := 2, borrowed := 4 })] } (fun t => (linkAt t 0).borrowed == 0) = true := by decide +kernel

/-- A refill with nothing else due: 192 balances (R348). -/
theorem witness_token_refill : runs .tokenRefill (on hart0) (fun t => t.pt == 10000 && (clusterAt t 191).bal == 320) = true := by decide +kernel

/-! ### Hypotheses met: trust, reset, links, the core's events -/

def sFl (x : Flacon) (k : KeySlot := KeySlot.empty) : State := { sKey with flacons := [(3, x)], keys := [(7, k)] }
def pendingFl (cmd : BitVec 4) (state : BitVec 2) : Flacon := { Flacon.empty with cmd := cmd, result := 2, state := state, measpa := 0x180000 }
def resultOf (i : Instr) (s : State) : Nat := match exec i s with
  | .next t => (flaconAt t 3).result.toNat
  | _ => 99
def coreFl (op : BitVec 2) (state : BitVec 2) (core : BitVec 10 := 9) : Flacon := { Flacon.empty with coreOp := op, coreResult := 1, core := core, state := state }
def coreResultOf (i : Instr) (s : State) : Nat := match exec i s with
  | .next t => (flaconAt t 3).coreResult.toNat
  | _ => 99
def keyIn (cmd : BitVec 4) (state : BitVec 2) (arg : BitVec 8) : KeySlot := { KeySlot.empty with cmd := cmd, result := 2, state := state, arg := arg }
def keyResultOf (i : Instr) (s : State) : Nat := match exec i s with
  | .next t => (keyAt t 7).result.toNat
  | _ => 99
/-- Core 9 belongs to a flacon. -/
def owned9 (f : BitVec 8) (x : Flacon) : State := { sFl x with cores := [(9, { CoreSt.reset with flid := f })] }
def sSec (cmd : BitVec 4) (result : BitVec 8) : State := { on hart0 with sec := { State.reset.sec with cmd := cmd, result := result, tokpa := 0x4000 } }

theorem witness_TrustCommands :
    [resultOf (.create 3) (sFl (pendingFl 1 0)), resultOf (.create 3) (sFl (pendingFl 1 2)), resultOf (.create 3) { sFl (pendingFl 1 0) with sec := { State.reset.sec with debug := true } },
      resultOf (.measure 3) (sFl (pendingFl 2 2)), resultOf (.measure 3) (sFl (pendingFl 2 1)), resultOf (.finalize 3) (sFl (pendingFl 3 0)), resultOf (.finalize 3) (sFl (pendingFl 3 1)),
      resultOf (.destroy 3) (sFl (pendingFl 4 0)), resultOf (.destroy 3) (sFl (pendingFl 4 1)), resultOf (.destroy 3) (owned9 3 (pendingFl 4 2)),
      resultOf (.create 3) (sFl (pendingFl 2 0))] = [1, 4, 3, 4, 6, 4, 1, 4, 1, 5, 2] ∧
    measureSlot (sFl (pendingFl 2 1) { KeySlot.empty with state := 1, owner := 3, epoch := 5 }) 3 0x180000 = some 7 ∧
    [coreResultOf (.assign 3) (sFl (coreFl 1 2)), coreResultOf (.assign 3) (sFl (coreFl 1 1)), coreResultOf (.assign 3) (sFl (coreFl 1 2 0)), coreResultOf (.assign 3) (owned9 4 (coreFl 1 2)),
      coreResultOf (.release 3) (owned9 3 (coreFl 2 2)), coreResultOf (.release 3) (sFl (coreFl 2 2)), coreResultOf (.release 3) (sFl (coreFl 2 2 0)),
      coreResultOf (.release 3) (sFl (coreFl 1 2))] = [2, 4, 3, 5, 2, 6, 3, 1] ∧
    [keyResultOf (.generate 7) (sFl { Flacon.empty with state := 2 } (keyIn 1 0 3)), keyResultOf (.generate 7) (sFl { Flacon.empty with state := 2 } (keyIn 1 1 3)),
      keyResultOf (.generate 7) (sFl Flacon.empty (keyIn 1 0 3)), keyResultOf (.generate 7) (sFl Flacon.empty (keyIn 1 0 0)), keyResultOf (.revoke 7) (sFl Flacon.empty (keyIn 2 0 0)),
      keyResultOf (.revoke 7) (sFl Flacon.empty (keyIn 2 1 0)), keyResultOf (.revoke 7) (sFl Flacon.empty (keyIn 2 2 0))] = [1, 4, 6, 6, 4, 2, 1] ∧
    runs (.revoke 7) (sFl Flacon.empty (keyIn 2 1 0)) (fun t => (keyAt t 7).state == 2 && (keyAt t 7).cmd == 2) = true ∧
    (sFl Flacon.empty (keyIn 2 1 0)).harts.all (fun h => h.2.wc.all fun w => w.epoch != 0) = true ∧
    runs .attest (sSec 3 1) (fun t => t.sec.result == 3 && t.sec.nonces == 1) = true ∧
    runs .debugUnlock (sSec 1 2) (fun t => t.sec.result == 2) = true ∧ tokDw { sSec 3 1 with mem := writeMem (on hart0).mem 0 0x4000 8 255 } 0 = 255 ∧
    (flaconAt { State.reset with flacons := [(255, { Flacon.empty with state := 2 })] } 255).state = 2 := by decide +kernel

def sRung (rung target : Nat) : State := { on hart0 with
  resetPage := ⟨1, BitVec.ofNat 12 target, rung, 5, 1⟩, tlb := [⟨0, 0, 0, 0, 0, 0, [], [], 16, false⟩], hung := [(4, 0)]
  queues := [(0, { QueueSt.reset with en := true, tail := 3 })], hallmark := { State.reset.hallmark with boots := 7 } }
/-- The rung that is commanded is done and counted. -/
def climbed (i : Instr) (rung target : Nat) (p : State → Bool) : Bool :=
  runs i (sRung rung target) fun t => t.resetPage.status == 2 && t.resetPage.done == 6 && t.errlog.written == 1 && p t
def swept (i : Instr) (s : State) (p : State → Bool) : Bool :=
  runs i s fun t => t.harts.isEmpty && t.queues.isEmpty && t.mem.cells.isEmpty && t.hallmark.boots == 8 && !t.booted && p t

theorem witness_ResetLadder :
    climbed (.rungQueue 0) 1 0 (fun t => !(queueAt t 0).en && (queueAt t 0).tail == 0 && (hartAt t 0).ctl == .run) = true ∧
    climbed (.rungEngine 4) 2 4 (fun t => t.hung.isEmpty) = true ∧ climbed (.rungEngine 0x803) 2 0x803 (fun t => t.hung == [(4, 0)]) = true ∧
    climbed (.rungPartition 0) 3 0 (fun t => (hartAt t 0).ctl == .idle && t.tlb.isEmpty) = true ∧ climbed (.rungDie 0) 4 0 (fun t => (hartAt t 0).ctl == .idle) = true ∧
    climbed (.rungFunctionLevel 1) 5 1 (fun t => (hartAt t 0).ctl == .run) = true ∧
    swept (.rungFunctionLevel 0) { sRung 5 0 with pt := 9 } (fun t => t.pt == 9 && t.errlog.written == 1) = true ∧
    swept .rungWholeDevice { sRung 6 0 with pt := 9 } (fun t => t.pt == 0 && t.errlog.written == 1) = true ∧ swept .perst (sRung 1 0) (fun t => t.errlog.written == 1) = true ∧
    swept .lossOfPower (sRung 1 0) (fun t => t.errlog.written == 0) = true ∧
    runs (.functionLevelReset 1) { sRung 1 0 with resetPage := ⟨2, 0, 0, 5, 1⟩ } (fun t => t.resetPage.done == 6 && (hartAt t 0).ctl == .run) = true ∧
    runs (.functionLevelReset 2) (sRung 1 0) (fun t => t.resetPage.status == 2 && t.resetPage.done == 7 && t.errlog.written == 2 && !(queueAt t 0).en) = true ∧
    swept (.functionLevelReset 0) { sRung 1 0 with resetPage := ⟨2, 0, 0, 5, 1⟩ } (fun _ => true) = true := by decide +kernel

/-- A link that is up, with SEQ 5 awaited next and one unacknowledged flit. -/
def link0 : Link := { Link.reset with state := 2, recvSeq := 5, sendSeq := 9, retry := [⟨8, false, .control .heartbeat⟩], txKeys := 3, rxKeys := 3 }
def sLink (x : Link) : State := { State.reset with links := [(0, x)] }
def hdr (seq : Nat) (ok : Bool) : FlitHdr := ⟨0, 1, Config.moduleId.toNat, seq, false, ok⟩
def linkAfter (i : Instr) (x : Link) (p : Link → Bool) : Bool := runs i (sLink x) fun t => p (linkAt t 0)

/-- A flit for this module and one for another. -/
theorem witness_LinksAndGroups_destinations : (hdr 5 true).dst = Config.moduleId.toNat ∧
    ({ hdr 5 true with dst := Config.moduleId.toNat + 1 } : FlitHdr).dst ≠ Config.moduleId.toNat := ⟨rfl, Nat.succ_ne_self _⟩

theorem witness_LinksAndGroups :
    link0.state = 2 ∧ (hdr 5 true).ok = true ∧ (hdr 5 true).ks = link0.rks ∧ link0.awaited = none ∧ (hdr 5 true).seq = link0.recvSeq ∧
    (sLink link0).routes = [] ∧ (sLink link0).colls = [] ∧ (engineAt (sLink link0) 0).inbox = [] ∧
    (engineAt (sLink link0) 0).groups = [] ∧ link0.backlog = [] ∧ link0.markerSeq = none ∧ retraining (sLink link0) 0 = false ∧ retraining (sCal (some slot1) 100) 0 = true ∧
    linkAfter (.flitData 0 (hdr 5 false) ⟨0, 0, 0, 0, 0, .abort, [], 0, false, false, 0, 0, 0, false⟩) link0 (fun x => x.awaited == some 5 && x.fails == 1) = true ∧
    linkAfter (.flitKeyMarker 0 (hdr 5 false) true) { link0 with awaited := some 5, fails := 1, failSeq := 5 } (fun x => x.fails == 2 && x.state == 2) = true ∧
    linkAfter (.flitControl 0 (hdr 5 false) .heartbeat) { link0 with awaited := some 5, fails := 2, failSeq := 5 } (fun x => x.state == 3 && x.deaths == 1 && x.retry.isEmpty) = true ∧
    linkAfter (.flitIdle 0 (hdr 5 true)) { link0 with state := 3 } (fun x => x.state == 3) = true ∧
    linkAfter (.flitNak 0 (hdr 5 true) 8) link0 (fun x => x.replays == 1 && x.count0 == 1 && x.unacked == 1) = true ∧
    linkAfter (.keyRetireCount 0) { link0 with count0 := retireCount } (fun x => x.tks && x.markerSeq == some 9 && x.count0 == retireCount + 1) = true ∧
    linkAfter (.keyRetireCount 0) { link0 with count0 := retireCount, retry := List.replicate 128 ⟨8, false, .idle⟩ } (fun x => !x.tks && x.markerDue) = true ∧
    linkAfter (.keyRetireCount 0) { link0 with count0 := retireCount - 1 } (fun x => !x.tks) = true ∧
    linkAfter (.keyRetireCount 0) { link0 with count0 := retireCount, txKeys := 1 } (fun x => x.state == 2) = false ∧
    linkAfter (.lossOfLock 0) link0 (fun x => x.state == 3) = true ∧ linkAfter (.linkSilenceTimeout 0) { link0 with silent := 10000 } (fun x => x.state == 3) = true ∧
    linkAfter (.linkSilenceTimeout 0) { link0 with silent := 9999 } (fun x => x.state == 2) = true ∧
    runs (.abortSegment 0 ⟨0, 0, 0, 0, 0, .abort, [], 0, false, false, 0, 0, 0, false⟩) State.reset (fun t => (engineAt t 0).dropped == 1) = true ∧
    (((engineAt (sColl (groupOf false)) 0).groups.find? fun p => p.2.v && p.2.tag == 0 && p.2.core.toNat == 0).map (·.1)) = some 0 ∧
    runs (.groupEntryWrite (.host 0) 0 0 0 0x2001000001) State.reset (fun t => (groupAt t 0 0).v && (groupAt t 0 0).size == 2 && (groupAt t 0 0).rank == 1) = true ∧
    runs (.groupEntryWrite (.host 0) 0 0 1 9) (sColl { Group.reset with busy := true }) (fun t => (groupAt t 0 0).tag == 0) = true := by decide +kernel

/-- A timer that has run 2^24 cycles, and one short of it; words that use lanes and words that do not; the two ends of a loan. -/
def timed (n : Nat) : State := setCur sQ { curHart sQ with timer := n }
def sLend (bal : Int) : State := { queued (on { hartV with own := 3 }) wAdd with
  harts := [(0, curHart (queued (on { hartV with own := 3 }) wAdd)), (1, { hart0 with own := 12 })], clusters := [(0, { ClusterSt.reset with bal := bal })] }
def iCpy : Instr := .cpy (ew 0 0 0 (x := 24))

/-- A collective under way whose word has made no progress. -/
def sStuck : State := setCur sDone { curHart sDone with timer := 2 ^ 24 }

theorem witness_CoreEvents_collective :
    issuing (curHart sStuck) = true ∧ (curHart sStuck).ctl = .run ∧ 2 ^ (curHart sStuck).ept.toNat ≤ (curHart sStuck).timer ∧
    (sStuck.colls.map fun c => (c.hid, c.seq)) = (headConvoy (curHart sStuck).queue).map (fun e => (0, e.seq)) ∧
    ((curHart sStuck).queue.all fun e => e.started && !e.complete && wordIs (· == .coll 3) e) = true := by decide +kernel

theorem witness_CoreEvents :
    issuing hart0 = false ∧ runs (.convoyEnter 0) { sQ with cores := [] } (fun t => (hartAt t 0).inWindow && (coreAt t 0).window == [(0, 1)]) = true ∧
    runs (.elementProgressTimeout 0 0 false) (timed (2 ^ 24)) (fun t => field (hartAt t 0).trapRec.cause 20 8 == 20 && (hartAt t 0).ctl == .trapped) = true ∧
    runs (.elementProgressTimeout 0 0 false) (timed (2 ^ 24 - 1)) (fun t => (hartAt t 0).ctl == .run) = true ∧
    usesLanes sQ 0 0 ((curHart sQ).queue.headD Entry.blank) = true ∧ runs (.laneClusterGate 0 0) sQ (fun t => (coreAt t 0).gated == 0) = true ∧ runs (.laneClusterGate 0 3) (on hart0) (fun t => (coreAt t 0).gated == 8) = true ∧
    runs (.laneClusterWake 0 3) { on hart0 with cores := [(0, { CoreSt.reset with gated := 15 })] } (fun t => (coreAt t 0).gated == 7) = true ∧
    runs (.laneLoanStart 0 2 0) (sLend 1) (fun t => (coreAt t 0).loans == [⟨2, 0, 0⟩]) = true ∧ runs (.laneLoanStart 0 2 0) (sLend 0) (fun t => (coreAt t 0).loans.isEmpty) = true ∧
    runs (.laneLoanStart 0 0 0) (sLend 1) (fun t => (coreAt t 0).loans.isEmpty) = true ∧ laneHolder (sLend 1) 0 2 = some 1 ∧ laneHolder State.reset 0 2 = none ∧
    headCopy (on hart0) 0 = none ∧ (headCopy (sCopy 0) 0).isSome = true ∧ enginesBusy (sCopy 0) 0 = 0 ∧
    runs (.tileClaim 0) (sCopy 0) (fun t => (curHart t).queue.any fun e => e.started && e.claims == [64, 0]) = true ∧
    runs (.cpyRowComplete 0) (sCopy 0) (fun t => (curHart t).queue.isEmpty) = true ∧
    runs (.nosplitJudge 0) (sCopy 0) (fun t => (curHart t).queue.all fun e => !e.judged) = true ∧
    runs (.cpyRowComplete 0) { sCopy 0 with cores := [(0, coreM)] } (fun t => (curHart t).queue.length == 1) = true := by decide +kernel

/-- A no-split copy that holds its claims passes its test; a claim list of one tile is met or not. -/
theorem witness_CoreEvents_copies :
    (let s := match exec (.tileClaim 0) (sCopy 0b100000) with
      | .next t => t
      | _ => State.reset
    runs (.nosplitJudge 0) s fun t => (curHart t).queue.all fun e => e.judged) = true ∧
    (let s := queued { on (withRegs [(24, 0x4000000000000000), (25, 0x5000), (26, 0x1000000000)]) with cores := [(0, coreM)] } (wordOf iCpy)
    (match headCopy s 0 with
      | some (0, e, _, _) => claimList e == [(0, false)] && e.claims.isEmpty && !e.started
      | _ => false) && runs (.tileClaim 0) s fun t => (tileAt (coreAt t 0) 0).state == .draining) = true := by decide +kernel

/-! ### The state after reset -/

theorem reset_inv : MemoryCanonical State.reset := by unfold MemoryCanonical; decide +kernel

/-- A step that stores keeps the form. -/
theorem witness_EveryStepKeepsMemoryCanonical : MemoryCanonical (on hartWc) ∧
    gives (step { on hartWc with agenda := [.event (.writeCombineDrain 0)] }) (fun t => t.mem.wf && t.mem.cells.length == 2) = true :=
  ⟨by unfold MemoryCanonical; decide +kernel, by decide +kernel⟩

/-- From reset with nothing placed the first steps are boot (R376, log 21). -/
theorem test_boot_comes_first : State.reset.booted = false ∧ State.reset.agenda = [] := by decide

/-! ### Hypotheses met: accesses that wait, the caches, a load queue with no consumer, free links -/

/-- A VLD of this hart's own context page is queued (R183). -/
def sBusyPage : State :=
  queued (on { hartV with sregs := (wr (wr hartV 20 0x800000000) 2 0x800000000).sregs, vl := 4 } [ctlEntry]) (wordOf (.vld (ew 3 0 0 (m := 7) (x := 20)) .unit .global .reg))
/-- A key that its owner's hart finds being revoked (R362). -/
def sRevoking : State := { sKey with
  cores := [(0, { CoreSt.reset with flid := 3 })], keys := [(7, { KeySlot.empty with owner := 3, state := 2, epoch := 1 })] }

theorem witness_accesses_that_wait :
    pageBusy sBusyPage 0 0xC00000000000 = true ∧ pageBusy sBusyPage 0 0xC00000080000 = false ∧
    waits (.ld 3 2 .d .plain false 0) sBusyPage = true ∧ waits (.st 3 2 .d .plain 0) sBusyPage = true ∧
    runs (.st 5 1 .d .plain 1) { sM with storeLate := true } (fun t => readMem t.mem 0 0x1008 8 == 0x7F && (curHart t).wc.length == 1) = true ∧
    errAnd (translate sRevoking 0 (loadAccess 8) 0x180000) (fun x => match x with
      | .stalls _ => true
      | _ => false) = true ∧ waits (.ld 3 1 .d .plain false 0) sRevoking = true := by decide +kernel

/-- Line 0x8000_0000_0000 of the host window in the caches, its first byte not written back (R181, R328); a queue image held (R201). -/
def sCached : State := on { hartWc with images := [⟨0, 4, []⟩, ⟨3, 4, []⟩] }
def sHostLine : State := { sHostWait with mem := { sHostWait.mem with lines := [(2 ^ 40, ⟨List.replicate 128 9, [0]⟩)] } }

theorem witness_fences_and_caches :
    runs (.fence .system 0b01000) sCached (fun t => (curHart t).images == [⟨3, 4, []⟩]) = true ∧
    runs (.fence .system 0b00010) sHostLine (fun t => t.mem.lines.all (·.2.dirty.isEmpty)) = true ∧
    runs (.fence .hart 0b00010) sHostLine (fun t => t.mem.lines.all (·.2.dirty == [0])) = true ∧
    xl (askFor sHostWait 0x800000000) (loadAccess 8) 0x800000000 (fun y => y.place.kind != 3) = true ∧
    waits (.wait 3 1 2 4) sHostWait = true := by decide +kernel

/-- A VLD into LQ0 that stands alone, whose convoy takes no further word (R155). -/
theorem witness_load_queue_without_consumer :
    (let i : Instr := .vld (ew 0 0 0 (m := 7) (x := 20)) .unit .global .lq0
    let s := queued sV (wordOf i)
    aloneAnd (setCur s { curHart s with conv := none }) i fun c w e =>
      let q := setCur s { curHart s with conv := none }
      let u := enterWindow q q.cur
      let r := sweep q.cur e.shape (elemAt u.mem (curHart u) q.cur e c w) u (foldValue e) (keysToRead e c)
      r.fault.isNone && r.stall.isNone && r.acts.length == 4) = true := by decide +kernel

theorem witness_FreeLink : FreeLink (sLink link0) 0 := by unfold FreeLink; decide +kernel
/-- A link that is down is trained from a module with another number. -/
theorem witness_training : (Link.reset.state = 0 ∨ Link.reset.state = 1) ∧ Config.moduleId.toNat + 1 ≠ Config.moduleId.toNat :=
  ⟨.inl rfl, Nat.succ_ne_self _⟩

/-- Another hart's CPY has entered the window before (R208). -/
def sSecond : State :=
  let s := sCopy 0
  let seq := ((curHart s).queue.headD Entry.blank).seq
  { s with harts := [(0, curHart s), (1, curHart s)], cores := [(0, { coreAt s 0 with window := [(1, seq), (0, seq)] })] }

theorem witness_window_order : runs (.tileClaim 0) sSecond (fun t => (hartAt t 0).queue.all fun e => !e.started) = true ∧
    runs (.tileClaim 1) sSecond (fun t => (hartAt t 1).queue.any fun e => e.started) = true := by decide +kernel

/-! ### Hypotheses met: what EMIT refuses, in the order of R75 -/

/-- hartV with more MODE words: a reserved bit in s15, TD 13 in s16, RM 5 in s17, SHIFT 64 in s18, TA FP32 in s19. -/
def hartX : Hart :=
  [(15, 0x20000), (16, 0xD), (17, 0x5000), (18, 0x40000000), (19, 0xB0)].foldl (fun h p => wr h (BitVec.ofNat 6 p.1) (BitVec.ofNat 64 p.2)) hartV
/-- EMIT of each word is refused with a class and code. -/
def refuses (h : Hart) (l : List Instr) (cls code : Nat) : Bool := l.all fun i => traps (.emitl (wordOf i)) (on h) cls code 0
/-- The convoy that a word has opened. -/
def opened (i : Instr) : Hart := curHart (queued (on hartV) (wordOf i))
def later (i : EFields → Instr) (w : EFields) : Instr := i { w with c := false }

theorem witness_EmitRefusals :
    refuses { hartX with rows := 2 } [.vadd (ew 31 1 2), .vld (ew 3 0 0 (m := 7) (x := 62)) .unit .global .reg] 4 0 = true ∧
    refuses { hartX with shape := true } [.vadd (ew 16 1 2)] 4 0 = true ∧ refuses { hartX with own := 0 } [.vadd (ew 3 1 2)] 7 1 = true ∧
    refuses { hartX with vstate := .absent } [.vadd (ew 3 1 2)] 7 0 = true ∧ refuses hartX [.vadd (ew 3 32 2), .vadd (ew 3 33 2)] 6 0 = true ∧
    refuses hartX ([15, 16, 17, 18, 19].map fun m => .vadd (ew 3 1 2 (m := m))) 5 0 = true ∧
    refuses { hartX with tags := Vector.replicate 32 0 } [.vadd (ew 3 1 2)] 5 0 = true ∧ refuses { hartX with vl := 513 } [.vadd (ew 3 1 2)] 5 0 = true ∧
    refuses (opened (.vadd (ew 3 1 2))) [later .vadd (ew 3 4 2), later .vfence (ew 0 0 0)] 6 0 = true ∧
    refuses (curHart sLq) [.vadd (ew 3 1 2)] 6 0 = true ∧
    refuses { hartX with rq := List.replicate 16 0 } [.mpopc (ew 48 1 0)] 4 0 = true ∧
    runs (.emitl (wordOf (.mpopc (ew 48 1 0)))) (on { hartX with rq := List.replicate 15 0 }) (fun t => (curHart t).queue.length == 1) = true ∧
    runs (.emitl (wordOf (.vadd (ew 3 1 2)))) (on { hartX with vl := 512 }) (fun t => (curHart t).queue.length == 1) = true := by decide +kernel

/-- What is accepted: types from a tag, from the mode word, from the other operand and from the load queue that the convoy fills; under
ICT 0 an illegal combination, with the tag that R48 gives its destination. -/
theorem witness_EmitTypes :
    [(hartX, Instr.vadd (ew 3 1 35), (6, 6, 6, false)), (hartX, .vmv (ew 3 34 0 (m := 14) (x := 13)), (6, 0, 6, false)), (hartX, .vadd (ew 3 34 1), (6, 6, 6, false)),
      (curHart sLq, later .vadd (ew 3 32 1), (6, 6, 6, false)), ({ hartX with ict := false }, .vadd (ew 3 1 2 (m := 16)), (6, 6, 6, true)),
      ({ hartX with ict := false }, .vadd (ew 3 1 2 (m := 19)), (6, 6, 6, true))].all (fun (p : Hart × Instr × BitVec 4 × BitVec 4 × BitVec 4 × Bool) =>
        runs (.emitl (wordOf p.2.1)) (on p.1) fun t => (curHart t).queue.getLast?.any fun e => (e.tagd, e.tagb, e.taga, e.icx) == p.2.2) = true := by
  decide +kernel

/-! ### Hypotheses met: control pages, poison, strips -/

theorem witness_atomics_on_pages :
    xl sM (amoAccess false) 0x800000008 (fun y => y.place.kind == 3 && y.place.pa % 8 == 0 && !pageBusy sM 0 y.place.pa) = true ∧
    runs (.cas 3 2 4 .hart false) sM (fun t => rd (curHart t) 3 == 1 && (curHart t).pc == 4 && (curHart t).ctl == .run) = true ∧
    xl sMp (amoAccess true) 0x1000 (fun y => y.place.kind != 3 && poisoned sMp.mem y.place.pa 8) = true ∧
    [Instr.amo 3 1 4 .add .hart false, .amo 3 1 4 .and .hart true, .cas 3 1 4 .system true].all (fun i => traps i sMp 9 0 0x1000) = true ∧
    waits (.amo 3 2 4 .swap .hart false) sBusyPage = true ∧
    ctlBusy sBusyPage 0 = true ∧ waits (.fence .hart 0b01000) sBusyPage = true ∧ ctlBusy sM 0 = false ∧
    waits (.wait 3 2 4 5) sBusyPage = true ∧ traps (.wait 3 1 4 5) sMp 9 0 0x1000 = true ∧
    runs (.wait 3 2 4 5) sM (fun t => rd (curHart t) 3 == 0 && (curHart t).pc == 4) = true := by decide +kernel

/-- Shares of two dies, the hart's own used up (R293). -/
def sSteal : State :=
  let s := sTeam { withRegs [(1, 3)] with farmGen := 1 }
  { s with teams := [(9, { team9 with gens := [⟨1, [⟨0, 9, 9⟩, ⟨1, 20, 30⟩]⟩] })] }

theorem witness_strips_once :
    runs (.nexts 62 1) (sTeam { withRegs [(1, 3)] with farmGen := 1 }) (fun t => findGen (teamAt t 9) 1 == some ⟨1, [⟨0, 7, 9⟩]⟩) = true ∧
    runs (.nexts 62 1) sSteal (fun t => rd (curHart t) 62 == 25 && rd (curHart t) 63 == 3 &&
      findGen (teamAt t 9) 1 == some ⟨1, [⟨0, 28, 30⟩, ⟨1, 20, 25⟩]⟩) = true := by decide +kernel

/-! ### Hypotheses met: room, window order, collectives that start -/

/-- The word of i queued where the return queue then fills to n entries. -/
def sPush (i : Instr) (n : Nat) : State := let s := queued (on { hartF with vl := 8 }) (wordOf i)
  setCur s { curHart s with rq := List.replicate n 0 }

theorem witness_RoomFor :
    [Instr.mpopc (ew 48 15 0), .mfirst (ew 48 1 0), .extract (ew 48 1 0 (imm := 7)), .vredSumu (ew 48 1 0), .vredSum (ew 48 1 0), .tquery (ew 48 0 0 (imm := 7))].all (fun i =>
      aloneAnd (sPush i 15) i (fun c _ e => e.rows == 1 && decide (rqPushes c 1 = 1) && decide ((curHart (sPush i 15)).rq.length + rqPushes c 1 ≤ 16)) &&
      aloneAnd (sPush i 16) i (fun c _ _ => decide (16 < (curHart (sPush i 16)).rq.length + rqPushes c 1)) &&
      runs i (sPush i 16) (fun t => (curHart t).queue.length == 1 && (curHart t).rq.length == 16)) = true := by decide +kernel

/-- A MOPA that has started stays on its tile whatever that reads (R221). -/
def sBegun : State := let s := queued (matTile { Tile.reset with state := .empty }) (wordOf iMopa)
  setCur s { curHart s with queue := (curHart s).queue.map fun e => { e with started := true } }

theorem witness_started_mopa : aloneAnd sBegun iMopa (fun _ _ e => e.started && (tileAt (coreAt sBegun 0) 96).state == .empty &&
    arrayFree (enterWindow sBegun 0) 0 e) = true := by decide +kernel

/-- The words of tiles with no position left: MROW.W of one that completes, MCVT beyond element 4,095 (R228, R229). -/
theorem witness_tile_words_with_no_position :
    emitted { sCvt with harts := [(0, { hartC with vstart := 322 })] } (.mrowW (ew 3 2 0 (imm := 5))) (fun _ w e => (mrowKeys e w).isEmpty) = true ∧
    emitted { sCvt with harts := [(0, { hartC with vstart := 4096 })] } (.mcvt (ew 3 1 2 (imm := 1))) (fun _ _ e => (mcvtKeys e).isEmpty) = true ∧
    (tileOfWord { sCvt with harts := [(0, { hartC with vstart := 4096 })] } (.mcvt (ew 3 1 2 (imm := 1))) 99).type = 11 := by decide +kernel

/-- Another hart's word on tile 111, or on tile 110, stands in the window before (R208). -/
def sBefore (k : BitVec 14) (i : Instr) : State :=
  let s := queued (tileIn .ready) (wordOf i)
  let o := curHart (queued (tileIn .ready) (wordOf (.tempty (ew 0 0 0 (imm := k)))))
  let seq (h : Hart) : Word := (h.queue.headD Entry.blank).seq
  { s with harts := [(0, curHart s), (1, o)], cores := [(0, { coreAt s 0 with window := [(1, seq o), (0, seq (curHart s))] })] }
def overtakes (k : BitVec 14) (i : Instr) : Bool := aloneAnd (sBefore k i) i fun _ _ e =>
  passesFirst (enterWindow (sBefore k i) 0) 0 e fun _ _ => tileReadyNow (enterWindow (sBefore k i) 0) 0 111

theorem witness_passesFirst : [Instr.tready (ew 0 0 0 (imm := 111)), .tempty (ew 0 0 0 (imm := 111)), .twait (ew 0 0 0 (imm := 111)), .tquery (ew 48 0 0 (imm := 111))].all (fun i =>
    !overtakes 111 i && runs i (sBefore 111 i) (fun t => (curHart t).queue.length == 1) && overtakes 110 i) = true := by decide +kernel

/-- A COLL that can start, and what keeps one from it: a stop of its hart, a busy entry, another COLL before it in the window. -/
def starts (s : State) : Bool := aloneAnd s iColl fun _ _ e => let u := enterWindow s s.cur
  !collStays (curHart s) && !(groupAt s 0 0).busy && decide (hubColls s 0 < 16) && firstOfCore u s.cur e (waitsForGroup 0) &&
    passesFirst u s.cur e fun hid e c _ => collReadyNow u hid e c
def sCollAfter : State :=
  let s := sColl (groupOf false)
  let seq := ((curHart s).queue.headD Entry.blank).seq
  { s with harts := [(0, curHart s), (1, curHart s)], cores := [(0, { coreAt s 0 with window := [(1, seq), (0, seq)] })] }
def sCollStop : State := let s := sColl (groupOf false)
  setCur s { curHart s with ctl := .stopDrain }

theorem witness_collectives_start : starts (sColl (groupOf false)) = true ∧ starts (sColl Group.reset) = true ∧
    [sColl (groupOf true), sCollAfter, sCollStop].all (fun s => !starts s && runs iColl s fun t => t.colls.isEmpty && (curHart t).queue.length == 1) = true ∧
    collBad 0 ((curHart (sColl Group.reset)).queue.headD Entry.blank) Group.reset (collOf 0 ((curHart (sColl Group.reset)).queue.headD Entry.blank) (ew 0 0 0) 3 Group.reset) = true := by
  decide +kernel

theorem witness_path_up : pathUp { sColl (groupOf false) with links := [(3, { Link.reset with state := 2 })] } (groupOf false) = true := by
  have h := nextLink_groupOf
  simp only [nextLink] at h
  split at h
  · cases h
  · rename_i n; simp only [pathUp, nextLink, if_neg n]; decide

/-! ### Hypotheses met: elements in buffers, on control pages and poisoned; transfers -/

/-- A word on buffers and on this hart's own page, and what one element of it does. -/
def sAt (va : Word) : State := { on { wr hartV 20 va with vl := 4 } [ctlEntry] with cores := [(0, coreM)] }
def oneElem (s : State) (i : Instr) (p : Act → Bool) : Bool := emitted s i fun c w e =>
  let q := queued s (wordOf i)
  !e.icx && okAnd (elemAt q.mem (curHart q) 0 e c w q 0 0) p

theorem witness_elements_elsewhere :
    oneElem (sAt 0x100004) (.vld (ew 3 0 0 (m := 7) (x := 20)) .unit .wb .reg) (fun x => x.effs == [.reg 3 32 0 0x02020202]) = true ∧
    oneElem (sAt 0x40006) (.vst (ew 0 2 0 (x := 20)) false .unit .cb) (fun x => x.effs == [.buf 3 4 [10, 0, 0, 0], .depthMax 0]) = true ∧
    inFlight coreM 1 4 4 = false ∧ inFlight { coreM with tiles := coreM.tiles.setIfInBounds 0 { Tile.reset with state := .draining } } 1 4 4 = true ∧
    inFlight { coreM with tiles := coreM.tiles.setIfInBounds 0 { Tile.reset with state := .filling } } 1 4 4 = true ∧
    okAnd (spanOf (sAt 0x800000000) 0 vldAccess 0x800000000 4) (fun l => l.length == 1 && l.all fun y => y.1.place.kind == 3) = true ∧
    oneElem (sAt 0x800000000) (.vld (ew 3 0 0 (m := 7) (x := 20)) .unit .global .reg) (fun x => x.effs.contains (.reg 3 32 0 1)) = true ∧
    okAnd (spanOf (sAt 0x800000000) 0 (vstAccess true) 0x800000000 4) (fun l => l.all fun y => y.1.place.kind == 3) = true ∧
    oneElem (sAt 0x800000000) (.vst (ew 0 2 0 (x := 20)) true .unit .global) (fun x => x.effs.all fun z => match z with
      | .ctl .. | .mem .. => false
      | _ => true) = true ∧
    okAnd (spanOf (sAt 0x800000000) 0 (vamoAccess 8 .swap) 0x800000008 8) (fun l => l.all fun y => y.1.place.kind == 3 && y.1.place.pa % 8 == 0) = true ∧
    poisoned { (on hart0).mem with poison := [0x200] } 0x4000 4 = true ∧
    [Instr.vld (ew 3 0 0 (m := 7) (x := 20)) .unit .global .reg, .vamo (ew 3 1 9 (x := 20)) .add .hart].all (fun i =>
      let s := { sV with mem := { sV.mem with poison := [0x200] } }
      emitted s i fun c w e => errAnd (elemAt s.mem hartV 0 e c w s 0 0) fun f => f.cls == 25 && f.addr == 0x4000) = true ∧
    oneElem sV (.vamo (ew 3 1 9 (x := 20)) .add .system) (fun x => x.effs.head? == some .clean) = true := by decide +kernel

/-- While the area's page moves, a transfer waits; STATUS 4 of a command with a reserved bit. -/
def sAreaMoving : State := { sSave .save with migration := some ⟨2, 7, 0, none, 0⟩ }
def storedCmd (v : Word) (p : Hart → Bool) : Bool :=
  runs (.controlRegisterWrite (.hart 0) (0xC00000000000 + 4 * 2 ^ 19 + 0x22008) v) (sSlot (slotIn .stopped)) fun t => p (hartAt t 4)

theorem witness_transfers : areaMoving sAreaMoving (job .save none) = true ∧ areaMoving (sSave .save) (job .save none) = false ∧
    runs (.save 4) sAreaMoving (fun t => (hartAt t 4).saveJob == some (job .save none)) = true ∧
    [0x21, 0x25, 0x81].all (fun v => storedCmd v fun h => h.saveStatus == 1 && (h.saveJob.map (·.outcome)) == some (some 4) &&
      (h.vstate == .absent) == decide (v = 0x25)) = true := by decide +kernel

/-! ### Hypotheses met: what a waiting word reports, the test of a no-split copy -/

/-- The words queued, and what the oldest of them awaits. -/
def sQueue (s : State) (l : List Instr) : State := l.foldl (fun s i => queued s (wordOf i)) s
def reports (s : State) (p : Word × Word → Bool) : Bool :=
  match (headConvoy (curHart s).queue) with
  | [] => false
  | e :: rest => match queuedClass e.word with
    | some (c, w) => !e.complete && p (awaited s 0 0 (e :: rest) e c w 3 true)
    | none => false
/-- hartV with 64 elements, its mask m2 from element 40 on, and s22 = 0x8000. -/
def hartW : Hart := { wr hartV 22 0x8000 with vl := 64, masks := hartV.masks.setIfInBounds 2 (BitVec.ofNat _ (2 ^ 64 - 2 ^ 40)) }
def vld (x : Reg) (k : Nat := 0) (c : Bool := true) : Instr := .vld (ew 3 0 0 (m := 7) (k := k) (x := x) (c := c)) .unit .global .reg
def vst (x : Reg) : Instr := .vst (ew 0 1 0 (x := x) (c := false)) true .unit .global

/-- A load and a store at one element (hart lane 1 of 4, bank of its page), a word that a later load holds, one with no room; operands of
MOPM; a COLL not started; tiles that nobody, or a copy, holds. -/
theorem witness_timeouts :
    reports (sQueue (on hartW) [vld 20 2]) (· == (0x40A0, 0x1011 + 256 * BitVec.ofNat 64 (bankOf 0x40A0))) = true ∧
    reports (sQueue (on hartW) [.vadd (ew 4 1 2), vld 20 2 false]) (· == (0x40A0, 0x1011 + 256 * BitVec.ofNat 64 (bankOf 0x40A0))) = true ∧
    reports (sQueue (on hartW) [vld 20 2, vst 22]) (· == (0x8000, 0x1003 + 256 * BitVec.ofNat 64 (bankOf 0x8000))) = true ∧
    reports (sQueue (on hartW) [vld 0x3F, vst 22]) (fun r => r.1 == 0) = true ∧
    reports (sQueue (on { hartW with vl := 0 }) [vld 20]) (· == (0, 0)) = true ∧
    reports (sColl (groupOf false)) (· == (0, 5)) = true ∧ reports (sCopy 0) (· == (0, 4)) = true ∧
    [TileState.empty, .filling, .draining].all (fun x => reports (queued (tileIn x) (wordOf (.twait (ew 0 0 0 (imm := 111))))) (· == (0, 0))) = true ∧
    reports (let s := queued (tileIn .filling) (wordOf (.twait (ew 0 0 0 (imm := 111))))
      { s with harts := s.harts ++ [(1, { hart0 with queue := [{ Entry.blank with word := wordOf iCpy, claims := [111] }] })] }) (· == (0, 4)) = true ∧
    (let s := queued (on (wr hartM 24 0x4000)) (wordOf (.mopm (ew 2 0 0 (m := 11) (x := 24) (imm := 1))))
    (curHart s).queue.any fun e => aSpace e.x0 == 0 && aSpace e.x2 != 0 && arrayFree s 0 e && tileReady (coreAt s 0) 2) = true := by
  decide +kernel

/-- A no-split copy of a row in global memory that holds its claims, with a refresh slot too near; deferred until a blocked window has
ended since (R344). -/
def sSplit (start blockEnd : Nat) (deferred : Option Nat) : State :=
  let s := queued { on (withRegs [(24, 0x4000000000000000), (25, 0x5000), (26, 0x1000000000)]) with cores := [(0, coreM)] } (wordOf (.cpy (ew 0 0 0 (x := 24) (imm := 0b100000))))
  let s := match exec (.tileClaim 0) s with
    | .next t => t
    | _ => s
  { setCur s { curHart s with queue := (curHart s).queue.map fun e => { e with deferred := deferred } } with
    pt := 50, calendar := { s.calendar with slots := [⟨start, 280, 0, BitVec.allOnes 24, 15⟩], blockEnd := [(0, blockEnd)] } }
def judges (s : State) (p : Entry → Bool) : Bool := runs (.nosplitJudge 0) s fun t => (curHart t).queue.all p

theorem witness_nosplit : judges (sSplit 401 0 none) (fun e => e.judged && e.deferred == none) = true ∧
    judges (sSplit 400 0 none) (fun e => !e.judged && e.deferred == some 50) = true ∧
    judges (sSplit 401 20 (some 20)) (fun e => !e.judged && e.deferred == some 20) = true ∧
    judges (sSplit 401 21 (some 20)) (fun e => e.judged) = true := by decide +kernel

/-! ### Hypotheses met: the calendar, passed-on acknowledgements, early aborts, a fetch that stalls -/

/-- A VLD of the calendar page is queued; an overrun has still to move the list; a retrain slot is nominally due. -/
def sSlotqBusy : State :=
  queued (on { hartV with sregs := (wr hartV 20 0xE00080000).sregs, vl := 4 } [ctlEntry]) (wordOf (.vld (ew 3 0 0 (m := 7) (x := 20)) .unit .global .reg))
def sMoves : State := let s := sCal none 100
  { s with calendar := { s.calendar with rewrite := some ⟨[], some (slot1, 40)⟩ } }
def sNominal : State := let s := sRewrite ⟨[], none⟩ (slotsOn.take 250)
  { s with calendar := { s.calendar with gen := 1, nominal := [(1, 20000)], lastRefresh := some (6000 + 3900 * 249) } }

theorem witness_calendar_choices :
    pageBusy sSlotqBusy 0 calendarPa = true ∧ waits (.slotq 3 1) sSlotqBusy = true ∧ pageBusy (sCal none 0) 0 calendarPa = false ∧
    runs .annealSlotStart sMoves (fun t => t.calendar.current == none) = true ∧
    runs (.annealSlotEnd 0) (sCal (some slot2) 3280) (fun t => t.calendar.blockEnd.length == 24 && fmGet t.calendar.blockEnd 0 23 == 3281) = true ∧
    runs (.calendarPublish []) sNominal (fun t => t.calendar.slots.length == 256 && (t.calendar.slots.filter (·.kind == 1)).length == 1) = true := by decide +kernel

/-- An acknowledgement for module n + 1, whose segment came over link 1 and left over link 0 under SEQ 3; the route to it leaves by link 1. -/
def farHdr : FlitHdr := { hdr 5 true with dst := Config.moduleId.toNat + 1 }
def sForward : State := { State.reset with
  links := [(0, link0), (1, link0)], routes := [(Config.moduleId.toNat + 1, 1)], forwards := [⟨⟨1, 4, 9⟩, 0, 3⟩] }

theorem witness_acks_passed_on : farHdr.dst ≠ Config.moduleId.toNat ∧ FreeLink sForward 0 ∧ FreeLink sForward 1 ∧
    sForward.routes.find? (fun x => x.1 == farHdr.dst) = some (farHdr.dst, 1) ∧ sForward.forwards = [⟨⟨1, 4, 9⟩, 0, 3⟩] ∧
    (∀ f ∈ sForward.forwards, f.out ≠ 0 ∨ f.outSeq ≠ 4) :=
  ⟨Nat.succ_ne_self _, by unfold FreeLink; decide +kernel, by unfold FreeLink; decide +kernel, by simp [sForward, farHdr], rfl, by decide⟩

/-- An abort of the collective after the one that is next. -/
def sEarly : State := { State.reset with engines := [(0, { Engine.reset with groups := [(0, { Group.reset with v := true, collno := 4 })] })] }
def abortOf (n : Nat) : Segment := ⟨0, 0, BitVec.ofNat 64 n, 0, 0, .abort, [], 0, false, false, 0, 0, 0, true⟩

theorem witness_early_aborts : (matchGroup sEarly 0 (abortOf 5)).isSome = true ∧
    runs (.abortSegment 0 (abortOf 5)) sEarly (fun t => (groupAt t 0 0).collno == 4 && (engineAt t 0).inbox.length == 1) = true ∧
    runs (.abortSegment 0 (abortOf 4)) sEarly (fun t => (groupAt t 0 0).collno == 5 && (engineAt t 0).inbox.isEmpty) = true := by decide +kernel

theorem witness_fetch_that_stalls :
    errAnd (translate (setCur sRevoking { curHart sRevoking with pc := 0x180000 }) 0 fetchAccess 0x180000) (fun x => match x with
      | .stalls _ => true
      | _ => false) = true := by decide +kernel

/-- Numbers, infinities and NaNs in each floating-point type; a launch in which ranks ascend with HID (R332). -/
theorem witness_values_and_ranks :
    (match unpack fmtSingle false 0x3FC00000, unpack fmtSingle true 1, unpack fmtSingle false 0xFF800000, unpack fmtSingle false 0x7F800001, unpack fmtSingle false 0 with
      | .num false .., .num _ 0 _, .inf true, .nan true, .num _ 0 _ => true
      | _, _, _, _, _ => false) = true ∧ tyIsFp .fp32 = true ∧ tyIsFp .bf16 = true ∧ 0x7F80 < 2 ^ tyWidth .bf16 ∧
    rankFits [member5] 0 5 = true ∧ rankFits [⟨1, 1, true, false, false⟩, ⟨2, 1, false, false, false⟩] 1 2 = true ∧
    rankFits [⟨3, 1, true, false, false⟩, ⟨2, 1, false, false, false⟩] 1 2 = false := by decide +kernel

end Sys2Proof.Tests
end

section
/-! Rules for the G-words: what going on, jumping, waiting, closing the convoy and trapping leave, each said once in the words of
Safety. -/

namespace Sys2Proof.Laws

open Sys2Proof.Machine Sys2Proof.Safety

/-! ### Going on and jumping (R82) -/

theorem sameBytes_of_mem {s t : State} (h : t.mem = s.mem) : SameBytes s t := fun _ _ => by rw [h]; exact ⟨rfl, rfl⟩

/-- A register write changes no field of a hart but its scalar registers. -/
theorem wr_eq (h : Hart) (d : Reg) (v : Word) : wr h d v = { h with sregs := (wr h d v).sregs } := by
  unfold wr; split <;> rfl

theorem onlyScalars_setCur (s : State) (x : Vector Word 64) (pc : Word) :
    OnlyScalars s (setCur s { curHart s with sregs := x, pc := pc, stalled := false }) := by
  simp [OnlyScalars]

/-- One register is written and PC moves: the whole effect of most scalar words. -/
theorem jumpTo_wr (s : State) (d : Reg) (v pc : Word) :
    OnlyScalars s (jumpTo s (wr (curHart s) d v) pc) ∧ SameBytes s (jumpTo s (wr (curHart s) d v) pc) ∧
    WritesReg s (jumpTo s (wr (curHart s) d v) pc) d v ∧ (curHart (jumpTo s (wr (curHart s) d v) pc)).pc = pc := by
  refine ⟨?_, sameBytes_of_mem rfl, fun r => ?_, ?_⟩
  · unfold jumpTo
    rw [wr_eq]
    exact onlyScalars_setCur ..
  · rw [jumpTo, curHart_setCur]
    exact rd_wr ..
  · rw [jumpTo, curHart_setCur]

/-- Only PC moves: the whole effect of a branch, taken or not, and of YIELD. -/
theorem jumpTo_curHart (s : State) (pc : Word) :
    OnlyScalars s (jumpTo s (curHart s) pc) ∧ KeepsRegs s (jumpTo s (curHart s) pc) ∧
    SameBytes s (jumpTo s (curHart s) pc) ∧ (curHart (jumpTo s (curHart s) pc)).pc = pc := by
  refine ⟨onlyScalars_setCur .., fun r => ?_, sameBytes_of_mem rfl, ?_⟩
  · rw [jumpTo, curHart_setCur]; rfl
  · rw [jumpTo, curHart_setCur]

theorem retire_eq_jumpTo (s : State) (d : Reg) (v : Word) :
    retire s d v = jumpTo s (wr (curHart s) d v) ((curHart s).pc + 4) := by
  simp [retire, jumpTo, nextPc]

theorem advance_setCur (s : State) (g : Hart) :
    advance (setCur s g) = setCur s { g with pc := g.pc + 4, stalled := false } := by
  simp [advance, nextPc]

/-- A word that retires with one register written computes that register. -/
theorem computes_of_retire {i : Instr} {d : Reg} {v : State → Word} (h : ∀ s, exec i s = .next (retire s d (v s))) :
    Computes i d v := fun s => by
  obtain ⟨only, bytes, writes, pc⟩ := jumpTo_wr s d (v s) ((curHart s).pc + 4)
  exact ⟨_, (h s).trans (congrArg _ (retire_eq_jumpTo ..)), only, pc, writes, bytes⟩

theorem computes_of_alu (f : Word → Word → Word) {i : Instr} {d a b : Reg} {v : State → Word}
    (h : ∀ s, exec i s = alu f d a b s) (hv : ∀ s, f (reg s a) (reg s b) = v s) : Computes i d v :=
  computes_of_retire fun s => by rw [h, ← hv]; rfl

theorem computes_of_alu1 (f : Word → Word) {i : Instr} {d a : Reg} {v : State → Word}
    (h : ∀ s, exec i s = alu1 f d a s) (hv : ∀ s, f (reg s a) = v s) : Computes i d v :=
  computes_of_retire fun s => by rw [h, ← hv]; rfl

/-! ### Waiting and closing the convoy (R79, R119) -/

theorem closeAndWait_empty {s : State} (k : State → Result) (hc : canClose (curHart s) = true) (hq : (curHart s).queue = []) :
    closeAndWait s k = k (setCur s { curHart s with conv := none }) := by
  simp [closeAndWait, hc, hq]

theorem closeAndWait_queued {s : State} (k : State → Result) (hc : canClose (curHart s) = true) (hq : (curHart s).queue ≠ []) :
    closeAndWait s k = .next (waiting (setCur s { curHart s with conv := none })) := by
  simp [closeAndWait, hc, hq]

/-- A word that has closed the convoy and waits has written no register, and PC stays at it. -/
theorem waitsAt_closed (s : State) : WaitsAt s (waiting (setCur s { curHart s with conv := none })) := by
  have h : curHart (waiting (setCur s { curHart s with conv := none })) = { curHart s with conv := none, stalled := true } := by
    simp [waiting]
  unfold WaitsAt KeepsRegs
  rw [h]
  exact ⟨rfl, rfl, fun _ => rfl⟩

/-! ### Trapping (R189 to R191) -/

theorem storeSink_cur (s : State) (hid : Nat) (count : Word) : (storeSink s hid count).1.cur = s.cur := by
  unfold storeSink
  dsimp only
  split
  · rfl
  · split
    · rfl
    · split
      · rfl
      · split <;> rfl

@[simp] theorem deliverTrap_cur (s : State) (hid : Nat) (f : FaultRec) : (deliverTrap s hid f).cur = s.cur := storeSink_cur ..

/-- CAUSE of a G-level fault holds class and code in their fields, and no E-level mark (R189). -/
theorem causeWord_gFault (cls code : Nat) (addr : Word) (sinkf : Bool) (hcls : cls < 2 ^ 8) (hcode : code < 2 ^ 20) :
    field (causeWord (gFaultRec cls code addr) sinkf) 20 8 = cls ∧ field (causeWord (gFaultRec cls code addr) sinkf) 0 20 = code ∧
    (causeWord (gFaultRec cls code addr) sinkf).getLsbD 28 = false := by
  have hn : causeWord (gFaultRec cls code addr) sinkf =
      BitVec.ofNat 64 ((if sinkf then 2 ^ 29 else 0) + cls * 2 ^ 20 + code) := by
    simp only [causeWord, gFaultRec, BitVec.toNat_ofNat, Nat.mod_eq_of_lt hcls, Nat.mod_eq_of_lt hcode, Bool.false_eq_true,
      if_false, Nat.add_zero]
  have hs : (if sinkf then 2 ^ 29 else 0) = 0 ∨ (if sinkf then 2 ^ 29 else 0) = 2 ^ 29 := by cases sinkf <;> simp
  rw [hn]
  generalize (if sinkf then 2 ^ 29 else 0) = x at hs
  simp only [field, BitVec.toNat_ushiftRight, BitVec.toNat_ofNat, Nat.shiftRight_eq_div_pow, BitVec.getLsbD_ofNat,
    Nat.testBit_eq_decide_div_mod_eq]
  refine ⟨by omega, by omega, ?_⟩
  simp only [Nat.reduceLT, decide_true, Bool.true_and, decide_eq_false_iff_not]
  omega

/-- A G-level fault of the current hart is taken as a trap of its class and code. -/
theorem takesTrap_gFault (s : State) {cls code : Nat} (addr : Word) (hcls : cls < 2 ^ 8) (hcode : code < 2 ^ 20) :
    TakesTrap s (gFault s cls code addr) s.cur cls code addr := by
  obtain ⟨fcls, fcode, fe⟩ := causeWord_gFault cls code addr
    (storeSink s s.cur ((hartAt s s.cur).trapCount + 1)).2 hcls hcode
  unfold TakesTrap gFault
  rw [deliverTrap_hart]
  exact ⟨rfl, fcls, fcode, fe, rfl, rfl, rfl, rfl, rfl, fun _ => rfl, fun k hk => deliverTrap_other _ _ _ _ hk.symm⟩

theorem takesTrap_illegalG (s : State) : TakesTrap s (illegalG s) s.cur 1 0 0 := takesTrap_gFault s 0 (by decide) (by decide)

/-- The current hart after its G-level fault, but for what TakesTrap says of it. -/
theorem gFault_hart (s : State) (cls code : Nat) (addr : Word) :
    (curHart (gFault s cls code addr)).queue = (curHart s).queue ∧
    (curHart (gFault s cls code addr)).qStopped = (curHart s).qStopped ∧
    (curHart (gFault s cls code addr)).rows = (curHart s).rows := by
  unfold curHart gFault
  rw [deliverTrap_cur, deliverTrap_hart]
  exact ⟨rfl, Bool.false_or _, rfl⟩

end Sys2Proof.Laws
end

section
/-! The values that the integer words compute (R39, R87, R91): the model's arithmetic on numbers, and the same as bit vectors. -/

namespace Sys2Proof.Laws

open Sys2Proof.Machine Sys2Proof.Safety

/-! ### Comparisons, shifts and choices (R87) -/

theorem ofBool64_slt (x y : Word) : ofBool64 (decide (x.toInt < y.toInt)) = if x.slt y then 1 else 0 := rfl

theorem ofBool64_ult (x y : Word) : ofBool64 (decide (x.toNat < y.toNat)) = if x < y then 1 else 0 := by
  simp [ofBool64, BitVec.lt_def]

theorem ofBool64_beq (x y : Word) : ofBool64 (x == y) = if x = y then 1 else 0 := by
  simp [ofBool64]

theorem shamt_eq (b : Word) : shamt b = (b.extractLsb' 0 6).toNat := by
  simp [shamt, BitVec.extractLsb'_toNat]

theorem minS_eq (x y : Word) : minS x y = if y.slt x then y else x := by
  simp only [minS, BitVec.slt_iff_toInt_lt, ← Int.not_lt, ite_not]

theorem maxS_eq (x y : Word) : maxS x y = if x.slt y then y else x := by
  unfold maxS
  simp only [BitVec.slt_iff_toInt_lt]
  by_cases h : x.toInt < y.toInt
  · rw [if_pos h, if_pos (Int.le_of_lt h)]
  · by_cases e : x.toInt ≤ y.toInt
    · rw [if_neg h, if_pos e, BitVec.eq_of_toInt_eq (Int.le_antisymm e (Int.not_lt.1 h))]
    · rw [if_neg h, if_neg e]

theorem minU_eq (x y : Word) : minU x y = if y < x then y else x := by
  simp only [minU, BitVec.lt_def, ← Nat.not_lt, ite_not]

theorem maxU_eq (x y : Word) : maxU x y = if x < y then y else x := by
  unfold maxU
  simp only [BitVec.lt_def]
  by_cases h : x.toNat < y.toNat
  · rw [if_pos h, if_pos (Nat.le_of_lt h)]
  · by_cases e : x.toNat ≤ y.toNat
    · rw [if_neg h, if_pos e, BitVec.eq_of_toNat_eq (Nat.le_antisymm e (Nat.not_lt.1 h))]
    · rw [if_neg h, if_neg e]

/-! ### Products (R87) -/

theorem mul_eq_low (x y : Word) : x * y = (x.setWidth 128 * y.setWidth 128).extractLsb' 0 64 := by
  apply BitVec.eq_of_toNat_eq
  simp only [BitVec.toNat_mul, BitVec.extractLsb'_toNat, BitVec.toNat_setWidth, Nat.shiftRight_zero]
  have hx := x.isLt
  have hy := y.isLt
  rw [Nat.mod_eq_of_lt (show x.toNat < 2 ^ 128 by omega), Nat.mod_eq_of_lt (show y.toNat < 2 ^ 128 by omega)]
  exact (Nat.mod_mod_of_dvd _ (Nat.pow_dvd_pow 2 (by decide))).symm

/-- The upper 64 bits of a number taken mod 2^128. -/
theorem highHalf_eq (z : Int) : highHalf z = (BitVec.ofInt 128 z).extractLsb' 64 64 := by
  apply BitVec.eq_of_toNat_eq
  simp only [highHalf, BitVec.extractLsb'_toNat, BitVec.toNat_ofInt, Nat.shiftRight_eq_div_pow]
  omega

theorem signExtend_eq_ofInt (x : Word) : x.signExtend 128 = BitVec.ofInt 128 x.toInt := rfl

theorem setWidth_eq_ofInt (x : Word) : x.setWidth 128 = BitVec.ofInt 128 x.toNat := by
  simp

theorem highHalf_signed (x y : Word) : highHalf (x.toInt * y.toInt) = (x.signExtend 128 * y.signExtend 128).extractLsb' 64 64 := by
  rw [highHalf_eq, BitVec.ofInt_mul, signExtend_eq_ofInt, signExtend_eq_ofInt]

theorem highHalf_unsigned (x y : Word) :
    highHalf ((x.toNat : Int) * y.toNat) = (x.setWidth 128 * y.setWidth 128).extractLsb' 64 64 := by
  rw [highHalf_eq, BitVec.ofInt_mul, setWidth_eq_ofInt, setWidth_eq_ofInt]

/-! ### Quotients and remainders (R39, R87) -/

theorem divS_eq (x y : Word) : divS x y = if y = 0 then BitVec.allOnes 64 else x.sdiv y := by
  have h : BitVec.ofInt 64 (x.toInt.tdiv y.toInt) = x.sdiv y := by
    apply BitVec.eq_of_toInt_eq
    rw [BitVec.toInt_ofInt, BitVec.toInt_sdiv]
  rw [divS, h, allOnes64]

theorem remS_eq (x y : Word) : remS x y = if y = 0 then x else x.srem y := by
  have h : BitVec.ofInt 64 (x.toInt.tmod y.toInt) = x.srem y := by
    rw [← BitVec.toInt_srem, BitVec.ofInt_toInt]
  rw [remS, h]

theorem divU_eq (x y : Word) : divU x y = if y = 0 then BitVec.allOnes 64 else x / y := by
  rw [divU, ← BitVec.toNat_udiv, BitVec.ofNat_toNat, BitVec.setWidth_eq, allOnes64]

theorem remU_eq (x y : Word) : remU x y = if y = 0 then x else x % y := by
  rw [remU, ← BitVec.toNat_umod, BitVec.ofNat_toNat, BitVec.setWidth_eq]

/-! ### Counts of bits (R87) -/

theorem leadingZeros_le (x : Word) : leadingZeros x ≤ 64 := by
  unfold leadingZeros; split <;> omega

/-- Above the highest one bit every bit is zero. -/
theorem getLsbD_above_leadingZeros {x : Word} {j : Nat} (hj : j < leadingZeros x) : x.getLsbD (63 - j) = false := by
  by_cases h : x = 0
  · subst h; exact BitVec.getLsbD_zero
  · rw [leadingZeros, if_neg h] at hj
    exact Nat.testBit_lt_two_pow (Nat.lt_of_lt_of_le Nat.lt_log2_self (Nat.pow_le_pow_right (by decide) (by omega)))

/-- The bit below the leading zeros is one. -/
theorem getLsbD_leadingZeros {x : Word} (hx : leadingZeros x < 64) : x.getLsbD (63 - leadingZeros x) = true := by
  by_cases h : x = 0
  · rw [leadingZeros, if_pos h] at hx; omega
  · have hn : x.toNat ≠ 0 := fun e => h (BitVec.eq_of_toNat_eq e)
    have hlog : Nat.log2 x.toNat < 64 := (Nat.log2_lt hn).2 x.isLt
    rw [leadingZeros, if_neg h, Nat.sub_sub_self (by omega)]
    exact Nat.testBit_log2 hn

theorem foldl_count (p : Nat → Bool) (l : List Nat) (n : Nat) :
    l.foldl (fun n i => if p i then n + 1 else n) n = n + (l.filter p).length := by
  induction l generalizing n with
  | nil => rfl
  | cons i rest ih =>
    rw [List.foldl_cons, ih, List.filter_cons]
    split
    · rw [List.length_cons]; omega
    · rfl

theorem popCount_eq (x : Word) : popCount x = ((List.range 64).filter fun j => x.getLsbD j).length := by
  rw [popCount, foldl_count, Nat.zero_add]

/-! ### Words that break R64 -/

theorem decodeG_of_fields_error {w : BitVec 32} {lit : Word} (x : DecodeError) (h : decodeFields w lit = .error x) :
    decodeG w lit = .error x := by
  rw [decodeG, h]; rfl

/-- A field that must be zero and is not. -/
theorem zeroThen_of_ne {n : Nat} {x : BitVec n} (h : x ≠ 0#n) (r : Decoded) : zeroThen (x == 0#n) r = .error .nonzeroField := by
  rw [beq_false_of_ne h]; rfl

/-- CLZ and POPC with b nonzero (R87). -/
theorem decodeG_count_illegal {w : BitVec 32} (lit : Word) (hm : fld w 26 6 = 1) (hf : fld w 0 8 = 0x16 ∨ fld w 0 8 = 0x17)
    (hb : fld w 8 6 ≠ 0) : decodeG w lit = .error .nonzeroField := by
  refine decodeG_of_fields_error _ ?_
  obtain hf | hf := hf <;> simp [decodeFields, hm, decodeAlu, hf, zeroThen_of_ne hb]

end Sys2Proof.Laws

namespace Sys2Proof.Proofs

open Sys2Proof.Machine Sys2Proof.Safety Sys2Proof.Laws

/-- Settles O9: each word retires with the value of its function of the two sources, which is the bit-vector operation. -/
theorem aluResults : Obligations.AluResults := by
  unfold Obligations.AluResults
  refine ⟨fun d a b => ?_, ⟨leadingZeros, popCount, fun x => ?_, popCount_eq, fun d a => ?_⟩, fun w lit hm hf hb => ?_⟩
  · exact ⟨computes_of_alu (· + ·) (fun _ => rfl) fun _ => rfl,
      computes_of_alu (· - ·) (fun _ => rfl) fun _ => rfl,
      computes_of_alu (· &&& ·) (fun _ => rfl) fun _ => rfl,
      computes_of_alu (· ||| ·) (fun _ => rfl) fun _ => rfl,
      computes_of_alu (· ^^^ ·) (fun _ => rfl) fun _ => rfl,
      computes_of_alu (fun x y => x <<< shamt y) (fun _ => rfl) fun _ => congrArg _ (shamt_eq _),
      computes_of_alu (fun x y => x >>> shamt y) (fun _ => rfl) fun _ => congrArg _ (shamt_eq _),
      computes_of_alu (fun x y => x.sshiftRight (shamt y)) (fun _ => rfl) fun _ => congrArg _ (shamt_eq _),
      computes_of_alu (· * ·) (fun _ => rfl) fun _ => mul_eq_low ..,
      computes_of_alu (fun x y => highHalf (x.toInt * y.toInt)) (fun _ => rfl) fun _ => highHalf_signed ..,
      computes_of_alu (fun x y => highHalf ((x.toNat : Int) * y.toNat)) (fun _ => rfl) fun _ => highHalf_unsigned ..,
      computes_of_alu divS (fun _ => rfl) fun _ => divS_eq ..,
      computes_of_alu divU (fun _ => rfl) fun _ => divU_eq ..,
      computes_of_alu remS (fun _ => rfl) fun _ => remS_eq ..,
      computes_of_alu remU (fun _ => rfl) fun _ => remU_eq ..,
      computes_of_alu minS (fun _ => rfl) fun _ => minS_eq ..,
      computes_of_alu maxS (fun _ => rfl) fun _ => maxS_eq ..,
      computes_of_alu minU (fun _ => rfl) fun _ => minU_eq ..,
      computes_of_alu maxU (fun _ => rfl) fun _ => maxU_eq ..,
      computes_of_alu (fun x y => ofBool64 (decide (x.toInt < y.toInt))) (fun _ => rfl) fun _ => ofBool64_slt ..,
      computes_of_alu (fun x y => ofBool64 (decide (x.toNat < y.toNat))) (fun _ => rfl) fun _ => ofBool64_ult ..,
      computes_of_alu (fun x y => ofBool64 (x == y)) (fun _ => rfl) fun _ => ofBool64_beq ..⟩
  · exact ⟨leadingZeros_le x, fun j => getLsbD_above_leadingZeros, getLsbD_leadingZeros⟩
  · exact ⟨computes_of_alu1 (fun x => BitVec.ofNat 64 (leadingZeros x)) (fun _ => rfl) fun _ => rfl,
      computes_of_alu1 (fun x => BitVec.ofNat 64 (popCount x)) (fun _ => rfl) fun _ => rfl⟩
  · exact ⟨_, decodeG_count_illegal lit hm hf hb⟩

end Sys2Proof.Proofs
end

section
/-! Bit fields and immediates (R88 to R91), and the words of theirs that break R64. -/

namespace Sys2Proof.Laws

open Sys2Proof.Machine Sys2Proof.Safety

/-! ### Bit fields (R91) -/

theorem getLsbD_widthMask (w : Reg) (j : Nat) : (widthMask w).getLsbD j = decide (j ≤ w.toNat) := by
  have hw := w.isLt
  rw [widthMask, allOnes64, BitVec.getLsbD_ushiftRight, BitVec.getLsbD_allOnes]
  exact decide_eq_decide.2 (by omega)

theorem getLsbD_insertField (old x : Word) (p w : Reg) {j : Nat} (hj : j < 64) :
    (insertField old x p w).getLsbD j =
      if p.toNat ≤ j ∧ j ≤ p.toNat + w.toNat then x.getLsbD (j - p.toNat) else old.getLsbD j := by
  simp only [insertField, BitVec.getLsbD_or, BitVec.getLsbD_and, BitVec.getLsbD_not, BitVec.getLsbD_shiftLeft, hj, decide_true,
    Bool.true_and, getLsbD_widthMask]
  by_cases hp : j < p.toNat
  · simp [hp, Nat.not_le.2 hp]
  · by_cases hw : j - p.toNat ≤ w.toNat
    · simp [hp, hw, Nat.not_lt.1 hp, show j ≤ p.toNat + w.toNat by omega]
    · simp [hp, hw, show ¬ j ≤ p.toNat + w.toNat by omega]

theorem getLsbD_extractField (x : Word) (p w : Reg) (j : Nat) :
    ((x >>> p.toNat) &&& widthMask w).getLsbD j = if j ≤ w.toNat then x.getLsbD (p.toNat + j) else false := by
  rw [BitVec.getLsbD_and, BitVec.getLsbD_ushiftRight, getLsbD_widthMask]
  by_cases hw : j ≤ w.toNat <;> simp [hw]

/-- INS and EXT with a field that ends above bit 63, or with [1:0] nonzero (R91). -/
theorem decodeG_field_illegal {w : BitVec 32} (lit : Word) (hm : fld w 26 6 = 0x0C ∨ fld w 26 6 = 0x0D)
    (h : 64 ≤ (fld w 8 6).toNat + (fld w 2 6).toNat ∨ fld w 0 2 ≠ 0) : ∃ x, decodeG w lit = .error x := by
  by_cases hz : fld w 0 2 = 0
  · have hwide : ¬ (fld w 8 6).toNat + (fld w 2 6).toNat ≤ 63 := by
      obtain h | h := h
      · omega
      · exact absurd hz h
    refine ⟨.illFormed, ?_⟩
    obtain hm | hm := hm <;> simp [decodeG, decodeFields, hm, hz, zeroThen, checked, Instr.wf, hwide]
  · refine ⟨_, decodeG_of_fields_error .nonzeroField ?_⟩
    obtain hm | hm := hm <;> simp [decodeFields, hm, zeroThen_of_ne hz]

/-! ### Immediates (R88 to R90) -/

/-- LUI and AUIPC shift the sign-extended immediate; the immediate over 14 zeros is the same number. -/
theorem sext20_shift (i : BitVec 20) : sext20 i <<< 14 = (i ++ 0#14).signExtend 64 := by
  apply BitVec.eq_of_getLsbD_eq
  intro j hj
  simp only [sext20, BitVec.getLsbD_shiftLeft, BitVec.getLsbD_signExtend, BitVec.getLsbD_append, BitVec.msb_append, hj,
    decide_true, Bool.true_and]
  by_cases h : j < 14
  · simp [h, show j < 34 by omega]
  · by_cases h' : j < 34
    · simp [h, h', show j - 14 < 20 by omega, show j - 14 < 64 by omega]
    · simp [h, h', show ¬ j - 14 < 20 by omega, show j - 14 < 64 by omega]

/-- A shift by an amount of kind 3 or with imm[11:6] nonzero (R89). -/
theorem decodeG_shift_illegal {w : BitVec 32} (lit : Word) (hm : fld w 26 6 = 8) (h : fld w 12 2 = 3 ∨ fld w 6 6 ≠ 0) :
    ∃ x, decodeG w lit = .error x := by
  by_cases hz : fld w 6 6 = 0
  · have hk : fld w 12 2 = 3 := h.resolve_right (not_not_intro hz)
    refine ⟨_, decodeG_of_fields_error .unlistedCode ?_⟩
    simp [decodeFields, hm, hz, hk, zeroThen]
  · refine ⟨_, decodeG_of_fields_error .nonzeroField ?_⟩
    simp [decodeFields, hm, zeroThen_of_ne hz]

/-- A LIL with imm20 nonzero (R12). -/
theorem decodeG_lil_illegal {w : BitVec 32} (lit : Word) (hm : fld w 26 6 = 0x0A) (hi : fld w 0 20 ≠ 0) :
    ∃ x, decodeG w lit = .error x := by
  refine ⟨_, decodeG_of_fields_error .nonzeroField ?_⟩
  simp [decodeFields, hm, zeroThen_of_ne hi]

end Sys2Proof.Laws

namespace Sys2Proof.Proofs

open Sys2Proof.Machine Sys2Proof.Safety Sys2Proof.Laws

/-- Settles O10: INS and EXT retire with the model's masked shifts, read bit by bit. -/
theorem bitWords : Obligations.BitWords := by
  unfold Obligations.BitWords
  refine ⟨fun d a p w _ => ⟨⟨fun s => insertField (reg s d) (reg s a) p w, ?_, fun s j hj => ?_⟩,
    ⟨fun s => (reg s a >>> p.toNat) &&& widthMask w, ?_, fun s j _ => ?_⟩⟩, fun w lit hm h => ?_⟩
  · exact computes_of_retire fun _ => rfl
  · exact getLsbD_insertField _ _ p w hj
  · exact computes_of_alu1 (fun x => (x >>> p.toNat) &&& widthMask w) (fun _ => rfl) fun _ => rfl
  · exact getLsbD_extractField _ p w j
  · exact decodeG_field_illegal lit hm h

/-- Settles O11: each word retires with the value of its function of the source and the immediate. -/
theorem immediateResults : Obligations.ImmediateResults := by
  unfold Obligations.ImmediateResults
  refine ⟨fun d a i => ?_, fun d a n => ?_, fun d i => ?_, fun d lit s => ?_, fun w lit h => ?_⟩
  · exact ⟨computes_of_alu1 (· + sext14 i) (fun _ => rfl) fun _ => rfl,
      computes_of_alu1 (· &&& sext14 i) (fun _ => rfl) fun _ => rfl,
      computes_of_alu1 (· ||| sext14 i) (fun _ => rfl) fun _ => rfl,
      computes_of_alu1 (· ^^^ sext14 i) (fun _ => rfl) fun _ => rfl,
      computes_of_alu1 (fun x => ofBool64 (decide (x.toInt < (sext14 i).toInt))) (fun _ => rfl) fun _ => ofBool64_slt ..,
      computes_of_alu1 (fun x => ofBool64 (decide (x.toNat < (sext14 i).toNat))) (fun _ => rfl) fun _ => ofBool64_ult ..⟩
  · exact ⟨computes_of_alu1 (· <<< n.toNat) (fun _ => rfl) fun _ => rfl,
      computes_of_alu1 (· >>> n.toNat) (fun _ => rfl) fun _ => rfl,
      computes_of_alu1 (·.sshiftRight n.toNat) (fun _ => rfl) fun _ => rfl⟩
  · rw [← sext20_shift]
    exact ⟨computes_of_retire fun _ => rfl, computes_of_retire fun _ => rfl⟩
  · obtain ⟨only, bytes, writes, pc⟩ := jumpTo_wr s d lit ((curHart s).pc + 12)
    have hx : exec (.lil d lit) s = .next (jumpTo s (wr (curHart s) d lit) ((curHart s).pc + 12)) := by
      rw [← wr_pc (curHart s) d lit]; rfl
    exact ⟨_, hx, only, pc, writes, bytes⟩
  · obtain ⟨hm, h⟩ | ⟨hm, h⟩ := h
    · exact decodeG_shift_illegal lit hm h
    · exact decodeG_lil_illegal lit hm h

end Sys2Proof.Proofs
end

section
/-! Branches and jumps (R95, R96). -/

namespace Sys2Proof.Laws

open Sys2Proof.Machine Sys2Proof.Safety

/-- A conditional branch whose test is a proposition: it writes nothing, and goes to its target or on (R95). -/
theorem branch_goes (c : Word → Word → Bool) {a b : Reg} (o : BitVec 14) {s : State} {taken : Prop} [Decidable taken]
    (h : c (reg s a) (reg s b) = true ↔ taken) :
    ∃ t, branch c a b o s = .next t ∧ OnlyScalars s t ∧ KeepsRegs s t ∧ SameBytes s t ∧
      (taken → (curHart t).pc = (curHart s).pc + 4 * o.signExtend 64) ∧ (¬ taken → NextPc s t 4) := by
  have hb : branch c a b o s =
      .next (jumpTo s (curHart s) (if taken then (curHart s).pc + sext14 o * 4 else (curHart s).pc + 4)) := by
    show (if c (reg s a) (reg s b) = true then _ else _) = _
    by_cases ht : taken
    · rw [if_pos (h.2 ht), if_pos ht]
    · rw [if_neg (fun e => ht (h.1 e)), if_neg ht]; rfl
  obtain ⟨only, regs, bytes, pc⟩ :=
    jumpTo_curHart s (if taken then (curHart s).pc + sext14 o * 4 else (curHart s).pc + 4)
  refine ⟨_, hb, only, regs, bytes, fun ht => ?_, fun ht => ?_⟩
  · rw [pc, if_pos ht, BitVec.mul_comm]; rfl
  · rw [NextPc, pc, if_neg ht]; rfl

theorem toNat_mod_four (x : Word) : x.toNat % 4 = 0 ↔ x.extractLsb' 0 2 = 0 := by
  rw [← BitVec.toNat_inj, BitVec.extractLsb'_toNat]
  rfl

/-- JALR by its target, which comes from the old s[a] (R96). -/
theorem execJalr_eq (d a : Reg) (i : BitVec 14) (s : State) :
    execJalr d a i s = if (reg s a + 4 * i.signExtend 64).extractLsb' 0 2 = 0
      then .next (jumpTo s (wr (curHart s) d ((curHart s).pc + 4)) (reg s a + 4 * i.signExtend 64))
      else .next (gFault s 2 1 (reg s a + 4 * i.signExtend 64)) := by
  rw [BitVec.mul_comm 4]
  simp only [execJalr, ne_eq, ite_not, toNat_mod_four]
  rfl

end Sys2Proof.Laws

namespace Sys2Proof.Proofs

open Sys2Proof.Machine Sys2Proof.Safety Sys2Proof.Laws

/-- Settles O14: each branch by its test, JAL always, JALR by the alignment of its target. -/
theorem branchesAndJumps : Obligations.BranchesAndJumps := by
  unfold Obligations.BranchesAndJumps
  refine ⟨fun a b o s => ?_, fun d i s => ?_, fun d a i s => ⟨fun h => ?_, fun h => ?_⟩⟩
  · exact ⟨branch_goes (· == ·) o beq_iff_eq, branch_goes (· != ·) o bne_iff_ne,
      branch_goes (fun x y => decide (x.toInt < y.toInt)) o decide_eq_true_iff,
      branch_goes (fun x y => decide (y.toInt ≤ x.toInt)) o decide_eq_true_iff,
      branch_goes (fun x y => decide (x.toNat < y.toNat)) o decide_eq_true_iff,
      branch_goes (fun x y => decide (y.toNat ≤ x.toNat)) o decide_eq_true_iff⟩
  · obtain ⟨only, bytes, writes, pc⟩ := jumpTo_wr s d ((curHart s).pc + 4) ((curHart s).pc + sext20 i * 4)
    exact ⟨_, rfl, only, bytes, writes, by rw [pc, BitVec.mul_comm]; rfl⟩
  · obtain ⟨only, bytes, writes, pc⟩ := jumpTo_wr s d ((curHart s).pc + 4) (reg s a + 4 * i.signExtend 64)
    exact ⟨_, (execJalr_eq d a i s).trans (if_pos h), only, bytes, writes, pc⟩
  · exact ⟨_, (execJalr_eq d a i s).trans (if_neg h), takesTrap_gFault s _ (by decide) (by decide)⟩

end Sys2Proof.Proofs
end

section
/-! Special registers written (R29 to R32, R111, R113). -/

namespace Sys2Proof.Laws

open Sys2Proof.Machine Sys2Proof.Safety

/-- TRAPSINK takes all but the three lowest bits (R32). -/
theorem clear_low_three (v : Word) : v &&& ~~~7#64 = v >>> 3 <<< 3 := by
  apply BitVec.eq_of_getLsbD_eq
  intro j hj
  have h7 : (7#64).getLsbD j = decide (j < 3) := by
    rw [BitVec.getLsbD_ofNat, show 7 = 2 ^ 3 - 1 from rfl, Nat.testBit_two_pow_sub_one]
    simp [hj]
  simp only [BitVec.getLsbD_and, BitVec.getLsbD_not, h7, BitVec.getLsbD_shiftLeft, BitVec.getLsbD_ushiftRight, hj, decide_true,
    Bool.true_and]
  by_cases h : j < 3
  · simp [h]
  · simp [h, show 3 + (j - 3) = j by omega]

/-- The numbers 1 to 8 are what ROWS takes (R29). -/
theorem not_rows_of {n : Word} (h : n = 0 ∨ 8 < n.toNat) : ¬ (1 ≤ n.toNat ∧ n.toNat ≤ 8) := by
  obtain rfl | h := h
  · simp
  · omega

/-- SETS of ROWS takes 1 to 8 and refuses the rest (R29). -/
theorem execSets_rows (a : Reg) (s : State) : execSets a 1 s =
    if 1 ≤ (reg s a).toNat ∧ (reg s a).toNat ≤ 8 then .next (advance (setCur s { curHart s with rows := (reg s a).setWidth 4 }))
    else .next (illegalG s) := by
  simp only [execSets, Bool.and_eq_true, decide_eq_true_eq]
  rfl

/-- SETS of VSTART, RSTATE or KPROG closes the convoy and waits for the queue to empty (R30). -/
theorem execSets_progress (a : Reg) {i : BitVec 14} (s : State) (h : i = 2 ∨ i = 3 ∨ i = 4) : execSets a i s =
    closeAndWait s fun t => .next (advance (storeProgress t i.toNat (reg s a))) := by
  obtain rfl | rfl | rfl := h <;> rfl

/-- A progress register written once the convoy is closed, and PC moved on. -/
theorem advance_progress (s : State) (n : Nat) (v : Word) :
    advance (storeProgress (setCur s { curHart s with conv := none }) n v) = setCur s (if n = 2 then
      { curHart s with conv := none, vstart := v.setWidth 32, pc := (curHart s).pc + 4, stalled := false }
    else if n = 3 then { curHart s with conv := none, rstate := v, pc := (curHart s).pc + 4, stalled := false }
    else { curHart s with conv := none, kprog := v, pc := (curHart s).pc + 4, stalled := false }) := by
  rw [storeProgress, curHart_setCur, advance_setCur, setCur_setCur]
  congr 1
  split
  · rfl
  · split <;> rfl

/-- SETS of a register that is read-only or does not exist (R111). -/
theorem execSets_illegal (a : Reg) {i : BitVec 14} (s : State) (h : i = 0 ∨ 7 ≤ i.toNat ∧ i.toNat ≤ 10 ∨ 13 ≤ i.toNat) :
    execSets a i s = .next (illegalG s) := by
  have hi : i.toNat = 0 ∨ 7 ≤ i.toNat ∧ i.toNat ≤ 10 ∨ 13 ≤ i.toNat := h.imp_left fun e => by rw [e]; rfl
  have hp : (i.toNat = 2 || i.toNat = 3 || i.toNat = 4) = false := by simp; omega
  unfold execSets
  dsimp only
  rw [if_neg (by omega), if_neg (by rw [hp]; decide), if_neg (by omega), if_neg (by omega), if_neg (by omega), if_neg (by omega)]

/-- A register written on top of a change of the hart: SETROWS (R113). -/
theorem retire_setCur (s : State) (g : Hart) (d : Reg) (v : Word) :
    retire (setCur s g) d v = setCur s
      { g with sregs := (curHart (retire (setCur s g) d v)).sregs, pc := g.pc + 4, stalled := false } := by
  rw [retire_hart, curHart_setCur, retire, curHart_setCur, setCur_setCur, nextPc, wr_eq]
  rfl

/-- SETROWS by its number n (R113). -/
theorem execSetrows_eq (d a : Reg) (i : BitVec 14) (s : State) : execSetrows d a i s =
    if 1 ≤ (reg s a + i.signExtend 64).toNat ∧ (reg s a + i.signExtend 64).toNat ≤ 8 then
      .next (retire (setCur s { curHart s with rows := (reg s a + i.signExtend 64).setWidth 4 }) d (reg s a + i.signExtend 64))
    else .next (illegalG s) := by
  simp only [execSetrows, Bool.and_eq_true, decide_eq_true_eq]
  rfl

end Sys2Proof.Laws

namespace Sys2Proof.Proofs

open Sys2Proof.Machine Sys2Proof.Safety Sys2Proof.Laws

/-- Settles O23, register by register: those written at once, ROWS by its value, the progress registers by the queue, and the rest
refused; then SETROWS by its value. -/
theorem specialRegistersWritten : Obligations.SpecialRegistersWritten := by
  unfold Obligations.SpecialRegistersWritten
  intro s a i
  refine ⟨?_, ?_, ?_, ?_, ?_, ?_, fun hc hq => ⟨?_, ?_, ?_⟩, fun hi hc hq => ?_, fun hi => ?_, fun d => ⟨fun h1 h8 => ?_, fun h => ?_⟩⟩
  · rintro rfl h1 h8
    exact (execSets_rows a s).trans ((if_pos ⟨h1, h8⟩).trans (congrArg _ (advance_setCur ..)))
  · rintro rfl h
    exact ⟨_, (execSets_rows a s).trans (if_neg (not_rows_of h)), takesTrap_illegalG s⟩
  · rintro rfl
    exact congrArg Host.Outcome.next (advance_setCur ..)
  · rintro rfl
    exact congrArg Host.Outcome.next (advance_setCur ..)
  · rintro rfl
    exact congrArg Host.Outcome.next (advance_setCur ..)
  · rintro rfl
    exact congrArg Host.Outcome.next ((advance_setCur ..).trans (by rw [clear_low_three]; rfl))
  · rintro rfl
    exact ⟨_, (execSets_progress a s (.inl rfl)).trans (closeAndWait_empty _ hc hq), advance_progress s ..⟩
  · rintro rfl
    exact ⟨_, (execSets_progress a s (.inr (.inl rfl))).trans (closeAndWait_empty _ hc hq), advance_progress s ..⟩
  · rintro rfl
    exact ⟨_, (execSets_progress a s (.inr (.inr rfl))).trans (closeAndWait_empty _ hc hq), advance_progress s ..⟩
  · exact ⟨_, (execSets_progress a s hi).trans (closeAndWait_queued _ hc hq), waitsAt_closed s⟩
  · exact ⟨_, execSets_illegal a s hi, takesTrap_illegalG s⟩
  · refine ⟨_, (execSetrows_eq d a i s).trans (if_pos ⟨h1, h8⟩), fun r => ?_, ?_, retire_setCur ..⟩
    · rw [retire_hart, curHart_setCur, rd_nextPc, rd_wr]; rfl
    · rw [NextPc, retire_hart, curHart_setCur, nextPc_pc, wr_pc]
  · exact ⟨_, (execSetrows_eq d a i s).trans (if_neg (not_rows_of h)), takesTrap_illegalG s, (gFault_hart ..).2.2⟩

end Sys2Proof.Proofs
end

section
/-! The end of a hart (R117, R214, R254): what the steps of endHart leave alone, from the waiting stores to the wake-up of the core. -/

namespace Sys2Proof.Laws

open Sys2Proof.Machine Sys2Proof.Safety

/-! ### Operations that leave every hart alone -/

/-- Every hart, and whose turn it is, as before. -/
def SameHarts (s t : State) : Prop := t.harts = s.harts ∧ t.cur = s.cur

theorem SameHarts.refl (s : State) : SameHarts s s := ⟨rfl, rfl⟩

theorem SameHarts.trans {s t u : State} (h : SameHarts s t) (g : SameHarts t u) : SameHarts s u :=
  ⟨g.1.trans h.1, g.2.trans h.2⟩

theorem SameHarts.hartAt {s t : State} (h : SameHarts s t) (k : Nat) : hartAt t k = hartAt s k := by
  unfold Machine.hartAt; rw [h.1]

theorem sameHarts_cacheXlat (s : State) (x : Xlat) : SameHarts s (cacheXlat s x) := ⟨cacheXlat_harts .., cacheXlat_cur ..⟩

theorem sameHarts_cacheSpan (s : State) (l : List (Xlat × Nat)) : SameHarts s (cacheSpan s l) :=
  List.foldlRecOn (motive := SameHarts s) l _ (.refl s) fun _ h x _ => h.trans (sameHarts_cacheXlat _ x.1)

theorem sameHarts_hartStore (s : State) (hid epoch a : Nat) (bs : List Byte) : SameHarts s (hartStore s hid epoch a bs) :=
  ⟨hartStore_harts .., hartStore_cur ..⟩

theorem sameHarts_writeSpan (s : State) (hid : Nat) (l : List (Xlat × Nat)) (bs : List Byte) :
    SameHarts s (writeSpan s hid l bs) := by
  induction l generalizing s bs with
  | nil => exact .refl s
  | cons x rest ih => exact (sameHarts_hartStore ..).trans (ih ..)

theorem sameHarts_writeVa {s t : State} {hid : Nat} {k : Access} {va : Word} {bs : List Byte} (h : writeVa s hid k va bs = .ok t) :
    SameHarts s t := by
  unfold writeVa at h
  split at h
  · cases h
  · cases h
    exact (sameHarts_cacheSpan ..).trans (sameHarts_writeSpan ..)

theorem sameHarts_performStore (s : State) (hid : Nat) (w : WcStore) : SameHarts s (performStore s hid w) := by
  unfold performStore
  dsimp only
  split
  · exact ⟨noteTables_harts .., noteTables_cur ..⟩
  · exact sameHarts_hartStore ..

theorem sameHarts_performStores (s : State) (hid : Nat) (l : List WcStore) : SameHarts s (performStores s hid l) :=
  List.foldlRecOn (motive := SameHarts s) l _ (.refl s) fun _ h w _ => h.trans (sameHarts_performStore _ hid w)

/-! ### Links and engines (R382 to R401) -/

theorem sameHarts_noteSent (s : State) (l seq : Nat) (b : FlitBody) : SameHarts s (noteSent s l seq b) := by
  unfold noteSent
  split
  · split
    · exact ⟨rfl, rfl⟩
    · split <;> exact ⟨rfl, rfl⟩
  all_goals exact .refl s

theorem sameHarts_sendFlit (s : State) (l : Nat) (b : FlitBody) : SameHarts s (sendFlit s l b) := by
  have h : SameHarts s (setLink s l { linkAt s l with
      sendSeq := ((linkAt s l).sendSeq + 1) % 2 ^ 48, retry := (linkAt s l).retry ++ [⟨(linkAt s l).sendSeq, (linkAt s l).tks, b⟩] }) :=
    ⟨rfl, rfl⟩
  exact (h.trans (sameHarts_noteSent _ l (linkAt s l).sendSeq b)).trans ⟨rfl, rfl⟩

theorem sameHarts_sendMarker (s : State) (l : Nat) : SameHarts s (sendMarker s l) :=
  (sameHarts_sendFlit s l (.marker !(linkAt s l).tks)).trans ⟨rfl, rfl⟩

theorem sameHarts_pumpLink (s : State) (l fuel : Nat) : SameHarts s (pumpLink s l fuel) := by
  induction fuel generalizing s with
  | zero => exact .refl s
  | succ n ih =>
    unfold pumpLink
    dsimp only
    split
    · exact .refl s
    · split
      · exact .refl s
      · split
        · exact (sameHarts_sendMarker ..).trans (ih _)
        · exact (sameHarts_sendFlit ..).trans (ih _)
      · next b _ _ =>
        have h : SameHarts s (setLink s l { linkAt s l with backlog := (linkAt s l).backlog.erase b }) := ⟨rfl, rfl⟩
        exact (h.trans (sameHarts_sendFlit ..)).trans (ih _)

theorem sameHarts_sendOn (s : State) (l : Nat) (b : FlitBody) : SameHarts s (sendOn s l b) := by
  have h : SameHarts s (setLink s l { linkAt s l with backlog := (linkAt s l).backlog ++ [b] }) := ⟨rfl, rfl⟩
  unfold sendOn
  dsimp only
  split
  · exact h.trans (sameHarts_pumpLink ..)
  · exact .refl s

/-- An abort goes before an engine of this module or over a link (R401). -/
theorem sameHarts_toward (s : State) (here : Prop) [Decidable here] (hub l : Nat) (o : Origin) (seg : Segment) (b : FlitBody) :
    SameHarts s (if here then toInbox s hub o seg else sendOn s l b) := by
  split
  · exact ⟨rfl, rfl⟩
  · exact sameHarts_sendOn ..

theorem sameHarts_sendAborts (s : State) (c : CollSt) (next prev : Bool) : SameHarts s (sendAborts s c next prev) := by
  unfold sendAborts
  dsimp only
  cases next <;> cases prev
  · exact .refl s
  · exact sameHarts_toward ..
  · exact sameHarts_toward ..
  · exact (sameHarts_toward ..).trans (sameHarts_toward ..)

theorem sameHarts_freshBytes (s : State) (n : Nat) : SameHarts s (freshBytes s n).2 := ⟨rfl, rfl⟩

theorem sameHarts_scrambleVa (s : State) (hid va n fuel : Nat) : SameHarts s (scrambleVa s hid va n fuel) := by
  induction fuel generalizing s va n with
  | zero => exact .refl s
  | succ k ih =>
    unfold scrambleVa
    dsimp only
    generalize min n (2 ^ 19 - va % 2 ^ 19) = m
    have goes (t : State) (h : SameHarts s t) : SameHarts s (if n ≤ m then t else scrambleVa t hid (va + m) (n - m) k) := by
      split
      · exact h
      · exact h.trans (ih ..)
    generalize hw : writeVa (freshBytes s m).2 hid accordWrite (BitVec.ofNat 64 va) (freshBytes s m).1 = r
    cases r with
    | error _ => exact goes s (.refl s)
    | ok t => exact goes t ((sameHarts_freshBytes s m).trans (sameHarts_writeVa hw))

/-- One destination made undefined: typed buffers or memory (R401). -/
theorem sameHarts_scramble (s : State) (inBuf : Prop) [Decidable inBuf] (core hid va n fuel : Nat) (x : CoreSt) :
    SameHarts s (if inBuf then setCore (freshBytes s n).2 core x else scrambleVa s hid va n fuel) := by
  split
  · exact ⟨rfl, rfl⟩
  · exact sameHarts_scrambleVa ..

theorem sameHarts_scrambleDest (s : State) (c : CollSt) : SameHarts s (scrambleDest s c) := by
  unfold scrambleDest
  split
  · exact .refl s
  · dsimp only
    split
    · exact (sameHarts_scramble ..).trans (sameHarts_scramble ..)
    · exact sameHarts_scramble ..

theorem sameHarts_memberEnded (s : State) (hid : Nat) (halted : Bool) : SameHarts s (memberEnded s hid halted) := by
  unfold memberEnded
  split
  · exact .refl s
  · exact ⟨rfl, rfl⟩

theorem sameHarts_noteReport (s : State) (hid : Nat) (halted : Bool) : SameHarts s (noteReport s hid halted) := by
  unfold noteReport
  dsimp only
  split
  · exact ⟨rfl, rfl⟩
  · exact .refl s

theorem sameHarts_wipeIfEmpty (s : State) (core : Nat) : SameHarts s (wipeIfEmpty s core) := by
  unfold wipeIfEmpty
  split
  · exact ⟨rfl, rfl⟩
  · exact .refl s

/-! ### Waiting stores performed (R99, R172) -/

/-- Taking the waiting stores from a hart that has none changes nothing. -/
theorem hart_without_wc (h : Hart) (hw : h.wc = []) : { h with wc := [] } = h := by rw [← hw]

/-- Once its waiting stores have performed a hart has none; nothing else of it changes. -/
theorem drainWc_hart (s : State) (hid : Nat) :
    hartAt (drainWc s hid) hid = { hartAt s hid with wc := [] } ∧ (drainWc s hid).cur = s.cur := by
  unfold drainWc
  dsimp only
  split
  · next hw => exact ⟨(hart_without_wc _ hw).symm, rfl⟩
  · have h := sameHarts_performStores (setHart s hid { hartAt s hid with wc := [] }) hid (hartAt s hid).wc
    exact ⟨by rw [h.hartAt, hartAt_setHart, if_pos rfl], h.2⟩

theorem releaseStores_hart (s : State) (hid : Nat) :
    hartAt (releaseStores s hid) hid = { hartAt s hid with wc := [] } ∧ (releaseStores s hid).cur = s.cur := drainWc_hart s hid

/-! ### Collectives abandoned (R401, R402) -/

/-- Of every hart only the queue may differ. -/
def OnlyQueues (s t : State) : Prop := t.cur = s.cur ∧ ∀ k, hartAt t k = { hartAt s k with queue := (hartAt t k).queue }

theorem SameHarts.onlyQueues {s t : State} (h : SameHarts s t) : OnlyQueues s t := ⟨h.2, fun k => by rw [h.hartAt]⟩

theorem OnlyQueues.trans {s t u : State} (h : OnlyQueues s t) (g : OnlyQueues t u) : OnlyQueues s u :=
  ⟨g.1.trans h.1, fun k => by rw [g.2 k, h.2 k]⟩

theorem onlyQueues_unstartColl (s : State) (c : CollSt) : OnlyQueues s (unstartColl s c) := by
  unfold unstartColl
  split
  · exact (SameHarts.refl s).onlyQueues
  · refine ⟨rfl, fun k => ?_⟩
    dsimp only
    rw [hartAt_setHart]
    split
    · next hk => rw [← hk]; rfl
    · rfl

/-- A collective abandoned without a fault touches of the harts only the queue entry of its word. -/
theorem onlyQueues_abandonColl (s : State) (c : CollSt) (next prev : Bool) : OnlyQueues s (abandonColl s c none next prev) := by
  have hq := ((sameHarts_sendAborts s c next prev).trans (sameHarts_scrambleDest _ c)).onlyQueues.trans (onlyQueues_unstartColl _ c)
  have hc (t : State) : SameHarts t (countColl (closeGroup t c.hub c.group) c.hid 2) := ⟨rfl, rfl⟩
  exact hq.trans (hc _).onlyQueues

theorem onlyQueues_abandonOf (s : State) (p : CollSt → Bool) : OnlyQueues s (abandonOf s p) :=
  List.foldlRecOn (motive := OnlyQueues s) _ _ (SameHarts.refl s).onlyQueues fun _ h _ _ => h.trans (onlyQueues_abandonColl ..)

/-! ### After the end: children, barriers, waiting harts -/

/-- Of hart hid only its parent and whether it waits may differ. -/
def StandsEnded (hid : Nat) (s t : State) : Prop :=
  t.cur = s.cur ∧ hartAt t hid = { hartAt s hid with parent := (hartAt t hid).parent, stalled := (hartAt t hid).stalled }

theorem SameHarts.standsEnded {s t : State} (hid : Nat) (h : SameHarts s t) : StandsEnded hid s t := ⟨h.2, by rw [h.hartAt]⟩

theorem StandsEnded.trans {hid : Nat} {s t u : State} (h : StandsEnded hid s t) (g : StandsEnded hid t u) : StandsEnded hid s u :=
  ⟨g.1.trans h.1, by rw [g.2, h.2]⟩

/-- A change to any hart is one that stands, if it changes of hart hid only these two. -/
theorem standsEnded_setHart (s : State) (hid k : Nat) (g : Hart)
    (hg : k = hid → g = { hartAt s hid with parent := g.parent, stalled := g.stalled }) : StandsEnded hid s (setHart s k g) := by
  refine ⟨rfl, ?_⟩
  rw [hartAt_setHart]
  split
  · next hk => exact hg hk
  · rfl

theorem standsEnded_orphanChildren (s : State) (hid k : Nat) : StandsEnded hid s (orphanChildren s k) := by
  refine List.foldlRecOn (motive := StandsEnded hid s) _ _ ((SameHarts.refl s).standsEnded hid) fun t h i _ => ?_
  dsimp only
  split
  · exact h.trans (standsEnded_setHart _ _ _ _ fun hk => by rw [← hk])
  · exact h

theorem standsEnded_wakeHart (s : State) (hid k : Nat) : StandsEnded hid s (wakeHart s k) := by
  unfold wakeHart
  split
  · exact standsEnded_setHart _ _ _ _ fun hk => by rw [← hk]
  · exact (SameHarts.refl s).standsEnded hid

theorem standsEnded_wakeCore (s : State) (hid core : Nat) : StandsEnded hid s (wakeCore s core) :=
  List.foldlRecOn (motive := StandsEnded hid s) _ _ ((SameHarts.refl s).standsEnded hid)
    fun _ h _ _ => h.trans (standsEnded_wakeHart ..)

/-- A barrier lets a hart pass only if it has arrived at it (R283): one that waits in none either has passed it or holds it up. -/
theorem not_passed {s : State} {sc : Scope} {k : Nat} {m : Member} (hb : (hartAt s m.hid).barArrived = none)
    (ha : hasArrived s sc k m = true) : (barsDone (hartAt s m.hid) sc == k) = false := by
  simp only [hasArrived, hb, Bool.and_eq_true, Bool.or_eq_true, decide_eq_true_eq] at ha
  obtain ⟨_, hlt | ⟨_, h⟩⟩ := ha
  · exact beq_false_of_ne (by omega)
  · cases h

theorem standsEnded_tryBar (s : State) (hid k : Nat) (hb : (hartAt s hid).barArrived = none) : StandsEnded hid s (tryBar s k) := by
  unfold tryBar
  dsimp only
  split
  · exact (SameHarts.refl s).standsEnded hid
  · split
    · next sc _ hall =>
      refine List.foldlRecOn (motive := StandsEnded hid s) _ _ ((SameHarts.refl s).standsEnded hid) fun t h m hm => h.trans ?_
      obtain ⟨hmem, hdone⟩ := List.mem_filter.1 hm
      refine standsEnded_setHart _ _ _ _ fun hk => ?_
      rw [not_passed (by rw [hk]; exact hb) (List.all_eq_true.1 hall m hmem)] at hdone
      cases hdone
    · exact (SameHarts.refl s).standsEnded hid

theorem standsEnded_tryTeam (s : State) (hid : Nat) (team : Option Nat) (hb : (hartAt s hid).barArrived = none) :
    StandsEnded hid s (tryTeam s team) := by
  unfold tryTeam
  split
  · exact (SameHarts.refl s).standsEnded hid
  · exact List.foldlRecOn (motive := StandsEnded hid s) _ _ ((SameHarts.refl s).standsEnded hid)
      fun t h m _ => h.trans (standsEnded_tryBar t hid m.hid (by rw [h.2]; exact hb))

/-! ### The end of a hart -/

theorem takeWindows_cur (s : State) (hid : Nat) : (takeWindows s hid).cur = s.cur := by
  unfold takeWindows; dsimp only; split <;> rfl

/-- What endHart does before the hart itself is wiped: its stores perform, its collectives are abandoned, its tiles released, its end
counted. -/
def beforeEnd (s : State) (hid : Nat) (halted : Bool) : State :=
  let s := abandonOf (leaveWindow (drainWc s hid) hid) fun c => c.hid == hid
  noteReport (memberEnded (releaseTiles s (coreOf hid) ((hartAt s hid).queue.flatMap (·.claims))) hid halted) hid halted

/-- What endHart does once the hart is wiped: loans end, children are orphaned, barriers are looked at again, the core is wiped if
empty and woken. -/
def afterEnd (s : State) (hid : Nat) (team : Option Nat) : State :=
  wakeCore (wipeIfEmpty (tryTeam (orphanChildren (endLoans s (coreOf hid) (slotOf hid)) hid) team) (coreOf hid)) (coreOf hid)

theorem endHart_eq (s : State) (hid : Nat) (halted : Bool) : ∃ team, endHart s hid halted =
    afterEnd (setHart (takeWindows (beforeEnd s hid halted) hid) hid (endedHart (hartAt (beforeEnd s hid halted) hid) halted)) hid team :=
  ⟨_, rfl⟩

theorem onlyQueues_beforeEnd (s : State) (hid : Nat) (halted : Bool) : OnlyQueues (drainWc s hid) (beforeEnd s hid halted) := by
  have leaves : SameHarts (drainWc s hid) (leaveWindow (drainWc s hid) hid) := ⟨rfl, rfl⟩
  have releases (t : State) : SameHarts t (releaseTiles t (coreOf hid) ((hartAt t hid).queue.flatMap (·.claims))) := ⟨rfl, rfl⟩
  exact (leaves.onlyQueues.trans (onlyQueues_abandonOf ..)).trans
    (((releases _).trans (sameHarts_memberEnded _ hid halted)).trans (sameHarts_noteReport _ hid halted)).onlyQueues

theorem standsEnded_afterEnd (s : State) (hid : Nat) (team : Option Nat) (hb : (hartAt s hid).barArrived = none) :
    StandsEnded hid s (afterEnd s hid team) := by
  have loans : SameHarts s (endLoans s (coreOf hid) (slotOf hid)) := ⟨rfl, rfl⟩
  have orphans := (loans.standsEnded hid).trans (standsEnded_orphanChildren _ hid hid)
  have bars := orphans.trans (standsEnded_tryTeam _ hid team (by rw [orphans.2]; exact hb))
  exact (bars.trans ((sameHarts_wipeIfEmpty ..).standsEnded hid)).trans (standsEnded_wakeCore ..)

/-- What a hart is after its end: as endedHart has it, its waiting stores performed; its parent may have been forgotten, and a
wake-up of its core has reached it. -/
theorem endHart_hart (s : State) (hid : Nat) (halted : Bool) :
    (endHart s hid halted).cur = s.cur ∧
    hartAt (endHart s hid halted) hid = { endedHart { hartAt s hid with wc := [] } halted with
      parent := (hartAt (endHart s hid halted) hid).parent, stalled := (hartAt (endHart s hid halted) hid).stalled } := by
  obtain ⟨team, he⟩ := endHart_eq s hid halted
  obtain ⟨drained, drainedCur⟩ := drainWc_hart s hid
  obtain ⟨beforeCur, before⟩ := onlyQueues_beforeEnd s hid halted
  obtain ⟨afterCur, after⟩ := standsEnded_afterEnd
    (setHart (takeWindows (beforeEnd s hid halted) hid) hid (endedHart (hartAt (beforeEnd s hid halted) hid) halted)) hid team
    (by rw [hartAt_setHart, if_pos rfl]; rfl)
  rw [← he] at afterCur after
  rw [hartAt_setHart, if_pos rfl, before hid, drained] at after
  exact ⟨afterCur.trans ((takeWindows_cur ..).trans (beforeCur.trans drainedCur)), after⟩

/-! ### HALT (R117) -/

/-- HALT with the queue empty, its convoy closed: PC goes on, what waits is sent, and the hart ends. -/
theorem execHalt_empty {s : State} (hc : canClose (curHart s) = true) (hq : (curHart s).queue = []) :
    execHalt s = .next (endHart (releaseStores (setCur s (nextPc { curHart s with conv := none } 4)) s.cur) s.cur true) := by
  rw [execHalt, closeAndWait_empty _ hc hq, advance_setCur]
  rfl

/-- The halted hart. -/
theorem halted_hart (s : State) (g : Hart) : ∃ parent stalled,
    curHart (endHart (releaseStores (setCur s g) s.cur) s.cur true) =
      { endedHart { g with wc := [] } true with parent := parent, stalled := stalled } := by
  obtain ⟨released, releasedCur⟩ := releaseStores_hart (setCur s g) s.cur
  obtain ⟨endedCur, ended⟩ := endHart_hart (releaseStores (setCur s g) s.cur) s.cur true
  have hg : hartAt (setCur s g) s.cur = g := curHart_setCur s g
  rw [released, hg] at ended
  rw [curHart, endedCur.trans releasedCur]
  exact ⟨_, _, ended⟩

end Sys2Proof.Laws

namespace Sys2Proof.Proofs

open Sys2Proof.Machine Sys2Proof.Safety Sys2Proof.Laws

/-- Settles O25: TRAP is a G-level fault, YIELD moves PC, and HALT leaves the hart as endedHart has it. -/
theorem trapYieldAndHalt : Obligations.TrapYieldAndHalt := by
  unfold Obligations.TrapYieldAndHalt
  refine ⟨⟨fun s c => ?_, fun s => ?_⟩, fun s => ?_⟩
  · obtain ⟨queue, qStopped, _⟩ := gFault_hart s 8 c.toNat 0
    exact ⟨_, rfl, takesTrap_gFault s 0 (by decide) c.isLt, queue, qStopped⟩
  · obtain ⟨only, regs, bytes, pc⟩ := jumpTo_curHart s ((curHart s).pc + 4)
    exact ⟨_, rfl, only, pc, regs, bytes⟩
  · intro h hc hq
    obtain ⟨parent, stalled, hart⟩ := halted_hart s (nextPc { curHart s with conv := none } 4)
    refine ⟨_, execHalt_empty hc hq, ?_⟩
    unfold KeepsRegs NextPc
    rw [hart]
    refine ⟨rfl, rfl, rfl, rfl, fun _ => rfl, rfl, rfl, fun hp => ?_, fun hp => ?_⟩
    · have own : (curHart s).parent.isSome = false := by rw [Option.isSome_eq_false_iff, Option.isNone_iff_eq_none]; exact hp
      exact ⟨if_neg (by rw [Bool.not_eq_true]; exact own), own⟩
    · have own : (curHart s).parent.isSome = true := Option.isSome_iff_ne_none.2 hp
      exact ⟨if_pos own, rfl, own⟩

end Sys2Proof.Proofs
end

section
/-! The return queue taken from (R204). -/

namespace Sys2Proof.Laws

open Sys2Proof.Machine Sys2Proof.Safety

/-- A register write and PC moved on, on top of a change of the hart that leaves registers and PC alone. -/
theorem retire_setCur_writes (s : State) {g : Hart} (d : Reg) (v : Word) (hr : g.sregs = (curHart s).sregs)
    (hp : g.pc = (curHart s).pc) :
    WritesReg s (retire (setCur s g) d v) d v ∧ NextPc s (retire (setCur s g) d v) 4 := by
  have regs (r : Reg) : rd g r = rd (curHart s) r := by unfold rd; rw [hr]
  refine ⟨fun r => ?_, ?_⟩
  · rw [retire_hart, curHart_setCur, rd_nextPc, rd_wr, regs]
  · rw [NextPc, retire_hart, curHart_setCur, nextPc_pc, wr_pc, hp]

/-- A word that waits has changed nothing but that its hart waits. -/
theorem waitsAt_waiting (s : State) : WaitsAt s (waiting s) := by
  have h : curHart (waiting s) = { curHart s with stalled := true } := curHart_setCur ..
  unfold WaitsAt KeepsRegs
  rw [h]
  exact ⟨rfl, rfl, fun _ => rfl⟩

theorem execRqpop_cons {s : State} {v : Word} {rest : List Word} (d : Reg) (h : (curHart s).rq = v :: rest) :
    execRqpop d s = .next (retire (setCur s { curHart s with rq := rest }) d v) := by
  simp only [execRqpop, h]

theorem execRqpop_nil {s : State} (d : Reg) (h : (curHart s).rq = []) :
    execRqpop d s = if owed (curHart s).queue = 0 then .next (illegalG s) else .next (waiting s) := by
  simp only [execRqpop, h]

end Sys2Proof.Laws

namespace Sys2Proof.Proofs

open Sys2Proof.Machine Sys2Proof.Safety Sys2Proof.Laws

/-- Settles O28: an entry is there, or one is owed, or none is; and HALT leaves the hart as endedHart has it, its return queue empty. -/
theorem returnQueuePop : Obligations.ReturnQueuePop := by
  unfold Obligations.ReturnQueuePop
  refine fun s d => ⟨fun v rest h => ?_, fun h howed => ?_, fun h hnone => ?_, fun hc hq => ?_⟩
  · obtain ⟨writes, pc⟩ := retire_setCur_writes s (g := { curHart s with rq := rest }) d v rfl rfl
    exact ⟨_, execRqpop_cons d h, pc, writes, retire_setCur ..⟩
  · exact ⟨_, (execRqpop_nil d h).trans (if_neg (Nat.ne_of_gt howed)), waitsAt_waiting s⟩
  · exact ⟨_, (execRqpop_nil d h).trans (if_pos hnone), takesTrap_illegalG s⟩
  · obtain ⟨parent, stalled, hart⟩ := halted_hart s (nextPc { curHart s with conv := none } 4)
    exact ⟨_, execHalt_empty hc hq, by rw [hart]; rfl⟩

end Sys2Proof.Proofs
end
